-- ==== Sys2Proof/Word.lean ====
section
/-! DEFINITION. The word types of PXCORE: bytes, 16-bit lanes, 32-bit words and 64-bit wide values
(`00_scope.md` R8, `10_state.md` R24). -/

namespace Sys2Proof

/-- One byte of memory. -/
abbrev Byte := BitVec 8

/-- A 16-bit lane of a wide value (R8). -/
abbrev LaneWord := BitVec 16

/-- A 32-bit word: a CSR, a command word, a packed pixel, a memory address. -/
abbrev Word := BitVec 32

/-- A wide value: four 16-bit lanes, lane 0 in the low bits (R8). -/
abbrev Wide := BitVec 64

end Sys2Proof
end

