-- ==== Sys2Proof/Config.lean ====
section
/-! DEFINITION. What an implementation of PXCORE fixes (the open parameters of `00_scope.md` R6) and the free
values of `93_implementation_defined.md`. Every constant the spec leaves open is `opaque`: nothing can be
proved about its value. The operations that depend on a parameter take it as an argument. -/

namespace Sys2Proof.Config

/-- `SAT_ZERO_HEADROOM` of R6 and R199. -/
inductive SatZeroHeadroom where
  /-- no scaling is applied when the headroom is zero: the source's reading -/
  | noScale
  /-- the general formula is applied, whose factor is then zero -/
  | zeroScale
  deriving DecidableEq, Repr, Inhabited

/-- The open parameters of `00_scope.md` R6. -/
structure Params where
  /-- `SLOT_ONCHIP_BYTES` is `4 * (slotWordsLessOne + 1)`: a positive multiple of 4 by its form. -/
  slotWordsLessOne : Nat
  /-- `SAT_ZERO_HEADROOM` -/
  satZeroHeadroom : SatZeroHeadroom
  /-- `CSR_BASE` is `4096 * csrPage`: 4 KiB aligned by its form. -/
  csrPage : Nat
  /-- `NUM_INSTANCES` is `otherInstances + 1`: at least 1 by its form. -/
  otherInstances : Nat
  deriving DecidableEq, Repr, Inhabited

/-- `SLOT_ONCHIP_BYTES` (R6): on-chip bytes of one scanline-cache slot. -/
def Params.slotOnchipBytes (p : Params) : Nat := 4 * (p.slotWordsLessOne + 1)

/-- `CSR_BASE` (R6, R24): the host address of the CSR window. -/
def Params.csrBase (p : Params) : Nat := 4096 * p.csrPage

/-- `NUM_INSTANCES` (R6, R306). -/
def Params.numInstances (p : Params) : Nat := p.otherInstances + 1

/-- The parameters of the machine at hand: open, so no proof sees their values (log entry 3). -/
opaque params : Params

/-- What a working register reads as while `STATUS.BUSY = 1` (R299): any value, a fresh one for each draw
(log entry 4). -/
opaque freeWord : Nat → Word

/-- Whether one memory write of a command that a reset abandons had been performed (R331): any value, a fresh
one for each draw and each position in the command's list of writes (log entry 5). -/
opaque freeBit : Nat → Nat → Bool

/-- What a column of an on-chip slot holds before a decode wrote it (R39, R247): any value. No rule reads it
(log entry 6). -/
opaque freeSlotPixel : Nat → Word

end Sys2Proof.Config
end

