-- ==== Sys2Proof/Syntax.lean ====
section
/-! DEFINITION. The commands of PXCORE as syntax: one constructor of `Instr` for every row of
`spec/opcode_table.json`, with the operand fields of `30_encoding.md` R93 to R105 as named values. -/

namespace Sys2Proof

/-- The lane registers W0..W7 (`10_state.md` R20, `30_encoding.md` R98). -/
inductive LReg where
  | w0 | w1 | w2 | w3 | w4 | w5 | w6 | w7
  deriving DecidableEq, Repr

/-- The register's number. -/
def LReg.toNat : LReg → Nat
  | .w0 => 0 | .w1 => 1 | .w2 => 2 | .w3 => 3 | .w4 => 4 | .w5 => 5 | .w6 => 6 | .w7 => 7

/-- A 32-bit half of a lane register: `lo` is bits 31:0, `hi` is bits 63:32 (R22, R99). -/
inductive WHalf where
  | lo | hi
  deriving DecidableEq, Repr

/-- Mask mode, the MMODE field (R102). -/
inductive MMode where
  | noMask | uniform | perComponent
  deriving DecidableEq, Repr

/-- Pixel formats, the SFMT, MFMT and DFMT fields (R103). -/
inductive Fmt where
  | argb32 | rgb565 | a8 | argb32Npr
  deriving DecidableEq, Repr

/-- Source sampling, the SAMPLE field (R104). -/
inductive Sampling where
  | identity | nearest | bilinear
  deriving DecidableEq, Repr

/-- Edge policy, the REPEAT bit (R104): `outside` is the policy the spec calls none. -/
inductive Edge where
  | outside | pad
  deriving DecidableEq, Repr

/-- The compositing operators, the OP field (R101). -/
inductive Op where
  | src | over | overReverse | srcIn | inReverse | out | outReverse
  | atop | atopReverse | xor | add | saturate
  deriving DecidableEq, Repr

/-- The operand fields of a COMPOSITE (format K, R95), without OP, which the constructor of `Instr` says. -/
structure KFields where
  mmode : MMode
  sfmt : Fmt
  mfmt : Fmt
  dfmt : Fmt
  sample : Sampling
  edge : Edge
  ssolid : Bool
  msolid : Bool
  deriving DecidableEq, Repr

/-- The commands (R91), one constructor per row of the opcode table. -/
inductive Instr where
  | nop
  | lmul (rd ra rb : LReg)
  | lmuladd (rd ra rb rc re : LReg)
  | ladds (rd ra rb : LReg)
  | lneg (rd ra : LReg)
  | lbca (rd ra : LReg)
  | lbcl (rd ra : LReg)
  | lswaprb (rd ra : LReg)
  | lunpk32 (rd ra : LReg) (half : WHalf)
  | lpack32 (rd ra : LReg)
  | lunpk565 (rd ra : LReg) (idx : Nat)
  | lpack565 (rd ra rb : LReg) (idx : Nat)
  | linterp (rd ra rb : LReg) (distx disty : Nat)
  | compositeSrc (k : KFields)
  | compositeOver (k : KFields)
  | compositeOverReverse (k : KFields)
  | compositeIn (k : KFields)
  | compositeInReverse (k : KFields)
  | compositeOut (k : KFields)
  | compositeOutReverse (k : KFields)
  | compositeAtop (k : KFields)
  | compositeAtopReverse (k : KFields)
  | compositeXor (k : KFields)
  | compositeAdd (k : KFields)
  | compositeSaturate (k : KFields)
  | fill (bpp : Nat)
  | blit (sbpp dbpp : Nat)
  deriving DecidableEq, Repr

end Sys2Proof
end

