-- ==== Sys2Proof/WellFormed.lean ====
section
/-! DEFINITION. Which terms of `Instr` are commands: each numeric operand fits its field (`30_encoding.md` R96,
R97, R99, R100). Registers, formats, modes and halves are names, so they always fit. -/

namespace Sys2Proof

/-- A lane index is 0..3, a weight is 0..255, a depth is a 6-bit number. -/
def Instr.wellFormed : Instr → Bool
  | .lunpk565 _ _ idx => decide (idx < 4)
  | .lpack565 _ _ _ idx => decide (idx < 4)
  | .linterp _ _ _ distx disty => decide (distx < 256) && decide (disty < 256)
  | .fill bpp => decide (bpp < 64)
  | .blit sbpp dbpp => decide (sbpp < 64) && decide (dbpp < 64)
  | .nop => true
  | .lmul _ _ _ => true
  | .lmuladd _ _ _ _ _ => true
  | .ladds _ _ _ => true
  | .lneg _ _ => true
  | .lbca _ _ => true
  | .lbcl _ _ => true
  | .lswaprb _ _ => true
  | .lunpk32 _ _ _ => true
  | .lpack32 _ _ => true
  | .compositeSrc _ => true
  | .compositeOver _ => true
  | .compositeOverReverse _ => true
  | .compositeIn _ => true
  | .compositeInReverse _ => true
  | .compositeOut _ => true
  | .compositeOutReverse _ => true
  | .compositeAtop _ => true
  | .compositeAtopReverse _ => true
  | .compositeXor _ => true
  | .compositeAdd _ => true
  | .compositeSaturate _ => true

end Sys2Proof
end

