-- ==== Sys2Proof/Decode.lean ====
section
/-! DEFINITION. The decoder of `30_encoding.md` R111 and, after it, the encoder of the same formats (R92 to R97).
A command is one 32-bit word (R90). A word that is no command is rejected by name; all those names are the one
error code ILLEGAL of R106. -/

namespace Sys2Proof

/-- Why a word is no command: the cases of R106. -/
inductive Illegal where
  /-- (a) the major opcode is reserved -/
  | reservedOpcode
  /-- (b) a bit that must be 0 is 1 -/
  | fixedBits
  /-- (c) a field holds a reserved value -/
  | reservedValue
  /-- fewer bytes than a command word has -/
  | shortWord
  deriving DecidableEq, Repr

/-- The field `w[hi:lo]` as a number (`00_scope.md` R7). -/
def field (w : Word) (hi lo : Nat) : Nat := w.toNat / 2 ^ lo % 2 ^ (hi - lo + 1)

/-- The lane register a 3-bit field names (R98). -/
def LReg.ofField : Nat → LReg
  | 0 => .w0 | 1 => .w1 | 2 => .w2 | 3 => .w3 | 4 => .w4 | 5 => .w5 | 6 => .w6 | _ => .w7

/-- The register field whose lowest bit is `lo`. -/
def regField (w : Word) (lo : Nat) : LReg := .ofField (field w (lo + 2) lo)

/-- MMODE (R102); 3 is reserved. -/
def MMode.ofField? : Nat → Option MMode
  | 0 => some .noMask | 1 => some .uniform | 2 => some .perComponent | _ => none

/-- A format field (R103); 4..7 are reserved. -/
def Fmt.ofField? : Nat → Option Fmt
  | 0 => some .argb32 | 1 => some .rgb565 | 2 => some .a8 | 3 => some .argb32Npr | _ => none

/-- SAMPLE (R104); 3 is reserved. -/
def Sampling.ofField? : Nat → Option Sampling
  | 0 => some .identity | 1 => some .nearest | 2 => some .bilinear | _ => none

/-- REPEAT (R104). -/
def Edge.ofField : Nat → Edge
  | 0 => .outside | _ => .pad

/-- OP (R101); 12..15 are reserved. -/
def Op.ofField? : Nat → Option Op
  | 0 => some .src | 1 => some .over | 2 => some .overReverse | 3 => some .srcIn | 4 => some .inReverse
  | 5 => some .out | 6 => some .outReverse | 7 => some .atop | 8 => some .atopReverse | 9 => some .xor
  | 10 => some .add | 11 => some .saturate | _ => none

/-- The COMPOSITE command of an operator. -/
def Instr.composite (k : KFields) : Op → Instr
  | .src => .compositeSrc k | .over => .compositeOver k | .overReverse => .compositeOverReverse k
  | .srcIn => .compositeIn k | .inReverse => .compositeInReverse k | .out => .compositeOut k
  | .outReverse => .compositeOutReverse k | .atop => .compositeAtop k | .atopReverse => .compositeAtopReverse k
  | .xor => .compositeXor k | .add => .compositeAdd k | .saturate => .compositeSaturate k

/-- Accept `i` when the field `w[hi:lo]`, which must be 0, is 0 (R106(b), R107). -/
def mustBeZero (w : Word) (hi lo : Nat) (r : Except Illegal Instr) : Except Illegal Instr :=
  if field w hi lo = 0 then r else .error .fixedBits

/-- Format K (R95), its reserved values refused (R106(c)) even where another field makes them irrelevant. -/
def decodeComposite (w : Word) : Except Illegal Instr :=
  match Op.ofField? (field w 25 22), MMode.ofField? (field w 21 20), Fmt.ofField? (field w 19 17),
      Fmt.ofField? (field w 16 14), Fmt.ofField? (field w 13 11), Sampling.ofField? (field w 10 9) with
  | some op, some mmode, some sfmt, some mfmt, some dfmt, some sample =>
    .ok (.composite
      { mmode, sfmt, mfmt, dfmt, sample, edge := .ofField (field w 8 8),
        ssolid := field w 7 7 == 1, msolid := field w 6 6 == 1 } op)
  | _, _, _, _, _, _ => .error .reservedValue

/-- IDX of LUNPK32 (R99): 2 and 3 are reserved. -/
def decodeLunpk32 (w : Word) : Except Illegal Instr :=
  match field w 10 9 with
  | 0 => .ok (.lunpk32 (regField w 23) (regField w 20) .lo)
  | 1 => .ok (.lunpk32 (regField w 23) (regField w 20) .hi)
  | _ => .error .reservedValue

/-- The decoder (R111): the major opcode selects the format (R91), then the fixed bits, then the reserved
values. -/
def decodeWord (w : Word) : Except Illegal Instr :=
  match field w 31 26 with
  | 0x00 => mustBeZero w 25 0 (.ok .nop)
  | 0x01 => mustBeZero w 16 0 (.ok (.lmul (regField w 23) (regField w 20) (regField w 17)))
  | 0x02 => mustBeZero w 10 0
      (.ok (.lmuladd (regField w 23) (regField w 20) (regField w 17) (regField w 14) (regField w 11)))
  | 0x03 => mustBeZero w 16 0 (.ok (.ladds (regField w 23) (regField w 20) (regField w 17)))
  | 0x04 => mustBeZero w 19 0 (.ok (.lneg (regField w 23) (regField w 20)))
  | 0x05 => mustBeZero w 19 0 (.ok (.lbca (regField w 23) (regField w 20)))
  | 0x06 => mustBeZero w 19 0 (.ok (.lbcl (regField w 23) (regField w 20)))
  | 0x07 => mustBeZero w 19 0 (.ok (.lswaprb (regField w 23) (regField w 20)))
  | 0x08 => mustBeZero w 19 11 (mustBeZero w 8 0 (decodeLunpk32 w))
  | 0x09 => mustBeZero w 19 0 (.ok (.lpack32 (regField w 23) (regField w 20)))
  | 0x0A => mustBeZero w 19 11 (mustBeZero w 8 0
      (.ok (.lunpk565 (regField w 23) (regField w 20) (field w 10 9))))
  | 0x0B => mustBeZero w 16 11 (mustBeZero w 8 0
      (.ok (.lpack565 (regField w 23) (regField w 20) (regField w 17) (field w 10 9))))
  | 0x0C => mustBeZero w 0 0
      (.ok (.linterp (regField w 23) (regField w 20) (regField w 17) (field w 16 9) (field w 8 1)))
  | 0x20 => mustBeZero w 5 0 (decodeComposite w)
  | 0x21 => mustBeZero w 19 0 (.ok (.fill (field w 25 20)))
  | 0x22 => mustBeZero w 13 0 (.ok (.blit (field w 25 20) (field w 19 14)))
  | _ => .error .reservedOpcode

/-- The word of four bytes, least significant first (R24, R61). -/
def wordOfBytes (b0 b1 b2 b3 : Byte) : Word := b3 ++ b2 ++ b1 ++ b0

/-- The bytes of a word, least significant first. -/
def bytesOfWord (w : Word) : List Byte :=
  [w.extractLsb' 0 8, w.extractLsb' 8 8, w.extractLsb' 16 8, w.extractLsb' 24 8]

/-- The decoder on bytes, with the bytes after the command word. -/
def decodeBytes : List Byte → Except Illegal (Instr × List Byte)
  | b0 :: b1 :: b2 :: b3 :: rest =>
    match decodeWord (wordOfBytes b0 b1 b2 b3) with
    | .ok i => .ok (i, rest)
    | .error e => .error e
  | _ => .error .shortWord

/-- What the decoder reads from a table row's bits: the one 32-bit word whose bits from `nbits` on are 0. -/
def decodeTableWord (nbits w : Nat) : Option Instr :=
  match decodeBytes (bytesOfWord (BitVec.ofNat 32 (w % 2 ^ nbits))) with
  | .ok (i, _) => some i
  | .error _ => none

/-! The encoder. -/

/-- MMODE's code (R102). -/
def MMode.code : MMode → Nat
  | .noMask => 0 | .uniform => 1 | .perComponent => 2

/-- A format's code (R103). -/
def Fmt.code : Fmt → Nat
  | .argb32 => 0 | .rgb565 => 1 | .a8 => 2 | .argb32Npr => 3

/-- SAMPLE's code (R104). -/
def Sampling.code : Sampling → Nat
  | .identity => 0 | .nearest => 1 | .bilinear => 2

/-- REPEAT's code (R104). -/
def Edge.code : Edge → Nat
  | .outside => 0 | .pad => 1

/-- IDX of LUNPK32 (R99). -/
def WHalf.code : WHalf → Nat
  | .lo => 0 | .hi => 1

/-- OP's code (R101), also the operator's bit number in KEN_U and KEN_CA (`10_state.md` R29, R30). -/
def Op.code : Op → Nat
  | .src => 0 | .over => 1 | .overReverse => 2 | .srcIn => 3 | .inReverse => 4 | .out => 5
  | .outReverse => 6 | .atop => 7 | .atopReverse => 8 | .xor => 9 | .add => 10 | .saturate => 11

/-- Format L (R93). -/
def encodeL (opc rd ra rb rc re idx : Nat) : Nat :=
  opc * 2 ^ 26 + rd * 2 ^ 23 + ra * 2 ^ 20 + rb * 2 ^ 17 + rc * 2 ^ 14 + re * 2 ^ 11 + idx * 2 ^ 9

/-- Format K (R95). -/
def encodeK (op : Op) (k : KFields) : Nat :=
  0x20 * 2 ^ 26 + op.code * 2 ^ 22 + k.mmode.code * 2 ^ 20 + k.sfmt.code * 2 ^ 17 + k.mfmt.code * 2 ^ 14
    + k.dfmt.code * 2 ^ 11 + k.sample.code * 2 ^ 9 + k.edge.code * 2 ^ 8 + k.ssolid.toNat * 2 ^ 7
    + k.msolid.toNat * 2 ^ 6

/-- The word of an instruction as a number. -/
def encodeNat : Instr → Nat
  | .nop => 0
  | .lmul rd ra rb => encodeL 0x01 rd.toNat ra.toNat rb.toNat 0 0 0
  | .lmuladd rd ra rb rc re => encodeL 0x02 rd.toNat ra.toNat rb.toNat rc.toNat re.toNat 0
  | .ladds rd ra rb => encodeL 0x03 rd.toNat ra.toNat rb.toNat 0 0 0
  | .lneg rd ra => encodeL 0x04 rd.toNat ra.toNat 0 0 0 0
  | .lbca rd ra => encodeL 0x05 rd.toNat ra.toNat 0 0 0 0
  | .lbcl rd ra => encodeL 0x06 rd.toNat ra.toNat 0 0 0 0
  | .lswaprb rd ra => encodeL 0x07 rd.toNat ra.toNat 0 0 0 0
  | .lunpk32 rd ra half => encodeL 0x08 rd.toNat ra.toNat 0 0 0 half.code
  | .lpack32 rd ra => encodeL 0x09 rd.toNat ra.toNat 0 0 0 0
  | .lunpk565 rd ra idx => encodeL 0x0A rd.toNat ra.toNat 0 0 0 idx
  | .lpack565 rd ra rb idx => encodeL 0x0B rd.toNat ra.toNat rb.toNat 0 0 idx
  | .linterp rd ra rb distx disty =>
    0x0C * 2 ^ 26 + rd.toNat * 2 ^ 23 + ra.toNat * 2 ^ 20 + rb.toNat * 2 ^ 17 + distx * 2 ^ 9 + disty * 2
  | .compositeSrc k => encodeK .src k
  | .compositeOver k => encodeK .over k
  | .compositeOverReverse k => encodeK .overReverse k
  | .compositeIn k => encodeK .srcIn k
  | .compositeInReverse k => encodeK .inReverse k
  | .compositeOut k => encodeK .out k
  | .compositeOutReverse k => encodeK .outReverse k
  | .compositeAtop k => encodeK .atop k
  | .compositeAtopReverse k => encodeK .atopReverse k
  | .compositeXor k => encodeK .xor k
  | .compositeAdd k => encodeK .add k
  | .compositeSaturate k => encodeK .saturate k
  | .fill bpp => 0x21 * 2 ^ 26 + bpp * 2 ^ 20
  | .blit sbpp dbpp => 0x22 * 2 ^ 26 + sbpp * 2 ^ 20 + dbpp * 2 ^ 14

/-- The command word of an instruction. -/
def encode (i : Instr) : Word := BitVec.ofNat 32 (encodeNat i)

end Sys2Proof
end

