-- ==== Sys2Proof/Machine/State.lean ====
section
/-! DEFINITION. The state of one PXCORE block, its memory, and what the world outside it does, as plain data
(`10_state.md`, `70_reset_and_hazards.md` R330), with the reasons a step can stop. -/

namespace Sys2Proof.Machine

/-- Memory (`20_memory.md` R60): address and byte pairs, addresses strictly rising, no byte equal to what an
unlisted address reads as. `Memory.wf` of `Machine/Ops.lean` is that form. -/
abbrev Memory := List Host.Cell

/-- A lane register (R20) with the written marks of its two halves (R22). -/
structure LaneReg where
  value : Wide
  loWritten : Bool
  hiWritten : Bool
  deriving DecidableEq, Repr

/-- The lane register file W0..W7 (R20). -/
structure LaneFile where
  w0 : LaneReg
  w1 : LaneReg
  w2 : LaneReg
  w3 : LaneReg
  w4 : LaneReg
  w5 : LaneReg
  w6 : LaneReg
  w7 : LaneReg
  deriving DecidableEq, Repr

/-- The error codes of `60_exceptions.md` R291. -/
inductive ErrCode where
  | noError | illegal | notCfg | unsupported | precond | align | bounds | noMem | laneRange
  deriving DecidableEq, Repr

/-- STATUS (R27). -/
structure Status where
  busy : Bool
  done : Bool
  fail : Bool
  ovr : Bool
  err : ErrCode
  deriving DecidableEq, Repr

/-- CTRL (R26). -/
structure Ctrl where
  cfgLock : Bool
  irqEn : Bool
  deriving DecidableEq, Repr

/-- A buffer descriptor set (R31). -/
structure BufDesc where
  base : Word
  stride : Word
  width : BitVec 16
  height : BitVec 16
  x : BitVec 16
  y : BitVec 16
  deriving DecidableEq, Repr

/-- The transform registers T_A..T_F (R34). -/
structure Transform where
  a : Word
  b : Word
  c : Word
  d : Word
  e : Word
  f : Word
  deriving DecidableEq, Repr

/-- The configuration registers, which commands only read (R299): KEN_U and KEN_CA (R29, R30), the three
descriptor sets (R31), RECT_W and RECT_H (R32), the constants (R33), the transform (R34), the scratch
region (R35). -/
structure Conf where
  kenU : BitVec 12
  kenCa : BitVec 12
  dst : BufDesc
  src : BufDesc
  msk : BufDesc
  rectW : BitVec 16
  rectH : BitVec 16
  solidSrc : Word
  solidMsk : Word
  fillValue : Word
  xform : Transform
  scrBase : Word
  scrLen : Word
  deriving DecidableEq, Repr

/-- A scanline-cache slot (R39). `data` is the decoded row when it is held on chip; `[]` is a row no decode
has written, or one held in external scratch. -/
structure Slot where
  valid : Bool
  lock : Bool
  tag : BitVec 16
  data : List Word
  deriving DecidableEq, Repr

/-- The scanline cache (R39) with its counters CACHE_DECODES and CACHE_HITS (R36). -/
structure Cache where
  decodes : Word
  hits : Word
  slot0 : Slot
  slot1 : Slot
  deriving DecidableEq, Repr

/-- A run of `size` bytes from `addr` on, addresses modulo 2^32 (`20_memory.md` R62, R63). -/
structure Access where
  addr : Word
  size : Nat
  deriving DecidableEq, Repr

/-- What an address that is not ordinary memory is (R65, R76). -/
inductive RegionKind where
  /-- memory with side effects -/
  | device
  /-- an access is not answered normally -/
  | unanswered
  deriving DecidableEq, Repr

/-- A part of the platform's address space that is not ordinary memory. -/
structure Region where
  span : Access
  kind : RegionKind
  deriving DecidableEq, Repr

/-- A command's read set and write set (`20_memory.md` R68), and whether they alias in a way R69 or `44_fill_blit.md`
R273 forbids. -/
structure Footprint where
  reads : List Access
  writes : List Access
  aliased : Bool
  deriving DecidableEq, Repr

/-- A command that another PXCORE instance runs (`60_exceptions.md` R306): which instance, and the command's sets. -/
structure PeerRun where
  peer : Nat
  sets : Footprint
  deriving DecidableEq, Repr

/-- What the outside world does to the block: the host's CSR and memory accesses (`30_encoding.md` R109), another
PXCORE instance's start of a command, its memory accesses and the command's end (R306), and reset (R330). A `csr`
access is given by its offset in the window of R24, a `bus` access by its host address, which may lie in the window at
CSR_BASE or not; sizes are in bytes. -/
inductive HostAction where
  | csrWrite (offset : BitVec 12) (size : Nat) (value : Word)
  | csrRead (offset : BitVec 12) (size : Nat)
  | busWrite (hostAddr : Nat) (size : Nat) (value : Word)
  | busRead (hostAddr : Nat) (size : Nat)
  | memWrite (addr : Word) (size : Nat) (value : Word)
  | memRead (addr : Word) (size : Nat)
  | peerStart (peer : Nat) (sets : Footprint)
  | peerEnd (peer : Nat)
  | peerWrite (peer : Nat) (addr : Word) (size : Nat) (value : Word)
  | peerRead (peer : Nat) (addr : Word) (size : Nat)
  | reset
  deriving DecidableEq, Repr

/-- Who moves next: the outside world, or the block (which ends the command it runs, or is idle). -/
inductive Turn where
  | host (action : HostAction)
  | block
  deriving DecidableEq, Repr

/-- The whole state. `regs` to `mem` are the spec's; `platform`, `peers`, `inputs`, `hostData` and `draws` are the
model's own: which addresses are not ordinary memory, the commands the other instances run, the turns to come, the
value the last host read returned, and how many free values have been drawn. -/
structure State where
  regs : LaneFile
  ctrl : Ctrl
  status : Status
  cmd : Word
  conf : Conf
  cache : Cache
  mem : Memory
  platform : List Region
  peers : List PeerRun
  inputs : List Turn
  hostData : Word
  draws : Nat
  deriving DecidableEq, Repr

/-- The contract faults of `60_exceptions.md` R300: uses the spec forbids and the block does not detect. Each is
the spec's own faulted outcome. Safe: the model stops where the hardware goes on in an unspecified state. -/
inductive Fault where
  /-- UNWRITTEN_W: raised by a lane instruction or a host read that reads a lane register half never written
  since reset (R22, R38). Safe. -/
  | unwrittenW
  /-- CSR_ACCESS: raised by a host access to the CSR window that is not an aligned 32-bit one (R24). Safe. -/
  | csrAccess
  /-- DEVICE_MEMORY: raised by COMPOSITE, FILL and BLIT, this block's or another instance's, when their read or write
  set has a byte of memory with side effects (R65). Safe. -/
  | deviceMemory
  /-- ALIAS: raised by COMPOSITE and BLIT on overlapping buffers (R69, R273), and where the command of one instance is
  started, or accesses memory, over the sets of a command that another one runs (R306). Safe. -/
  | aliasing
  /-- HOST_RACE: raised by a host memory access to a byte of the read or write set of a command that this block or
  another instance runs (R72). Safe. -/
  | hostRace
  /-- BUS_ERROR: raised by COMPOSITE, FILL and BLIT, this block's or another instance's, when an access of theirs is
  not answered normally (R76). Safe. -/
  | busError
  deriving DecidableEq, Repr

/-- Why a step has no meaning. -/
inductive Refusal where
  /-- raised by `exec` alone, for an instruction without a meaning yet; no instruction is left so. Safe. -/
  | notModelled (mnemonic : String)
  /-- raised by a memory access of the host (not of a block) to an address the platform does not back with ordinary
  memory: what a device does there is the platform's (R305). Safe. -/
  | platformAccess
  deriving DecidableEq, Repr

/-- A lane register after reset: its value is unspecified and both marks are clear (R22, R330). The value 0 is a
DESIGN CHOICE (log entry 1) that no rule can observe, since a read of an unmarked half is a fault. -/
def LaneReg.reset : LaneReg := { value := 0, loWritten := false, hiWritten := false }

/-- A buffer descriptor set after reset (R31). -/
def BufDesc.reset : BufDesc := { base := 0, stride := 0, width := 0, height := 0, x := 0, y := 0 }

/-- A cache slot after reset (R39): valid, lock and tag 0, the data unspecified, so absent. -/
def Slot.reset : Slot := { valid := false, lock := false, tag := 0, data := [] }

/-- The configuration registers after reset (R29 to R35, R330). -/
def Conf.reset : Conf :=
  { kenU := 0, kenCa := 0, dst := .reset, src := .reset, msk := .reset, rectW := 0, rectH := 0,
    solidSrc := 0, solidMsk := 0, fillValue := 0, xform := { a := 0, b := 0, c := 0, d := 0, e := 0, f := 0 },
    scrBase := 0, scrLen := 0 }

/-- The block right after reset (R330). Memory lists nothing, no address is special, no other instance runs a command,
no turn is waiting: the model's own fields and memory's first contents are log entries 2, 7, 8, 9 and 17. -/
def State.reset : State :=
  { regs := { w0 := .reset, w1 := .reset, w2 := .reset, w3 := .reset, w4 := .reset, w5 := .reset, w6 := .reset,
              w7 := .reset }
    ctrl := { cfgLock := false, irqEn := false }
    status := { busy := false, done := false, fail := false, ovr := false, err := .noError }
    cmd := 0
    conf := .reset
    cache := { decodes := 0, hits := 0, slot0 := .reset, slot1 := .reset }
    mem := []
    platform := []
    peers := []
    inputs := []
    hostData := 0
    draws := 0 }

end Sys2Proof.Machine
end

