-- ==== Sys2Proof/Machine/Ops.lean ====
section
/-! DEFINITION. The named operations over memory, lane registers and the command lifecycle: byte memory
(`20_memory.md` R60 to R62), the lane register file (`10_state.md` R20 to R22), and how a command is accepted,
ends and fails (`60_exceptions.md` R290, R296), which on this block is all there is of taking an exception. -/

namespace Sys2Proof.Machine

/-! Memory. -/

/-- What an address that memory does not list reads as. The spec gives RAM no contents after power-on; 0 is a
DESIGN CHOICE (log entry 2). -/
def Memory.unlisted : Byte := 0

/-- One byte of memory. -/
def Memory.readByte : Memory → Nat → Byte
  | [], _ => Memory.unlisted
  | (b, x) :: rest, a => if a = b then x else Memory.readByte rest a

/-- Memory with one byte stored, in canonical form. -/
def Memory.writeByte : Memory → Nat → Byte → Memory
  | [], a, v => if v = Memory.unlisted then [] else [(a, v)]
  | (b, x) :: rest, a, v =>
    if a < b then
      if v = Memory.unlisted then (b, x) :: rest else (a, v) :: (b, x) :: rest
    else if a = b then
      if v = Memory.unlisted then rest else (a, v) :: rest
    else (b, x) :: Memory.writeByte rest a v

/-- The canonical form: addresses strictly rising, inside the 2^32-byte space, and no listed byte equal to what
an unlisted address reads as. -/
abbrev Memory.wf (m : Memory) : Prop :=
  (m.map Prod.fst).Pairwise (· < ·) ∧ ∀ c ∈ m, c.1 < 2 ^ 32 ∧ c.2 ≠ Memory.unlisted

/-- `MemRead(addr, n)` (R10, R61): the `n`-byte little-endian value at `a`, each address modulo 2^32. -/
def Memory.read (m : Memory) (a : Word) : Nat → Nat
  | 0 => 0
  | n + 1 => (Memory.readByte m a.toNat).toNat + 256 * Memory.read m (a + 1) n

/-- `MemWrite(addr, n, v)` (R10, R61): the low `n` bytes of `v`, least significant first. -/
def Memory.write (m : Memory) (a : Word) : Nat → Nat → Memory
  | 0, _ => m
  | n + 1, v => Memory.write (Memory.writeByte m a.toNat (BitVec.ofNat 8 v)) (a + 1) n (v / 256)

/-- One memory write of a command: `size` bytes of `value` at `addr`. -/
structure StoreOp where
  addr : Word
  size : Nat
  value : Nat
  deriving DecidableEq, Repr

/-- Memory after one write. -/
def Memory.apply (m : Memory) (st : StoreOp) : Memory := m.write st.addr st.size st.value

/-- Memory as a command sees it while it runs, with the writes it has made, newest first. -/
structure Bus where
  mem : Memory
  log : List StoreOp
  deriving DecidableEq, Repr

/-- The bus of a command that has made no access yet. -/
def Bus.start (m : Memory) : Bus := { mem := m, log := [] }

/-- One memory write of a running command. -/
def Bus.store (b : Bus) (addr : Word) (size value : Nat) : Bus :=
  { mem := b.mem.apply { addr, size, value }, log := { addr, size, value } :: b.log }

/-! Sets of bytes (R68, R69). -/

/-- The address is one of the access's bytes. -/
def Access.covers (x : Access) (a : Word) : Bool := decide ((a - x.addr).toNat < x.size)

/-- The two accesses share a byte. -/
def Access.meets (x y : Access) : Bool :=
  (decide (0 < y.size) && x.covers y.addr) || (decide (0 < x.size) && y.covers x.addr)

/-- Some access of one list shares a byte with some access of the other. -/
def anyMeet (xs ys : List Access) : Bool := xs.any fun x => ys.any x.meets

/-- Every byte of the access is a byte of the list's. -/
def coveredBy (l : List Access) (x : Access) : Bool :=
  (List.range x.size).all fun d => l.any fun y => y.covers (x.addr + BitVec.ofNat 32 d)

/-- The parts of the platform of one kind. -/
def spansOf (platform : List Region) (kind : RegionKind) : List Access :=
  (platform.filter fun r => r.kind == kind).map Region.span

/-! Lane registers. -/

/-- The register's slot in the file. -/
def LaneFile.get (f : LaneFile) : LReg → LaneReg
  | .w0 => f.w0 | .w1 => f.w1 | .w2 => f.w2 | .w3 => f.w3
  | .w4 => f.w4 | .w5 => f.w5 | .w6 => f.w6 | .w7 => f.w7

/-- The file with one register replaced. -/
def LaneFile.set (f : LaneFile) (r : LReg) (v : LaneReg) : LaneFile :=
  match r with
  | .w0 => { f with w0 := v } | .w1 => { f with w1 := v } | .w2 => { f with w2 := v }
  | .w3 => { f with w3 := v } | .w4 => { f with w4 := v } | .w5 => { f with w5 := v }
  | .w6 => { f with w6 := v } | .w7 => { f with w7 := v }

/-- A half of a register's value. -/
def LaneReg.half (r : LaneReg) : WHalf → Word
  | .lo => r.value.extractLsb' 0 32
  | .hi => r.value.extractLsb' 32 32

/-- The written mark of a half (R22). -/
def LaneReg.written (r : LaneReg) : WHalf → Bool
  | .lo => r.loWritten
  | .hi => r.hiWritten

/-- A host write of one half (R22, R38): that half and its mark. -/
def LaneReg.setHalf (r : LaneReg) (h : WHalf) (v : Word) : LaneReg :=
  match h with
  | .lo => { r with value := r.half .hi ++ v, loWritten := true }
  | .hi => { r with value := v ++ r.half .lo, hiWritten := true }

/-- A lane instruction's read of a whole register: none when a half is unwritten (R22). -/
def LaneReg.read? (r : LaneReg) : Option Wide :=
  if r.loWritten && r.hiWritten then some r.value else none

/-- A read of one half: none when it is unwritten (R22). -/
def LaneReg.readHalf? (r : LaneReg) (h : WHalf) : Option Word :=
  if r.written h then some (r.half h) else none

/-- `W[i] <- v`: all 64 bits, both marks set (R22, R120). -/
def State.writeLane (s : State) (rd : LReg) (v : Wide) : State :=
  { s with regs := s.regs.set rd { value := v, loWritten := true, hiWritten := true } }

/-! Updates of single parts of the state. -/

/-- The state with STATUS replaced. -/
def State.withStatus (s : State) (st : Status) : State := { s with status := st }

/-- The state with memory replaced. -/
def State.withMem (s : State) (m : Memory) : State := { s with mem := m }

/-- The state with the cache and its counters replaced. -/
def State.withCache (s : State) (c : Cache) : State := { s with cache := c }

/-- The state with the other instances' running commands replaced. -/
def State.withPeers (s : State) (l : List PeerRun) : State := { s with peers := l }

/-- The state with the turns to come replaced. -/
def State.withInputs (s : State) (l : List Turn) : State := { s with inputs := l }

/-- The state with the configuration registers replaced. -/
def State.withConf (s : State) (c : Conf) : State := { s with conf := c }

/-- The state with CTRL replaced. -/
def State.withCtrl (s : State) (c : Ctrl) : State := { s with ctrl := c }

/-- The state with the lane registers replaced. -/
def State.withRegs (s : State) (f : LaneFile) : State := { s with regs := f }

/-- The state after a host read returned `v`. -/
def State.withHostData (s : State) (v : Word) : State := { s with hostData := v }

/-- The state after a free value was drawn. -/
def State.drawn (s : State) : State := { s with draws := s.draws + 1 }

/-! The command lifecycle (R296). -/

/-- Accept: the word becomes CMD, DONE, FAIL and ERR are cleared, BUSY is set, OVR is kept (R296(1)). -/
def State.accept (s : State) (c : Word) : State :=
  { s with cmd := c
           status := { busy := true, done := false, fail := false, ovr := s.status.ovr, err := .noError } }

/-- End with success (R296(3)): BUSY is cleared and DONE set; FAIL and ERR are 0 (R27, R291). -/
def State.endSuccess (s : State) : State :=
  s.withStatus { busy := false, done := true, fail := false, ovr := s.status.ovr, err := .noError }

/-- `raise Fail(code)` (R290): BUSY is cleared, FAIL set, ERR the code, DONE 0, and nothing else changes. This is
the block's one way of taking an exception: there is no handler, no vector and no saved program counter. -/
def State.raiseFail (s : State) (c : ErrCode) : State :=
  s.withStatus { busy := false, done := false, fail := true, ovr := s.status.ovr, err := c }

/-- Acknowledging a failure (R301, R27): the host writes 1 to FAIL, which clears FAIL and ERR. This is what the
block has for a return from an exception. -/
def State.acknowledgeFail (s : State) : State :=
  s.withStatus { s.status with fail := false, err := .noError }

/-- A command's outcome: it ends with success in the new state, or fails and changes nothing but STATUS. -/
def State.conclude (s : State) : Except ErrCode State → Host.Outcome State Fault Refusal
  | .ok t => .next t.endSuccess
  | .error c => .next (s.raiseFail c)

end Sys2Proof.Machine
end

