-- ==== Sys2Proof/Machine/Operands.lean ====
section
/-! DEFINITION. Operand forms: the lanes of a wide value and the helper functions of `00_scope.md` R8 and R9, how a
lane instruction reads its source registers (`40_lane_arith.md` R120), a pixel's address and size (`20_memory.md`
R62, `41_format_codec.md` R163), and the rectangle in its row-major order (`42_compositing.md` R185). -/

namespace Sys2Proof.Machine

/-! Wide values. -/

/-- `lane(v, k)` (R8). -/
def lane (v : Wide) (k : Nat) : LaneWord := v.extractLsb' (16 * k) 16

/-- `wide(l0, l1, l2, l3)` (R8). -/
def wide (l0 l1 l2 l3 : LaneWord) : Wide := l3 ++ l2 ++ l1 ++ l0

/-- `bcast(x)` (R9). -/
def bcast (x : LaneWord) : Wide := wide x x x x

/-- A wide value given lane by lane, as numbers. -/
def wideOf (f : Nat → Nat) : Wide :=
  wide (BitVec.ofNat 16 (f 0)) (BitVec.ofNat 16 (f 1)) (BitVec.ofNat 16 (f 2)) (BitVec.ofNat 16 (f 3))

/-- A lane as a number. -/
def laneNat (v : Wide) (k : Nat) : Nat := (lane v k).toNat

/-- `f_v(a, b)` (R9): the lane function on each of the four lane pairs. -/
def map2 (f : Nat → Nat → Nat) (a b : Wide) : Wide := wideOf fun k => f (laneNat a k) (laneNat b k)

/-- The wide value with lane `k` replaced. -/
def setLane (v : Wide) (k : Nat) (x : LaneWord) : Wide :=
  match k with
  | 0 => wide x (lane v 1) (lane v 2) (lane v 3)
  | 1 => wide (lane v 0) x (lane v 2) (lane v 3)
  | 2 => wide (lane v 0) (lane v 1) x (lane v 3)
  | 3 => wide (lane v 0) (lane v 1) (lane v 2) x
  | _ => v

/-- `sat16(x)` (R9). -/
def sat16 (x : Nat) : Nat := min x 0xFFFF

/-- `clamp8(x)` (R9). -/
def clamp8 (x : Nat) : Nat := min x 0xFF

/-- `clampi(x, lo, hi)` (R9). -/
def clampi (x lo hi : Int) : Int := min (max x lo) hi

/-! Source registers of a lane instruction (R120 step 2). -/

/-- Read a whole source register and go on with its value; an unwritten half is `fault Contract(UNWRITTEN_W)`. -/
def State.withLane (s : State) (r : LReg) (k : Wide → Host.Outcome State Fault Refusal) :
    Host.Outcome State Fault Refusal :=
  match (s.regs.get r).read? with
  | some v => k v
  | none => .fault .unwrittenW

/-- Read one half of a source register and go on with its value (R151). -/
def State.withHalf (s : State) (r : LReg) (h : WHalf) (k : Word → Host.Outcome State Fault Refusal) :
    Host.Outcome State Fault Refusal :=
  match (s.regs.get r).readHalf? h with
  | some v => k v
  | none => .fault .unwrittenW

/-- Steps 3 to 6 of R120: the result goes to `W[RD]` and the command ends with success, or the range condition
failed and the command ends with LANE_RANGE, `W[RD]` not written. -/
def State.finishLane (s : State) (rd : LReg) (r : Except ErrCode Wide) : Host.Outcome State Fault Refusal :=
  s.conclude (r.map fun v => s.writeLane rd v)

/-! Pixels in memory. -/

/-- `bpb(fmt)`, bytes per pixel (R163). -/
def bpb : Fmt → Nat
  | .argb32 => 4 | .rgb565 => 2 | .a8 => 1 | .argb32Npr => 4

/-- `PixAddr(P, x, y, n)` (R62): STRIDE is signed, the sum wraps modulo 2^32. -/
def BufDesc.pixAddr (p : BufDesc) (x y n : Nat) : Word :=
  BitVec.ofInt 32 ((p.base.toNat : Int) + (y : Int) * p.stride.toInt + (x : Int) * (n : Int))

/-- BASE and STRIDE are multiples of the pixel size (R64, R293 step 5). -/
def BufDesc.aligned (p : BufDesc) (n : Nat) : Bool :=
  decide (p.base.toNat % n = 0) && decide (p.stride.toInt % (n : Int) = 0)

/-- The rectangle at (X, Y) lies inside the image (R293 step 6). -/
def BufDesc.holdsRect (p : BufDesc) (w h : BitVec 16) : Bool :=
  decide (p.x.toNat + w.toNat ≤ p.width.toNat) && decide (p.y.toNat + h.toNat ≤ p.height.toNat)

/-- The address of rectangle pixel (i, j) in a buffer whose rectangle starts at (X, Y). -/
def BufDesc.rectAddr (p : BufDesc) (n i j : Nat) : Word := p.pixAddr (p.x.toNat + i) (p.y.toNat + j) n

/-- The rectangle's pixels (i, j), row-major: rows top to bottom, pixels left to right (R185). -/
def rowMajor (w h : Nat) : List (Nat × Nat) :=
  (List.range h).flatMap fun j => (List.range w).map fun i => (i, j)

/-- The rectangle is empty (R293 step 4, R294 step 4). -/
def Conf.emptyRect (c : Conf) : Bool := c.rectW == 0 || c.rectH == 0

/-- The rectangle's pixels. -/
def Conf.pixels (c : Conf) : List (Nat × Nat) := rowMajor c.rectW.toNat c.rectH.toNat

/-- The accesses to a buffer's rectangle (R68). -/
def Conf.rectAccesses (c : Conf) (p : BufDesc) (n : Nat) : List Access :=
  c.pixels.map fun (i, j) => { addr := p.rectAddr n i j, size := n }

/-! What a memory command is going to do (R68, R293, R294). -/

/-- The sets of a command that makes no memory access. -/
def Footprint.empty : Footprint := { reads := [], writes := [], aliased := false }

/-- What the checks of R293 and R294 decide before the first access: the command fails, it succeeds with no access
(an empty rectangle), or it runs over its sets. -/
inductive Plan where
  | fail (c : ErrCode)
  | noAccess
  | run (fp : Footprint)
  deriving DecidableEq, Repr

/-- The read and write sets of a plan: a failed command has empty ones (R68). -/
def Plan.footprint : Plan → Footprint
  | .fail _ => .empty
  | .noAccess => .empty
  | .run fp => fp

/-- The contract fault of a command that runs over these sets, if any (R65, R69, R76). Where several conditions
hold, which reason is named is a DESIGN CHOICE (log entry 12). -/
def Footprint.contractFault (fp : Footprint) (platform : List Region) : Option Fault :=
  if anyMeet (fp.reads ++ fp.writes) (spansOf platform .device) then some .deviceMemory
  else if anyMeet (fp.reads ++ fp.writes) (spansOf platform .unanswered) then some .busError
  else if fp.aliased then some .aliasing
  else none

/-- Two commands that run at once clash (`60_exceptions.md` R306): their write sets overlap, or one reads what the
other writes. -/
def Footprint.clashes (f g : Footprint) : Bool := anyMeet f.writes (g.reads ++ g.writes) || anyMeet f.reads g.writes

end Sys2Proof.Machine
end

