-- ==== Sys2Proof/Machine/LaneArith.lean ====
section
/-! DEFINITION. The lane arithmetic unit (`40_lane_arith.md`): the lane functions of R121, R122 and R131 and the
meanings of LMUL, LMULADD, LADDS, LNEG, LBCA, LBCL and LSWAPRB; and NOP (`44_fill_blit.md` R270). -/

namespace Sys2Proof.Machine

/-! Lane functions, on numbers. -/

/-- `mul8(a, b)`, the multiply with rounding (R121). -/
def mul8 (a b : Nat) : Nat :=
  let t := sat16 (a * b + 128)
  let t := sat16 (t + (t >>> 8))
  t >>> 8

/-- `muladd8(x, a, y, b)`, the fused multiply-add with one shared rounding (R122). -/
def muladd8 (x a y b : Nat) : Nat :=
  let t := sat16 (x * a + 128)
  let t := sat16 (t + y * b)
  let t := sat16 (t + (t >>> 8))
  t >>> 8

/-- `adds8(a, b)`, the saturating 8-bit add (R131). -/
def adds8 (a b : Nat) : Nat := min (a + b) 255

/-- `neg8_v(a)`: the low byte of every lane complemented (R127, R131). -/
def neg8V (a : Wide) : Wide := a ^^^ 0x00FF00FF00FF00FF#64

/-- `mul8_v` (R9, R121). -/
def mul8V (a b : Wide) : Wide := map2 mul8 a b

/-- `adds8_v` (R9, R131). -/
def adds8V (a b : Wide) : Wide := map2 adds8 a b

/-- `muladd8_v` (R9, R122). -/
def muladd8V (x a y b : Wide) : Wide :=
  wideOf fun k => muladd8 (laneNat x k) (laneNat a k) (laneNat y k) (laneNat b k)

/-- The lane exchange of R130: red and blue. -/
def swaprb (a : Wide) : Wide := wide (lane a 2) (lane a 1) (lane a 0) (lane a 3)

/-! Range conditions. -/

/-- Some lane of the four fails the test. -/
def anyLane (p : Nat → Bool) : Bool := p 0 || p 1 || p 2 || p 3

/-- Some lane product exceeds 0xFFFF (R123, R125). -/
def productTooWide (a b : Wide) : Bool := anyLane fun k => decide (0xFFFF < laneNat a k * laneNat b k)

/-- Some lane is no byte (R126). -/
def laneNoByte (a : Wide) : Bool := anyLane fun k => decide (0xFF < laneNat a k)

/-- The result of LMUL (R123). -/
def lmulResult (a b : Wide) : Except ErrCode Wide :=
  if productTooWide a b then .error .laneRange else .ok (mul8V a b)

/-- The result of LMULADD (R125). -/
def lmuladdResult (x a y b : Wide) : Except ErrCode Wide :=
  if productTooWide x a || productTooWide y b then .error .laneRange else .ok (muladd8V x a y b)

/-- The result of LADDS (R126). -/
def laddsResult (a b : Wide) : Except ErrCode Wide :=
  if laneNoByte a || laneNoByte b then .error .laneRange else .ok (adds8V a b)

/-! Meanings. -/

/-- NOP (R270): the lifecycle and nothing else. -/
def execNop (s : State) : Host.Outcome State Fault Refusal := s.conclude (.ok s)

/-- LMUL (R123). -/
def execLmul (rd ra rb : LReg) (s : State) : Host.Outcome State Fault Refusal :=
  s.withLane ra fun a => s.withLane rb fun b => s.finishLane rd (lmulResult a b)

/-- LMULADD (R125). -/
def execLmuladd (rd ra rb rc re : LReg) (s : State) : Host.Outcome State Fault Refusal :=
  s.withLane ra fun x => s.withLane rb fun a => s.withLane rc fun y => s.withLane re fun b =>
    s.finishLane rd (lmuladdResult x a y b)

/-- LADDS (R126). -/
def execLadds (rd ra rb : LReg) (s : State) : Host.Outcome State Fault Refusal :=
  s.withLane ra fun a => s.withLane rb fun b => s.finishLane rd (laddsResult a b)

/-- LNEG (R127). -/
def execLneg (rd ra : LReg) (s : State) : Host.Outcome State Fault Refusal :=
  s.withLane ra fun a => s.finishLane rd (.ok (neg8V a))

/-- LBCA (R128). -/
def execLbca (rd ra : LReg) (s : State) : Host.Outcome State Fault Refusal :=
  s.withLane ra fun a => s.finishLane rd (.ok (bcast (lane a 3)))

/-- LBCL (R129). -/
def execLbcl (rd ra : LReg) (s : State) : Host.Outcome State Fault Refusal :=
  s.withLane ra fun a => s.finishLane rd (.ok (bcast (lane a 0)))

/-- LSWAPRB (R130). -/
def execLswaprb (rd ra : LReg) (s : State) : Host.Outcome State Fault Refusal :=
  s.withLane ra fun a => s.finishLane rd (.ok (swaprb a))

end Sys2Proof.Machine
end

