-- ==== Sys2Proof/Machine/Codec.lean ====
section
/-! DEFINITION. The format converter (`41_format_codec.md`): the conversions of R150 to R159, a pixel's load and
store (R158, R160, R161), and the meanings of LUNPK32, LPACK32, LUNPK565 and LPACK565. -/

namespace Sys2Proof.Machine

/-- `byte(p, k)` (R8). -/
def pixelByte (p : Word) (k : Nat) : Byte := p.extractLsb' (8 * k) 8

/-- `unpack32(p)` (R150). -/
def unpack32 (p : Word) : Wide :=
  wide ((pixelByte p 0).setWidth 16) ((pixelByte p 1).setWidth 16) ((pixelByte p 2).setWidth 16)
    ((pixelByte p 3).setWidth 16)

/-- A lane clamped to a byte, as R152 and R156 use it. -/
def clampByte (w : Wide) (k : Nat) : Byte := BitVec.ofNat 8 (clamp8 (laneNat w k))

/-- `pack32(w)` (R152). -/
def pack32 (w : Wide) : Word := clampByte w 3 ++ clampByte w 2 ++ clampByte w 1 ++ clampByte w 0

/-- A 5-bit channel expanded to 8 bits (R154). -/
def expand5 (x : Nat) : Nat := (x <<< 3) ||| (x >>> 2)

/-- A 6-bit channel expanded to 8 bits (R154). -/
def expand6 (x : Nat) : Nat := (x <<< 2) ||| (x >>> 4)

/-- `expand565(h)` (R154): red in bits 15:11, green in 10:5, blue in 4:0 (R149), alpha opaque. -/
def expand565 (h : LaneWord) : Wide :=
  wide (BitVec.ofNat 16 (expand5 (h.extractLsb' 0 5).toNat))
    (BitVec.ofNat 16 (expand6 (h.extractLsb' 5 6).toNat))
    (BitVec.ofNat 16 (expand5 (h.extractLsb' 11 5).toNat))
    0x00FF#16

/-- `pack565(w)` (R156): the high bits of each clamped channel, alpha discarded. -/
def pack565 (w : Wide) : LaneWord :=
  (clampByte w 2).extractLsb' 3 5 ++ (clampByte w 1).extractLsb' 2 6 ++ (clampByte w 0).extractLsb' 3 5

/-- `npr(p)` (R159): red and blue exchanged, then premultiplied. -/
def npr (p : Word) : Wide :=
  let q := swaprb (unpack32 p)
  let a := lane q 3
  mul8V q (wide a a a 0x00FF#16)

/-! Pixels in memory. -/

/-- `LoadPixel(fmt, addr)` (R158). -/
def loadPixel (fmt : Fmt) (m : Memory) (a : Word) : Wide :=
  match fmt with
  | .argb32 => unpack32 (BitVec.ofNat 32 (m.read a 4))
  | .rgb565 => expand565 (BitVec.ofNat 16 (m.read a 2))
  | .a8 => wide 0 0 0 (BitVec.ofNat 16 (m.read a 1))
  | .argb32Npr => npr (BitVec.ofNat 32 (m.read a 4))

/-- `StorePixel(fmt, addr, w)` (R160). A8 and ARGB32_NPR are never a destination (R163), so nothing is stored for
them; the format check of R293 has failed such a command before. -/
def storePixel (fmt : Fmt) (b : Bus) (a : Word) (w : Wide) : Bus :=
  match fmt with
  | .argb32 => b.store a 4 (pack32 w).toNat
  | .rgb565 => b.store a 2 (pack565 w).toNat
  | .a8 => b
  | .argb32Npr => b

/-- `MaskAlpha(w)` (R161). -/
def maskAlpha (w : Wide) : LaneWord := lane w 3

/-! Meanings. -/

/-- LUNPK32 (R151): only the half named by IDX is read. -/
def execLunpk32 (rd ra : LReg) (half : WHalf) (s : State) : Host.Outcome State Fault Refusal :=
  s.withHalf ra half fun p => s.finishLane rd (.ok (unpack32 p))

/-- LPACK32 (R153): bits 63:32 of the result are 0. -/
def execLpack32 (rd ra : LReg) (s : State) : Host.Outcome State Fault Refusal :=
  s.withLane ra fun a => s.finishLane rd (.ok ((pack32 a).setWidth 64))

/-- LUNPK565 (R155). -/
def execLunpk565 (rd ra : LReg) (idx : Nat) (s : State) : Host.Outcome State Fault Refusal :=
  s.withLane ra fun a => s.finishLane rd (.ok (expand565 (lane a idx)))

/-- LPACK565 (R157): the other three lanes of the target are kept. -/
def execLpack565 (rd ra rb : LReg) (idx : Nat) (s : State) : Host.Outcome State Fault Refusal :=
  s.withLane ra fun a => s.withLane rb fun t => s.finishLane rd (.ok (setLane t idx (pack565 a)))

end Sys2Proof.Machine
end

