-- ==== Sys2Proof/Machine/Sampler.lean ====
section
/-! DEFINITION. The affine resampler and the scanline cache (`43_sampler_cache.md`): the edge policies, the three
sampling modes, the bilinear blend and LINTERP, and the cache's acquire, decode and teardown. -/

namespace Sys2Proof.Machine

/-! The bilinear blend. -/

/-- `interp(tl, tr, bl, br, distx, disty)` (R235). -/
def interp (tl tr bl br distx disty : Nat) : Nat :=
  ((tl * (256 - distx) + tr * distx) * (256 - disty) + (bl * (256 - distx) + br * distx) * disty) >>> 16

/-- `interp` on each lane of four wide values (R234, R236). -/
def interpV (tl tr bl br : Wide) (distx disty : Nat) : Wide :=
  wideOf fun k => interp (laneNat tl k) (laneNat tr k) (laneNat bl k) (laneNat br k) distx disty

/-- LINTERP (R236): the left pixels are in bits 31:0, the right ones in bits 63:32. -/
def execLinterp (rd ra rb : LReg) (distx disty : Nat) (s : State) : Host.Outcome State Fault Refusal :=
  s.withLane ra fun a => s.withLane rb fun b =>
    s.finishLane rd (.ok (interpV (unpack32 (a.extractLsb' 0 32)) (unpack32 (a.extractLsb' 32 32))
      (unpack32 (b.extractLsb' 0 32)) (unpack32 (b.extractLsb' 32 32)) distx disty))

/-! Edge policies. -/

/-- The column (or row) of the image a coordinate takes (R237, R238): clamped under pad; under none, the
coordinate itself when it is inside 0 .. n - 1, and no column otherwise. -/
def edgeCoord (edge : Edge) (n : Nat) (x : Int) : Option Nat :=
  match edge with
  | .pad => some (clampi x 0 ((n : Int) - 1)).toNat
  | .outside => if 0 ≤ x ∧ x < (n : Int) then some x.toNat else none

/-- The image pixel `Fetch(x, y)` takes (R237, R238): column and row on their own. -/
def fetchCoord (edge : Edge) (c : Conf) (x y : Int) : Option (Nat × Nat) :=
  match edgeCoord edge c.src.width.toNat x, edgeCoord edge c.src.height.toNat y with
  | some px, some py => some (px, py)
  | _, _ => none

/-- `SrcPix(x, y)` (R239). -/
def srcPix (fmt : Fmt) (c : Conf) (m : Memory) (x y : Nat) : Wide := loadPixel fmt m (c.src.pixAddr x y (bpb fmt))

/-- `Fetch(x, y)` (R237, R238): an outside sample is transparent black. -/
def fetch (k : KFields) (c : Conf) (m : Memory) (x y : Int) : Wide :=
  match fetchCoord k.edge c x y with
  | some (px, py) => srcPix k.sfmt c m px py
  | none => 0

/-! Coordinates. -/

/-- `u` of R232, in units of 1/65536 pixel. -/
def coordU (t : Transform) (i j : Nat) : Int := t.a.toInt * i + t.b.toInt * j + t.c.toInt

/-- `v` of R232. -/
def coordV (t : Transform) (i j : Nat) : Int := t.d.toInt * i + t.e.toInt * j + t.f.toInt

/-- The whole pixel of a coordinate: `floor(u / 65536)` (R233, R234). -/
def wholePixel (u : Int) : Int := u / 65536

/-- The weight of a coordinate: `(u mod 65536) >> 8` (R234). -/
def weight (u : Int) : Nat := (u % 65536).toNat >>> 8

/-- The pixels an uncached sample of rectangle pixel (i, j) fetches, in the order of R231, R233 and R234 (tl, tr,
bl, br). -/
def samplePoints (k : KFields) (c : Conf) (i j : Nat) : List (Int × Int) :=
  match k.sample with
  | .identity => [((c.src.x.toNat + i : Nat), (c.src.y.toNat + j : Nat))]
  | .nearest => [(wholePixel (coordU c.xform i j), wholePixel (coordV c.xform i j))]
  | .bilinear =>
    let x0 := wholePixel (coordU c.xform i j)
    let y0 := wholePixel (coordV c.xform i j)
    [(x0, y0), (x0 + 1, y0), (x0, y0 + 1), (x0 + 1, y0 + 1)]

/-- `Sample(i, j)` read straight from the source (R230, R231, R233, R234, R249). -/
def sampleDirect (k : KFields) (c : Conf) (m : Memory) (i j : Nat) : Wide :=
  match k.sample with
  | .identity => fetch k c m (c.src.x.toNat + i : Nat) (c.src.y.toNat + j : Nat)
  | .nearest => fetch k c m (wholePixel (coordU c.xform i j)) (wholePixel (coordV c.xform i j))
  | .bilinear =>
    let x0 := wholePixel (coordU c.xform i j)
    let y0 := wholePixel (coordV c.xform i j)
    interpV (fetch k c m x0 y0) (fetch k c m (x0 + 1) y0) (fetch k c m x0 (y0 + 1)) (fetch k c m (x0 + 1) (y0 + 1))
      (weight (coordU c.xform i j)) (weight (coordV c.xform i j))

/-! The scanline cache. -/

/-- `CacheUsed()` (R240). -/
def cacheUsed (k : KFields) (c : Conf) : Bool :=
  !k.ssolid && k.sample == .bilinear && c.xform.d == 0

/-- `row_bytes` (R242). -/
def rowBytes (c : Conf) : Nat := 4 * c.src.width.toNat

/-- The slots' rows do not fit on chip (R242). -/
def externalScratch (p : Config.Params) (c : Conf) : Bool := decide (p.slotOnchipBytes < rowBytes c)

/-- The two slots of R39. -/
inductive SlotId where
  | s0 | s1
  deriving DecidableEq, Repr

/-- The slot's number. -/
def SlotId.toNat : SlotId → Nat
  | .s0 => 0 | .s1 => 1

/-- A slot of the cache. -/
def Cache.slot (c : Cache) : SlotId → Slot
  | .s0 => c.slot0 | .s1 => c.slot1

/-- The cache with a slot replaced. -/
def Cache.setSlot (c : Cache) (i : SlotId) (v : Slot) : Cache :=
  match i with
  | .s0 => { c with slot0 := v } | .s1 => { c with slot1 := v }

/-- The counters cleared (R180, R293 step 4). -/
def Cache.clearCounters (c : Cache) : Cache := { c with decodes := 0, hits := 0 }

/-- A cache instance at its creation (R241): both slots empty, the counters as they are. -/
def Cache.create (c : Cache) : Cache := { c with slot0 := .reset, slot1 := .reset }

/-- Teardown (R247): valid and lock cleared, tags kept, data unspecified, so absent. -/
def Cache.teardown (c : Cache) : Cache :=
  { c with slot0 := { c.slot0 with valid := false, lock := false, data := [] }
           slot1 := { c.slot1 with valid := false, lock := false, data := [] } }

/-- `RowEnd` (R246): both slots unlocked. -/
def Cache.unlock (c : Cache) : Cache :=
  { c with slot0 := { c.slot0 with lock := false }, slot1 := { c.slot1 with lock := false } }

/-- `Victim(pending)` (R244): among the unlocked slots the lowest invalid one, else the lowest whose tag is not
the pending row, else the lowest. An unlocked slot always exists; slot 0 stands for the case that cannot arise. -/
def Cache.victim (c : Cache) (pending : Option Nat) : SlotId :=
  let free := [SlotId.s0, SlotId.s1].filter fun i => !(c.slot i).lock
  match free.find? (fun i => !(c.slot i).valid) with
  | some i => i
  | none =>
    match free.find? (fun i => some (c.slot i).tag.toNat != pending) with
    | some i => i
    | none => free.headD .s0

/-- The address of slot `i`'s pixel `x` in external scratch (R242). -/
def scratchAddr (c : Conf) (i : SlotId) (x : Nat) : Word :=
  c.scrBase + BitVec.ofNat 32 (i.toNat * rowBytes c + 4 * x)

/-- What a running COMPOSITE changes: memory through its bus, and the cache. -/
structure Engine where
  bus : Bus
  cache : Cache
  deriving DecidableEq, Repr

/-- `Decode(k, y)` (R245): the whole source row, packed as premultiplied ARGB32, to the slot's storage. -/
def Engine.decode (p : Config.Params) (k : KFields) (c : Conf) (e : Engine) (i : SlotId) (y : Nat) : Engine :=
  if externalScratch p c then
    { e with
      bus := (List.range c.src.width.toNat).foldl
        (fun b x => b.store (scratchAddr c i x) 4 (pack32 (srcPix k.sfmt c b.mem x y)).toNat) e.bus }
  else
    { e with
      cache := e.cache.setSlot i
        { e.cache.slot i with
          data := (List.range c.src.width.toNat).map fun x => pack32 (srcPix k.sfmt c e.bus.mem x y) } }

/-- The slot that holds row `y`, if one does: a hit, locked or not (R243). -/
def Cache.hitSlot (c : Cache) (y : Nat) : Option SlotId :=
  [SlotId.s0, SlotId.s1].find? fun i => (c.slot i).valid && (c.slot i).tag.toNat == y

/-- The slot locked by a hit, and CACHE_HITS counted modulo 2^32 (R243). -/
def Cache.onHit (c : Cache) (i : SlotId) : Cache :=
  { c.setSlot i { c.slot i with lock := true } with hits := c.hits + 1 }

/-- The slot tagged, valid and locked after a decode, and CACHE_DECODES counted modulo 2^32 (R243). -/
def Cache.onDecode (c : Cache) (i : SlotId) (y : Nat) : Cache :=
  { c.setSlot i { c.slot i with tag := BitVec.ofNat 16 y, valid := true, lock := true } with
    decodes := c.decodes + 1 }

/-- `Acquire(y, pending)` (R243). -/
def Engine.acquire (p : Config.Params) (k : KFields) (c : Conf) (e : Engine) (y : Nat) (pending : Option Nat) :
    SlotId × Engine :=
  match e.cache.hitSlot y with
  | some i => (i, { e with cache := e.cache.onHit i })
  | none =>
    let i := e.cache.victim pending
    let e := e.decode p k c i y
    (i, { e with cache := e.cache.onDecode i y })

/-- The slots that hold the two source rows of a destination row, none for a row outside the image (R246). -/
structure RowSlots where
  top : Option SlotId
  bottom : Option SlotId
  deriving DecidableEq, Repr

/-- Request a row if there is one. -/
def Engine.acquire? (p : Config.Params) (k : KFields) (c : Conf) (e : Engine) (y pending : Option Nat) :
    Option SlotId × Engine :=
  match y with
  | none => (none, e)
  | some y =>
    let (i, e) := e.acquire p k c y pending
    (some i, e)

/-- The two source rows destination row `j` needs (R246). -/
def rowPair (k : KFields) (c : Conf) (j : Nat) : Option Nat × Option Nat :=
  let y0 := wholePixel (c.xform.e.toInt * j + c.xform.f.toInt)
  (edgeCoord k.edge c.src.height.toNat y0, edgeCoord k.edge c.src.height.toNat (y0 + 1))

/-- `RowStart(j)` (R246): the second row is the first request's pending one. -/
def Engine.rowStart (p : Config.Params) (k : KFields) (c : Conf) (e : Engine) (j : Nat) : RowSlots × Engine :=
  let (r0, r1) := rowPair k c j
  let (top, e) := e.acquire? p k c r0 r1
  let (bottom, e) := e.acquire? p k c r1 none
  ({ top, bottom }, e)

/-- `RowPix(k, x)` (R245): a cached pixel read back. An on-chip column no decode wrote holds any value (R39). -/
def Engine.rowPix (p : Config.Params) (c : Conf) (e : Engine) (i : SlotId) (x : Nat) : Wide :=
  if externalScratch p c then unpack32 (BitVec.ofNat 32 (e.bus.mem.read (scratchAddr c i x) 4))
  else unpack32 ((e.cache.slot i).data.getD x (Config.freeSlotPixel x))

/-- A corner of a bilinear sample taken from a slot (R246), with the column edge policy. -/
def Engine.corner (p : Config.Params) (k : KFields) (c : Conf) (e : Engine) (row : Option SlotId) (x : Int) : Wide :=
  match row, edgeCoord k.edge c.src.width.toNat x with
  | some i, some px => e.rowPix p c i px
  | _, _ => 0

/-- `Sample(i, j)` through the cache (R234, R246). -/
def Engine.sampleCached (p : Config.Params) (k : KFields) (c : Conf) (e : Engine) (rows : RowSlots) (i j : Nat) :
    Wide :=
  let x0 := wholePixel (coordU c.xform i j)
  interpV (e.corner p k c rows.top x0) (e.corner p k c rows.top (x0 + 1)) (e.corner p k c rows.bottom x0)
    (e.corner p k c rows.bottom (x0 + 1)) (weight (coordU c.xform i j)) (weight (coordV c.xform i j))

/-! The source bytes a COMPOSITE reads. -/

/-- The access to source pixel (x, y). -/
def srcAccess (k : KFields) (c : Conf) (x y : Nat) : Access :=
  { addr := c.src.pixAddr x y (bpb k.sfmt), size := bpb k.sfmt }

/-- The source part of the read set (R68): the whole rows the cache decodes (R245), or the pixels each sample
fetches (R249); nothing for a constant source. -/
def srcReads (k : KFields) (c : Conf) : List Access :=
  if k.ssolid then []
  else if cacheUsed k c then
    (List.range c.rectH.toNat).flatMap fun j =>
      [(rowPair k c j).1, (rowPair k c j).2].reduceOption.flatMap fun y =>
        (List.range c.src.width.toNat).map fun x => srcAccess k c x y
  else
    c.pixels.flatMap fun (i, j) =>
      ((samplePoints k c i j).map fun (x, y) => fetchCoord k.edge c x y).reduceOption.map fun (x, y) =>
        srcAccess k c x y

/-- The external scratch region of the cache's slots (R242): two rows at SCR_BASE, when the cache uses it. -/
def scratchAccesses (p : Config.Params) (k : KFields) (c : Conf) : List Access :=
  if cacheUsed k c && externalScratch p c then [{ addr := c.scrBase, size := 2 * rowBytes c }] else []

/-! Which slots a COMPOSITE decodes into: its requests with the decoded pixels left out, since no decision of R243 and
R244 looks at them. -/

/-- The decodes made so far, slot and row, oldest first, and the cache after them, its slots' data left out. -/
structure RowTrace where
  decoded : List (SlotId × Nat)
  cache : Cache
  deriving DecidableEq, Repr

/-- One request (R243), if there is a row to request. -/
def RowTrace.request (t : RowTrace) (y pending : Option Nat) : RowTrace :=
  match y with
  | none => t
  | some y =>
    match t.cache.hitSlot y with
    | some i => { t with cache := t.cache.onHit i }
    | none =>
      let i := t.cache.victim pending
      { decoded := t.decoded ++ [(i, y)], cache := t.cache.onDecode i y }

/-- The requests of one destination row, and its end (R246). -/
def RowTrace.row (k : KFields) (c : Conf) (t : RowTrace) (j : Nat) : RowTrace :=
  let (r0, r1) := rowPair k c j
  let t := (t.request r0 r1).request r1 none
  { t with cache := t.cache.unlock }

/-- The requests of a whole COMPOSITE, from a cache just created (R180, R241). -/
def rowTrace (k : KFields) (c : Conf) : RowTrace :=
  (List.range c.rectH.toNat).foldl (RowTrace.row k c)
    { decoded := [], cache := { decodes := 0, hits := 0, slot0 := .reset, slot1 := .reset } }

/-- A slot's row in external scratch (R242). -/
def slotRow (c : Conf) (i : SlotId) : Access := { addr := scratchAddr c i 0, size := rowBytes c }

/-- The scratch part of the write set (R68): the rows of the slots that a decode is made into, when they are in
external scratch (R245). -/
def scratchWrites (p : Config.Params) (k : KFields) (c : Conf) : List Access :=
  if cacheUsed k c && externalScratch p c then (rowTrace k c).decoded.map fun q => slotRow c q.1 else []

end Sys2Proof.Machine
end

