-- ==== Sys2Proof/Machine/Composite.lean ====
section
/-! DEFINITION. The compositing engine (`42_compositing.md`): the checks of `60_exceptions.md` R293, the inputs of
a pixel (R181 to R184), the twelve operators (R186 to R199), the rectangle loop (R180, R185), and the meanings of the
twelve COMPOSITE commands. -/

namespace Sys2Proof.Machine

/-! Checks. -/

/-- Check 3(a): the enable bit of the operator in the mask mode's table (R29, R30, R293). -/
def kernelEnabled (op : Op) (k : KFields) (c : Conf) : Bool :=
  match k.mmode with
  | .perComponent => c.kenCa.getLsbD op.code
  | .noMask => c.kenU.getLsbD op.code
  | .uniform => c.kenU.getLsbD op.code

/-- The format may be a destination (R163). -/
def dstFormat : Fmt → Bool
  | .argb32 => true | .rgb565 => true | .a8 => false | .argb32Npr => false

/-- The format may be a non-constant source (R163). -/
def srcFormat : Fmt → Bool
  | .argb32 => true | .rgb565 => true | .a8 => false | .argb32Npr => true

/-- The format may be a mask buffer in the mask mode (R163). -/
def mskFormat (mmode : MMode) (f : Fmt) : Bool :=
  match mmode, f with
  | .noMask, _ => true
  | .uniform, .argb32 => true | .uniform, .a8 => true
  | .uniform, .rgb565 => false | .uniform, .argb32Npr => false
  | .perComponent, .argb32 => true
  | .perComponent, .rgb565 => false | .perComponent, .a8 => false | .perComponent, .argb32Npr => false

/-- A mask buffer is read (R182). -/
def maskBuffer (k : KFields) : Bool := k.mmode != .noMask && !k.msolid

/-- Checks 3(b) to 3(e) (R293). -/
def formatsLegal (k : KFields) : Bool :=
  dstFormat k.dfmt && (k.ssolid || srcFormat k.sfmt) && (!maskBuffer k || mskFormat k.mmode k.mfmt)

/-- Check 5 (R293). -/
def compositeAligned (k : KFields) (c : Conf) : Bool :=
  c.dst.aligned (bpb k.dfmt) && (k.ssolid || c.src.aligned (bpb k.sfmt))
    && (!maskBuffer k || c.msk.aligned (bpb k.mfmt))

/-- Check 6 (R293): the source rectangle itself is not checked. -/
def compositeInBounds (k : KFields) (c : Conf) : Bool :=
  c.dst.holdsRect c.rectW c.rectH && (!maskBuffer k || c.msk.holdsRect c.rectW c.rectH)
    && (k.ssolid || (c.src.width != 0 && c.src.height != 0))

/-- The cache needs external scratch (R293 step 7). -/
def needsScratch (p : Config.Params) (k : KFields) (c : Conf) : Bool := cacheUsed k c && externalScratch p c

/-- The destination rectangle's accesses (R68). -/
def dstAccesses (k : KFields) (c : Conf) : List Access := c.rectAccesses c.dst (bpb k.dfmt)

/-- The mask rectangle's accesses (R68, R182). -/
def mskReads (k : KFields) (c : Conf) : List Access :=
  if maskBuffer k then c.rectAccesses c.msk (bpb k.mfmt) else []

/-- The overlaps R69 forbids: source or mask with the destination, or any set with the external scratch region of both
slots (log entry 14). -/
def compositeAliased (p : Config.Params) (k : KFields) (c : Conf) : Bool :=
  anyMeet (srcReads k c ++ mskReads k c) (dstAccesses k c)
    || anyMeet (srcReads k c ++ mskReads k c ++ dstAccesses k c) (scratchAccesses p k c)

/-- A COMPOSITE's sets (R68): the operator SRC does not read the destination (R184), and scratch is written only in the
rows of the slots that are decoded into. -/
def compositeFootprint (p : Config.Params) (op : Op) (k : KFields) (c : Conf) : Footprint :=
  { reads := srcReads k c ++ mskReads k c ++ (if op = .src then [] else dstAccesses k c)
    writes := dstAccesses k c ++ scratchWrites p k c
    aliased := compositeAliased p k c }

/-- Checks 2 to 7 of R293 in their order (check 1 is the decoder's). -/
def compositePlan (p : Config.Params) (op : Op) (k : KFields) (ctrl : Ctrl) (c : Conf) : Plan :=
  if !ctrl.cfgLock then .fail .notCfg
  else if !kernelEnabled op k c then .fail .unsupported
  else if !formatsLegal k then .fail .unsupported
  else if c.emptyRect then .noAccess
  else if !compositeAligned k c then .fail .align
  else if !compositeInBounds k c then .fail .bounds
  else if needsScratch p k c && decide (c.scrLen.toNat < 2 * rowBytes c) then .fail .noMem
  else if needsScratch p k c && decide (c.scrBase.toNat % 4 ≠ 0) then .fail .align
  else .run (compositeFootprint p op k c)

/-! A pixel's inputs. -/

/-- The mask vector `m` of R182; with MMODE = none there is none. -/
def maskVector (k : KFields) (c : Conf) (m : Memory) (i j : Nat) : Option Wide :=
  let mp := if k.msolid then unpack32 c.solidMsk else loadPixel k.mfmt m (c.msk.rectAddr (bpb k.mfmt) i j)
  match k.mmode with
  | .noMask => none
  | .uniform => some (bcast (maskAlpha mp))
  | .perComponent => some mp

/-- The masked source S' (R183). -/
def maskedSource (s : Wide) : Option Wide → Wide
  | none => s
  | some m => mul8V s m

/-- The source alpha vector A (R183). -/
def sourceAlpha (s : Wide) : Option Wide → Wide
  | none => bcast (lane s 3)
  | some m => mul8V (bcast (lane s 3)) m

/-- The destination value d (R184). -/
def dstValue (k : KFields) (c : Conf) (m : Memory) (i j : Nat) : Wide :=
  loadPixel k.dfmt m (c.dst.rectAddr (bpb k.dfmt) i j)

/-! The operators: the result from S', A and d. `bcast (lane d 3)` is D, `neg8V` of it nD, `neg8V A` nA. -/

/-- SRC (R186). -/
def srcResult (s' : Wide) : Wide := s'

/-- OVER (R187). -/
def overResult (s' a d : Wide) : Wide := adds8V s' (mul8V d (neg8V a))

/-- OVER_REVERSE (R188). -/
def overReverseResult (s' d : Wide) : Wide := adds8V d (mul8V s' (neg8V (bcast (lane d 3))))

/-- IN (R189). -/
def inResult (s' d : Wide) : Wide := mul8V s' (bcast (lane d 3))

/-- IN_REVERSE (R190). -/
def inReverseResult (a d : Wide) : Wide := mul8V d a

/-- OUT (R191). -/
def outResult (s' d : Wide) : Wide := mul8V s' (neg8V (bcast (lane d 3)))

/-- OUT_REVERSE (R192). -/
def outReverseResult (a d : Wide) : Wide := mul8V d (neg8V a)

/-- ATOP (R193). -/
def atopResult (s' a d : Wide) : Wide := muladd8V s' (bcast (lane d 3)) d (neg8V a)

/-- ATOP_REVERSE (R194). -/
def atopReverseResult (s' a d : Wide) : Wide := muladd8V s' (neg8V (bcast (lane d 3))) d a

/-- XOR (R195). -/
def xorResult (s' a d : Wide) : Wide := muladd8V s' (neg8V (bcast (lane d 3))) d (neg8V a)

/-- ADD (R196). -/
def addResult (s' d : Wide) : Wide := adds8V s' d

/-- `DIV_UN8(a, b)` (R198). -/
def divUn8 (a b : Nat) : Nat := (a * 255 + b / 2) / b

/-- A lane of S'' (R197), with `SAT_ZERO_HEADROOM` as an argument (R199). -/
def saturateLane (z : Config.SatZeroHeadroom) (h sk ak : Nat) : Nat :=
  if h < ak then
    if h = 0 ∧ z = .noScale then sk else mul8 sk (divUn8 h ak)
  else sk

/-- SATURATE (R197, R199). -/
def saturateResult (z : Config.SatZeroHeadroom) (s' a d : Wide) : Wide :=
  adds8V d (wideOf fun k => saturateLane z (255 - laneNat d 3) (laneNat s' k) (laneNat a k))

/-- The operator's result (R186 to R197). -/
def opResult (z : Config.SatZeroHeadroom) (op : Op) (s' a d : Wide) : Wide :=
  match op with
  | .src => srcResult s'
  | .over => overResult s' a d
  | .overReverse => overReverseResult s' d
  | .srcIn => inResult s' d
  | .inReverse => inReverseResult a d
  | .out => outResult s' d
  | .outReverse => outReverseResult a d
  | .atop => atopResult s' a d
  | .atopReverse => atopReverseResult s' a d
  | .xor => xorResult s' a d
  | .add => addResult s' d
  | .saturate => saturateResult z s' a d

/-- The result of a pixel from its source value, in the memory before its store (R183 to R185). -/
def pixelResult (z : Config.SatZeroHeadroom) (op : Op) (k : KFields) (c : Conf) (m : Memory) (s : Wide) (i j : Nat) :
    Wide :=
  let mask := maskVector k c m i j
  opResult z op (maskedSource s mask) (sourceAlpha s mask) (dstValue k c m i j)

/-! The rectangle. -/

/-- The source value of a pixel (R181): the constant, the cached sample, or the direct one. -/
def sourceValue (p : Config.Params) (k : KFields) (c : Conf) (e : Engine) (rows : RowSlots) (i j : Nat) : Wide :=
  if k.ssolid then unpack32 c.solidSrc
  else if cacheUsed k c then e.sampleCached p k c rows i j
  else sampleDirect k c e.bus.mem i j

/-- `CompositePixel(i, j)` (R185). -/
def Engine.compositePixel (p : Config.Params) (op : Op) (k : KFields) (c : Conf) (rows : RowSlots) (j : Nat)
    (e : Engine) (i : Nat) : Engine :=
  { e with
    bus := storePixel k.dfmt e.bus (c.dst.rectAddr (bpb k.dfmt) i j)
      (pixelResult p.satZeroHeadroom op k c e.bus.mem (sourceValue p k c e rows i j) i j) }

/-- One destination row (R180): RowStart and RowEnd around its pixels when the cache is used. -/
def Engine.compositeRow (p : Config.Params) (op : Op) (k : KFields) (c : Conf) (e : Engine) (j : Nat) : Engine :=
  if cacheUsed k c then
    let (rows, e) := e.rowStart p k c j
    let e := (List.range c.rectW.toNat).foldl (Engine.compositePixel p op k c rows j) e
    { e with cache := e.cache.unlock }
  else
    (List.range c.rectW.toNat).foldl (Engine.compositePixel p op k c { top := none, bottom := none } j) e

/-- The cache as the pixel phase starts (R180, R241): counters cleared, an instance created if one is used. -/
def startCache (k : KFields) (c : Conf) (cache : Cache) : Cache :=
  if cacheUsed k c then cache.clearCounters.create else cache.clearCounters

/-- The cache as the command leaves it (R247, R249). -/
def endCache (k : KFields) (c : Conf) (cache : Cache) : Cache :=
  if cacheUsed k c then cache.teardown else cache

/-- The pixel phase (R180): rows top to bottom, from memory and cache as they are at its start. -/
def compositeRun (p : Config.Params) (op : Op) (k : KFields) (c : Conf) (m : Memory) (cache : Cache) : Engine :=
  let e := (List.range c.rectH.toNat).foldl (Engine.compositeRow p op k c)
    { bus := .start m, cache := startCache k c cache }
  { e with cache := endCache k c e.cache }

/-- The state after the pixel phase. -/
def State.afterComposite (s : State) (p : Config.Params) (op : Op) (k : KFields) : State :=
  let e := compositeRun p op k s.conf s.mem s.cache
  (s.withMem e.bus.mem).withCache e.cache

/-- COMPOSITE (R180), with the open parameters as an argument. The counters clear once all checks have passed, or at an
empty rectangle (R36, R180, R293): a COMPOSITE that fails at the checks 5 to 7 keeps them, where D37 of
`92_eei_decisions.md` has them clear after the checks 1 to 3. That the rules are followed is log entry 23. -/
def compositeWith (p : Config.Params) (op : Op) (k : KFields) (s : State) : Host.Outcome State Fault Refusal :=
  match compositePlan p op k s.ctrl s.conf with
  | .fail c => s.conclude (.error c)
  | .noAccess => s.conclude (.ok (s.withCache s.cache.clearCounters))
  | .run fp =>
    match fp.contractFault s.platform with
    | some f => .fault f
    | none => s.conclude (.ok (s.afterComposite p op k))

/-! Meanings. -/

/-- COMPOSITE.SRC (R186). -/
def execCompositeSrc (k : KFields) (s : State) : Host.Outcome State Fault Refusal :=
  compositeWith Config.params .src k s

/-- COMPOSITE.OVER (R187). -/
def execCompositeOver (k : KFields) (s : State) : Host.Outcome State Fault Refusal :=
  compositeWith Config.params .over k s

/-- COMPOSITE.OVER_REVERSE (R188). -/
def execCompositeOverReverse (k : KFields) (s : State) : Host.Outcome State Fault Refusal :=
  compositeWith Config.params .overReverse k s

/-- COMPOSITE.IN (R189). -/
def execCompositeIn (k : KFields) (s : State) : Host.Outcome State Fault Refusal :=
  compositeWith Config.params .srcIn k s

/-- COMPOSITE.IN_REVERSE (R190). -/
def execCompositeInReverse (k : KFields) (s : State) : Host.Outcome State Fault Refusal :=
  compositeWith Config.params .inReverse k s

/-- COMPOSITE.OUT (R191). -/
def execCompositeOut (k : KFields) (s : State) : Host.Outcome State Fault Refusal :=
  compositeWith Config.params .out k s

/-- COMPOSITE.OUT_REVERSE (R192). -/
def execCompositeOutReverse (k : KFields) (s : State) : Host.Outcome State Fault Refusal :=
  compositeWith Config.params .outReverse k s

/-- COMPOSITE.ATOP (R193). -/
def execCompositeAtop (k : KFields) (s : State) : Host.Outcome State Fault Refusal :=
  compositeWith Config.params .atop k s

/-- COMPOSITE.ATOP_REVERSE (R194). -/
def execCompositeAtopReverse (k : KFields) (s : State) : Host.Outcome State Fault Refusal :=
  compositeWith Config.params .atopReverse k s

/-- COMPOSITE.XOR (R195). -/
def execCompositeXor (k : KFields) (s : State) : Host.Outcome State Fault Refusal :=
  compositeWith Config.params .xor k s

/-- COMPOSITE.ADD (R196). -/
def execCompositeAdd (k : KFields) (s : State) : Host.Outcome State Fault Refusal :=
  compositeWith Config.params .add k s

/-- COMPOSITE.SATURATE (R197). -/
def execCompositeSaturate (k : KFields) (s : State) : Host.Outcome State Fault Refusal :=
  compositeWith Config.params .saturate k s

end Sys2Proof.Machine
end

