-- ==== Sys2Proof/Machine/FillBlit.lean ====
section
/-! DEFINITION. Solid fill and raw block copy (`44_fill_blit.md`): the checks of `60_exceptions.md` R294 and the
meanings of FILL and BLIT. -/

namespace Sys2Proof.Machine

/-- The depth is one the block implements (R105, R294). -/
def depthSupported (bpp : Nat) : Bool := bpp == 16 || bpp == 32

/-- The two halves of FILL_VALUE agree (R294). -/
def fillHalvesAgree (c : Conf) : Bool := c.fillValue.extractLsb' 16 16 == c.fillValue.extractLsb' 0 16

/-- The value FILL stores (R271). -/
def fillStored (bpp : Nat) (c : Conf) : Nat :=
  if bpp = 16 then (c.fillValue.extractLsb' 0 16).toNat else c.fillValue.toNat

/-- FILL's sets (R68, R271): it reads nothing. -/
def fillFootprint (bpp : Nat) (c : Conf) : Footprint :=
  { reads := [], writes := c.rectAccesses c.dst (bpp / 8), aliased := false }

/-- FILL's checks 2 to 6 (R294). -/
def fillPlan (bpp : Nat) (c : Conf) : Plan :=
  if !depthSupported bpp then .fail .unsupported
  else if bpp == 16 && !fillHalvesAgree c then .fail .precond
  else if c.emptyRect then .noAccess
  else if !c.dst.aligned (bpp / 8) then .fail .align
  else if !c.dst.holdsRect c.rectW c.rectH then .fail .bounds
  else .run (fillFootprint bpp c)

/-- FILL's writes, row-major (R271). -/
def fillRun (bpp : Nat) (c : Conf) (m : Memory) : Bus :=
  c.pixels.foldl (fun b (i, j) => b.store (c.dst.rectAddr (bpp / 8) i j) (bpp / 8) (fillStored bpp c)) (.start m)

/-- The source and destination regions are identical (R273). -/
def blitIdentical (n : Nat) (c : Conf) : Bool :=
  c.pixels.all fun (i, j) => c.src.rectAddr n i j == c.dst.rectAddr n i j

/-- BLIT's sets (R68, R272): any overlap but identical regions is forbidden (R273). -/
def blitFootprint (n : Nat) (c : Conf) : Footprint :=
  { reads := c.rectAccesses c.src n
    writes := c.rectAccesses c.dst n
    aliased := anyMeet (c.rectAccesses c.src n) (c.rectAccesses c.dst n) && !blitIdentical n c }

/-- BLIT's checks 2 to 6 (R294). -/
def blitPlan (sbpp dbpp : Nat) (c : Conf) : Plan :=
  if !(depthSupported sbpp && depthSupported dbpp) then .fail .unsupported
  else if sbpp != dbpp then .fail .precond
  else if c.emptyRect then .noAccess
  else if !(c.src.aligned (sbpp / 8) && c.dst.aligned (sbpp / 8)) then .fail .align
  else if !(c.src.holdsRect c.rectW c.rectH && c.dst.holdsRect c.rectW c.rectH) then .fail .bounds
  else .run (blitFootprint (sbpp / 8) c)

/-- BLIT's reads and writes, row-major (R272). -/
def blitRun (n : Nat) (c : Conf) (m : Memory) : Bus :=
  c.pixels.foldl (fun b (i, j) => b.store (c.dst.rectAddr n i j) n (b.mem.read (c.src.rectAddr n i j) n)) (.start m)

/-- A command that goes by its plan: it fails, succeeds with no access, meets a contract fault, or runs and leaves
memory as its run does. -/
def State.runPlan (s : State) (plan : Plan) (run : Memory → Bus) : Host.Outcome State Fault Refusal :=
  match plan with
  | .fail c => s.conclude (.error c)
  | .noAccess => s.conclude (.ok s)
  | .run fp =>
    match fp.contractFault s.platform with
    | some f => .fault f
    | none => s.conclude (.ok (s.withMem (run s.mem).mem))

/-- FILL (R271). -/
def execFill (bpp : Nat) (s : State) : Host.Outcome State Fault Refusal :=
  s.runPlan (fillPlan bpp s.conf) (fillRun bpp s.conf)

/-- BLIT (R272). -/
def execBlit (sbpp dbpp : Nat) (s : State) : Host.Outcome State Fault Refusal :=
  s.runPlan (blitPlan sbpp dbpp s.conf) (blitRun (sbpp / 8) s.conf)

end Sys2Proof.Machine
end

