-- ==== Sys2Proof/Machine/Dispatch.lean ====
section
/-! DEFINITION. One arm per instruction, each a direct call of its meaning. -/

namespace Sys2Proof.Machine

/-- The execution of a command the block has accepted (`60_exceptions.md` R296, parts 2 and 3). -/
def exec (i : Instr) (s : State) : Host.Outcome State Fault Refusal :=
  match i with
  | .nop => Sys2Proof.Machine.execNop s
  | .lmul rd ra rb => Sys2Proof.Machine.execLmul rd ra rb s
  | .lmuladd rd ra rb rc re => Sys2Proof.Machine.execLmuladd rd ra rb rc re s
  | .ladds rd ra rb => Sys2Proof.Machine.execLadds rd ra rb s
  | .lneg rd ra => Sys2Proof.Machine.execLneg rd ra s
  | .lbca rd ra => Sys2Proof.Machine.execLbca rd ra s
  | .lbcl rd ra => Sys2Proof.Machine.execLbcl rd ra s
  | .lswaprb rd ra => Sys2Proof.Machine.execLswaprb rd ra s
  | .lunpk32 rd ra half => Sys2Proof.Machine.execLunpk32 rd ra half s
  | .lpack32 rd ra => Sys2Proof.Machine.execLpack32 rd ra s
  | .lunpk565 rd ra idx => Sys2Proof.Machine.execLunpk565 rd ra idx s
  | .lpack565 rd ra rb idx => Sys2Proof.Machine.execLpack565 rd ra rb idx s
  | .linterp rd ra rb distx disty => Sys2Proof.Machine.execLinterp rd ra rb distx disty s
  | .compositeSrc k => Sys2Proof.Machine.execCompositeSrc k s
  | .compositeOver k => Sys2Proof.Machine.execCompositeOver k s
  | .compositeOverReverse k => Sys2Proof.Machine.execCompositeOverReverse k s
  | .compositeIn k => Sys2Proof.Machine.execCompositeIn k s
  | .compositeInReverse k => Sys2Proof.Machine.execCompositeInReverse k s
  | .compositeOut k => Sys2Proof.Machine.execCompositeOut k s
  | .compositeOutReverse k => Sys2Proof.Machine.execCompositeOutReverse k s
  | .compositeAtop k => Sys2Proof.Machine.execCompositeAtop k s
  | .compositeAtopReverse k => Sys2Proof.Machine.execCompositeAtopReverse k s
  | .compositeXor k => Sys2Proof.Machine.execCompositeXor k s
  | .compositeAdd k => Sys2Proof.Machine.execCompositeAdd k s
  | .compositeSaturate k => Sys2Proof.Machine.execCompositeSaturate k s
  | .fill bpp => Sys2Proof.Machine.execFill bpp s
  | .blit sbpp dbpp => Sys2Proof.Machine.execBlit sbpp dbpp s

end Sys2Proof.Machine
end

