-- ==== Sys2Proof/Machine/Flags.lean ====
section
/-! DEFINITION. The block's flags (`10_state.md` R41): STATUS and CTRL as the words the host reads and writes
(R26, R27), the error codes' numbers (`60_exceptions.md` R291), and the interrupt output (R297). -/

namespace Sys2Proof.Machine

/-- The value of STATUS.ERR for each code (R291). -/
def ErrCode.code : ErrCode → Nat
  | .noError => 0 | .illegal => 1 | .notCfg => 2 | .unsupported => 3 | .precond => 4
  | .align => 5 | .bounds => 6 | .noMem => 7 | .laneRange => 8

/-- STATUS as the host reads it (R27): bits 7:4 and 31:16 are reserved and read as 0. -/
def Status.word (st : Status) : Word :=
  BitVec.ofNat 32 (st.busy.toNat + 2 * st.done.toNat + 4 * st.fail.toNat + 8 * st.ovr.toNat + 256 * st.err.code)

/-- A host write to STATUS (R27): write 1 to clear DONE, FAIL (and with it ERR) and OVR; BUSY and ERR are
read-only. -/
def Status.hostWrite (st : Status) (v : Word) : Status :=
  { busy := st.busy
    done := st.done && !v.getLsbD 1
    fail := st.fail && !v.getLsbD 2
    ovr := st.ovr && !v.getLsbD 3
    err := if v.getLsbD 2 then .noError else st.err }

/-- STATUS after a host write was dropped because the block is busy (R298). -/
def Status.withOvr (st : Status) : Status := { st with ovr := true }

/-- CTRL as the host reads it (R26). -/
def Ctrl.word (c : Ctrl) : Word := BitVec.ofNat 32 (c.cfgLock.toNat + 2 * c.irqEn.toNat)

/-- A host write to CTRL (R26): CFG_LOCK is set-only, IRQ_EN read-write. -/
def Ctrl.hostWrite (c : Ctrl) (v : Word) : Ctrl :=
  { cfgLock := c.cfgLock || v.getLsbD 0, irqEn := v.getLsbD 1 }

/-- The interrupt output (R297), a function of CTRL and STATUS. -/
def State.irq (s : State) : Bool := s.ctrl.irqEn && (s.status.done || s.status.fail)

end Sys2Proof.Machine
end

