-- ==== Sys2Proof/Machine/HostPort.lean ====
section
/-! DEFINITION. What the outside world does to the block: the CSR window (`10_state.md` R24 to R38), host accesses while
a command runs (`60_exceptions.md` R298, R299), host and other instances' memory accesses (`20_memory.md` R72,
`60_exceptions.md` R306) and reset (`70_reset_and_hazards.md` R330, R331). -/

namespace Sys2Proof.Machine

/-! The CSR map. -/

/-- A descriptor set (R31). -/
inductive BufId where
  | dst | src | msk
  deriving DecidableEq, Repr

/-- A register of a descriptor set (R31). -/
inductive BufReg where
  | base | stride | width | height | x | y
  deriving DecidableEq, Repr

/-- A transform register (R34). -/
inductive XformReg where
  | a | b | c | d | e | f
  deriving DecidableEq, Repr

/-- The CSRs by name. -/
inductive Csr where
  | id | ctrl | status | cmd | kenU | kenCa
  | buf (b : BufId) (r : BufReg)
  | rectW | rectH | solidSrc | solidMsk | fillValue
  | xform (r : XformReg)
  | scrBase | scrLen | cacheDecodes | cacheHits
  | slotState (i : SlotId) | slotTag (i : SlotId)
  | laneHalf (r : LReg) (h : WHalf)
  deriving DecidableEq, Repr

/-- A descriptor set's base offset (R31). -/
def BufId.offset : BufId → Nat
  | .dst => 0x020 | .src => 0x040 | .msk => 0x060

/-- A descriptor register's offset in its set (R31). -/
def BufReg.offset : BufReg → Nat
  | .base => 0x00 | .stride => 0x04 | .width => 0x08 | .height => 0x0C | .x => 0x10 | .y => 0x14

/-- A transform register's offset (R34). -/
def XformReg.offset : XformReg → Nat
  | .a => 0x0A0 | .b => 0x0A4 | .c => 0x0A8 | .d => 0x0AC | .e => 0x0B0 | .f => 0x0B4

/-- A CSR's offset in the window (R25 to R38). -/
def Csr.offset : Csr → Nat
  | .id => 0x000 | .ctrl => 0x004 | .status => 0x008 | .cmd => 0x00C | .kenU => 0x010 | .kenCa => 0x014
  | .buf b r => b.offset + r.offset
  | .rectW => 0x080 | .rectH => 0x084 | .solidSrc => 0x088 | .solidMsk => 0x08C | .fillValue => 0x090
  | .xform r => r.offset
  | .scrBase => 0x0C0 | .scrLen => 0x0C4 | .cacheDecodes => 0x0D0 | .cacheHits => 0x0D4
  | .slotState i => 0x0E0 + 8 * i.toNat
  | .slotTag i => 0x0E4 + 8 * i.toNat
  | .laneHalf r h => 0x100 + 8 * r.toNat + 4 * h.code

/-- The lane registers in order. -/
def allLanes : List LReg := [.w0, .w1, .w2, .w3, .w4, .w5, .w6, .w7]

/-- Every CSR. -/
def allCsrs : List Csr :=
  [.id, .ctrl, .status, .cmd, .kenU, .kenCa]
    ++ ([BufId.dst, .src, .msk].flatMap fun b =>
        [BufReg.base, .stride, .width, .height, .x, .y].map fun r => Csr.buf b r)
    ++ [.rectW, .rectH, .solidSrc, .solidMsk, .fillValue]
    ++ ([XformReg.a, .b, .c, .d, .e, .f].map fun r => Csr.xform r)
    ++ [.scrBase, .scrLen, .cacheDecodes, .cacheHits]
    ++ ([SlotId.s0, .s1].flatMap fun i => [Csr.slotState i, Csr.slotTag i])
    ++ (allLanes.flatMap fun r => [Csr.laneHalf r .lo, Csr.laneHalf r .hi])

/-- The CSR at an offset, if the offset names one (R24). -/
def Csr.at? (offset : Nat) : Option Csr := allCsrs.find? fun r => r.offset == offset

/-- The offset in the window of a host address, if it lies in the window at `CSR_BASE` (R6, R24). -/
def csrOffset? (p : Config.Params) (hostAddr : Nat) : Option (BitVec 12) :=
  if p.csrBase ≤ hostAddr ∧ hostAddr < p.csrBase + 4096 then some (BitVec.ofNat 12 (hostAddr - p.csrBase)) else none

/-- A host access that starts below the window and reaches into it. -/
def reachesWindow (p : Config.Params) (hostAddr size : Nat) : Bool :=
  decide (hostAddr < p.csrBase) && decide (p.csrBase < hostAddr + size)

/-- An access the window accepts: 32 bits wide at a 4-byte-aligned offset (R24). -/
def csrAccessOk (offset : BitVec 12) (size : Nat) : Bool := size == 4 && decide (offset.toNat % 4 = 0)

/-! Reading CSRs. -/

/-- The descriptor set by name. -/
def Conf.buf (c : Conf) : BufId → BufDesc
  | .dst => c.dst | .src => c.src | .msk => c.msk

/-- A descriptor register as a word; reserved bits read as 0 (R24, R31). -/
def BufDesc.word (p : BufDesc) : BufReg → Word
  | .base => p.base | .stride => p.stride | .width => p.width.setWidth 32 | .height => p.height.setWidth 32
  | .x => p.x.setWidth 32 | .y => p.y.setWidth 32

/-- A transform register. -/
def Transform.word (t : Transform) : XformReg → Word
  | .a => t.a | .b => t.b | .c => t.c | .d => t.d | .e => t.e | .f => t.f

/-- A slot's STATE register (R37). -/
def Slot.stateWord (sl : Slot) : Word := BitVec.ofNat 32 (sl.valid.toNat + 2 * sl.lock.toNat)

/-- What a CSR holds; none for a lane register half never written (R22, R38). -/
def State.csrWord (s : State) : Csr → Option Word
  | .id => some 0x50580001#32
  | .ctrl => some s.ctrl.word
  | .status => some s.status.word
  | .cmd => some s.cmd
  | .kenU => some (s.conf.kenU.setWidth 32)
  | .kenCa => some (s.conf.kenCa.setWidth 32)
  | .buf b r => some ((s.conf.buf b).word r)
  | .rectW => some (s.conf.rectW.setWidth 32)
  | .rectH => some (s.conf.rectH.setWidth 32)
  | .solidSrc => some s.conf.solidSrc
  | .solidMsk => some s.conf.solidMsk
  | .fillValue => some s.conf.fillValue
  | .xform r => some (s.conf.xform.word r)
  | .scrBase => some s.conf.scrBase
  | .scrLen => some s.conf.scrLen
  | .cacheDecodes => some s.cache.decodes
  | .cacheHits => some s.cache.hits
  | .slotState i => some (s.cache.slot i).stateWord
  | .slotTag i => some ((s.cache.slot i).tag.setWidth 32)
  | .laneHalf r h => (s.regs.get r).readHalf? h

/-- The bits of a working register, whose value a read returns unspecified while the block is busy (R299); none for
the registers that return their values. -/
def Csr.busyWidth? : Csr → Option Nat
  | .cacheDecodes => some 32 | .cacheHits => some 32
  | .slotState _ => some 2 | .slotTag _ => some 16
  | .laneHalf _ _ => some 32
  | .id => none | .ctrl => none | .status => none | .cmd => none | .kenU => none | .kenCa => none
  | .buf _ _ => none | .rectW => none | .rectH => none | .solidSrc => none | .solidMsk => none
  | .fillValue => none | .xform _ => none | .scrBase => none | .scrLen => none

/-- A fresh free value of `n` bits (R299, R24: reserved bits read as 0). -/
def State.freeBits (s : State) (n : Nat) : Word := BitVec.ofNat 32 ((Config.freeWord s.draws).toNat % 2 ^ n)

/-- A host read of a CSR: its value, a free value for a working register of a busy block, or
`fault Contract(UNWRITTEN_W)` for an unwritten half. -/
def State.readCsr (s : State) (r : Csr) : Host.Outcome State Fault Refusal :=
  match s.csrWord r with
  | none => .fault .unwrittenW
  | some v =>
    match s.status.busy, r.busyWidth? with
    | true, some n => .next (s.withHostData (s.freeBits n)).drawn
    | _, _ => .next (s.withHostData v)

/-- A host read of the window (R24): an offset that names no CSR reads as 0. -/
def csrRead (offset : BitVec 12) (size : Nat) (s : State) : Host.Outcome State Fault Refusal :=
  if !csrAccessOk offset size then .fault .csrAccess
  else
    match Csr.at? offset.toNat with
    | none => .next (s.withHostData 0)
    | some r => s.readCsr r

/-! Writing CSRs. -/

/-- A descriptor register written (R31): bits 31:16 of the 16-bit ones are reserved. -/
def BufDesc.write (p : BufDesc) (r : BufReg) (v : Word) : BufDesc :=
  match r with
  | .base => { p with base := v }
  | .stride => { p with stride := v }
  | .width => { p with width := v.setWidth 16 }
  | .height => { p with height := v.setWidth 16 }
  | .x => { p with x := v.setWidth 16 }
  | .y => { p with y := v.setWidth 16 }

/-- A transform register written (R34). -/
def Transform.write (t : Transform) (r : XformReg) (v : Word) : Transform :=
  match r with
  | .a => { t with a := v } | .b => { t with b := v } | .c => { t with c := v }
  | .d => { t with d := v } | .e => { t with e := v } | .f => { t with f := v }

/-- A descriptor set replaced. -/
def Conf.setBuf (c : Conf) (b : BufId) (p : BufDesc) : Conf :=
  match b with
  | .dst => { c with dst := p } | .src => { c with src := p } | .msk => { c with msk := p }

/-- A host write to a CSR of an idle block. CMD issues a command (R28, R296); the kernel-enable registers are
read-only under CFG_LOCK (R29, R30); writes to read-only registers are ignored (R25, R36, R37). -/
def State.writeCsr (s : State) (r : Csr) (v : Word) : State :=
  match r with
  | .id => s
  | .ctrl => s.withCtrl (s.ctrl.hostWrite v)
  | .status => s.withStatus (s.status.hostWrite v)
  | .cmd => s.accept v
  | .kenU => if s.ctrl.cfgLock then s else s.withConf { s.conf with kenU := v.setWidth 12 }
  | .kenCa => if s.ctrl.cfgLock then s else s.withConf { s.conf with kenCa := v.setWidth 12 }
  | .buf b r => s.withConf (s.conf.setBuf b ((s.conf.buf b).write r v))
  | .rectW => s.withConf { s.conf with rectW := v.setWidth 16 }
  | .rectH => s.withConf { s.conf with rectH := v.setWidth 16 }
  | .solidSrc => s.withConf { s.conf with solidSrc := v }
  | .solidMsk => s.withConf { s.conf with solidMsk := v }
  | .fillValue => s.withConf { s.conf with fillValue := v }
  | .xform r => s.withConf { s.conf with xform := s.conf.xform.write r v }
  | .scrBase => s.withConf { s.conf with scrBase := v }
  | .scrLen => s.withConf { s.conf with scrLen := v }
  | .cacheDecodes => s
  | .cacheHits => s
  | .slotState _ => s
  | .slotTag _ => s
  | .laneHalf r h => s.withRegs (s.regs.set r ((s.regs.get r).setHalf h v))

/-- A host write to a CSR while the block is busy (R298): STATUS acts normally; any other is dropped and sets
OVR. -/
def State.writeCsrBusy (s : State) (r : Csr) (v : Word) : State :=
  if r = .status then s.withStatus (s.status.hostWrite v) else s.withStatus s.status.withOvr

/-! The running command's sets. -/

/-- What the checks decide for an instruction on this state; a lane instruction and NOP make no access (R60). -/
def instrPlan (s : State) : Instr → Plan
  | .fill bpp => fillPlan bpp s.conf
  | .blit sbpp dbpp => blitPlan sbpp dbpp s.conf
  | .compositeSrc k => compositePlan Config.params .src k s.ctrl s.conf
  | .compositeOver k => compositePlan Config.params .over k s.ctrl s.conf
  | .compositeOverReverse k => compositePlan Config.params .overReverse k s.ctrl s.conf
  | .compositeIn k => compositePlan Config.params .srcIn k s.ctrl s.conf
  | .compositeInReverse k => compositePlan Config.params .inReverse k s.ctrl s.conf
  | .compositeOut k => compositePlan Config.params .out k s.ctrl s.conf
  | .compositeOutReverse k => compositePlan Config.params .outReverse k s.ctrl s.conf
  | .compositeAtop k => compositePlan Config.params .atop k s.ctrl s.conf
  | .compositeAtopReverse k => compositePlan Config.params .atopReverse k s.ctrl s.conf
  | .compositeXor k => compositePlan Config.params .xor k s.ctrl s.conf
  | .compositeAdd k => compositePlan Config.params .add k s.ctrl s.conf
  | .compositeSaturate k => compositePlan Config.params .saturate k s.ctrl s.conf
  | .nop => .noAccess
  | .lmul _ _ _ => .noAccess
  | .lmuladd _ _ _ _ _ => .noAccess
  | .ladds _ _ _ => .noAccess
  | .lneg _ _ => .noAccess
  | .lbca _ _ => .noAccess
  | .lbcl _ _ => .noAccess
  | .lswaprb _ _ => .noAccess
  | .lunpk32 _ _ _ => .noAccess
  | .lpack32 _ _ => .noAccess
  | .lunpk565 _ _ _ => .noAccess
  | .lpack565 _ _ _ _ => .noAccess
  | .linterp _ _ _ _ _ => .noAccess

/-- What the memory commands write when their pixel phase runs, oldest first. -/
def runWrites (s : State) : Instr → List StoreOp
  | .fill bpp => (fillRun bpp s.conf s.mem).log.reverse
  | .blit sbpp _ => (blitRun (sbpp / 8) s.conf s.mem).log.reverse
  | .compositeSrc k => (compositeRun Config.params .src k s.conf s.mem s.cache).bus.log.reverse
  | .compositeOver k => (compositeRun Config.params .over k s.conf s.mem s.cache).bus.log.reverse
  | .compositeOverReverse k => (compositeRun Config.params .overReverse k s.conf s.mem s.cache).bus.log.reverse
  | .compositeIn k => (compositeRun Config.params .srcIn k s.conf s.mem s.cache).bus.log.reverse
  | .compositeInReverse k => (compositeRun Config.params .inReverse k s.conf s.mem s.cache).bus.log.reverse
  | .compositeOut k => (compositeRun Config.params .out k s.conf s.mem s.cache).bus.log.reverse
  | .compositeOutReverse k => (compositeRun Config.params .outReverse k s.conf s.mem s.cache).bus.log.reverse
  | .compositeAtop k => (compositeRun Config.params .atop k s.conf s.mem s.cache).bus.log.reverse
  | .compositeAtopReverse k => (compositeRun Config.params .atopReverse k s.conf s.mem s.cache).bus.log.reverse
  | .compositeXor k => (compositeRun Config.params .xor k s.conf s.mem s.cache).bus.log.reverse
  | .compositeAdd k => (compositeRun Config.params .add k s.conf s.mem s.cache).bus.log.reverse
  | .compositeSaturate k => (compositeRun Config.params .saturate k s.conf s.mem s.cache).bus.log.reverse
  | .nop => []
  | .lmul _ _ _ => []
  | .lmuladd _ _ _ _ _ => []
  | .ladds _ _ _ => []
  | .lneg _ _ => []
  | .lbca _ _ => []
  | .lbcl _ _ => []
  | .lswaprb _ _ => []
  | .lunpk32 _ _ _ => []
  | .lpack32 _ _ => []
  | .lunpk565 _ _ _ => []
  | .lpack565 _ _ _ _ => []
  | .linterp _ _ _ _ _ => []

/-- What a command writes, oldest first: nothing when it fails or makes no access. -/
def instrWrites (s : State) (i : Instr) : List StoreOp :=
  match instrPlan s i with
  | .run _ => runWrites s i
  | .fail _ => []
  | .noAccess => []

/-- The sets of the command a busy block runs (R68); an idle block has none. -/
def State.runningFootprint (s : State) : Footprint :=
  if s.status.busy then
    match decodeWord s.cmd with
    | .ok i => (instrPlan s i).footprint
    | .error _ => .empty
  else .empty

/-- A command of another instance clashes with the one this block runs (R306). -/
def State.clashesWithPeer (s : State) : Bool := s.peers.any fun q => s.runningFootprint.clashes q.sets

/-! Writing the window. -/

/-- A write to an idle block has left it in this state. If the write issued a command, that command now runs at once
with those of the other instances, which is `fault Contract(ALIAS)` if their sets clash (R306). That ALIAS is also named
where the command's own sets meet device or unanswered memory is the model's choice (log entry 12). -/
def State.afterWrite (s : State) : Host.Outcome State Fault Refusal :=
  if s.clashesWithPeer then .fault .aliasing else .next s

/-- A host write to the window (R24): an offset that names no CSR ignores it. -/
def csrWrite (offset : BitVec 12) (size : Nat) (v : Word) (s : State) : Host.Outcome State Fault Refusal :=
  if !csrAccessOk offset size then .fault .csrAccess
  else
    match Csr.at? offset.toNat with
    | none => .next s
    | some r =>
      if s.status.busy then .next (s.writeCsrBusy r v) else (s.writeCsr r v).afterWrite

/-! Memory accesses from outside. -/

/-- The address is backed by ordinary memory (R65). -/
def platformOk (platform : List Region) (x : Access) : Bool := !anyMeet [x] (platform.map Region.span)

/-- Every byte of the sets of the commands that run, this block's and the other instances'. -/
def State.bytesInUse (s : State) : List Access :=
  s.runningFootprint.reads ++ s.runningFootprint.writes ++ s.peers.flatMap fun q => q.sets.reads ++ q.sets.writes

/-- A host access to memory (R60, R72): a byte of a running command's sets is `fault Contract(HOST_RACE)`. -/
def hostAccess (x : Access) (s : State) (go : State) : Host.Outcome State Fault Refusal :=
  if anyMeet [x] s.bytesInUse then .fault .hostRace
  else if !platformOk s.platform x then .refused .platformAccess
  else .next go

/-! Other instances (R306). There are as many of them as NUM_INSTANCES says; an action of one that does not exist does
nothing. -/

/-- The command another instance runs, if it runs one. -/
def State.peerRun (s : State) (peer : Nat) : Option PeerRun := s.peers.find? fun q => q.peer == peer

/-- Another instance starts a command. Its own sets must keep the contract (R65, R69, R76), and must not clash with those
of a command that this block or a third instance runs at once (R306). Which reason is named where both hold is the
model's choice (log entry 12). An instance that runs a command starts none. -/
def peerStart (peer : Nat) (sets : Footprint) (s : State) : Host.Outcome State Fault Refusal :=
  if peer < Config.params.otherInstances ∧ s.peerRun peer = none then
    match sets.contractFault s.platform with
    | some f => .fault f
    | none =>
      if s.runningFootprint.clashes sets || s.peers.any (fun q => sets.clashes q.sets) then .fault .aliasing
      else .next (s.withPeers ({ peer, sets } :: s.peers))
  else .next s

/-- Another instance's command ends. -/
def peerEnd (peer : Nat) (s : State) : State := s.withPeers (s.peers.filter fun q => q.peer != peer)

/-- A memory access of another instance. It may not write what this block's running command reads or writes, nor read
what it writes (R306). An instance makes no access outside the sets of a command it runs (`20_memory.md` R68), so such an
action does nothing. -/
def peerAccess (peer : Nat) (x : Access) (isWrite : Bool) (s : State) (go : State) :
    Host.Outcome State Fault Refusal :=
  let fp := s.runningFootprint
  if peer < Config.params.otherInstances then
    if anyMeet [x] (if isWrite then fp.reads ++ fp.writes else fp.writes) then .fault .aliasing
    else
      match s.peerRun peer with
      | none => .next s
      | some q => if coveredBy (if isWrite then q.sets.writes else q.sets.reads) x then .next go else .next s
  else .next s

/-! Reset. -/

/-- The block after reset, in the same surroundings, over a memory (R330). -/
def State.resetBlock (s : State) (m : Memory) : State :=
  { State.reset with
    mem := m
    platform := s.platform
    peers := s.peers
    inputs := s.inputs
    hostData := s.hostData
    draws := s.draws + 1 }

/-- The writes of an abandoned command that were performed: any subset (R331), position `n` on. -/
def performed (draw : Nat) : Nat → List StoreOp → Memory → Memory
  | _, [], m => m
  | n, st :: rest, m => performed draw (n + 1) rest (if Config.freeBit draw n then m.apply st else m)

/-- Reset (R330, R331). Memory is unchanged by it; a busy block's command is abandoned with any subset of its writes
performed. Two points are the model's (log entry 19): a command whose sets break the contract leaves the faulted outcome
of R300, and an accepted lane instruction that names an unwritten half leaves the reset state, since it has not read the
half before its turn. -/
def hostReset (s : State) : Host.Outcome State Fault Refusal :=
  if s.status.busy then
    match decodeWord s.cmd with
    | .error _ => .next (s.resetBlock s.mem)
    | .ok i =>
      match (instrPlan s i).footprint.contractFault s.platform with
      | some f => .fault f
      | none => .next (s.resetBlock (performed s.draws 0 (instrWrites s i) s.mem))
  else .next (s.resetBlock s.mem)

/-! One action. -/

/-- A bus access that does not start in the CSR window is none to this block (R42), unless it reaches into the window,
which is no aligned 32-bit access (R24, log entry 22). -/
def busAccessOutside (hostAddr size : Nat) (s : State) : Host.Outcome State Fault Refusal :=
  if reachesWindow Config.params hostAddr size then .fault .csrAccess else .next s

/-- What an action of the outside world does. -/
def hostAct (a : HostAction) (s : State) : Host.Outcome State Fault Refusal :=
  match a with
  | .csrWrite offset size v => csrWrite offset size v s
  | .csrRead offset size => csrRead offset size s
  | .busWrite hostAddr size v =>
    match csrOffset? Config.params hostAddr with
    | some offset => csrWrite offset size v s
    | none => busAccessOutside hostAddr size s
  | .busRead hostAddr size =>
    match csrOffset? Config.params hostAddr with
    | some offset => csrRead offset size s
    | none => busAccessOutside hostAddr size s
  | .memWrite addr size v =>
    hostAccess { addr, size } s (s.withMem (s.mem.write addr size v.toNat))
  | .memRead addr size =>
    hostAccess { addr, size } s (s.withHostData (BitVec.ofNat 32 (s.mem.read addr size)))
  | .peerStart peer sets => peerStart peer sets s
  | .peerEnd peer => .next (peerEnd peer s)
  | .peerWrite peer addr size v =>
    peerAccess peer { addr, size } true s (s.withMem (s.mem.write addr size v.toNat))
  | .peerRead peer addr size => peerAccess peer { addr, size } false s s
  | .reset => hostReset s

end Sys2Proof.Machine
end

