-- ==== Sys2Proof/Machine/Step.lean ====
section
/-! DEFINITION. One step: the turn that comes next is the outside world's or the block's. The block fetches nothing
from memory (`10_state.md` R23): what it runs is the word in CMD that it has accepted (`60_exceptions.md` R296). -/

namespace Sys2Proof.Machine

/-- The block's turn. A busy block executes the command in CMD to its end, or ends it with ILLEGAL when the word
is no command (R106); an idle block does nothing (R308). -/
def blockTurn (s : State) : Host.Outcome State Fault Refusal :=
  if s.status.busy then
    match decodeWord s.cmd with
    | .ok i => exec i s
    | .error _ => s.conclude (.error .illegal)
  else .next s

/-- One step. With no turn waiting it is the block's. -/
def step (s : State) : Host.Outcome State Fault Refusal :=
  match s.inputs with
  | [] => blockTurn s
  | .block :: rest => blockTurn (s.withInputs rest)
  | .host a :: rest => hostAct a (s.withInputs rest)

/-- The state in which the block has just accepted the command word and moves next: `step` of it runs exactly that
word. (The word's bits from `nbits` on are 0.) -/
def State.withFetchWord (s : State) (nbits w : Nat) : State :=
  (s.accept (BitVec.ofNat 32 (w % 2 ^ nbits))).withInputs (.block :: s.inputs)

end Sys2Proof.Machine
end

