-- ==== Sys2Proof/Safety.lean ====
section
/-! DEFINITION. The terms claims use: the invariant of the block, what a step needs of its surroundings so that it does
not stop, which bytes a list of accesses covers, and the picture a COMPOSITE paints, said without the cache. -/

namespace Sys2Proof.Machine

/-! Bytes and lanes. -/

/-- The address is a byte of some access of the list. -/
def Covers (l : List Access) (a : Word) : Prop := ∃ x ∈ l, x.covers a = true

/-- The two memories hold the same byte at every address the list of accesses does not cover. -/
def SameOutside (l : List Access) (m m' : Memory) : Prop :=
  ∀ a : Word, ¬ Covers l a → Memory.readByte m a.toNat = Memory.readByte m' a.toNat

/-- Every lane of the value is a byte: the values the operators see (`42_compositing.md` R201, R202). -/
def LanesAreBytes (v : Wide) : Prop := ∀ k < 4, laneNat v k ≤ 255

/-- Both halves of a lane register are written, so a lane instruction may read it (`10_state.md` R22). -/
def State.Readable (s : State) (r : LReg) : Prop :=
  (s.regs.get r).loWritten = true ∧ (s.regs.get r).hiWritten = true

/-- The value a lane register holds. -/
def State.laneValue (s : State) (r : LReg) : Wide := (s.regs.get r).value

/-! The CSR summary (`10_state.md` section 3), without the lane register window. -/

/-- ID to KEN_CA. -/
def csrSummaryControl : List (Nat × Csr) :=
  [(0x000, .id), (0x004, .ctrl), (0x008, .status), (0x00C, .cmd), (0x010, .kenU), (0x014, .kenCa)]

/-- The three descriptor sets. -/
def csrSummaryBuffers : List (Nat × Csr) :=
  [(0x020, .buf .dst .base), (0x024, .buf .dst .stride), (0x028, .buf .dst .width), (0x02C, .buf .dst .height),
    (0x030, .buf .dst .x), (0x034, .buf .dst .y), (0x040, .buf .src .base), (0x044, .buf .src .stride),
    (0x048, .buf .src .width), (0x04C, .buf .src .height), (0x050, .buf .src .x), (0x054, .buf .src .y),
    (0x060, .buf .msk .base), (0x064, .buf .msk .stride), (0x068, .buf .msk .width), (0x06C, .buf .msk .height),
    (0x070, .buf .msk .x), (0x074, .buf .msk .y)]

/-- RECT_W to SLOT1_TAG. -/
def csrSummaryRest : List (Nat × Csr) :=
  [(0x080, .rectW), (0x084, .rectH), (0x088, .solidSrc), (0x08C, .solidMsk), (0x090, .fillValue), (0x0A0, .xform .a),
    (0x0A4, .xform .b), (0x0A8, .xform .c), (0x0AC, .xform .d), (0x0B0, .xform .e), (0x0B4, .xform .f),
    (0x0C0, .scrBase), (0x0C4, .scrLen), (0x0D0, .cacheDecodes), (0x0D4, .cacheHits), (0x0E0, .slotState .s0),
    (0x0E4, .slotTag .s0), (0x0E8, .slotState .s1), (0x0EC, .slotTag .s1)]

/-- Offsets and the registers they name. -/
def csrSummary : List (Nat × Csr) := csrSummaryControl ++ csrSummaryBuffers ++ csrSummaryRest

/-! How a command ends. -/

/-- STATUS after success (`60_exceptions.md` R296): DONE alone, OVR kept. -/
def Status.doneWith (st : Status) : Status :=
  { busy := false, done := true, fail := false, ovr := st.ovr, err := .noError }

/-- STATUS after a failure (R290): FAIL and its code, OVR kept. -/
def Status.failWith (st : Status) (c : ErrCode) : Status :=
  { busy := false, done := false, fail := true, ovr := st.ovr, err := c }

/-- The state after a command that did nothing else than succeed. -/
def State.ended (s : State) : State := { s with status := s.status.doneWith }

/-- The state after a command that failed: STATUS changed, and nothing else (R290). -/
def State.failed (s : State) (c : ErrCode) : State := { s with status := s.status.failWith c }

/-- The state after a lane instruction that wrote `v` to `rd`: both written marks set, the other registers kept
(`40_lane_arith.md` R120). -/
def State.laneDone (s : State) (rd : LReg) (v : Wide) : State :=
  { s.ended with regs := s.regs.set rd { value := v, loWritten := true, hiWritten := true } }

/-- The state of the block right after reset (`70_reset_and_hazards.md` R330): every CSR at its reset value, no half of
a lane register written, both slots empty, idle, and no interrupt. -/
def IsResetState (t : State) : Prop :=
  (∀ r : Csr, (∀ q h, r ≠ .laneHalf q h) → t.csrWord r = some (if r = .id then 0x50580001#32 else 0#32)) ∧
    (∀ q h, (t.regs.get q).written h = false ∧ t.csrWord (.laneHalf q h) = none) ∧
    (∀ i, (t.cache.slot i).valid = false ∧ (t.cache.slot i).lock = false ∧ (t.cache.slot i).tag = 0) ∧
    t.status.busy = false ∧ t.irq = false

/-! Arithmetic in closed form. -/

/-- The correction that ends `mul8` and `muladd8` (`40_lane_arith.md` R121, R122), from the biased sum of the products. -/
def rounded (t : Nat) : Nat := min (min t 0xFFFF + min t 0xFFFF / 256) 0xFFFF / 256

/-- Channel `k` of a packed 32-bit pixel as a number (`41_format_codec.md` R150). -/
def channel (p : Nat) (k : Nat) : Nat := p / 256 ^ k % 256

/-- Byte `n` from an address on, as a number. -/
def byteAt (m : Memory) (a : Word) (n : Nat) : Nat := (Memory.readByte m (a + BitVec.ofNat 32 n).toNat).toNat

/-- The lanes of a stored pixel, from its bytes: what `LoadPixel` gives (`41_format_codec.md` R158), the RGB565 channels
replicated upwards (R154), a reversed non-premultiplied pixel with red and blue exchanged and then multiplied by its
alpha (R159). -/
def storedLane (f : Fmt) (m : Memory) (a : Word) (n : Nat) : Nat :=
  let b := byteAt m a
  let h := b 0 + 256 * b 1
  match f, n with
  | .argb32, n => b n
  | .rgb565, 0 => h % 32 * 8 + h % 32 / 4
  | .rgb565, 1 => h / 32 % 64 * 4 + h / 32 % 64 / 16
  | .rgb565, 2 => h / 2048 * 8 + h / 2048 / 4
  | .rgb565, _ => 255
  | .a8, 3 => b 0
  | .a8, _ => 0
  | .argb32Npr, 0 => rounded (b 2 * b 3 + 128)
  | .argb32Npr, 1 => rounded (b 1 * b 3 + 128)
  | .argb32Npr, 2 => rounded (b 0 * b 3 + 128)
  | .argb32Npr, _ => b 3

/-! The opcode table (`30_encoding.md` section 4). -/

/-- The row's match and mask. -/
def tablePattern : Instr → Word × Word
  | .nop => (0x00000000#32, 0xFFFFFFFF#32)
  | .lmul _ _ _ => (0x04000000#32, 0xFC01FFFF#32)
  | .lmuladd _ _ _ _ _ => (0x08000000#32, 0xFC0007FF#32)
  | .ladds _ _ _ => (0x0C000000#32, 0xFC01FFFF#32)
  | .lneg _ _ => (0x10000000#32, 0xFC0FFFFF#32)
  | .lbca _ _ => (0x14000000#32, 0xFC0FFFFF#32)
  | .lbcl _ _ => (0x18000000#32, 0xFC0FFFFF#32)
  | .lswaprb _ _ => (0x1C000000#32, 0xFC0FFFFF#32)
  | .lunpk32 _ _ _ => (0x20000000#32, 0xFC0FFDFF#32)
  | .lpack32 _ _ => (0x24000000#32, 0xFC0FFFFF#32)
  | .lunpk565 _ _ _ => (0x28000000#32, 0xFC0FF9FF#32)
  | .lpack565 _ _ _ _ => (0x2C000000#32, 0xFC01F9FF#32)
  | .linterp _ _ _ _ _ => (0x30000000#32, 0xFC000001#32)
  | .compositeSrc _ => (0x80000000#32, 0xFFC0003F#32)
  | .compositeOver _ => (0x80400000#32, 0xFFC0003F#32)
  | .compositeOverReverse _ => (0x80800000#32, 0xFFC0003F#32)
  | .compositeIn _ => (0x80C00000#32, 0xFFC0003F#32)
  | .compositeInReverse _ => (0x81000000#32, 0xFFC0003F#32)
  | .compositeOut _ => (0x81400000#32, 0xFFC0003F#32)
  | .compositeOutReverse _ => (0x81800000#32, 0xFFC0003F#32)
  | .compositeAtop _ => (0x81C00000#32, 0xFFC0003F#32)
  | .compositeAtopReverse _ => (0x82000000#32, 0xFFC0003F#32)
  | .compositeXor _ => (0x82400000#32, 0xFFC0003F#32)
  | .compositeAdd _ => (0x82800000#32, 0xFFC0003F#32)
  | .compositeSaturate _ => (0x82C00000#32, 0xFFC0003F#32)
  | .fill _ => (0x84000000#32, 0xFC0FFFFF#32)
  | .blit _ _ => (0x88000000#32, 0xFC003FFF#32)

/-- A COMPOSITE word holds a value R102 to R104 reserve: MMODE 3, a format above 3, or SAMPLE 3 (R106(c)). -/
def reservedInK (w : Word) : Prop :=
  w.extractLsb' 20 2 = 3#2 ∨ 4 ≤ (w.extractLsb' 17 3).toNat ∨ 4 ≤ (w.extractLsb' 14 3).toNat ∨
    4 ≤ (w.extractLsb' 11 3).toNat ∨ w.extractLsb' 9 2 = 3#2

/-- The instruction is a COMPOSITE. -/
def isComposite (i : Instr) : Prop := ∃ op k, i = .composite k op

/-! The invariant. -/

/-- What holds of the block at reset and after every step. -/
structure State.Inv (s : State) : Prop where
  /-- memory is in its canonical form -/
  memory : s.mem.wf
  /-- a running command has reported nothing yet (`60_exceptions.md` R296) -/
  running : s.status.busy = true → s.status.done = false ∧ s.status.fail = false
  /-- a command ends with success or with failure, not both (R296) -/
  ended : ¬ (s.status.done = true ∧ s.status.fail = true)
  /-- an error code stands exactly while FAIL does (R290, R291, `10_state.md` R27) -/
  errorCode : s.status.fail = true ↔ s.status.err ≠ .noError
  /-- between steps no cache instance exists: both slots invalid, unlocked and without data (R37, R39, R247) -/
  slots : ∀ i, (s.cache.slot i).valid = false ∧ (s.cache.slot i).lock = false ∧ (s.cache.slot i).data = []
  /-- the running command does not clash with those of the other instances (R306) -/
  apart : s.clashesWithPeer = false
  /-- each other instance runs one command at most, and their commands do not clash among themselves (R306) -/
  peersApart : s.peers.Pairwise fun q q' => q.peer ≠ q'.peer ∧ q.sets.clashes q'.sets = false
  /-- the other instances that run a command exist, and their commands keep the contract (R65, R69, R76) -/
  peersKeepContract :
    ∀ q ∈ s.peers, q.peer < Config.params.otherInstances ∧ q.sets.contractFault s.platform = none

/-! Safe steps. -/

/-- Some byte of the accesses lies in a part of the platform of one kind (`20_memory.md` R65, R76). -/
def State.Touches (s : State) (kind : RegionKind) (l : List Access) : Prop :=
  ∃ a, Covers l a ∧ ∃ r ∈ s.platform, r.kind = kind ∧ r.span.covers a = true

/-- The halves of lane registers an instruction reads (`40_lane_arith.md` R120; `41_format_codec.md` R151 for
LUNPK32). -/
def readsHalves : Instr → List (LReg × WHalf)
  | .lmul _ ra rb => [(ra, .lo), (ra, .hi), (rb, .lo), (rb, .hi)]
  | .lmuladd _ ra rb rc re =>
    [(ra, .lo), (ra, .hi), (rb, .lo), (rb, .hi), (rc, .lo), (rc, .hi), (re, .lo), (re, .hi)]
  | .ladds _ ra rb => [(ra, .lo), (ra, .hi), (rb, .lo), (rb, .hi)]
  | .lneg _ ra => [(ra, .lo), (ra, .hi)]
  | .lbca _ ra => [(ra, .lo), (ra, .hi)]
  | .lbcl _ ra => [(ra, .lo), (ra, .hi)]
  | .lswaprb _ ra => [(ra, .lo), (ra, .hi)]
  | .lunpk32 _ ra half => [(ra, half)]
  | .lpack32 _ ra => [(ra, .lo), (ra, .hi)]
  | .lunpk565 _ ra _ => [(ra, .lo), (ra, .hi)]
  | .lpack565 _ ra rb _ => [(ra, .lo), (ra, .hi), (rb, .lo), (rb, .hi)]
  | .linterp _ ra rb _ _ => [(ra, .lo), (ra, .hi), (rb, .lo), (rb, .hi)]
  | .nop => []
  | .compositeSrc _ => []
  | .compositeOver _ => []
  | .compositeOverReverse _ => []
  | .compositeIn _ => []
  | .compositeInReverse _ => []
  | .compositeOut _ => []
  | .compositeOutReverse _ => []
  | .compositeAtop _ => []
  | .compositeAtopReverse _ => []
  | .compositeXor _ => []
  | .compositeAdd _ => []
  | .compositeSaturate _ => []
  | .fill _ => []
  | .blit _ _ => []

/-- The host and the platform keep the contract of `60_exceptions.md` R300 towards an instruction: the register halves
it reads are written, its read and write sets are ordinary memory that answers, and they do not alias. -/
def ContractKept (i : Instr) (s : State) : Prop :=
  (∀ q ∈ readsHalves i, (s.regs.get q.1).written q.2 = true) ∧
    (instrPlan s i).footprint.contractFault s.platform = none

/-! Other instances. -/

/-- Two commands that run at once keep apart (`60_exceptions.md` R306): neither writes a byte that the other reads or
writes. -/
def Apart (f g : Footprint) : Prop :=
  ∀ a, ¬ (Covers f.writes a ∧ Covers (g.reads ++ g.writes) a) ∧ ¬ (Covers f.reads a ∧ Covers g.writes a)

/-- The command of a word keeps apart from those the other instances run. -/
def State.ApartFromPeers (s : State) (w : Word) : Prop :=
  ∀ i, decodeWord w = .ok i → ∀ q ∈ s.peers, Apart (instrPlan s i).footprint q.sets

/-! A COMPOSITE without its cache. -/

/-- The source value of a pixel (`42_compositing.md` R181), its samples read straight from the source image
(`43_sampler_cache.md` R234, R248). -/
def directSource (k : KFields) (c : Conf) (m : Memory) (i j : Nat) : Wide :=
  if k.ssolid then unpack32 c.solidSrc else sampleDirect k c m i j

/-- What `StorePixel` writes to memory for a destination format (`41_format_codec.md` R160). -/
def packPixel (f : Fmt) (w : Wide) : Nat :=
  match f with
  | .rgb565 => (pack565 w).toNat
  | .argb32 => (pack32 w).toNat
  | .a8 => 0
  | .argb32Npr => 0

/-- The picture painted by an operator `r` of S', A and d (R183, R184): the pixels one at a time, row-major (R185,
`20_memory.md` R70), source and mask taken from the memory `m0` in which the command started. -/
def paint (r : Wide → Wide → Wide → Wide) (k : KFields) (c : Conf) (m0 : Memory) : Memory :=
  c.pixels.foldl
    (fun m (i, j) =>
      m.write (c.dst.rectAddr (bpb k.dfmt) i j) (bpb k.dfmt)
        (packPixel k.dfmt
          (r (maskedSource (directSource k c m0 i j) (maskVector k c m0 i j))
            (sourceAlpha (directSource k c m0 i j) (maskVector k c m0 i j)) (dstValue k c m i j))))
    m0

/-- The instruction, a COMPOSITE with the fields `k`, ends with success, has painted the operator `r`, and has changed
nothing else than memory, the cache with its counters, and STATUS (R180, R203). The scratch rows that decodes are made
into are left aside: what they leave there (`43_sampler_cache.md` R247) is no part of the picture. -/
def Paints (i : Instr) (k : KFields) (r : Wide → Wide → Wide → Wide) (s : State) : Prop :=
  ∃ t, exec i s = .next t ∧ t = { s.ended with mem := t.mem, cache := t.cache } ∧
    SameOutside (scratchWrites Config.params k s.conf) t.mem (paint r k s.conf s.mem)

/-- The bytes a COMPOSITE may read or write (`20_memory.md` R68): source, mask and destination pixels, and the rows of the
scratch slots that are decoded into. Every operator writes the destination, so the sets together are the same for all. -/
def compositeSets (k : KFields) (c : Conf) : List Access :=
  srcReads k c ++ mskReads k c ++ dstAccesses k c ++ scratchWrites Config.params k c

/-- All checks of a COMPOSITE pass and its rectangle is not empty (`60_exceptions.md` R293). -/
structure CompositeChecked (op : Op) (k : KFields) (s : State) : Prop where
  locked : s.ctrl.cfgLock = true
  enabled : kernelEnabled op k s.conf = true
  formats : formatsLegal k = true
  nonempty : s.conf.rectW ≠ 0 ∧ s.conf.rectH ≠ 0
  aligned : compositeAligned k s.conf = true
  inBounds : compositeInBounds k s.conf = true
  scratch : needsScratch Config.params k s.conf = true →
    2 * rowBytes s.conf ≤ s.conf.scrLen.toNat ∧ s.conf.scrBase.toNat % 4 = 0

/-- The conditions under which a COMPOSITE runs its pixel phase and keeps the contract (R300). -/
structure CompositeReady (op : Op) (k : KFields) (s : State) : Prop extends CompositeChecked op k s where
  ordinary : ∀ a, Covers (compositeSets k s.conf) a →
    ¬ Covers (spansOf s.platform .device) a ∧ ¬ Covers (spansOf s.platform .unanswered) a
  noAlias : ∀ a, Covers (srcReads k s.conf ++ mskReads k s.conf) a → ¬ Covers (dstAccesses k s.conf) a
  noScratchAlias : ∀ a, Covers (srcReads k s.conf ++ mskReads k s.conf ++ dstAccesses k s.conf) a →
    ¬ Covers (scratchAccesses Config.params k s.conf) a

/-- The pixels of a rectangle share no byte: what a buffer with a large enough stride gives. -/
def DisjointPixels (c : Conf) (p : BufDesc) (n : Nat) : Prop :=
  ∀ q ∈ c.pixels, ∀ q' ∈ c.pixels, q ≠ q' → ∀ a : Word,
    ¬ (Covers [{ addr := p.rectAddr n q.1 q.2, size := n }] a ∧ Covers [{ addr := p.rectAddr n q'.1 q'.2, size := n }] a)

/-! FILL and BLIT. -/

/-- A buffer's rectangle is aligned to its pixel size and lies inside its image (`60_exceptions.md` R294). -/
def RectFits (c : Conf) (p : BufDesc) (n : Nat) : Prop :=
  p.base.toNat % n = 0 ∧ p.stride.toInt % (n : Int) = 0 ∧
    p.x.toNat + c.rectW.toNat ≤ p.width.toNat ∧ p.y.toNat + c.rectH.toNat ≤ p.height.toNat

/-- Every byte of the accesses is ordinary memory that answers (`20_memory.md` R65, R76). -/
def Ordinary (s : State) (l : List Access) : Prop :=
  ∀ a, Covers l a → ¬ Covers (spansOf s.platform .device) a ∧ ¬ Covers (spansOf s.platform .unanswered) a

end Sys2Proof.Machine
end

