-- ==== Sys2Proof/Certificates/Slice0/Obligations.lean ====
section
/-! DEFINITION. The statements for the provers. `Config.params`, `Config.freeWord`, `Config.freeBit` and
`Config.freeSlotPixel` are open: every statement holds whatever their values are. -/

open Sys2Proof Sys2Proof.Machine

/-! ## Reset and the whole machine -/

/-- R330: what reset leaves. The clause about `State.reset` itself is the same table on the model's first state, whose
memory, platform and inputs are the model's choice (log entries 2, 7, 8, 9). -/
def Obligations.ResetLeavesTheStatedState : Prop :=
  IsResetState State.reset ∧
    (∀ s t, hostAct .reset s = .next t → IsResetState t) ∧
    ∀ s, s.status.busy = false → ∃ t, hostAct .reset s = .next t ∧ t.mem = s.mem

/-- The invariant holds at reset. -/
def Obligations.InvariantHoldsAtReset : Prop := State.Inv State.reset

/-- The invariant of `Safety.lean` is kept by every step: the block's turns and all the outside world does. -/
def Obligations.EveryStepKeepsTheInvariant : Prop := ∀ s t, s.Inv → step s = .next t → t.Inv

/-- R26, R29, R30, R303: once CFG_LOCK is set, no step but a reset clears it or changes the kernel tables. -/
def Obligations.ConfigurationLockHoldsUntilReset : Prop :=
  ∀ s t, s.ctrl.cfgLock = true → s.inputs.head? ≠ some (.host .reset) → step s = .next t →
    t.ctrl.cfgLock = true ∧ t.conf.kenU = s.conf.kenU ∧ t.conf.kenCa = s.conf.kenCa

/-- R331: a reset of a busy block leaves the reset state and, of memory, everything outside the abandoned command's write
set. Of its writes, which are all in the write set and together make what the command would have left, some subset has
been performed (`Config.freeBit` is open), so that a written pixel holds its old or a new value in full. A word that is
no command writes nothing. That an accepted lane instruction which names an unwritten half leaves the reset state too,
rather than the faulted outcome, is the model's choice (log entry 19). -/
def Obligations.ResetWhileBusyTouchesOnlyTheWriteSet : Prop :=
  (∀ s i, s.Inv → s.status.busy = true → decodeWord s.cmd = .ok i →
    (instrPlan s i).footprint.contractFault s.platform = none →
    ∃ t, hostAct .reset s = .next t ∧ IsResetState t ∧ SameOutside (instrPlan s i).footprint.writes t.mem s.mem ∧
      (∃ l : List StoreOp, l.Sublist (instrWrites s i) ∧ t.mem = l.foldl Memory.apply s.mem) ∧
      (∀ st ∈ instrWrites s i, ∀ a, Covers [{ addr := st.addr, size := st.size }] a →
        Covers (instrPlan s i).footprint.writes a) ∧
      (∀ u, exec i s = .next u → u.mem = (instrWrites s i).foldl Memory.apply s.mem) ∧
      ∀ st ∈ instrWrites s i,
        (∀ st' ∈ instrWrites s i, (∃ a, Covers [{ addr := st.addr, size := st.size }] a ∧
          Covers [{ addr := st'.addr, size := st'.size }] a) → st'.addr = st.addr ∧ st'.size = st.size) →
        t.mem.read st.addr st.size = s.mem.read st.addr st.size ∨
          ∃ st' ∈ instrWrites s i, st'.addr = st.addr ∧ st'.size = st.size ∧
            t.mem.read st.addr st.size = st'.value % 256 ^ st.size) ∧
    ∀ s e, s.status.busy = true → decodeWord s.cmd = .error e →
      ∃ t, hostAct .reset s = .next t ∧ IsResetState t ∧ t.mem = s.mem

/-! ## CSRs -/

/-- R24 to R38, the CSR summary: which offset names which register, and that no other offset names one. -/
def Obligations.CsrMapIsTheSummary : Prop :=
  (∀ q ∈ csrSummary, Csr.at? q.1 = some q.2) ∧
    (∀ r : LReg, Csr.at? (0x100 + 8 * r.toNat) = some (.laneHalf r .lo) ∧
      Csr.at? (0x104 + 8 * r.toNat) = some (.laneHalf r .hi)) ∧
    ∀ n r, Csr.at? n = some r → r.offset = n ∧ n % 4 = 0 ∧ n < 0x140

/-- R25: ID reads 0x50580001 at all times and ignores writes. -/
def Obligations.IdIsConstant : Prop :=
  Csr.at? 0x000 = some .id ∧ State.reset.csrWord .id = some 0x50580001#32 ∧
    (∀ s, csrRead 0x000 4 s = .next { s with hostData := 0x50580001#32 }) ∧
    (∀ s v, s.status.busy = false → csrWrite 0x000 4 v s = .next s) ∧
    (0x50580001#32).extractLsb' 16 16 = 0x5058#16 ∧ (0x50580001#32).extractLsb' 0 16 = 0x0001#16

/-- R26: CTRL. -/
def Obligations.CtrlLockIsSetOnly : Prop :=
  (∀ s v, s.status.busy = false → csrWrite 0x004 4 v s =
      .next { s with ctrl := { cfgLock := s.ctrl.cfgLock || v.getLsbD 0, irqEn := v.getLsbD 1 } }) ∧
    (∀ s, ∃ w : Word, csrRead 0x004 4 s = .next { s with hostData := w } ∧ w.getLsbD 0 = s.ctrl.cfgLock ∧
      w.getLsbD 1 = s.ctrl.irqEn ∧ w.extractLsb' 2 30 = 0#30) ∧
    ∀ op k s, s.ctrl.cfgLock = false → exec (.composite k op) s = .next (s.failed .notCfg)

/-- R27: STATUS as the host reads it and writes it, busy or not; R291: the numbers of the error codes. -/
def Obligations.StatusBitsAndWriteOneToClear : Prop :=
  (∀ s, ∃ w : Word, csrRead 0x008 4 s = .next { s with hostData := w } ∧ w.getLsbD 0 = s.status.busy ∧
      w.getLsbD 1 = s.status.done ∧ w.getLsbD 2 = s.status.fail ∧ w.getLsbD 3 = s.status.ovr ∧
      w.extractLsb' 4 4 = 0#4 ∧ w.extractLsb' 16 16 = 0#16 ∧
      w.extractLsb' 8 8 =
        match s.status.err with
        | .noError => 0#8
        | .illegal => 1#8
        | .notCfg => 2#8
        | .unsupported => 3#8
        | .precond => 4#8
        | .align => 5#8
        | .bounds => 6#8
        | .noMem => 7#8
        | .laneRange => 8#8) ∧
    ∀ s v, csrWrite 0x008 4 v s = .next { s with
      status := { busy := s.status.busy
                  done := s.status.done && !v.getLsbD 1
                  fail := s.status.fail && !v.getLsbD 2
                  ovr := s.status.ovr && !v.getLsbD 3
                  err := if v.getLsbD 2 then .noError else s.status.err } }

/-- R28: CMD issues the word written, each time it is written, and reads as the last word accepted. The word's sets keep
apart from the commands that other instances run; where they do not, R306 has the fault that `OtherInstancesMustNotAlias`
states. -/
def Obligations.CmdIssuesTheWordWritten : Prop :=
  Csr.at? 0x00C = some .cmd ∧ State.reset.csrWord .cmd = some 0#32 ∧
    (∀ s v, s.status.busy = false → s.ApartFromPeers v → csrWrite 0x00C 4 v s = .next { s with
      cmd := v
      status := { busy := true, done := false, fail := false, ovr := s.status.ovr, err := .noError } }) ∧
    ∀ s, csrRead 0x00C 4 s = .next { s with hostData := s.cmd }

/-- R29, R30: the kernel-enable registers. -/
def Obligations.KernelEnablesAreReadWriteUntilLocked : Prop :=
  Csr.at? 0x010 = some .kenU ∧ Csr.at? 0x014 = some .kenCa ∧
    State.reset.csrWord .kenU = some 0#32 ∧ State.reset.csrWord .kenCa = some 0#32 ∧
    (∀ s v, s.status.busy = false → s.ctrl.cfgLock = false →
      csrWrite 0x010 4 v s = .next { s with conf := { s.conf with kenU := v.extractLsb' 0 12 } } ∧
      csrWrite 0x014 4 v s = .next { s with conf := { s.conf with kenCa := v.extractLsb' 0 12 } }) ∧
    (∀ s v, s.status.busy = false → s.ctrl.cfgLock = true →
      csrWrite 0x010 4 v s = .next s ∧ csrWrite 0x014 4 v s = .next s) ∧
    (∀ s, csrRead 0x010 4 s = .next { s with hostData := 0#20 ++ s.conf.kenU } ∧
      csrRead 0x014 4 s = .next { s with hostData := 0#20 ++ s.conf.kenCa }) ∧
    ∀ op k s, s.ctrl.cfgLock = true →
      (if k.mmode = .perComponent then s.conf.kenCa.getLsbD op.code else s.conf.kenU.getLsbD op.code) = false →
      exec (.composite k op) s = .next (s.failed .unsupported)

/-- R31 to R35: an idle block's descriptor, rectangle, constant, transform and scratch registers read back what was
written, reserved bits 0, and the write changes nothing else. -/
def Obligations.ConfigurationRegistersReadBack : Prop :=
  ∀ s v, s.status.busy = false → ∀ r : Csr,
    ((∃ b q, r = .buf b q) ∨ (∃ q, r = .xform q) ∨
      r ∈ [Csr.rectW, .rectH, .solidSrc, .solidMsk, .fillValue, .scrBase, .scrLen]) →
    ∃ c, csrWrite (BitVec.ofNat 12 r.offset) 4 v s = .next { s with conf := c } ∧
      State.csrWord { s with conf := c } r = some
        (if r ∈ [Csr.rectW, .rectH] ++ [BufId.dst, .src, .msk].flatMap fun b =>
            [Csr.buf b .width, .buf b .height, .buf b .x, .buf b .y] then v &&& 0xFFFF#32 else v) ∧
      ∀ r', r' ≠ r → State.csrWord { s with conf := c } r' = s.csrWord r'

/-- R20, R22, R38: the lane register window. -/
def Obligations.LaneWindowWritesAndMarks : Prop :=
  (∀ s r h v, s.status.busy = false →
      ∃ f, csrWrite (BitVec.ofNat 12 (Csr.laneHalf r h).offset) 4 v s = .next { s with regs := f } ∧
        (f.get r).half h = v ∧ (f.get r).written h = true ∧
        (∀ h', h' ≠ h → (f.get r).half h' = (s.regs.get r).half h' ∧ (f.get r).written h' = (s.regs.get r).written h') ∧
        ∀ q, q ≠ r → f.get q = s.regs.get q) ∧
    (∀ s r h, s.status.busy = false → (s.regs.get r).written h = true →
      csrRead (BitVec.ofNat 12 (Csr.laneHalf r h).offset) 4 s = .next { s with hostData := (s.regs.get r).half h }) ∧
    ∀ s r h, (s.regs.get r).written h = false →
      csrRead (BitVec.ofNat 12 (Csr.laneHalf r h).offset) 4 s = .fault .unwrittenW

/-- R24: the only accesses are aligned 32-bit ones; an offset that names no CSR reads as 0 and ignores writes; the
window lies at CSR_BASE. -/
def Obligations.CsrAccessesAreAlignedWords : Prop :=
  (∀ (off : BitVec 12) size v s, size ≠ 4 ∨ off.toNat % 4 ≠ 0 →
      csrRead off size s = .fault .csrAccess ∧ csrWrite off size v s = .fault .csrAccess) ∧
    (∀ (off : BitVec 12) v s, off.toNat % 4 = 0 → Csr.at? off.toNat = none →
      csrRead off 4 s = .next { s with hostData := 0#32 } ∧ csrWrite off 4 v s = .next s) ∧
    (∀ (off : BitVec 12) size v s,
      hostAct (.busRead (Config.params.csrBase + off.toNat) size) s = csrRead off size s ∧
      hostAct (.busWrite (Config.params.csrBase + off.toNat) size v) s = csrWrite off size v s) ∧
    ∀ addr size v s, (addr < Config.params.csrBase ∧ addr + size ≤ Config.params.csrBase) ∨
        Config.params.csrBase + 4096 ≤ addr →
      hostAct (.busRead addr size) s = .next s ∧ hostAct (.busWrite addr size v) s = .next s

/-- R36, R37: the cache counters and slot registers ignore writes; between steps every STATE register reads as 0. -/
def Obligations.CacheRegistersAreReadOnly : Prop :=
  (∀ s v, s.status.busy = false → ∀ n ∈ [0x0D0, 0x0D4, 0x0E0, 0x0E4, 0x0E8, 0x0EC],
      csrWrite (BitVec.ofNat 12 n) 4 v s = .next s) ∧
    (∀ s, s.status.busy = false →
      csrRead 0x0D0 4 s = .next { s with hostData := s.cache.decodes } ∧
      csrRead 0x0D4 4 s = .next { s with hostData := s.cache.hits } ∧
      csrRead 0x0E4 4 s = .next { s with hostData := 0#16 ++ s.cache.slot0.tag } ∧
      csrRead 0x0EC 4 s = .next { s with hostData := 0#16 ++ s.cache.slot1.tag }) ∧
    ∀ s, s.Inv → s.status.busy = false →
      csrRead 0x0E0 4 s = .next { s with hostData := 0#32 } ∧ csrRead 0x0E8 4 s = .next { s with hostData := 0#32 }

/-- R298: host writes while busy. That OVR is set also by a write to a read-only register and to a locked kernel-enable
register is log entry 15: R25, R29 and R36 say only that such a write is ignored. -/
def Obligations.WritesWhileBusyAreDropped : Prop :=
  (∀ s v, s.status.busy = true → ∀ r : Csr, r ≠ .status →
      csrWrite (BitVec.ofNat 12 r.offset) 4 v s = .next { s with status := { s.status with ovr := true } }) ∧
    (∀ s v, s.status.busy = true → csrWrite 0x008 4 v s = .next { s with
      status := { busy := true
                  done := s.status.done && !v.getLsbD 1
                  fail := s.status.fail && !v.getLsbD 2
                  ovr := s.status.ovr && !v.getLsbD 3
                  err := if v.getLsbD 2 then .noError else s.status.err } }) ∧
    ∀ s v, s.status.busy = false → s.ctrl.cfgLock = true →
      csrWrite 0x010 4 v s = .next s ∧ csrWrite 0x014 4 v s = .next s

/-- R299: host reads while busy. ID, CTRL, STATUS, CMD and the configuration registers answer their values; the counters,
the slot registers and the lane window answer some value of the register's width, of which nothing else is said.
`hostData` and `draws` are the model's own fields (log entries 4, 9). -/
def Obligations.ReadsWhileBusyChangeNothing : Prop :=
  (∀ s, s.status.busy = true → ∀ r : Csr,
      (r ∈ [Csr.id, .ctrl, .status, .cmd, .kenU, .kenCa, .rectW, .rectH, .solidSrc, .solidMsk, .fillValue, .scrBase,
          .scrLen] ∨ (∃ b q, r = .buf b q) ∨ ∃ q, r = .xform q) →
      ∃ w, s.csrWord r = some w ∧ csrRead (BitVec.ofNat 12 r.offset) 4 s = .next { s with hostData := w }) ∧
    (∀ s, s.status.busy = true → ∀ (r : Csr) (bits : Nat),
      ((r = .cacheDecodes ∨ r = .cacheHits) ∧ bits = 32) ∨ ((∃ i, r = .slotState i) ∧ bits = 2) ∨
        ((∃ i, r = .slotTag i) ∧ bits = 16) ∨ ((∃ q h, r = .laneHalf q h ∧ (s.regs.get q).written h = true) ∧ bits = 32) →
      ∃ w : Word, w.toNat < 2 ^ bits ∧
        csrRead (BitVec.ofNat 12 r.offset) 4 s = .next { s with hostData := w, draws := s.draws + 1 }) ∧
    ∀ s, s.status.busy = false → ∀ (r : Csr) w, s.csrWord r = some w →
      csrRead (BitVec.ofNat 12 r.offset) 4 s = .next { s with hostData := w }

/-! ## Memory -/

/-- R10, R60, R61: a multi-byte store and load, little-endian, modulo 2^32. -/
def Obligations.MemoryIsLittleEndianAndWraps : Prop :=
  ∀ m : Memory, m.wf → ∀ (a : Word) n v, n ≤ 2 ^ 32 →
    (m.write a n v).wf ∧ (m.write a n v).read a n = v % 256 ^ n ∧
    (∀ d < n, Memory.readByte (m.write a n v) (a + BitVec.ofNat 32 d).toNat = BitVec.ofNat 8 (v / 256 ^ d)) ∧
    ∀ x : Word, ¬ Covers [{ addr := a, size := n }] x →
      Memory.readByte (m.write a n v) x.toNat = Memory.readByte m x.toNat

/-- R62: the address of a pixel. -/
def Obligations.PixelAddressFormula : Prop :=
  ∀ (p : BufDesc) (x y n : Nat),
    ((p.pixAddr x y n).toNat : Int) =
      ((p.base.toNat : Int) + (y : Int) * p.stride.toInt + (x : Int) * (n : Int)) % 2 ^ 32

/-- R64: in a buffer that passes the ALIGN check every pixel is naturally aligned, and so is every scratch pixel. -/
def Obligations.AlignedBuffersHaveAlignedPixels : Prop :=
  (∀ (p : BufDesc) (n x y : Nat), n ∈ [1, 2, 4] → p.base.toNat % n = 0 → p.stride.toInt % (n : Int) = 0 →
      (p.pixAddr x y n).toNat % n = 0) ∧
    ∀ (c : Conf) i x, c.scrBase.toNat % 4 = 0 → (scratchAddr c i x).toNat % 4 = 0

/-! ## Encoding -/

/-- Decoding an encoded well-formed instruction gives it back, every operand at every value (R90 to R111). -/
def Obligations.DecodeOfEncode : Prop := ∀ i : Instr, i.wellFormed = true → decodeWord (encode i) = .ok i

/-- Every accepted word is the encoding of the well-formed instruction it decodes to: no two words decode alike. -/
def Obligations.EncodeOfDecode : Prop :=
  ∀ w i, decodeWord w = .ok i → i.wellFormed = true ∧ encode i = w

/-- R106, R107, R111: a word is accepted exactly when it has the match of a row under the row's mask and holds no
reserved value, and it decodes to an instruction of that row. -/
def Obligations.DecoderAgreesWithTheOpcodeTable : Prop :=
  (∀ w i, decodeWord w = .ok i →
      w &&& (tablePattern i).2 = (tablePattern i).1 ∧ (isComposite i → ¬ reservedInK w)) ∧
    ∀ w i, w &&& (tablePattern i).2 = (tablePattern i).1 → (isComposite i → ¬ reservedInK w) →
      ∃ i', decodeWord w = .ok i' ∧ tablePattern i' = tablePattern i

/-- R106, R108: a word that is no command fails with ILLEGAL and changes nothing but STATUS. -/
def Obligations.IllegalWordFails : Prop :=
  ∀ s e, s.status.busy = true → decodeWord s.cmd = .error e → blockTurn s = .next (s.failed .illegal)

/-- Words of the spec's rules and vectors, one of each family, decode to the commands they stand for, with every value of
MMODE, the formats, SAMPLE and REPEAT (R102 to R104) and every field of a COMPOSITE at 0 and at another value; a COMPOSITE with the
reserved OP 12 (R101) or the reserved MMODE 3 (R102), and a reserved opcode, are refused. -/
def Obligations.DecodingOfStatedWords : Prop :=
  decodeWord 0x00000000#32 = .ok .nop ∧
    decodeWord 0x06B80000#32 = .ok (.lmul .w5 .w3 .w4) ∧
    decodeWord 0x08A72800#32 = .ok (.lmuladd .w1 .w2 .w3 .w4 .w5) ∧
    decodeWord 0x2EB80200#32 = .ok (.lpack565 .w5 .w3 .w4 1) ∧
    decodeWord 0x30A70080#32 = .ok (.linterp .w1 .w2 .w3 128 64) ∧
    decodeWord 0x805000C0#32 = .ok (.compositeOver
      { mmode := .uniform, sfmt := .argb32, mfmt := .argb32, dfmt := .argb32, sample := .identity, edge := .outside,
        ssolid := true, msolid := true }) ∧
    decodeWord 0x80000500#32 = .ok (.compositeSrc
      { mmode := .noMask, sfmt := .argb32, mfmt := .argb32, dfmt := .argb32, sample := .bilinear, edge := .pad,
        ssolid := false, msolid := false }) ∧
    decodeWord 0x82E68BC0#32 = .ok (.compositeSaturate
      { mmode := .perComponent, sfmt := .argb32Npr, mfmt := .a8, dfmt := .rgb565, sample := .nearest, edge := .pad,
        ssolid := true, msolid := true }) ∧
    decodeWord 0x86000000#32 = .ok (.fill 32) ∧ decodeWord 0x8A080000#32 = .ok (.blit 32 32) ∧
    decodeWord 0x83000000#32 = .error .reservedValue ∧ decodeWord 0x80700000#32 = .error .reservedValue ∧
    decodeWord 0x34000000#32 = .error .reservedOpcode

/-! ## A step -/

/-- When the block moves next, the step is `exec` of the command it has accepted; an idle block does nothing; the
command may be given as the word in CMD, as its bytes, or by `withFetchWord`. The list of turns, that the block moves
when no turn waits, and `withFetchWord` are the model's (log entry 7, DESIGN CHOICE): the rules say only that an accepted
command is executed and that an idle block does nothing. -/
def Obligations.StepRunsTheAcceptedCommand : Prop :=
  (∀ s rest i, s.status.busy = true → decodeWord s.cmd = .ok i →
      s.inputs = .block :: rest ∨ (s.inputs = [] ∧ rest = []) → step s = exec i { s with inputs := rest }) ∧
    (∀ s rest, s.status.busy = false → s.inputs = .block :: rest ∨ (s.inputs = [] ∧ rest = []) →
      step s = .next { s with inputs := rest }) ∧
    (∀ s rest a, s.inputs = .host a :: rest → step s = hostAct a { s with inputs := rest }) ∧
    (∀ (w : Word) i, decodeBytes (bytesOfWord w) = .ok (i, []) ↔ decodeWord w = .ok i) ∧
    ∀ (s : State) (w : Word) i, decodeWord w = .ok i →
      step (s.withFetchWord 32 w.toNat) = exec i ((s.accept w).withInputs s.inputs)

/-- R290: a failed command, be it an instruction or a word that is none, changes nothing but STATUS. -/
def Obligations.FailedCommandChangesOnlyStatus : Prop :=
  (∀ i s t, exec i s = .next t → t.status.fail = true → ∃ c, c ≠ .noError ∧ t = s.failed c) ∧
    ∀ s t, s.status.busy = true → blockTurn s = .next t → t.status.fail = true → ∃ c, c ≠ .noError ∧ t = s.failed c

/-- R296: how a command runs from acceptance, apart from the commands of other instances (R306), to its end. -/
def Obligations.CommandLifecycle : Prop :=
  (∀ s v, s.status.busy = false → s.ApartFromPeers v → csrWrite 0x00C 4 v s = .next { s with
      cmd := v
      status := { busy := true, done := false, fail := false, ovr := s.status.ovr, err := .noError } }) ∧
    (∀ s i, s.status.busy = true → decodeWord s.cmd = .ok i → blockTurn s = exec i s) ∧
    ∀ s t, s.status.busy = true → blockTurn s = .next t →
      (t.status = s.status.doneWith ∨ ∃ c, c ≠ .noError ∧ t = s.failed c) ∧ t.cmd = s.cmd ∧ t.ctrl = s.ctrl ∧
      t.conf = s.conf ∧ t.inputs = s.inputs

/-- R300: a command the host and the platform keep the contract towards always ends; otherwise it stops with one of the
block's contract faults. No instruction is ever refused. Then which of R65, R76 and R69 stops a COMPOSITE, a FILL and a
BLIT whose checks pass, in terms of the bytes they access, which `CompositeFrame` gives in closed form; the order of the
three is the model's choice (log entry 12). -/
def Obligations.CommandsEndWhenTheContractIsKept : Prop :=
  (∀ i s, ContractKept i s → ∃ t, exec i s = .next t) ∧
    (∀ i s, ¬ ContractKept i s → ∃ f, exec i s = .fault f ∧ f ∈ [Fault.unwrittenW, .deviceMemory, .busError, .aliasing]) ∧
    (∀ op k s, CompositeChecked op k s →
      let dst := dstAccesses k s.conf
      let buffers := srcReads k s.conf ++ mskReads k s.conf
      let sets := buffers ++ dst ++ scratchWrites Config.params k s.conf
      let aliases := (∃ a, Covers buffers a ∧ Covers dst a) ∨
        ∃ a, Covers (buffers ++ dst) a ∧ Covers (scratchAccesses Config.params k s.conf) a
      (s.Touches .device sets → exec (.composite k op) s = .fault .deviceMemory) ∧
      (¬ s.Touches .device sets → s.Touches .unanswered sets → exec (.composite k op) s = .fault .busError) ∧
      (¬ s.Touches .device sets → ¬ s.Touches .unanswered sets → aliases →
        exec (.composite k op) s = .fault .aliasing) ∧
      (¬ s.Touches .device sets → ¬ s.Touches .unanswered sets → ¬ aliases →
        ∃ t, exec (.composite k op) s = .next t ∧ t.status = s.status.doneWith)) ∧
    (∀ bpp s, bpp = 16 ∨ bpp = 32 →
      (bpp = 16 → s.conf.fillValue.toNat / 2 ^ 16 = s.conf.fillValue.toNat % 2 ^ 16) →
      s.conf.rectW ≠ 0 → s.conf.rectH ≠ 0 → RectFits s.conf s.conf.dst (bpp / 8) →
      let sets := s.conf.rectAccesses s.conf.dst (bpp / 8)
      (s.Touches .device sets → exec (.fill bpp) s = .fault .deviceMemory) ∧
      (¬ s.Touches .device sets → s.Touches .unanswered sets → exec (.fill bpp) s = .fault .busError) ∧
      (¬ s.Touches .device sets → ¬ s.Touches .unanswered sets →
        ∃ t, exec (.fill bpp) s = .next t ∧ t.status = s.status.doneWith)) ∧
    ∀ bpp s, bpp = 16 ∨ bpp = 32 → s.conf.rectW ≠ 0 → s.conf.rectH ≠ 0 →
      RectFits s.conf s.conf.src (bpp / 8) → RectFits s.conf s.conf.dst (bpp / 8) →
      let src := s.conf.rectAccesses s.conf.src (bpp / 8)
      let dst := s.conf.rectAccesses s.conf.dst (bpp / 8)
      let aliases := (∃ a, Covers src a ∧ Covers dst a) ∧
        ∃ q ∈ s.conf.pixels, s.conf.src.rectAddr (bpp / 8) q.1 q.2 ≠ s.conf.dst.rectAddr (bpp / 8) q.1 q.2
      (s.Touches .device (src ++ dst) → exec (.blit bpp bpp) s = .fault .deviceMemory) ∧
      (¬ s.Touches .device (src ++ dst) → s.Touches .unanswered (src ++ dst) →
        exec (.blit bpp bpp) s = .fault .busError) ∧
      (¬ s.Touches .device (src ++ dst) → ¬ s.Touches .unanswered (src ++ dst) → aliases →
        exec (.blit bpp bpp) s = .fault .aliasing) ∧
      (¬ s.Touches .device (src ++ dst) → ¬ s.Touches .unanswered (src ++ dst) → ¬ aliases →
        ∃ t, exec (.blit bpp bpp) s = .next t ∧ t.status = s.status.doneWith)

/-- R310: the codes a command never produces. -/
def Obligations.FailureMatrix : Prop :=
  ∀ i s t, i.wellFormed = true → exec i s = .next t → t.status.fail = true →
    match i with
    | .nop => False
    | .lmul _ _ _ => t.status.err = .laneRange
    | .lmuladd _ _ _ _ _ => t.status.err = .laneRange
    | .ladds _ _ _ => t.status.err = .laneRange
    | .lneg _ _ => False
    | .lbca _ _ => False
    | .lbcl _ _ => False
    | .lswaprb _ _ => False
    | .lunpk32 _ _ _ => False
    | .lpack32 _ _ => False
    | .lunpk565 _ _ _ => False
    | .lpack565 _ _ _ _ => False
    | .linterp _ _ _ _ _ => False
    | .fill _ => t.status.err ∈ [ErrCode.unsupported, .precond, .align, .bounds]
    | .blit _ _ => t.status.err ∈ [ErrCode.unsupported, .precond, .align, .bounds]
    | .compositeSrc _ | .compositeOver _ | .compositeOverReverse _ | .compositeIn _ | .compositeInReverse _
    | .compositeOut _ | .compositeOutReverse _ | .compositeAtop _ | .compositeAtopReverse _ | .compositeXor _
    | .compositeAdd _ | .compositeSaturate _ =>
      t.status.err ∈ [ErrCode.notCfg, .unsupported, .align, .bounds, .noMem]

/-- R297: the interrupt output, and when it is asserted and deasserted; the last clause: it stays asserted over every step
but a reset (R330), a write to STATUS that clears what was set of DONE and FAIL, a write to CTRL that clears IRQ_EN, and
the acceptance of a command. -/
def Obligations.InterruptFollowsStatusAndEnable : Prop :=
  (∀ s : State, s.irq = true ↔ s.ctrl.irqEn = true ∧ (s.status.done = true ∨ s.status.fail = true)) ∧
    (∀ s t, s.status.busy = true → s.ctrl.irqEn = true → blockTurn s = .next t → t.irq = true) ∧
    (∀ s t v, v.getLsbD 1 = true → v.getLsbD 2 = true → csrWrite 0x008 4 v s = .next t → t.irq = false) ∧
    (∀ s t v, s.status.busy = false → v.getLsbD 1 = false → csrWrite 0x004 4 v s = .next t → t.irq = false) ∧
    (∀ s t v, s.status.busy = false → v.getLsbD 1 = true → csrWrite 0x004 4 v s = .next t →
      (t.irq = true ↔ s.status.done = true ∨ s.status.fail = true)) ∧
    (∀ s t v, s.status.busy = false → csrWrite 0x00C 4 v s = .next t → t.irq = false) ∧
    ∀ s t, s.irq = true → step s = .next t → t.irq = false →
      s.inputs.head? = some (.host .reset) ∨
        ∃ (off : BitVec 12) (v : Word), (s.inputs.head? = some (.host (.csrWrite off 4 v)) ∨
            s.inputs.head? = some (.host (.busWrite (Config.params.csrBase + off.toNat) 4 v))) ∧
          ((off = 0x008 ∧ (s.status.done = true → v.getLsbD 1 = true) ∧ (s.status.fail = true → v.getLsbD 2 = true)) ∨
            (off = 0x004 ∧ s.status.busy = false ∧ v.getLsbD 1 = false) ∨ (off = 0x00C ∧ s.status.busy = false))

/-! ## Lane instructions and NOP -/

/-- R270: NOP. -/
def Obligations.NopOnlyEnds : Prop :=
  decodeWord 0x00000000#32 = .ok .nop ∧
    (∀ w : Word, w.extractLsb' 26 6 = 0#6 → w ≠ 0#32 → ∃ e, decodeWord w = .error e) ∧
    ∀ s, exec .nop s = .next s.ended

/-- R22, R120, R295: an instruction that reads a half never written is `fault Contract(UNWRITTEN_W)`. -/
def Obligations.UnwrittenHalfIsAContractFault : Prop :=
  ∀ i s, (∃ q ∈ readsHalves i, (s.regs.get q.1).written q.2 = false) → exec i s = .fault .unwrittenW

/-- R121, R123: LMUL, its result, its range condition, and its frame. -/
def Obligations.LmulRoundsEachProduct : Prop :=
  ∀ rd ra rb s, s.Readable ra → s.Readable rb →
    ((∀ k < 4, laneNat (s.laneValue ra) k * laneNat (s.laneValue rb) k ≤ 0xFFFF) →
      exec (.lmul rd ra rb) s = .next (s.laneDone rd
        (wideOf fun k => rounded (laneNat (s.laneValue ra) k * laneNat (s.laneValue rb) k + 128)))) ∧
    ((∃ k < 4, 0xFFFF < laneNat (s.laneValue ra) k * laneNat (s.laneValue rb) k) →
      exec (.lmul rd ra rb) s = .next (s.failed .laneRange))

/-- R122, R125: LMULADD, both products under one rounding. -/
def Obligations.LmuladdRoundsOnce : Prop :=
  ∀ rd ra rb rc re s, s.Readable ra → s.Readable rb → s.Readable rc → s.Readable re →
    ((∀ k < 4, laneNat (s.laneValue ra) k * laneNat (s.laneValue rb) k ≤ 0xFFFF ∧
        laneNat (s.laneValue rc) k * laneNat (s.laneValue re) k ≤ 0xFFFF) →
      exec (.lmuladd rd ra rb rc re) s = .next (s.laneDone rd
        (wideOf fun k => rounded (laneNat (s.laneValue ra) k * laneNat (s.laneValue rb) k
          + laneNat (s.laneValue rc) k * laneNat (s.laneValue re) k + 128)))) ∧
    ((∃ k < 4, 0xFFFF < laneNat (s.laneValue ra) k * laneNat (s.laneValue rb) k ∨
        0xFFFF < laneNat (s.laneValue rc) k * laneNat (s.laneValue re) k) →
      exec (.lmuladd rd ra rb rc re) s = .next (s.failed .laneRange))

/-- R126: LADDS. -/
def Obligations.LaddsSaturatesBytes : Prop :=
  ∀ rd ra rb s, s.Readable ra → s.Readable rb →
    ((∀ k < 4, laneNat (s.laneValue ra) k ≤ 0xFF ∧ laneNat (s.laneValue rb) k ≤ 0xFF) →
      exec (.ladds rd ra rb) s = .next (s.laneDone rd
        (wideOf fun k => min (laneNat (s.laneValue ra) k + laneNat (s.laneValue rb) k) 255))) ∧
    ((∃ k < 4, 0xFF < laneNat (s.laneValue ra) k ∨ 0xFF < laneNat (s.laneValue rb) k) →
      exec (.ladds rd ra rb) s = .next (s.failed .laneRange))

/-- R127 to R130: LNEG, LBCA, LBCL and LSWAPRB, lane by lane, for every 64-bit value. -/
def Obligations.NegateBroadcastAndSwap : Prop :=
  ∀ rd ra s, s.Readable ra →
    (let a := s.laneValue ra
     exec (.lneg rd ra) s = .next (s.laneDone rd (wide (lane a 0 ^^^ 0x00FF#16) (lane a 1 ^^^ 0x00FF#16)
        (lane a 2 ^^^ 0x00FF#16) (lane a 3 ^^^ 0x00FF#16))) ∧
      exec (.lbca rd ra) s = .next (s.laneDone rd (wide (lane a 3) (lane a 3) (lane a 3) (lane a 3))) ∧
      exec (.lbcl rd ra) s = .next (s.laneDone rd (wide (lane a 0) (lane a 0) (lane a 0) (lane a 0))) ∧
      exec (.lswaprb rd ra) s = .next (s.laneDone rd (wide (lane a 2) (lane a 1) (lane a 0) (lane a 3))))

/-- R150 to R153: LUNPK32 reads one half and spreads its bytes; LPACK32 clamps each lane and packs. -/
def Obligations.UnpackAndPack32 : Prop :=
  (∀ rd ra h s, (s.regs.get ra).written h = true →
      exec (.lunpk32 rd ra h) s = .next (s.laneDone rd
        (wideOf fun k => channel ((s.laneValue ra).toNat / 2 ^ (32 * h.code)) k))) ∧
    ∀ rd ra s, s.Readable ra →
      exec (.lpack32 rd ra) s = .next (s.laneDone rd (BitVec.ofNat 64
        (min (laneNat (s.laneValue ra) 0) 255 + min (laneNat (s.laneValue ra) 1) 255 * 2 ^ 8
          + min (laneNat (s.laneValue ra) 2) 255 * 2 ^ 16 + min (laneNat (s.laneValue ra) 3) 255 * 2 ^ 24)))

/-- R154 to R157: LUNPK565 expands one RGB565 pixel; LPACK565 truncates one wide value into a lane of the target and
keeps the other three. -/
def Obligations.UnpackAndPack565 : Prop :=
  (∀ rd ra idx s, idx < 4 → s.Readable ra →
      (let h := laneNat (s.laneValue ra) idx
       exec (.lunpk565 rd ra idx) s = .next (s.laneDone rd (wide
          (BitVec.ofNat 16 (h % 32 * 8 + h % 32 / 4)) (BitVec.ofNat 16 (h / 32 % 64 * 4 + h / 32 % 64 / 16))
          (BitVec.ofNat 16 (h / 2048 * 8 + h / 2048 / 4)) 0x00FF#16)))) ∧
    ∀ rd ra rb idx s, idx < 4 → s.Readable ra → s.Readable rb →
      ∃ v, exec (.lpack565 rd ra rb idx) s = .next (s.laneDone rd v) ∧
        laneNat v idx = min (laneNat (s.laneValue ra) 2) 255 / 8 * 2048 + min (laneNat (s.laneValue ra) 1) 255 / 4 * 32
          + min (laneNat (s.laneValue ra) 0) 255 / 8 ∧
        ∀ k < 4, k ≠ idx → lane v k = lane (s.laneValue rb) k

/-- R235, R236: LINTERP, the four weights of each lane multiplied out; the weights of a pair sum to 256. -/
def Obligations.LinterpBlendsFourPixels : Prop :=
  ∀ rd ra rb dx dy s, dx < 256 → dy < 256 → s.Readable ra → s.Readable rb →
    ∃ v, LanesAreBytes v ∧ exec (.linterp rd ra rb dx dy) s = .next (s.laneDone rd v) ∧
      ∀ k < 4,
        let tl := channel ((s.laneValue ra).toNat % 2 ^ 32) k
        let tr := channel ((s.laneValue ra).toNat / 2 ^ 32) k
        let bl := channel ((s.laneValue rb).toNat % 2 ^ 32) k
        let br := channel ((s.laneValue rb).toNat / 2 ^ 32) k
        laneNat v k = (tl * ((256 - dx) * (256 - dy)) + tr * (dx * (256 - dy)) + bl * ((256 - dx) * dy)
          + br * (dx * dy)) / 2 ^ 16

/-- R124: the laws of `mul8`. -/
def Obligations.MultiplyLaws : Prop :=
  (∀ a b, a ≤ 255 → b ≤ 255 →
      mul8 a b = (a * b + 127) / 255 ∧ 255 * mul8 a b ≤ a * b + 127 ∧ a * b ≤ 255 * mul8 a b + 127 ∧
      mul8 a b = mul8 b a ∧ mul8 a 255 = a ∧ mul8 0 b = 0 ∧
      mul8 a b ≤ min a b ∧ a * b + 128 + (a * b + 128) / 256 ≤ 65407) ∧
    mul8 255 255 = 255 ∧ mul8 128 128 = 64 ∧ mul8 1 255 = 1 ∧
    mul8 256 255 = 255 ∧ (256 * 255 + 127) / 255 = 256

/-- R162: the round trips of the format converter. -/
def Obligations.FormatRoundTrips : Prop :=
  (∀ p, pack32 (unpack32 p) = p) ∧ (∀ h, pack565 (expand565 h) = h) ∧
    ∀ w, LanesAreBytes w →
      let v := expand565 (pack565 w)
      (∀ k ∈ [0, 2], laneNat v k ≤ laneNat w k + 7 ∧ laneNat w k ≤ laneNat v k + 7 ∧
        (laneNat v k = laneNat w k ↔ laneNat w k % 8 = laneNat w k / 32)) ∧
      laneNat v 1 ≤ laneNat w 1 + 3 ∧ laneNat w 1 ≤ laneNat v 1 + 3 ∧
      (laneNat v 1 = laneNat w 1 ↔ laneNat w 1 % 4 = laneNat w 1 / 64)

/-! ## COMPOSITE -/

/-- R293: the checks of a COMPOSITE in their order, the first that fails giving the code; an empty rectangle succeeds
with the counters cleared; past the checks the command succeeds or meets a contract fault. -/
def Obligations.CompositeCheckOrder : Prop :=
  ∀ s, s.status.busy = true →
    (∀ e, decodeWord s.cmd = .error e → blockTurn s = .next (s.failed .illegal)) ∧
    ∀ op k, decodeWord s.cmd = .ok (.composite k op) →
      let c := s.conf
      let masked := k.mmode ≠ .noMask ∧ k.msolid = false
      let notCfg := s.ctrl.cfgLock = false
      let unsupported :=
        (if k.mmode = .perComponent then c.kenCa.getLsbD op.code else c.kenU.getLsbD op.code) = false ∨
        ¬ (k.dfmt = .argb32 ∨ k.dfmt = .rgb565) ∨ (k.ssolid = false ∧ k.sfmt = .a8) ∨
        (k.mmode = .uniform ∧ k.msolid = false ∧ ¬ (k.mfmt = .argb32 ∨ k.mfmt = .a8)) ∨
        (k.mmode = .perComponent ∧ k.msolid = false ∧ k.mfmt ≠ .argb32)
      let empty := c.rectW = 0 ∨ c.rectH = 0
      let misaligned := fun (p : BufDesc) (n : Nat) => p.base.toNat % n ≠ 0 ∨ p.stride.toInt % (n : Int) ≠ 0
      let align := misaligned c.dst (bpb k.dfmt) ∨ (k.ssolid = false ∧ misaligned c.src (bpb k.sfmt)) ∨
        (masked ∧ misaligned c.msk (bpb k.mfmt))
      let outside := fun (p : BufDesc) =>
        p.width.toNat < p.x.toNat + c.rectW.toNat ∨ p.height.toNat < p.y.toNat + c.rectH.toNat
      let bounds := outside c.dst ∨ (masked ∧ outside c.msk) ∨ (k.ssolid = false ∧ (c.src.width = 0 ∨ c.src.height = 0))
      let scratch := k.ssolid = false ∧ k.sample = .bilinear ∧ c.xform.d = 0 ∧
        Config.params.slotOnchipBytes < 4 * c.src.width.toNat
      let noMem := scratch ∧ c.scrLen.toNat < 8 * c.src.width.toNat
      let scrAlign := scratch ∧ c.scrBase.toNat % 4 ≠ 0
      (notCfg → blockTurn s = .next (s.failed .notCfg)) ∧
      (¬ notCfg → unsupported → blockTurn s = .next (s.failed .unsupported)) ∧
      (¬ notCfg → ¬ unsupported → empty →
        blockTurn s = .next { s.ended with cache := { s.cache with decodes := 0, hits := 0 } }) ∧
      (¬ notCfg → ¬ unsupported → ¬ empty → align → blockTurn s = .next (s.failed .align)) ∧
      (¬ notCfg → ¬ unsupported → ¬ empty → ¬ align → bounds → blockTurn s = .next (s.failed .bounds)) ∧
      (¬ notCfg → ¬ unsupported → ¬ empty → ¬ align → ¬ bounds → noMem → blockTurn s = .next (s.failed .noMem)) ∧
      (¬ notCfg → ¬ unsupported → ¬ empty → ¬ align → ¬ bounds → ¬ noMem → scrAlign →
        blockTurn s = .next (s.failed .align)) ∧
      (¬ notCfg → ¬ unsupported → ¬ empty → ¬ align → ¬ bounds → ¬ noMem → ¬ scrAlign →
        (∃ t, blockTurn s = .next t ∧ t.status = s.status.doneWith) ∨ ∃ f, blockTurn s = .fault f)

/-- R186, R187, R188, R196: SRC, OVER, OVER_REVERSE and ADD complete and paint their formula; `a` is A, `d` the
destination, `s'` the masked source, all of them bytes (R202), which `PixelsAreIndependent` gives in closed form. The
pixels are row-major and read straight from the
source: the statement includes the transparency of the cache (R248) and the frame (R203). -/
def Obligations.SourceOverAndAddPaint : Prop :=
  ∀ k s, s.mem.wf →
    (CompositeReady .src k s → Paints (.compositeSrc k) k (fun s' _ _ => s') s) ∧
    (CompositeReady .over k s → Paints (.compositeOver k) k
      (fun s' a d => wideOf fun n => min (laneNat s' n + rounded (laneNat d n * (255 - laneNat a n) + 128)) 255) s) ∧
    (CompositeReady .overReverse k s → Paints (.compositeOverReverse k) k
      (fun s' _ d => wideOf fun n => min (laneNat d n + rounded (laneNat s' n * (255 - laneNat d 3) + 128)) 255) s) ∧
    (CompositeReady .add k s → Paints (.compositeAdd k) k
      (fun s' _ d => wideOf fun n => min (laneNat s' n + laneNat d n) 255) s)

/-- R189 to R192: IN, IN_REVERSE, OUT and OUT_REVERSE. -/
def Obligations.InAndOutPaint : Prop :=
  ∀ k s, s.mem.wf →
    (CompositeReady .srcIn k s → Paints (.compositeIn k) k
      (fun s' _ d => wideOf fun n => rounded (laneNat s' n * laneNat d 3 + 128)) s) ∧
    (CompositeReady .inReverse k s → Paints (.compositeInReverse k) k
      (fun _ a d => wideOf fun n => rounded (laneNat d n * laneNat a n + 128)) s) ∧
    (CompositeReady .out k s → Paints (.compositeOut k) k
      (fun s' _ d => wideOf fun n => rounded (laneNat s' n * (255 - laneNat d 3) + 128)) s) ∧
    (CompositeReady .outReverse k s → Paints (.compositeOutReverse k) k
      (fun _ a d => wideOf fun n => rounded (laneNat d n * (255 - laneNat a n) + 128)) s)

/-- R193 to R195: ATOP, ATOP_REVERSE and XOR, each with one shared rounding. -/
def Obligations.AtopAndXorPaint : Prop :=
  ∀ k s, s.mem.wf →
    (CompositeReady .atop k s → Paints (.compositeAtop k) k
      (fun s' a d => wideOf fun n =>
        rounded (laneNat s' n * laneNat d 3 + laneNat d n * (255 - laneNat a n) + 128)) s) ∧
    (CompositeReady .atopReverse k s → Paints (.compositeAtopReverse k) k
      (fun s' a d => wideOf fun n =>
        rounded (laneNat s' n * (255 - laneNat d 3) + laneNat d n * laneNat a n + 128)) s) ∧
    (CompositeReady .xor k s → Paints (.compositeXor k) k
      (fun s' a d => wideOf fun n =>
        rounded (laneNat s' n * (255 - laneNat d 3) + laneNat d n * (255 - laneNat a n) + 128)) s)

/-- R197 to R199: SATURATE, under either value of the open parameter SAT_ZERO_HEADROOM. -/
def Obligations.SaturatePaints : Prop :=
  ∀ k s, s.mem.wf → CompositeReady .saturate k s →
    Paints (.compositeSaturate k) k
      (fun s' a d => wideOf fun n =>
        let h := 255 - laneNat d 3
        min (laneNat d n +
          (if laneNat a n ≤ h then laneNat s' n
           else if h = 0 ∧ Config.params.satZeroHeadroom = .noScale then laneNat s' n
           else rounded (laneNat s' n * ((h * 255 + laneNat a n / 2) / laneNat a n) + 128))) 255) s

/-- R181 to R184: the inputs of a pixel in closed form. `src` is s, `mp` the mask pixel, lane by lane, `S'` and `A` are
what the operators of the statements above take. R185, R202: where the destination's pixels share no byte, each is the
operator's result of its own source, mask and destination values as they were when the command started, whatever the
other pixels are. -/
def Obligations.PixelsAreIndependent : Prop :=
  (∀ k c m (i j : Nat),
      let src := directSource k c m i j
      let S' := maskedSource src (maskVector k c m i j)
      let A := sourceAlpha src (maskVector k c m i j)
      let pixel := fun (p : BufDesc) (f : Fmt) (n : Nat) =>
        storedLane f m (p.pixAddr (p.x.toNat + i) (p.y.toNat + j) (bpb f)) n
      (k.ssolid = true → src = wideOf (channel c.solidSrc.toNat)) ∧ (k.ssolid = false → src = sampleDirect k c m i j) ∧
      dstValue k c m i j = wideOf (pixel c.dst k.dfmt) ∧
      (k.mmode = .noMask → S' = src ∧ A = wideOf fun _ => laneNat src 3) ∧
      ∀ mp : Nat → Nat, (∀ n < 4, mp n = if k.msolid = true then channel c.solidMsk.toNat n else pixel c.msk k.mfmt n) →
        (k.mmode = .uniform → maskVector k c m i j = some (wideOf fun _ => mp 3) ∧
          S' = wideOf (fun n => rounded (laneNat src n * mp 3 + 128)) ∧
          A = wideOf fun _ => rounded (laneNat src 3 * mp 3 + 128)) ∧
        (k.mmode = .perComponent → maskVector k c m i j = some (wideOf mp) ∧
          S' = wideOf (fun n => rounded (laneNat src n * mp n + 128)) ∧
          A = wideOf fun n => rounded (laneNat src 3 * mp n + 128))) ∧
  ∀ op k s, s.mem.wf → CompositeReady op k s → DisjointPixels s.conf s.conf.dst (bpb k.dfmt) →
    ∃ t, exec (.composite k op) s = .next t ∧
      ∀ i j, i < s.conf.rectW.toNat → j < s.conf.rectH.toNat →
        let src := directSource k s.conf s.mem i j
        let msk := maskVector k s.conf s.mem i j
        let d := dstValue k s.conf s.mem i j
        let r := opResult Config.params.satZeroHeadroom op (maskedSource src msk) (sourceAlpha src msk) d
        LanesAreBytes src ∧ LanesAreBytes d ∧ LanesAreBytes r ∧
        t.mem.read (s.conf.dst.rectAddr (bpb k.dfmt) i j) (bpb k.dfmt) = packPixel k.dfmt r

/-- R68, R203: the frame of every COMPOSITE that ends, with success or failure: lane registers, configuration and CMD
are kept, and every byte outside the destination rectangle and the scratch rows of the slots that are decoded into.
Before it, the bytes of a command's sets in closed form: the pixels of a rectangle (of FILL and BLIT too); the source
pixels, whole rows with the cache (R245) and those each sample fetches without it (R231 to R234, R237, R238, R249); the
scratch region of both slots, and the rows of it that are written (R242). -/
def Obligations.CompositeFrame : Prop :=
  (∀ (c : Conf) (p : BufDesc) (n : Nat) a, Covers (c.rectAccesses p n) a ↔
      ∃ i j d, i < c.rectW.toNat ∧ j < c.rectH.toNat ∧ d < n ∧
        a = p.pixAddr (p.x.toNat + i) (p.y.toNat + j) n + BitVec.ofNat 32 d) ∧
  (∀ k c a,
      (Covers (dstAccesses k c) a ↔ Covers (c.rectAccesses c.dst (bpb k.dfmt)) a) ∧
      (Covers (mskReads k c) a ↔ k.mmode ≠ .noMask ∧ k.msolid = false ∧ Covers (c.rectAccesses c.msk (bpb k.mfmt)) a) ∧
      (Covers (srcReads k c) a ↔ k.ssolid = false ∧ ∃ x y d : Nat, d < bpb k.sfmt ∧
        a = c.src.pixAddr x y (bpb k.sfmt) + BitVec.ofNat 32 d ∧
        if k.sample = .bilinear ∧ c.xform.d = 0 then
          x < c.src.width.toNat ∧ ∃ j < c.rectH.toNat, (rowPair k c j).1 = some y ∨ (rowPair k c j).2 = some y
        else
          ∃ i j : Nat, i < c.rectW.toNat ∧ j < c.rectH.toNat ∧ ∃ X Y : Int,
            (let u := c.xform.a.toInt * i + c.xform.b.toInt * j + c.xform.c.toInt
             let v := c.xform.d.toInt * i + c.xform.e.toInt * j + c.xform.f.toInt
             match k.sample with
             | .identity => X = c.src.x.toNat + i ∧ Y = c.src.y.toNat + j
             | .nearest => X = u.fdiv 65536 ∧ Y = v.fdiv 65536
             | .bilinear => (X = u.fdiv 65536 ∨ X = u.fdiv 65536 + 1) ∧ (Y = v.fdiv 65536 ∨ Y = v.fdiv 65536 + 1)) ∧
            match k.edge with
            | .pad => x = (min (max X 0) ((c.src.width.toNat : Int) - 1)).toNat ∧
                y = (min (max Y 0) ((c.src.height.toNat : Int) - 1)).toNat
            | .outside => (x : Int) = X ∧ (y : Int) = Y ∧ x < c.src.width.toNat ∧ y < c.src.height.toNat) ∧
      (Covers (scratchAccesses Config.params k c) a ↔ cacheUsed k c = true ∧
        Config.params.slotOnchipBytes < 4 * c.src.width.toNat ∧ (a - c.scrBase).toNat < 8 * c.src.width.toNat) ∧
      (Covers (scratchWrites Config.params k c) a ↔ cacheUsed k c = true ∧
        Config.params.slotOnchipBytes < 4 * c.src.width.toNat ∧ ∃ q ∈ (rowTrace k c).decoded, ∃ d < 4 * c.src.width.toNat,
          a = c.scrBase + BitVec.ofNat 32 (q.1.toNat * (4 * c.src.width.toNat) + d))) ∧
  ∀ op k s t, s.mem.wf → exec (.composite k op) s = .next t →
    t = { s with mem := t.mem, cache := t.cache, status := t.status } ∧ t.status.ovr = s.status.ovr ∧
    SameOutside (dstAccesses k s.conf ++ scratchWrites Config.params k s.conf) t.mem s.mem

/-! ## The sampler and the scanline cache -/

/-- R231 to R234, R237, R238: the samples and the edge policies, in terms of the source's pixels; R158, R159, R239: a
pixel of each format, in terms of its bytes. -/
def Obligations.SamplingAndEdgePolicies : Prop :=
  (∀ f m a, loadPixel f m a = wideOf (storedLane f m a) ∧ ∀ n < 4, storedLane f m a n ≤ 255) ∧
  (∀ f (c : Conf) m (x y : Nat), srcPix f c m x y = wideOf (storedLane f m (BitVec.ofInt 32
      ((c.src.base.toNat : Int) + (y : Int) * c.src.stride.toInt + (x : Int) * (bpb f : Int))))) ∧
  (bpb .argb32 = 4 ∧ bpb .rgb565 = 2 ∧ bpb .a8 = 1 ∧ bpb .argb32Npr = 4) ∧
  (∀ k c m x y, k.edge = .pad → fetch k c m x y =
      srcPix k.sfmt c m (min (max x 0) ((c.src.width.toNat : Int) - 1)).toNat
        (min (max y 0) ((c.src.height.toNat : Int) - 1)).toNat) ∧
    (∀ k c m x y, k.edge = .outside → 0 ≤ x → x < c.src.width.toNat → 0 ≤ y → y < c.src.height.toNat →
      fetch k c m x y = srcPix k.sfmt c m x.toNat y.toNat) ∧
    (∀ k c m x y, k.edge = .outside → (x < 0 ∨ (c.src.width.toNat : Int) ≤ x ∨ y < 0 ∨ (c.src.height.toNat : Int) ≤ y) →
      fetch k c m x y = wide 0 0 0 0) ∧
    (∀ k c m (i j : Nat), k.sample = .identity →
      sampleDirect k c m i j = fetch k c m ((c.src.x.toNat : Int) + i) ((c.src.y.toNat : Int) + j)) ∧
    (∀ k c m (i j : Nat), k.sample = .nearest → ∀ u v : Int,
      u = c.xform.a.toInt * i + c.xform.b.toInt * j + c.xform.c.toInt →
      v = c.xform.d.toInt * i + c.xform.e.toInt * j + c.xform.f.toInt →
      sampleDirect k c m i j = fetch k c m (u.fdiv 65536) (v.fdiv 65536)) ∧
    ∀ k c m (i j : Nat), k.sample = .bilinear → ∀ u v : Int,
      u = c.xform.a.toInt * i + c.xform.b.toInt * j + c.xform.c.toInt →
      v = c.xform.d.toInt * i + c.xform.e.toInt * j + c.xform.f.toInt →
      let x0 := u.fdiv 65536
      let y0 := v.fdiv 65536
      let dx := ((u - 65536 * x0) / 256).toNat
      let dy := ((v - 65536 * y0) / 256).toNat
      dx < 256 ∧ dy < 256 ∧
      sampleDirect k c m i j = wideOf fun n =>
        (laneNat (fetch k c m x0 y0) n * ((256 - dx) * (256 - dy))
          + laneNat (fetch k c m (x0 + 1) y0) n * (dx * (256 - dy))
          + laneNat (fetch k c m x0 (y0 + 1)) n * ((256 - dx) * dy)
          + laneNat (fetch k c m (x0 + 1) (y0 + 1)) n * (dx * dy)) / 2 ^ 16

/-- R244: the victim. -/
def Obligations.VictimChoice : Prop :=
  ∀ (c : Cache) (pending : Option Nat), (∃ u, (c.slot u).lock = false) →
    let i := c.victim pending
    let better := fun (P : Slot → Prop) =>
      P (c.slot i) ∧ ∀ q, (c.slot q).lock = false → P (c.slot q) → i.toNat ≤ q.toNat
    (c.slot i).lock = false ∧
      ((∃ q, (c.slot q).lock = false ∧ (c.slot q).valid = false) → better fun sl => sl.valid = false) ∧
      ((∀ q, (c.slot q).lock = false → (c.slot q).valid = true) →
        (∃ q, (c.slot q).lock = false ∧ some (c.slot q).tag.toNat ≠ pending) →
        better fun sl => some sl.tag.toNat ≠ pending) ∧
      ((∀ q, (c.slot q).lock = false → (c.slot q).valid = true ∧ some (c.slot q).tag.toNat = pending) →
        better fun _ => True)

/-- R243, R245: a request for a row: a hit locks the slot and counts; a miss decodes the row into the victim, which then
gives back exactly the source's pixels. R246: the two rows a destination row needs, that they are requested in that
order, the second being the first one's pending row, which slot serves which, and that the row's end unlocks both. -/
def Obligations.RowRequests : Prop :=
  (∀ k c (j : Nat),
      let y0 : Int := (c.xform.e.toInt * (j : Int) + c.xform.f.toInt).fdiv 65536
      let clamped := fun y : Int => (min (max y 0) ((c.src.height.toNat : Int) - 1)).toNat
      let inside := fun y : Int => if 0 ≤ y ∧ y < (c.src.height.toNat : Int) then some y.toNat else none
      (k.edge = .pad → rowPair k c j = (some (clamped y0), some (clamped (y0 + 1)))) ∧
      (k.edge = .outside → rowPair k c j = (inside y0, inside (y0 + 1)))) ∧
  (∀ p k c (e : Engine) j,
      (rowPair k c j = (none, none) → e.rowStart p k c j = ({ top := none, bottom := none }, e)) ∧
      (∀ y, rowPair k c j = (some y, none) →
        let a := e.acquire p k c y none
        e.rowStart p k c j = ({ top := some a.1, bottom := none }, a.2)) ∧
      (∀ y, rowPair k c j = (none, some y) →
        let a := e.acquire p k c y none
        e.rowStart p k c j = ({ top := none, bottom := some a.1 }, a.2)) ∧
      ∀ y y', rowPair k c j = (some y, some y') →
        let a := e.acquire p k c y (some y')
        let b := a.2.acquire p k c y' none
        e.rowStart p k c j = ({ top := some a.1, bottom := some b.1 }, b.2)) ∧
  (∀ p op k c (e : Engine) j, cacheUsed k c = true →
      (Engine.compositeRow p op k c e j).cache =
        let d := (e.rowStart p k c j).2.cache
        { d with slot0 := { d.slot0 with lock := false }, slot1 := { d.slot1 with lock := false } }) ∧
  ∀ (p : Config.Params) k c (e : Engine) y pending, e.bus.mem.wf → y < c.src.height.toNat →
    cacheUsed k c = true →
    (∀ a, Covers ((List.range c.src.width.toNat).map fun x => srcAccess k c x y) a →
      ¬ Covers (scratchAccesses p k c) a) →
    let i := (e.acquire p k c y pending).1
    let e' := (e.acquire p k c y pending).2
    (e'.cache.slot i).lock = true ∧ (e'.cache.slot i).valid = true ∧ (e'.cache.slot i).tag.toNat = y ∧
      (∀ q, q ≠ i → e'.cache.slot q = e.cache.slot q) ∧
      ((∃ q, (e.cache.slot q).valid = true ∧ (e.cache.slot q).tag.toNat = y) →
        e'.bus = e.bus ∧ e'.cache.hits = e.cache.hits + 1 ∧ e'.cache.decodes = e.cache.decodes) ∧
      ((∀ q, (e.cache.slot q).valid = true → (e.cache.slot q).tag.toNat ≠ y) →
        i = e.cache.victim pending ∧ e'.cache.decodes = e.cache.decodes + 1 ∧ e'.cache.hits = e.cache.hits ∧
        SameOutside [slotRow c i] e'.bus.mem e.bus.mem ∧
        ∀ x < c.src.width.toNat, e'.rowPix p c i x = srcPix k.sfmt c e.bus.mem x y)

/-- R249: a COMPOSITE without the cache changes no slot and leaves both counters 0. -/
def Obligations.UncachedCountersStayZero : Prop :=
  ∀ op k s, CompositeReady op k s → cacheUsed k s.conf = false →
    ∃ t, exec (.composite k op) s = .next t ∧ t.cache = { s.cache with decodes := 0, hits := 0 }

/-! ## FILL and BLIT -/

/-- R271: FILL completes, every pixel of the rectangle holds the value, and nothing else changes. -/
def Obligations.FillWritesTheRectangle : Prop :=
  ∀ bpp s, s.mem.wf → bpp = 16 ∨ bpp = 32 →
    (bpp = 16 → s.conf.fillValue.toNat / 2 ^ 16 = s.conf.fillValue.toNat % 2 ^ 16) →
    s.conf.rectW ≠ 0 → s.conf.rectH ≠ 0 → RectFits s.conf s.conf.dst (bpp / 8) →
    Ordinary s (s.conf.rectAccesses s.conf.dst (bpp / 8)) →
    ∃ t, exec (.fill bpp) s = .next t ∧ t = { s.ended with mem := t.mem } ∧
      SameOutside (s.conf.rectAccesses s.conf.dst (bpp / 8)) t.mem s.mem ∧
      ∀ i j, i < s.conf.rectW.toNat → j < s.conf.rectH.toNat →
        t.mem.read (s.conf.dst.rectAddr (bpp / 8) i j) (bpp / 8) = s.conf.fillValue.toNat % 2 ^ bpp

/-- R272: BLIT completes, and memory is what storing the source's pixels, as they were at the start, in row-major order
leaves; nothing else changes. -/
def Obligations.BlitCopiesTheRectangle : Prop :=
  ∀ bpp s, s.mem.wf → bpp = 16 ∨ bpp = 32 → s.conf.rectW ≠ 0 → s.conf.rectH ≠ 0 →
    RectFits s.conf s.conf.src (bpp / 8) → RectFits s.conf s.conf.dst (bpp / 8) →
    Ordinary s (s.conf.rectAccesses s.conf.src (bpp / 8) ++ s.conf.rectAccesses s.conf.dst (bpp / 8)) →
    (∀ a, Covers (s.conf.rectAccesses s.conf.src (bpp / 8)) a →
        ¬ Covers (s.conf.rectAccesses s.conf.dst (bpp / 8)) a) ∨
      (∀ q ∈ s.conf.pixels, s.conf.src.rectAddr (bpp / 8) q.1 q.2 = s.conf.dst.rectAddr (bpp / 8) q.1 q.2) →
    ∃ t, exec (.blit bpp bpp) s = .next t ∧ t = { s.ended with mem := t.mem } ∧
      SameOutside (s.conf.rectAccesses s.conf.dst (bpp / 8)) t.mem s.mem ∧
      t.mem = s.conf.pixels.foldl (fun m q => m.write (s.conf.dst.rectAddr (bpp / 8) q.1 q.2) (bpp / 8)
        (s.mem.read (s.conf.src.rectAddr (bpp / 8) q.1 q.2) (bpp / 8))) s.mem

/-- R273: a BLIT of a region onto itself leaves memory as it is; any other overlap is `fault Contract(ALIAS)`. -/
def Obligations.BlitOntoItself : Prop :=
  ∀ bpp s, s.mem.wf → bpp = 16 ∨ bpp = 32 → s.conf.rectW ≠ 0 → s.conf.rectH ≠ 0 →
    RectFits s.conf s.conf.src (bpp / 8) → RectFits s.conf s.conf.dst (bpp / 8) →
    Ordinary s (s.conf.rectAccesses s.conf.src (bpp / 8) ++ s.conf.rectAccesses s.conf.dst (bpp / 8)) →
    ((∀ q ∈ s.conf.pixels, s.conf.src.rectAddr (bpp / 8) q.1 q.2 = s.conf.dst.rectAddr (bpp / 8) q.1 q.2) →
      exec (.blit bpp bpp) s = .next s.ended) ∧
    ((∃ q ∈ s.conf.pixels, s.conf.src.rectAddr (bpp / 8) q.1 q.2 ≠ s.conf.dst.rectAddr (bpp / 8) q.1 q.2) →
      (∃ a, Covers (s.conf.rectAccesses s.conf.src (bpp / 8)) a ∧ Covers (s.conf.rectAccesses s.conf.dst (bpp / 8)) a) →
      exec (.blit bpp bpp) s = .fault .aliasing)

/-- R294: the checks of FILL and BLIT in their order; neither looks at CTRL or the kernel enables, since the
conditions do not name them, and neither touches the cache counters. -/
def Obligations.FillAndBlitCheckOrder : Prop :=
  (∀ s e, s.status.busy = true → decodeWord s.cmd = .error e → blockTurn s = .next (s.failed .illegal)) ∧
  (∀ bpp s,
      let c := s.conf
      let unsupported := ¬ (bpp = 16 ∨ bpp = 32)
      let precond := bpp = 16 ∧ c.fillValue.extractLsb' 16 16 ≠ c.fillValue.extractLsb' 0 16
      let empty := c.rectW = 0 ∨ c.rectH = 0
      let align := c.dst.base.toNat % (bpp / 8) ≠ 0 ∨ c.dst.stride.toInt % ((bpp / 8 : Nat) : Int) ≠ 0
      let bounds := c.dst.width.toNat < c.dst.x.toNat + c.rectW.toNat ∨
        c.dst.height.toNat < c.dst.y.toNat + c.rectH.toNat
      (unsupported → exec (.fill bpp) s = .next (s.failed .unsupported)) ∧
      (¬ unsupported → precond → exec (.fill bpp) s = .next (s.failed .precond)) ∧
      (¬ unsupported → ¬ precond → empty → exec (.fill bpp) s = .next s.ended) ∧
      (¬ unsupported → ¬ precond → ¬ empty → align → exec (.fill bpp) s = .next (s.failed .align)) ∧
      (¬ unsupported → ¬ precond → ¬ empty → ¬ align → bounds → exec (.fill bpp) s = .next (s.failed .bounds)) ∧
      (¬ unsupported → ¬ precond → ¬ empty → ¬ align → ¬ bounds →
        (∃ t, exec (.fill bpp) s = .next t ∧ t.status = s.status.doneWith ∧ t.cache = s.cache) ∨ ∃ f, exec (.fill bpp) s = .fault f)) ∧
    ∀ sbpp dbpp s,
      let c := s.conf
      let unsupported := ¬ ((sbpp = 16 ∨ sbpp = 32) ∧ (dbpp = 16 ∨ dbpp = 32))
      let precond := sbpp ≠ dbpp
      let empty := c.rectW = 0 ∨ c.rectH = 0
      let misaligned := fun (p : BufDesc) =>
        p.base.toNat % (sbpp / 8) ≠ 0 ∨ p.stride.toInt % ((sbpp / 8 : Nat) : Int) ≠ 0
      let outside := fun (p : BufDesc) =>
        p.width.toNat < p.x.toNat + c.rectW.toNat ∨ p.height.toNat < p.y.toNat + c.rectH.toNat
      let align := misaligned c.src ∨ misaligned c.dst
      let bounds := outside c.src ∨ outside c.dst
      (unsupported → exec (.blit sbpp dbpp) s = .next (s.failed .unsupported)) ∧
      (¬ unsupported → precond → exec (.blit sbpp dbpp) s = .next (s.failed .precond)) ∧
      (¬ unsupported → ¬ precond → empty → exec (.blit sbpp dbpp) s = .next s.ended) ∧
      (¬ unsupported → ¬ precond → ¬ empty → align → exec (.blit sbpp dbpp) s = .next (s.failed .align)) ∧
      (¬ unsupported → ¬ precond → ¬ empty → ¬ align → bounds →
        exec (.blit sbpp dbpp) s = .next (s.failed .bounds)) ∧
      (¬ unsupported → ¬ precond → ¬ empty → ¬ align → ¬ bounds →
        (∃ t, exec (.blit sbpp dbpp) s = .next t ∧ t.status = s.status.doneWith ∧ t.cache = s.cache) ∨
          ∃ f, exec (.blit sbpp dbpp) s = .fault f)

/-! ## The outside world's memory accesses -/

/-- R72: a host access to a byte of a running command's sets, this block's or another instance's, is
`fault Contract(HOST_RACE)`. Whether the block is busy or idle, an access to ordinary memory outside those sets goes on: a
write stores its bytes, a read returns them, and nothing else changes. That HOST_RACE is named also where such a byte is
no ordinary memory is the model's choice (log entry 12). -/
def Obligations.HostRaceIsAContractFault : Prop :=
  (∀ s i, s.status.busy = true → decodeWord s.cmd = .ok i → ∀ (addr : Word) size v,
      (∃ a, Covers [{ addr, size }] a ∧
        Covers ((instrPlan s i).footprint.reads ++ (instrPlan s i).footprint.writes) a) →
      hostAct (.memRead addr size) s = .fault .hostRace ∧ hostAct (.memWrite addr size v) s = .fault .hostRace) ∧
    (∀ s q, q ∈ s.peers → ∀ (addr : Word) size v,
      (∃ a, Covers [{ addr, size }] a ∧ Covers (q.sets.reads ++ q.sets.writes) a) →
      hostAct (.memRead addr size) s = .fault .hostRace ∧ hostAct (.memWrite addr size v) s = .fault .hostRace) ∧
    ∀ s (addr : Word) size v,
      (∀ a, Covers [{ addr, size }] a →
        (s.status.busy = true → ∀ i, decodeWord s.cmd = .ok i →
          ¬ Covers ((instrPlan s i).footprint.reads ++ (instrPlan s i).footprint.writes) a) ∧
        (∀ q ∈ s.peers, ¬ Covers (q.sets.reads ++ q.sets.writes) a) ∧ ¬ Covers (s.platform.map Region.span) a) →
      hostAct (.memWrite addr size v) s = .next { s with mem := s.mem.write addr size v.toNat } ∧
      hostAct (.memRead addr size) s = .next { s with hostData := BitVec.ofNat 32 (s.mem.read addr size) }

/-- R306: commands of two of the NUM_INSTANCES blocks that run at once must keep apart, whichever is started first, this
block's and another's or those of two others, and whether or not their accesses meet in time; a command that keeps apart
starts, and its accesses inside its sets go on. The last clauses are about an access itself. How the others' commands and
accesses reach the model is log entry 17. That a word this block accepts is ALIAS also where its own sets break the
contract, by R65, R69 or R76, is the model's choice of the reason named (log entry 12). -/
def Obligations.OtherInstancesMustNotAlias : Prop :=
  (∀ s peer sets, peer + 1 < Config.params.numInstances → (∀ q ∈ s.peers, q.peer ≠ peer) →
      sets.contractFault s.platform = none →
      ((∃ i, s.status.busy = true ∧ decodeWord s.cmd = .ok i ∧ ¬ Apart (instrPlan s i).footprint sets) ∨
          (∃ q ∈ s.peers, ¬ Apart q.sets sets) →
        hostAct (.peerStart peer sets) s = .fault .aliasing) ∧
      ((∀ i, s.status.busy = true → decodeWord s.cmd = .ok i → Apart (instrPlan s i).footprint sets) →
        (∀ q ∈ s.peers, Apart q.sets sets) →
        hostAct (.peerStart peer sets) s = .next { s with peers := { peer, sets } :: s.peers })) ∧
    (∀ s v, s.status.busy = false → ¬ s.ApartFromPeers v → csrWrite 0x00C 4 v s = .fault .aliasing) ∧
    (∀ s peer, hostAct (.peerEnd peer) s = .next { s with peers := s.peers.filter fun q => q.peer != peer }) ∧
    (∀ s q, s.Inv → q ∈ s.peers → ∀ (addr : Word) size v,
      ((∀ a, Covers [{ addr, size }] a → Covers q.sets.writes a) →
        hostAct (.peerWrite q.peer addr size v) s = .next { s with mem := s.mem.write addr size v.toNat }) ∧
      ((∀ a, Covers [{ addr, size }] a → Covers q.sets.reads a) → hostAct (.peerRead q.peer addr size) s = .next s)) ∧
    ∀ s i, s.status.busy = true → decodeWord s.cmd = .ok i →
      ∀ peer, peer + 1 < Config.params.numInstances → ∀ (addr : Word) size v,
        ((∃ a, Covers [{ addr, size }] a ∧
            Covers ((instrPlan s i).footprint.reads ++ (instrPlan s i).footprint.writes) a) →
          hostAct (.peerWrite peer addr size v) s = .fault .aliasing) ∧
        ((∃ a, Covers [{ addr, size }] a ∧ Covers (instrPlan s i).footprint.writes a) →
          hostAct (.peerRead peer addr size) s = .fault .aliasing) ∧
        ((∀ a, Covers [{ addr, size }] a → ¬ Covers (instrPlan s i).footprint.writes a) →
          hostAct (.peerRead peer addr size) s = .next s)

/-! ## A whole COMPOSITE's cache -/

/-- R246, R247, R250: a COMPOSITE with a cache. Each request its rows make is a decode or a hit; slot 0 is decoded into
when a row is requested at all, slot 1 when two different rows are; at the end the counters and tags are those the
requests lead to, the tag of a slot being the last row decoded into it (0 if none was, R241), kept, and both slots are
invalid and unlocked; a slot in external scratch that was decoded into holds the row of its tag, packed. Then the
counters and tags of R250 and of the traces of `95_test_vectors.md` section 2.4, program P3's among them. -/
def Obligations.CachedCompositeTrace : Prop :=
  ∀ op k s, s.mem.wf → CompositeReady op k s → cacheUsed k s.conf = true →
    ∃ t, exec (.composite k op) s = .next t ∧
      let c := s.conf
      let rows := (List.range c.rectH.toNat).flatMap fun j => (rowPair k c j).1.toList ++ (rowPair k c j).2.toList
      let ends := fun (decodes hits : Word) (tag0 tag1 : BitVec 16) =>
        t.cache.decodes = decodes ∧ t.cache.hits = hits ∧ t.cache.slot0.tag = tag0 ∧ t.cache.slot1.tag = tag1
      t.cache.decodes + t.cache.hits = BitVec.ofNat 32 rows.length ∧
      t.cache.decodes = BitVec.ofNat 32 (rowTrace k c).decoded.length ∧
      t.cache.decodes = (rowTrace k c).cache.decodes ∧ t.cache.hits = (rowTrace k c).cache.hits ∧
      (∀ i, (t.cache.slot i).tag = ((rowTrace k c).cache.slot i).tag ∧
        (t.cache.slot i).tag.toNat =
          (((rowTrace k c).decoded.filter fun q => q.1 = i).getLast?.map fun q => q.2).getD 0) ∧
      ((∃ q ∈ (rowTrace k c).decoded, q.1 = .s0) ↔ rows ≠ []) ∧
      ((∃ q ∈ (rowTrace k c).decoded, q.1 = .s1) ↔ ∃ y ∈ rows, ∃ y' ∈ rows, y ≠ y') ∧
      (∀ i, (t.cache.slot i).valid = false ∧ (t.cache.slot i).lock = false) ∧
      (externalScratch Config.params c = true → ∀ i, (∃ q ∈ (rowTrace k c).decoded, q.1 = i) →
        ∀ x < c.src.width.toNat, t.mem.read (scratchAddr c i x) 4 =
          (pack32 (srcPix k.sfmt c s.mem x (t.cache.slot i).tag.toNat)).toNat) ∧
      (k.edge = .pad → 8 ≤ c.src.height.toNat → c.rectH = 2 → c.xform.f.toInt = 5 * 65536 →
        (c.xform.e.toInt = 65536 → ends 3 1 7 6) ∧ (c.xform.e.toInt = -65536 → ends 3 1 5 4)) ∧
      (k.edge = .pad → c.rectH = 1 → c.xform.f.toInt = -65536 → ends 1 1 0 0) ∧
      (k.edge = .pad → c.src.height = 3 → c.rectH = 4 → c.xform.f.toInt = 0 → c.xform.e.toInt = 32768 → ends 3 5 2 1) ∧
      (k.edge = .outside → c.src.height = 3 → c.rectH = 1 →
        (c.xform.f.toInt = -32768 → ends 1 0 0 0) ∧ (c.xform.f.toInt = 2 * 65536 → ends 1 0 2 0) ∧
        (c.xform.f.toInt = 5 * 65536 → ends 0 0 0 0))
end

