-- ==== Sys2Proof/Laws/Lanes.lean ====
section
/-! SUPPORT. The lanes of wide values: what each lane function's result holds lane by lane, and that the operators
stay within bytes. -/

namespace Sys2Proof.Machine

/-! Lanes of wide values. -/

@[simp] theorem lane_wide_0 (a b c d : LaneWord) : lane (wide a b c d) 0 = a := by
  simp only [lane, wide]; ext i hi; simp; grind

@[simp] theorem lane_wide_1 (a b c d : LaneWord) : lane (wide a b c d) 1 = b := by
  simp only [lane, wide]; ext i hi; simp; grind

@[simp] theorem lane_wide_2 (a b c d : LaneWord) : lane (wide a b c d) 2 = c := by
  simp only [lane, wide]; ext i hi; simp; grind

@[simp] theorem lane_wide_3 (a b c d : LaneWord) : lane (wide a b c d) 3 = d := by
  simp only [lane, wide]; ext i hi; simp; grind

/-- Two wide values with the same four lanes are equal. -/
theorem wide_ext {v w : Wide} (h : ∀ k < 4, lane v k = lane w k) : v = w := by
  have h0 := h 0 (by omega)
  have h1 := h 1 (by omega)
  have h2 := h 2 (by omega)
  have h3 := h 3 (by omega)
  simp only [lane] at h0 h1 h2 h3
  apply BitVec.eq_of_getElem_eq
  intro i hi
  have e (k : Nat) (hk : v.extractLsb' (16 * k) 16 = w.extractLsb' (16 * k) 16) (hik : 16 * k ≤ i)
      (hki : i < 16 * k + 16) : v[i] = w[i] := by
    have := congrArg (fun z : BitVec 16 => z.getLsbD (i - 16 * k)) hk
    simp only [BitVec.getLsbD_extractLsb', show i - 16 * k < 16 by omega, decide_true, Bool.true_and,
      show 16 * k + (i - 16 * k) = i by omega] at this
    simpa [BitVec.getLsbD_eq_getElem hi] using this
  rcases Nat.lt_or_ge i 16 with h | h
  · exact e 0 h0 (by omega) (by omega)
  rcases Nat.lt_or_ge i 32 with h | h
  · exact e 1 h1 (by omega) (by omega)
  rcases Nat.lt_or_ge i 48 with h | h
  · exact e 2 h2 (by omega) (by omega)
  · exact e 3 h3 (by omega) (by omega)

/-- A lane is a 16-bit number. -/
theorem laneNat_lt (v : Wide) (k : Nat) : laneNat v k < 65536 := (lane v k).isLt

/-- A lane of a wide value given lane by lane. -/
theorem laneNat_wideOf (f : Nat → Nat) (k : Nat) (hk : k < 4) : laneNat (wideOf f) k = f k % 65536 := by
  match k, hk with
  | 0, _ => simp [laneNat, wideOf]
  | 1, _ => simp [laneNat, wideOf]
  | 2, _ => simp [laneNat, wideOf]
  | 3, _ => simp [laneNat, wideOf]

/-- A lane of a wide value given lane by lane by 16-bit numbers. -/
theorem laneNat_wideOf_of_lt (f : Nat → Nat) (k : Nat) (hk : k < 4) (h : f k < 65536) :
    laneNat (wideOf f) k = f k := by
  rw [laneNat_wideOf f k hk, Nat.mod_eq_of_lt h]

/-- Every lane of a broadcast is the value. -/
theorem lane_bcast (x : LaneWord) (k : Nat) (hk : k < 4) : lane (bcast x) k = x := by
  match k, hk with
  | 0, _ => simp [bcast]
  | 1, _ => simp [bcast]
  | 2, _ => simp [bcast]
  | 3, _ => simp [bcast]

/-- Replacing a lane replaces that lane and no other. -/
theorem lane_setLane (v : Wide) (i k : Nat) (x : LaneWord) (hi : i < 4) (hk : k < 4) :
    lane (setLane v i x) k = if k = i then x else lane v k := by
  match i, hi, k, hk with
  | 0, _, 0, _ | 0, _, 1, _ | 0, _, 2, _ | 0, _, 3, _ => simp [setLane]
  | 1, _, 0, _ | 1, _, 1, _ | 1, _, 2, _ | 1, _, 3, _ => simp [setLane]
  | 2, _, 0, _ | 2, _, 1, _ | 2, _, 2, _ | 2, _, 3, _ => simp [setLane]
  | 3, _, 0, _ | 3, _, 1, _ | 3, _, 2, _ | 3, _, 3, _ => simp [setLane]

/-! The lane functions. -/

/-- The multiply's result is a byte, whatever its inputs. -/
theorem mul8_le (a b : Nat) : mul8 a b ≤ 255 := by
  simp only [mul8, sat16, Nat.shiftRight_eq_div_pow]
  omega

/-- The fused multiply-add's result is a byte, whatever its inputs. -/
theorem muladd8_le (x a y b : Nat) : muladd8 x a y b ≤ 255 := by
  simp only [muladd8, sat16, Nat.shiftRight_eq_div_pow]
  omega

/-- The saturating add's result is a byte, whatever its inputs. -/
theorem adds8_le (a b : Nat) : adds8 a b ≤ 255 := by simp only [adds8]; omega

theorem laneNat_mul8V (a b : Wide) (k : Nat) (hk : k < 4) :
    laneNat (mul8V a b) k = mul8 (laneNat a k) (laneNat b k) :=
  laneNat_wideOf_of_lt (fun k => mul8 (laneNat a k) (laneNat b k)) k hk (Nat.lt_of_le_of_lt (mul8_le _ _) (by decide))

theorem laneNat_adds8V (a b : Wide) (k : Nat) (hk : k < 4) :
    laneNat (adds8V a b) k = adds8 (laneNat a k) (laneNat b k) :=
  laneNat_wideOf_of_lt (fun k => adds8 (laneNat a k) (laneNat b k)) k hk
    (Nat.lt_of_le_of_lt (adds8_le _ _) (by decide))

theorem laneNat_muladd8V (x a y b : Wide) (k : Nat) (hk : k < 4) :
    laneNat (muladd8V x a y b) k = muladd8 (laneNat x k) (laneNat a k) (laneNat y k) (laneNat b k) :=
  laneNat_wideOf_of_lt (fun k => muladd8 (laneNat x k) (laneNat a k) (laneNat y k) (laneNat b k)) k hk
    (Nat.lt_of_le_of_lt (muladd8_le _ _ _ _) (by decide))

/-- The negate acts lane by lane on the low byte. -/
theorem lane_neg8V (a : Wide) (k : Nat) (hk : k < 4) : lane (neg8V a) k = lane a k ^^^ 0x00FF#16 := by
  match k, hk with
  | 0, _ | 1, _ | 2, _ | 3, _ =>
    simp only [neg8V, lane, BitVec.extractLsb'_xor]
    congr 1

theorem lanesAreBytes_mul8V (a b : Wide) : LanesAreBytes (mul8V a b) := fun k hk => by
  rw [laneNat_mul8V a b k hk]; exact mul8_le _ _

theorem lanesAreBytes_adds8V (a b : Wide) : LanesAreBytes (adds8V a b) := fun k hk => by
  rw [laneNat_adds8V a b k hk]; exact adds8_le _ _

theorem lanesAreBytes_muladd8V (x a y b : Wide) : LanesAreBytes (muladd8V x a y b) := fun k hk => by
  rw [laneNat_muladd8V x a y b k hk]; exact muladd8_le _ _ _ _

theorem lanesAreBytes_bcast {x : LaneWord} (h : x.toNat ≤ 255) : LanesAreBytes (bcast x) := fun k hk => by
  rw [laneNat, lane_bcast x k hk]; exact h

theorem lanesAreBytes_wide {a b c d : LaneWord} (ha : a.toNat ≤ 255) (hb : b.toNat ≤ 255) (hc : c.toNat ≤ 255)
    (hd : d.toNat ≤ 255) : LanesAreBytes (wide a b c d) := fun k hk => by
  match k, hk with
  | 0, _ => simpa [laneNat] using ha
  | 1, _ => simpa [laneNat] using hb
  | 2, _ => simpa [laneNat] using hc
  | 3, _ => simpa [laneNat] using hd

/-! The conversions. -/

/-- A channel of an unpacked pixel is that byte of it (R150). -/
theorem lane_unpack32 (p : Word) (k : Nat) (hk : k < 4) : lane (unpack32 p) k = (pixelByte p k).setWidth 16 := by
  match k, hk with
  | 0, _ => simp [unpack32]
  | 1, _ => simp [unpack32]
  | 2, _ => simp [unpack32]
  | 3, _ => simp [unpack32]

theorem lanesAreBytes_unpack32 (p : Word) : LanesAreBytes (unpack32 p) := fun k hk => by
  rw [laneNat, lane_unpack32 p k hk, BitVec.toNat_setWidth]
  have := (pixelByte p k).isLt
  omega

/-- A byte of a packed pixel is that lane, clamped (R152). -/
theorem pixelByte_pack32 (w : Wide) (k : Nat) (hk : k < 4) : pixelByte (pack32 w) k = clampByte w k := by
  match k, hk with
  | 0, _ | 1, _ | 2, _ | 3, _ =>
    simp only [pixelByte, pack32]; ext i hi; simp; grind

/-- A lane that is a byte is clamped to itself. -/
theorem clampByte_setWidth {w : Wide} {k : Nat} (h : laneNat w k ≤ 255) : (clampByte w k).setWidth 16 = lane w k := by
  apply BitVec.eq_of_toNat_eq
  have e : (lane w k).toNat = laneNat w k := rfl
  rw [BitVec.toNat_setWidth, clampByte, clamp8, BitVec.toNat_ofNat, e]
  omega

/-- Packing loses nothing of a value whose lanes are bytes (R245). -/
theorem unpack32_pack32 {w : Wide} (h : LanesAreBytes w) : unpack32 (pack32 w) = w :=
  wide_ext fun k hk => by
    rw [lane_unpack32 _ k hk, pixelByte_pack32 w k hk, clampByte_setWidth (h k hk)]

theorem expand5_le {x : Nat} (h : x < 32) : expand5 x ≤ 255 := by
  revert x; decide

theorem expand6_le {x : Nat} (h : x < 64) : expand6 x ≤ 255 := by
  revert x; decide

theorem lanesAreBytes_expand565 (h : LaneWord) : LanesAreBytes (expand565 h) := by
  have h0 := expand5_le (x := (h.extractLsb' 0 5).toNat) (BitVec.isLt _)
  have h1 := expand6_le (x := (h.extractLsb' 5 6).toNat) (BitVec.isLt _)
  have h2 := expand5_le (x := (h.extractLsb' 11 5).toNat) (BitVec.isLt _)
  refine lanesAreBytes_wide ?_ ?_ ?_ (by decide)
  · rw [BitVec.toNat_ofNat]; exact Nat.le_trans (Nat.mod_le _ _) h0
  · rw [BitVec.toNat_ofNat]; exact Nat.le_trans (Nat.mod_le _ _) h1
  · rw [BitVec.toNat_ofNat]; exact Nat.le_trans (Nat.mod_le _ _) h2

/-- A memory read of one byte is a byte. -/
theorem Memory.read_one_lt (m : Memory) (a : Word) : m.read a 1 < 256 := by
  simp only [Memory.read]
  have := (Memory.readByte m a.toNat).isLt
  omega

/-- Every lane of a loaded pixel is a byte (R158). -/
theorem lanesAreBytes_loadPixel (f : Fmt) (m : Memory) (a : Word) : LanesAreBytes (loadPixel f m a) := by
  cases f with
  | argb32 => exact lanesAreBytes_unpack32 _
  | rgb565 => exact lanesAreBytes_expand565 _
  | a8 =>
    refine lanesAreBytes_wide (by decide) (by decide) (by decide) ?_
    rw [BitVec.toNat_ofNat]
    have := Memory.read_one_lt m a
    omega
  | argb32Npr => exact lanesAreBytes_mul8V _ _

/-! Closed forms. -/

/-- `mul8` in closed form (R121). -/
theorem mul8_eq_rounded (a b : Nat) : mul8 a b = rounded (a * b + 128) := by
  simp only [mul8, rounded, sat16, Nat.shiftRight_eq_div_pow]

/-- `muladd8` in closed form: the order of the products does not matter (R122). -/
theorem muladd8_eq_rounded (x a y b : Nat) : muladd8 x a y b = rounded (x * a + y * b + 128) := by
  simp only [muladd8, rounded, sat16, Nat.shiftRight_eq_div_pow]
  generalize x * a = p
  generalize y * b = q
  have : min (min (p + 128) 65535 + q) 65535 = min (p + q + 128) 65535 := by omega
  rw [this]

theorem rounded_le (t : Nat) : rounded t ≤ 255 := by simp only [rounded]; omega

/-- The negate of a lane that is a byte is its complement to 255 (R131). -/
theorem laneNat_neg8V {a : Wide} {k : Nat} (hk : k < 4) (h : laneNat a k ≤ 255) :
    laneNat (neg8V a) k = 255 - laneNat a k := by
  have key : ∀ x : BitVec 8, ((x.setWidth 16) ^^^ 0x00FF#16).toNat = 255 - x.toNat := by decide
  have e : lane a k = ((lane a k).setWidth 8).setWidth 16 := by
    apply BitVec.eq_of_toNat_eq
    have : (lane a k).toNat ≤ 255 := h
    simp only [BitVec.toNat_setWidth]; omega
  simp only [laneNat, lane_neg8V a k hk]
  rw [e, key]
  simp only [BitVec.toNat_setWidth]
  have : (lane a k).toNat ≤ 255 := h
  omega

/-- `laneNat` of a broadcast. -/
theorem laneNat_bcast (x : LaneWord) (k : Nat) (hk : k < 4) : laneNat (bcast x) k = x.toNat := by
  rw [laneNat, lane_bcast x k hk]

/-- The blend of bytes is a byte (R235). -/
theorem interp_le {tl tr bl br dx dy : Nat} (h1 : tl ≤ 255) (h2 : tr ≤ 255) (h3 : bl ≤ 255) (h4 : br ≤ 255)
    (hx : dx ≤ 256) (hy : dy ≤ 256) : interp tl tr bl br dx dy ≤ 255 := by
  have top : tl * (256 - dx) + tr * dx ≤ 65280 := by
    have a1 := Nat.mul_le_mul_right (256 - dx) h1
    have a2 := Nat.mul_le_mul_right dx h2
    omega
  have bot : bl * (256 - dx) + br * dx ≤ 65280 := by
    have a1 := Nat.mul_le_mul_right (256 - dx) h3
    have a2 := Nat.mul_le_mul_right dx h4
    omega
  have b1 := Nat.mul_le_mul_right (256 - dy) top
  have b2 := Nat.mul_le_mul_right dy bot
  simp only [interp, Nat.shiftRight_eq_div_pow]
  omega

theorem weight_lt (u : Int) : weight u < 256 := by
  simp only [weight, Nat.shiftRight_eq_div_pow]; omega

theorem lanesAreBytes_interpV {tl tr bl br : Wide} {dx dy : Nat} (h1 : LanesAreBytes tl) (h2 : LanesAreBytes tr)
    (h3 : LanesAreBytes bl) (h4 : LanesAreBytes br) (hx : dx ≤ 256) (hy : dy ≤ 256) :
    LanesAreBytes (interpV tl tr bl br dx dy) := fun k hk => by
  have h := interp_le (h1 k hk) (h2 k hk) (h3 k hk) (h4 k hk) hx hy
  rw [interpV, laneNat_wideOf_of_lt (fun k => interp (laneNat tl k) (laneNat tr k) (laneNat bl k) (laneNat br k) dx dy)
    k hk (by omega)]
  exact h

/-- Every operator's result is bytes when its masked source is (R202). -/
theorem lanesAreBytes_opResult (z : Config.SatZeroHeadroom) (op : Op) {s' : Wide} (a d : Wide) (h : LanesAreBytes s') :
    LanesAreBytes (opResult z op s' a d) := by
  match op with
  | .src => exact h
  | .over => exact lanesAreBytes_adds8V s' (mul8V d (neg8V a))
  | .overReverse => exact lanesAreBytes_adds8V d (mul8V s' (neg8V (bcast (lane d 3))))
  | .srcIn => exact lanesAreBytes_mul8V s' (bcast (lane d 3))
  | .inReverse => exact lanesAreBytes_mul8V d a
  | .out => exact lanesAreBytes_mul8V s' (neg8V (bcast (lane d 3)))
  | .outReverse => exact lanesAreBytes_mul8V d (neg8V a)
  | .atop => exact lanesAreBytes_muladd8V s' (bcast (lane d 3)) d (neg8V a)
  | .atopReverse => exact lanesAreBytes_muladd8V s' (neg8V (bcast (lane d 3))) d a
  | .xor => exact lanesAreBytes_muladd8V s' (neg8V (bcast (lane d 3))) d (neg8V a)
  | .add => exact lanesAreBytes_adds8V s' d
  | .saturate =>
    exact lanesAreBytes_adds8V d (wideOf fun k => saturateLane z (255 - laneNat d 3) (laneNat s' k) (laneNat a k))

end Sys2Proof.Machine
end

