-- ==== Sys2Proof/Laws/State.lean ====
section
/-! SUPPORT. One lemma per field of `State` and per update of it, so that no proof unfolds a record update. -/

namespace Sys2Proof.Machine

variable (s : State)

/-! `withStatus` -/

@[simp] theorem State.withStatus_regs (x : Status) : (s.withStatus x).regs = s.regs := rfl
@[simp] theorem State.withStatus_ctrl (x : Status) : (s.withStatus x).ctrl = s.ctrl := rfl
@[simp] theorem State.withStatus_status (x : Status) : (s.withStatus x).status = x := rfl
@[simp] theorem State.withStatus_cmd (x : Status) : (s.withStatus x).cmd = s.cmd := rfl
@[simp] theorem State.withStatus_conf (x : Status) : (s.withStatus x).conf = s.conf := rfl
@[simp] theorem State.withStatus_cache (x : Status) : (s.withStatus x).cache = s.cache := rfl
@[simp] theorem State.withStatus_mem (x : Status) : (s.withStatus x).mem = s.mem := rfl
@[simp] theorem State.withStatus_platform (x : Status) : (s.withStatus x).platform = s.platform := rfl
@[simp] theorem State.withStatus_peers (x : Status) : (s.withStatus x).peers = s.peers := rfl
@[simp] theorem State.withStatus_inputs (x : Status) : (s.withStatus x).inputs = s.inputs := rfl
@[simp] theorem State.withStatus_hostData (x : Status) : (s.withStatus x).hostData = s.hostData := rfl
@[simp] theorem State.withStatus_draws (x : Status) : (s.withStatus x).draws = s.draws := rfl

/-! `withMem` -/

@[simp] theorem State.withMem_regs (x : Memory) : (s.withMem x).regs = s.regs := rfl
@[simp] theorem State.withMem_ctrl (x : Memory) : (s.withMem x).ctrl = s.ctrl := rfl
@[simp] theorem State.withMem_status (x : Memory) : (s.withMem x).status = s.status := rfl
@[simp] theorem State.withMem_cmd (x : Memory) : (s.withMem x).cmd = s.cmd := rfl
@[simp] theorem State.withMem_conf (x : Memory) : (s.withMem x).conf = s.conf := rfl
@[simp] theorem State.withMem_cache (x : Memory) : (s.withMem x).cache = s.cache := rfl
@[simp] theorem State.withMem_mem (x : Memory) : (s.withMem x).mem = x := rfl
@[simp] theorem State.withMem_platform (x : Memory) : (s.withMem x).platform = s.platform := rfl
@[simp] theorem State.withMem_peers (x : Memory) : (s.withMem x).peers = s.peers := rfl
@[simp] theorem State.withMem_inputs (x : Memory) : (s.withMem x).inputs = s.inputs := rfl
@[simp] theorem State.withMem_hostData (x : Memory) : (s.withMem x).hostData = s.hostData := rfl
@[simp] theorem State.withMem_draws (x : Memory) : (s.withMem x).draws = s.draws := rfl

/-! `withCache` -/

@[simp] theorem State.withCache_regs (x : Cache) : (s.withCache x).regs = s.regs := rfl
@[simp] theorem State.withCache_ctrl (x : Cache) : (s.withCache x).ctrl = s.ctrl := rfl
@[simp] theorem State.withCache_status (x : Cache) : (s.withCache x).status = s.status := rfl
@[simp] theorem State.withCache_cmd (x : Cache) : (s.withCache x).cmd = s.cmd := rfl
@[simp] theorem State.withCache_conf (x : Cache) : (s.withCache x).conf = s.conf := rfl
@[simp] theorem State.withCache_cache (x : Cache) : (s.withCache x).cache = x := rfl
@[simp] theorem State.withCache_mem (x : Cache) : (s.withCache x).mem = s.mem := rfl
@[simp] theorem State.withCache_platform (x : Cache) : (s.withCache x).platform = s.platform := rfl
@[simp] theorem State.withCache_peers (x : Cache) : (s.withCache x).peers = s.peers := rfl
@[simp] theorem State.withCache_inputs (x : Cache) : (s.withCache x).inputs = s.inputs := rfl
@[simp] theorem State.withCache_hostData (x : Cache) : (s.withCache x).hostData = s.hostData := rfl
@[simp] theorem State.withCache_draws (x : Cache) : (s.withCache x).draws = s.draws := rfl

/-! `withPeers` -/

@[simp] theorem State.withPeers_regs (x : List PeerRun) : (s.withPeers x).regs = s.regs := rfl
@[simp] theorem State.withPeers_ctrl (x : List PeerRun) : (s.withPeers x).ctrl = s.ctrl := rfl
@[simp] theorem State.withPeers_status (x : List PeerRun) : (s.withPeers x).status = s.status := rfl
@[simp] theorem State.withPeers_cmd (x : List PeerRun) : (s.withPeers x).cmd = s.cmd := rfl
@[simp] theorem State.withPeers_conf (x : List PeerRun) : (s.withPeers x).conf = s.conf := rfl
@[simp] theorem State.withPeers_cache (x : List PeerRun) : (s.withPeers x).cache = s.cache := rfl
@[simp] theorem State.withPeers_mem (x : List PeerRun) : (s.withPeers x).mem = s.mem := rfl
@[simp] theorem State.withPeers_platform (x : List PeerRun) : (s.withPeers x).platform = s.platform := rfl
@[simp] theorem State.withPeers_peers (x : List PeerRun) : (s.withPeers x).peers = x := rfl
@[simp] theorem State.withPeers_inputs (x : List PeerRun) : (s.withPeers x).inputs = s.inputs := rfl
@[simp] theorem State.withPeers_hostData (x : List PeerRun) : (s.withPeers x).hostData = s.hostData := rfl
@[simp] theorem State.withPeers_draws (x : List PeerRun) : (s.withPeers x).draws = s.draws := rfl

/-! `withInputs` -/

@[simp] theorem State.withInputs_regs (x : List Turn) : (s.withInputs x).regs = s.regs := rfl
@[simp] theorem State.withInputs_ctrl (x : List Turn) : (s.withInputs x).ctrl = s.ctrl := rfl
@[simp] theorem State.withInputs_status (x : List Turn) : (s.withInputs x).status = s.status := rfl
@[simp] theorem State.withInputs_cmd (x : List Turn) : (s.withInputs x).cmd = s.cmd := rfl
@[simp] theorem State.withInputs_conf (x : List Turn) : (s.withInputs x).conf = s.conf := rfl
@[simp] theorem State.withInputs_cache (x : List Turn) : (s.withInputs x).cache = s.cache := rfl
@[simp] theorem State.withInputs_mem (x : List Turn) : (s.withInputs x).mem = s.mem := rfl
@[simp] theorem State.withInputs_platform (x : List Turn) : (s.withInputs x).platform = s.platform := rfl
@[simp] theorem State.withInputs_peers (x : List Turn) : (s.withInputs x).peers = s.peers := rfl
@[simp] theorem State.withInputs_inputs (x : List Turn) : (s.withInputs x).inputs = x := rfl
@[simp] theorem State.withInputs_hostData (x : List Turn) : (s.withInputs x).hostData = s.hostData := rfl
@[simp] theorem State.withInputs_draws (x : List Turn) : (s.withInputs x).draws = s.draws := rfl

/-! `withConf` -/

@[simp] theorem State.withConf_regs (x : Conf) : (s.withConf x).regs = s.regs := rfl
@[simp] theorem State.withConf_ctrl (x : Conf) : (s.withConf x).ctrl = s.ctrl := rfl
@[simp] theorem State.withConf_status (x : Conf) : (s.withConf x).status = s.status := rfl
@[simp] theorem State.withConf_cmd (x : Conf) : (s.withConf x).cmd = s.cmd := rfl
@[simp] theorem State.withConf_conf (x : Conf) : (s.withConf x).conf = x := rfl
@[simp] theorem State.withConf_cache (x : Conf) : (s.withConf x).cache = s.cache := rfl
@[simp] theorem State.withConf_mem (x : Conf) : (s.withConf x).mem = s.mem := rfl
@[simp] theorem State.withConf_platform (x : Conf) : (s.withConf x).platform = s.platform := rfl
@[simp] theorem State.withConf_peers (x : Conf) : (s.withConf x).peers = s.peers := rfl
@[simp] theorem State.withConf_inputs (x : Conf) : (s.withConf x).inputs = s.inputs := rfl
@[simp] theorem State.withConf_hostData (x : Conf) : (s.withConf x).hostData = s.hostData := rfl
@[simp] theorem State.withConf_draws (x : Conf) : (s.withConf x).draws = s.draws := rfl

/-! `withCtrl` -/

@[simp] theorem State.withCtrl_regs (x : Ctrl) : (s.withCtrl x).regs = s.regs := rfl
@[simp] theorem State.withCtrl_ctrl (x : Ctrl) : (s.withCtrl x).ctrl = x := rfl
@[simp] theorem State.withCtrl_status (x : Ctrl) : (s.withCtrl x).status = s.status := rfl
@[simp] theorem State.withCtrl_cmd (x : Ctrl) : (s.withCtrl x).cmd = s.cmd := rfl
@[simp] theorem State.withCtrl_conf (x : Ctrl) : (s.withCtrl x).conf = s.conf := rfl
@[simp] theorem State.withCtrl_cache (x : Ctrl) : (s.withCtrl x).cache = s.cache := rfl
@[simp] theorem State.withCtrl_mem (x : Ctrl) : (s.withCtrl x).mem = s.mem := rfl
@[simp] theorem State.withCtrl_platform (x : Ctrl) : (s.withCtrl x).platform = s.platform := rfl
@[simp] theorem State.withCtrl_peers (x : Ctrl) : (s.withCtrl x).peers = s.peers := rfl
@[simp] theorem State.withCtrl_inputs (x : Ctrl) : (s.withCtrl x).inputs = s.inputs := rfl
@[simp] theorem State.withCtrl_hostData (x : Ctrl) : (s.withCtrl x).hostData = s.hostData := rfl
@[simp] theorem State.withCtrl_draws (x : Ctrl) : (s.withCtrl x).draws = s.draws := rfl

/-! `withRegs` -/

@[simp] theorem State.withRegs_regs (x : LaneFile) : (s.withRegs x).regs = x := rfl
@[simp] theorem State.withRegs_ctrl (x : LaneFile) : (s.withRegs x).ctrl = s.ctrl := rfl
@[simp] theorem State.withRegs_status (x : LaneFile) : (s.withRegs x).status = s.status := rfl
@[simp] theorem State.withRegs_cmd (x : LaneFile) : (s.withRegs x).cmd = s.cmd := rfl
@[simp] theorem State.withRegs_conf (x : LaneFile) : (s.withRegs x).conf = s.conf := rfl
@[simp] theorem State.withRegs_cache (x : LaneFile) : (s.withRegs x).cache = s.cache := rfl
@[simp] theorem State.withRegs_mem (x : LaneFile) : (s.withRegs x).mem = s.mem := rfl
@[simp] theorem State.withRegs_platform (x : LaneFile) : (s.withRegs x).platform = s.platform := rfl
@[simp] theorem State.withRegs_peers (x : LaneFile) : (s.withRegs x).peers = s.peers := rfl
@[simp] theorem State.withRegs_inputs (x : LaneFile) : (s.withRegs x).inputs = s.inputs := rfl
@[simp] theorem State.withRegs_hostData (x : LaneFile) : (s.withRegs x).hostData = s.hostData := rfl
@[simp] theorem State.withRegs_draws (x : LaneFile) : (s.withRegs x).draws = s.draws := rfl

/-! `withHostData` -/

@[simp] theorem State.withHostData_regs (x : Word) : (s.withHostData x).regs = s.regs := rfl
@[simp] theorem State.withHostData_ctrl (x : Word) : (s.withHostData x).ctrl = s.ctrl := rfl
@[simp] theorem State.withHostData_status (x : Word) : (s.withHostData x).status = s.status := rfl
@[simp] theorem State.withHostData_cmd (x : Word) : (s.withHostData x).cmd = s.cmd := rfl
@[simp] theorem State.withHostData_conf (x : Word) : (s.withHostData x).conf = s.conf := rfl
@[simp] theorem State.withHostData_cache (x : Word) : (s.withHostData x).cache = s.cache := rfl
@[simp] theorem State.withHostData_mem (x : Word) : (s.withHostData x).mem = s.mem := rfl
@[simp] theorem State.withHostData_platform (x : Word) : (s.withHostData x).platform = s.platform := rfl
@[simp] theorem State.withHostData_peers (x : Word) : (s.withHostData x).peers = s.peers := rfl
@[simp] theorem State.withHostData_inputs (x : Word) : (s.withHostData x).inputs = s.inputs := rfl
@[simp] theorem State.withHostData_hostData (x : Word) : (s.withHostData x).hostData = x := rfl
@[simp] theorem State.withHostData_draws (x : Word) : (s.withHostData x).draws = s.draws := rfl

/-! `drawn` -/

@[simp] theorem State.drawn_regs : (s.drawn).regs = s.regs := rfl
@[simp] theorem State.drawn_ctrl : (s.drawn).ctrl = s.ctrl := rfl
@[simp] theorem State.drawn_status : (s.drawn).status = s.status := rfl
@[simp] theorem State.drawn_cmd : (s.drawn).cmd = s.cmd := rfl
@[simp] theorem State.drawn_conf : (s.drawn).conf = s.conf := rfl
@[simp] theorem State.drawn_cache : (s.drawn).cache = s.cache := rfl
@[simp] theorem State.drawn_mem : (s.drawn).mem = s.mem := rfl
@[simp] theorem State.drawn_platform : (s.drawn).platform = s.platform := rfl
@[simp] theorem State.drawn_peers : (s.drawn).peers = s.peers := rfl
@[simp] theorem State.drawn_inputs : (s.drawn).inputs = s.inputs := rfl
@[simp] theorem State.drawn_hostData : (s.drawn).hostData = s.hostData := rfl
@[simp] theorem State.drawn_draws : (s.drawn).draws = s.draws + 1 := rfl

/-! `writeLane` -/

@[simp] theorem State.writeLane_regs (r : LReg) (x : Wide) :
    (s.writeLane r x).regs =
      s.regs.set r { value := x, loWritten := true, hiWritten := true } :=
  rfl
@[simp] theorem State.writeLane_ctrl (r : LReg) (x : Wide) : (s.writeLane r x).ctrl = s.ctrl := rfl
@[simp] theorem State.writeLane_status (r : LReg) (x : Wide) : (s.writeLane r x).status = s.status := rfl
@[simp] theorem State.writeLane_cmd (r : LReg) (x : Wide) : (s.writeLane r x).cmd = s.cmd := rfl
@[simp] theorem State.writeLane_conf (r : LReg) (x : Wide) : (s.writeLane r x).conf = s.conf := rfl
@[simp] theorem State.writeLane_cache (r : LReg) (x : Wide) : (s.writeLane r x).cache = s.cache := rfl
@[simp] theorem State.writeLane_mem (r : LReg) (x : Wide) : (s.writeLane r x).mem = s.mem := rfl
@[simp] theorem State.writeLane_platform (r : LReg) (x : Wide) : (s.writeLane r x).platform = s.platform := rfl
@[simp] theorem State.writeLane_peers (r : LReg) (x : Wide) : (s.writeLane r x).peers = s.peers := rfl
@[simp] theorem State.writeLane_inputs (r : LReg) (x : Wide) : (s.writeLane r x).inputs = s.inputs := rfl
@[simp] theorem State.writeLane_hostData (r : LReg) (x : Wide) : (s.writeLane r x).hostData = s.hostData := rfl
@[simp] theorem State.writeLane_draws (r : LReg) (x : Wide) : (s.writeLane r x).draws = s.draws := rfl

/-! `accept` -/

@[simp] theorem State.accept_regs (x : Word) : (s.accept x).regs = s.regs := rfl
@[simp] theorem State.accept_ctrl (x : Word) : (s.accept x).ctrl = s.ctrl := rfl
@[simp] theorem State.accept_status (x : Word) :
    (s.accept x).status =
      { busy := true, done := false, fail := false, ovr := s.status.ovr, err := .noError } :=
  rfl
@[simp] theorem State.accept_cmd (x : Word) : (s.accept x).cmd = x := rfl
@[simp] theorem State.accept_conf (x : Word) : (s.accept x).conf = s.conf := rfl
@[simp] theorem State.accept_cache (x : Word) : (s.accept x).cache = s.cache := rfl
@[simp] theorem State.accept_mem (x : Word) : (s.accept x).mem = s.mem := rfl
@[simp] theorem State.accept_platform (x : Word) : (s.accept x).platform = s.platform := rfl
@[simp] theorem State.accept_peers (x : Word) : (s.accept x).peers = s.peers := rfl
@[simp] theorem State.accept_inputs (x : Word) : (s.accept x).inputs = s.inputs := rfl
@[simp] theorem State.accept_hostData (x : Word) : (s.accept x).hostData = s.hostData := rfl
@[simp] theorem State.accept_draws (x : Word) : (s.accept x).draws = s.draws := rfl

/-! `endSuccess` -/

@[simp] theorem State.endSuccess_regs : (s.endSuccess).regs = s.regs := rfl
@[simp] theorem State.endSuccess_ctrl : (s.endSuccess).ctrl = s.ctrl := rfl
@[simp] theorem State.endSuccess_status :
    (s.endSuccess).status =
      { busy := false, done := true, fail := false, ovr := s.status.ovr, err := .noError } :=
  rfl
@[simp] theorem State.endSuccess_cmd : (s.endSuccess).cmd = s.cmd := rfl
@[simp] theorem State.endSuccess_conf : (s.endSuccess).conf = s.conf := rfl
@[simp] theorem State.endSuccess_cache : (s.endSuccess).cache = s.cache := rfl
@[simp] theorem State.endSuccess_mem : (s.endSuccess).mem = s.mem := rfl
@[simp] theorem State.endSuccess_platform : (s.endSuccess).platform = s.platform := rfl
@[simp] theorem State.endSuccess_peers : (s.endSuccess).peers = s.peers := rfl
@[simp] theorem State.endSuccess_inputs : (s.endSuccess).inputs = s.inputs := rfl
@[simp] theorem State.endSuccess_hostData : (s.endSuccess).hostData = s.hostData := rfl
@[simp] theorem State.endSuccess_draws : (s.endSuccess).draws = s.draws := rfl

/-! `raiseFail` -/

@[simp] theorem State.raiseFail_regs (x : ErrCode) : (s.raiseFail x).regs = s.regs := rfl
@[simp] theorem State.raiseFail_ctrl (x : ErrCode) : (s.raiseFail x).ctrl = s.ctrl := rfl
@[simp] theorem State.raiseFail_status (x : ErrCode) :
    (s.raiseFail x).status =
      { busy := false, done := false, fail := true, ovr := s.status.ovr, err := x } :=
  rfl
@[simp] theorem State.raiseFail_cmd (x : ErrCode) : (s.raiseFail x).cmd = s.cmd := rfl
@[simp] theorem State.raiseFail_conf (x : ErrCode) : (s.raiseFail x).conf = s.conf := rfl
@[simp] theorem State.raiseFail_cache (x : ErrCode) : (s.raiseFail x).cache = s.cache := rfl
@[simp] theorem State.raiseFail_mem (x : ErrCode) : (s.raiseFail x).mem = s.mem := rfl
@[simp] theorem State.raiseFail_platform (x : ErrCode) : (s.raiseFail x).platform = s.platform := rfl
@[simp] theorem State.raiseFail_peers (x : ErrCode) : (s.raiseFail x).peers = s.peers := rfl
@[simp] theorem State.raiseFail_inputs (x : ErrCode) : (s.raiseFail x).inputs = s.inputs := rfl
@[simp] theorem State.raiseFail_hostData (x : ErrCode) : (s.raiseFail x).hostData = s.hostData := rfl
@[simp] theorem State.raiseFail_draws (x : ErrCode) : (s.raiseFail x).draws = s.draws := rfl

/-! `acknowledgeFail` -/

@[simp] theorem State.acknowledgeFail_regs : (s.acknowledgeFail).regs = s.regs := rfl
@[simp] theorem State.acknowledgeFail_ctrl : (s.acknowledgeFail).ctrl = s.ctrl := rfl
@[simp] theorem State.acknowledgeFail_status :
    (s.acknowledgeFail).status =
      { s.status with fail := false, err := .noError } :=
  rfl
@[simp] theorem State.acknowledgeFail_cmd : (s.acknowledgeFail).cmd = s.cmd := rfl
@[simp] theorem State.acknowledgeFail_conf : (s.acknowledgeFail).conf = s.conf := rfl
@[simp] theorem State.acknowledgeFail_cache : (s.acknowledgeFail).cache = s.cache := rfl
@[simp] theorem State.acknowledgeFail_mem : (s.acknowledgeFail).mem = s.mem := rfl
@[simp] theorem State.acknowledgeFail_platform : (s.acknowledgeFail).platform = s.platform := rfl
@[simp] theorem State.acknowledgeFail_peers : (s.acknowledgeFail).peers = s.peers := rfl
@[simp] theorem State.acknowledgeFail_inputs : (s.acknowledgeFail).inputs = s.inputs := rfl
@[simp] theorem State.acknowledgeFail_hostData : (s.acknowledgeFail).hostData = s.hostData := rfl
@[simp] theorem State.acknowledgeFail_draws : (s.acknowledgeFail).draws = s.draws := rfl

end Sys2Proof.Machine
end

