-- ==== Sys2Proof/Laws/Lifecycle.lean ====
section
/-! SUPPORT. What each shared operation can answer: how a command concludes, how a lane instruction reads and writes
its registers, how a memory command goes by its plan. Later proofs cite these instead of unfolding the operation. -/

namespace Sys2Proof.Machine

/-! Concluding. -/

@[simp] theorem conclude_ok (s t : State) : s.conclude (.ok t) = .next t.endSuccess := rfl
@[simp] theorem conclude_error (s : State) (c : ErrCode) : s.conclude (.error c) = .next (s.raiseFail c) := rfl

/-- A command that concludes in a next state succeeded there or failed and changed nothing but STATUS. -/
theorem conclude_next {s t : State} {r : Except ErrCode State} (h : s.conclude r = .next t) :
    (∃ u, r = .ok u ∧ t = u.endSuccess) ∨ ∃ c, r = .error c ∧ t = s.raiseFail c := by
  cases r with
  | ok u => exact .inl ⟨u, rfl, by simpa using h.symm⟩
  | error c => exact .inr ⟨c, rfl, by simpa using h.symm⟩

/-! Lane registers. -/

@[simp] theorem LaneFile.get_set_same (f : LaneFile) (r : LReg) (v : LaneReg) : (f.set r v).get r = v := by
  cases r <;> rfl

theorem LaneFile.get_set_ne (f : LaneFile) {r q : LReg} (v : LaneReg) (h : q ≠ r) :
    (f.set r v).get q = f.get q := by
  cases r <;> cases q <;> first | rfl | exact absurd rfl h

theorem read?_of_readable {s : State} {r : LReg} (h : s.Readable r) :
    (s.regs.get r).read? = some (s.regs.get r).value := by
  simp [LaneReg.read?, h.1, h.2]

theorem withLane_of_readable {s : State} {r : LReg} (h : s.Readable r)
    (k : Wide → Host.Outcome State Fault Refusal) : s.withLane r k = k (s.regs.get r).value := by
  simp only [State.withLane, read?_of_readable h]

theorem withLane_of_not_readable {s : State} {r : LReg} (h : ¬ s.Readable r)
    (k : Wide → Host.Outcome State Fault Refusal) : s.withLane r k = .fault .unwrittenW := by
  have : (s.regs.get r).read? = none := by
    simp only [LaneReg.read?, ite_eq_right_iff, Bool.and_eq_true, reduceCtorEq, imp_false]
    exact h
  simp only [State.withLane, this]

/-- A lane instruction's continuation answers a next state only where the register is readable. -/
theorem withLane_next {s t : State} {r : LReg} {k : Wide → Host.Outcome State Fault Refusal}
    (h : s.withLane r k = .next t) : s.Readable r ∧ k (s.regs.get r).value = .next t := by
  by_cases hr : s.Readable r
  · exact ⟨hr, by rwa [withLane_of_readable hr] at h⟩
  · rw [withLane_of_not_readable hr] at h; cases h

/-- LUNPK32 reads one half only. -/
theorem withHalf_next {s t : State} {r : LReg} {h : WHalf} {k : Word → Host.Outcome State Fault Refusal}
    (hn : s.withHalf r h k = .next t) :
    (s.regs.get r).written h = true ∧ k ((s.regs.get r).half h) = .next t := by
  simp only [State.withHalf, LaneReg.readHalf?] at hn
  by_cases hw : (s.regs.get r).written h = true
  · exact ⟨hw, by simpa [hw] using hn⟩
  · simp [hw] at hn

@[simp] theorem finishLane_ok (s : State) (rd : LReg) (v : Wide) :
    s.finishLane rd (.ok v) = .next (s.writeLane rd v).endSuccess := rfl

@[simp] theorem finishLane_error (s : State) (rd : LReg) (c : ErrCode) :
    s.finishLane rd (.error c) = .next (s.raiseFail c) := rfl

/-- A lane instruction writes its register and ends with success, or fails and changes nothing but STATUS. -/
theorem finishLane_next {s t : State} {rd : LReg} {r : Except ErrCode Wide} (h : s.finishLane rd r = .next t) :
    (∃ v, r = .ok v ∧ t = (s.writeLane rd v).endSuccess) ∨ ∃ c, r = .error c ∧ t = s.raiseFail c := by
  cases r with
  | ok v => exact .inl ⟨v, rfl, by simpa using h.symm⟩
  | error c => exact .inr ⟨c, rfl, by simpa using h.symm⟩

/-! Memory commands. -/

/-- What a command that goes by its plan can answer. -/
theorem runPlan_cases (s : State) (plan : Plan) (run : Memory → Bus) :
    (∃ c, plan = .fail c ∧ s.runPlan plan run = .next (s.raiseFail c)) ∨
    (plan = .noAccess ∧ s.runPlan plan run = .next s.endSuccess) ∨
    (∃ fp f, plan = .run fp ∧ fp.contractFault s.platform = some f ∧ s.runPlan plan run = .fault f) ∨
    (∃ fp, plan = .run fp ∧ fp.contractFault s.platform = none ∧
      s.runPlan plan run = .next (s.withMem (run s.mem).mem).endSuccess) := by
  cases plan with
  | fail c => exact .inl ⟨c, rfl, rfl⟩
  | noAccess => exact .inr (.inl ⟨rfl, rfl⟩)
  | run fp =>
    cases hf : fp.contractFault s.platform with
    | some f => exact .inr (.inr (.inl ⟨fp, f, rfl, hf, by simp [State.runPlan, hf]⟩))
    | none => exact .inr (.inr (.inr ⟨fp, rfl, hf, by simp [State.runPlan, hf]⟩))

/-- What a COMPOSITE can answer. -/
theorem compositeWith_cases (p : Config.Params) (op : Op) (k : KFields) (s : State) :
    (∃ c, compositePlan p op k s.ctrl s.conf = .fail c ∧ compositeWith p op k s = .next (s.raiseFail c)) ∨
    (compositePlan p op k s.ctrl s.conf = .noAccess ∧
      compositeWith p op k s = .next (s.withCache s.cache.clearCounters).endSuccess) ∨
    (∃ fp f, compositePlan p op k s.ctrl s.conf = .run fp ∧ fp.contractFault s.platform = some f ∧
      compositeWith p op k s = .fault f) ∨
    (∃ fp, compositePlan p op k s.ctrl s.conf = .run fp ∧ fp.contractFault s.platform = none ∧
      compositeWith p op k s = .next (s.afterComposite p op k).endSuccess) := by
  cases hp : compositePlan p op k s.ctrl s.conf with
  | fail c => exact .inl ⟨c, rfl, by simp [compositeWith, hp]⟩
  | noAccess => exact .inr (.inl ⟨rfl, by simp [compositeWith, hp]⟩)
  | run fp =>
    cases hf : fp.contractFault s.platform with
    | some f => exact .inr (.inr (.inl ⟨fp, f, rfl, hf, by simp [compositeWith, hp, hf]⟩))
    | none => exact .inr (.inr (.inr ⟨fp, rfl, hf, by simp [compositeWith, hp, hf]⟩))

@[simp] theorem afterComposite_regs (s : State) (p : Config.Params) (op : Op) (k : KFields) :
    (s.afterComposite p op k).regs = s.regs := rfl
@[simp] theorem afterComposite_ctrl (s : State) (p : Config.Params) (op : Op) (k : KFields) :
    (s.afterComposite p op k).ctrl = s.ctrl := rfl
@[simp] theorem afterComposite_status (s : State) (p : Config.Params) (op : Op) (k : KFields) :
    (s.afterComposite p op k).status = s.status := rfl
@[simp] theorem afterComposite_cmd (s : State) (p : Config.Params) (op : Op) (k : KFields) :
    (s.afterComposite p op k).cmd = s.cmd := rfl
@[simp] theorem afterComposite_conf (s : State) (p : Config.Params) (op : Op) (k : KFields) :
    (s.afterComposite p op k).conf = s.conf := rfl
@[simp] theorem afterComposite_cache (s : State) (p : Config.Params) (op : Op) (k : KFields) :
    (s.afterComposite p op k).cache = (compositeRun p op k s.conf s.mem s.cache).cache := rfl
@[simp] theorem afterComposite_mem (s : State) (p : Config.Params) (op : Op) (k : KFields) :
    (s.afterComposite p op k).mem = (compositeRun p op k s.conf s.mem s.cache).bus.mem := rfl
@[simp] theorem afterComposite_platform (s : State) (p : Config.Params) (op : Op) (k : KFields) :
    (s.afterComposite p op k).platform = s.platform := rfl
@[simp] theorem afterComposite_inputs (s : State) (p : Config.Params) (op : Op) (k : KFields) :
    (s.afterComposite p op k).inputs = s.inputs := rfl
@[simp] theorem afterComposite_hostData (s : State) (p : Config.Params) (op : Op) (k : KFields) :
    (s.afterComposite p op k).hostData = s.hostData := rfl
@[simp] theorem afterComposite_draws (s : State) (p : Config.Params) (op : Op) (k : KFields) :
    (s.afterComposite p op k).draws = s.draws := rfl

/-- A COMPOSITE command runs its operator with the machine's parameters. -/
theorem exec_composite (op : Op) (k : KFields) (s : State) :
    exec (.composite k op) s = compositeWith Config.params op k s := by
  cases op <;> rfl

/-- A COMPOSITE command's plan. -/
theorem instrPlan_composite (op : Op) (k : KFields) (s : State) :
    instrPlan s (.composite k op) = compositePlan Config.params op k s.ctrl s.conf := by
  cases op <;> rfl

/-! What any command can answer. -/

/-- From `s`: success in some state, a failure under an error code that changes nothing but STATUS, or a fault; never a
refusal (R290, R296, R300). -/
def Concludes (s : State) (o : Host.Outcome State Fault Refusal) : Prop :=
  (∃ u : State, o = .next u.endSuccess ∧ u.status = s.status) ∨
    (∃ c, c ≠ .noError ∧ o = .next (s.raiseFail c)) ∨ ∃ f, o = .fault f

theorem withLane_concludes {s : State} (r : LReg) {k : Wide → Host.Outcome State Fault Refusal}
    (hk : ∀ v, Concludes s (k v)) : Concludes s (s.withLane r k) := by
  by_cases h : s.Readable r
  · rw [withLane_of_readable h]; exact hk _
  · rw [withLane_of_not_readable h]; exact .inr (.inr ⟨_, rfl⟩)

theorem withHalf_concludes {s : State} (r : LReg) (h : WHalf) {k : Word → Host.Outcome State Fault Refusal}
    (hk : ∀ v, Concludes s (k v)) : Concludes s (s.withHalf r h k) := by
  simp only [State.withHalf]
  cases (s.regs.get r).readHalf? h with
  | none => exact .inr (.inr ⟨_, rfl⟩)
  | some v => exact hk v

theorem finishLane_ok_concludes (s : State) (rd : LReg) (v : Wide) : Concludes s (s.finishLane rd (.ok v)) :=
  .inl ⟨s.writeLane rd v, rfl, rfl⟩

theorem finishLane_concludes (s : State) (rd : LReg) (r : Except ErrCode Wide) (h : r ≠ .error .noError) :
    Concludes s (s.finishLane rd r) := by
  cases r with
  | ok v => exact finishLane_ok_concludes s rd v
  | error c => exact .inr (.inl ⟨c, fun hc => h (by rw [hc]), rfl⟩)

theorem lmulResult_ne (a b : Wide) : lmulResult a b ≠ .error .noError := by
  simp only [lmulResult]; split <;> simp

theorem lmuladdResult_ne (x a y b : Wide) : lmuladdResult x a y b ≠ .error .noError := by
  simp only [lmuladdResult]; split <;> simp

theorem laddsResult_ne (a b : Wide) : laddsResult a b ≠ .error .noError := by
  simp only [laddsResult]; split <;> simp

theorem fillPlan_ne (bpp : Nat) (c : Conf) : fillPlan bpp c ≠ .fail .noError := by
  simp only [fillPlan]; repeat' split
  all_goals simp

theorem blitPlan_ne (sbpp dbpp : Nat) (c : Conf) : blitPlan sbpp dbpp c ≠ .fail .noError := by
  simp only [blitPlan]; repeat' split
  all_goals simp

theorem compositePlan_ne (p : Config.Params) (op : Op) (k : KFields) (ctrl : Ctrl) (c : Conf) :
    compositePlan p op k ctrl c ≠ .fail .noError := by
  simp only [compositePlan]; repeat' split
  all_goals simp

theorem runPlan_concludes (s : State) (plan : Plan) (run : Memory → Bus) (hp : plan ≠ .fail .noError) :
    Concludes s (s.runPlan plan run) := by
  rcases runPlan_cases s plan run with ⟨c, hc, h⟩ | ⟨-, h⟩ | ⟨_, f, -, -, h⟩ | ⟨_, -, -, h⟩
  · exact .inr (.inl ⟨c, fun h0 => hp (by rw [hc, h0]), h⟩)
  · exact .inl ⟨_, h, rfl⟩
  · exact .inr (.inr ⟨f, h⟩)
  · exact .inl ⟨_, h, rfl⟩

theorem compositeWith_concludes (p : Config.Params) (op : Op) (k : KFields) (s : State) :
    Concludes s (compositeWith p op k s) := by
  rcases compositeWith_cases p op k s with ⟨c, hc, h⟩ | ⟨-, h⟩ | ⟨_, f, -, -, h⟩ | ⟨_, -, -, h⟩
  · exact .inr (.inl ⟨c, fun h0 => compositePlan_ne p op k s.ctrl s.conf (by rw [hc, h0]), h⟩)
  · exact .inl ⟨_, h, rfl⟩
  · exact .inr (.inr ⟨f, h⟩)
  · exact .inl ⟨_, h, rfl⟩

/-- Every instruction concludes. -/
theorem exec_concludes (i : Instr) (s : State) : Concludes s (exec i s) := by
  cases i with
  | nop => exact .inl ⟨s, rfl, rfl⟩
  | lmul rd ra rb =>
    exact withLane_concludes ra fun _ => withLane_concludes rb fun _ => finishLane_concludes s rd _ (lmulResult_ne _ _)
  | lmuladd rd ra rb rc re =>
    exact withLane_concludes ra fun _ => withLane_concludes rb fun _ => withLane_concludes rc fun _ =>
      withLane_concludes re fun _ => finishLane_concludes s rd _ (lmuladdResult_ne _ _ _ _)
  | ladds rd ra rb =>
    exact withLane_concludes ra fun _ => withLane_concludes rb fun _ =>
      finishLane_concludes s rd _ (laddsResult_ne _ _)
  | lneg rd ra => exact withLane_concludes ra fun _ => finishLane_ok_concludes s rd _
  | lbca rd ra => exact withLane_concludes ra fun _ => finishLane_ok_concludes s rd _
  | lbcl rd ra => exact withLane_concludes ra fun _ => finishLane_ok_concludes s rd _
  | lswaprb rd ra => exact withLane_concludes ra fun _ => finishLane_ok_concludes s rd _
  | lunpk32 rd ra half => exact withHalf_concludes ra half fun _ => finishLane_ok_concludes s rd _
  | lpack32 rd ra => exact withLane_concludes ra fun _ => finishLane_ok_concludes s rd _
  | lunpk565 rd ra idx => exact withLane_concludes ra fun _ => finishLane_ok_concludes s rd _
  | lpack565 rd ra rb idx =>
    exact withLane_concludes ra fun _ => withLane_concludes rb fun _ => finishLane_ok_concludes s rd _
  | linterp rd ra rb distx disty =>
    exact withLane_concludes ra fun _ => withLane_concludes rb fun _ => finishLane_ok_concludes s rd _
  | compositeSrc k => exact compositeWith_concludes Config.params .src k s
  | compositeOver k => exact compositeWith_concludes Config.params .over k s
  | compositeOverReverse k => exact compositeWith_concludes Config.params .overReverse k s
  | compositeIn k => exact compositeWith_concludes Config.params .srcIn k s
  | compositeInReverse k => exact compositeWith_concludes Config.params .inReverse k s
  | compositeOut k => exact compositeWith_concludes Config.params .out k s
  | compositeOutReverse k => exact compositeWith_concludes Config.params .outReverse k s
  | compositeAtop k => exact compositeWith_concludes Config.params .atop k s
  | compositeAtopReverse k => exact compositeWith_concludes Config.params .atopReverse k s
  | compositeXor k => exact compositeWith_concludes Config.params .xor k s
  | compositeAdd k => exact compositeWith_concludes Config.params .add k s
  | compositeSaturate k => exact compositeWith_concludes Config.params .saturate k s
  | fill bpp => exact runPlan_concludes s _ _ (fillPlan_ne bpp s.conf)
  | blit sbpp dbpp => exact runPlan_concludes s _ _ (blitPlan_ne sbpp dbpp s.conf)

end Sys2Proof.Machine
end

