-- ==== Sys2Proof/Laws/Memory.lean ====
section
/-! SUPPORT. The laws of byte memory: what a store changes and leaves alone, that every store keeps the canonical
form, and that canonical memories with the same bytes are the same list. -/

namespace Sys2Proof.Machine

/-! The canonical form, on a list's head. -/

theorem Memory.wf_nil : Memory.wf [] := by simp [Memory.wf]

theorem Memory.wf_cons {b : Nat} {x : Byte} {m : Memory} :
    Memory.wf ((b, x) :: m) ↔
      (b < 2 ^ 32 ∧ x ≠ Memory.unlisted ∧ ∀ c ∈ m, b < c.1) ∧ Memory.wf m := by
  simp only [Memory.wf, List.map_cons, List.pairwise_cons, List.mem_cons, List.mem_map]
  constructor
  · rintro ⟨⟨h1, h2⟩, h3⟩
    have hb := h3 (b, x) (.inl rfl)
    exact ⟨⟨hb.1, hb.2, fun c hc => h1 c.1 ⟨c, hc, rfl⟩⟩, h2, fun c hc => h3 c (.inr hc)⟩
  · rintro ⟨⟨h1, h2, h3⟩, h4, h5⟩
    refine ⟨⟨?_, h4⟩, ?_⟩
    · rintro a ⟨c, hc, rfl⟩
      exact h3 c hc
    · rintro c (rfl | hc)
      · exact ⟨h1, h2⟩
      · exact h5 c hc

/-- An address below every listed one reads as unlisted. -/
theorem Memory.readByte_below {m : Memory} {a : Nat} (h : ∀ c ∈ m, a < c.1) :
    Memory.readByte m a = Memory.unlisted := by
  induction m with
  | nil => rfl
  | cons c m ih =>
    obtain ⟨b, x⟩ := c
    have hb : a < b := h (b, x) (by simp)
    simp only [Memory.readByte, if_neg (Nat.ne_of_lt hb)]
    exact ih fun c hc => h c (by simp [hc])

/-! One byte. -/

/-- Every key of a memory after a store is the stored address or an old key. -/
theorem Memory.mem_writeByte {m : Memory} {a : Nat} {v : Byte} {c : Host.Cell}
    (h : c ∈ Memory.writeByte m a v) : c.1 = a ∨ c ∈ m := by
  induction m with
  | nil =>
    simp only [Memory.writeByte] at h
    split at h <;> simp_all
  | cons d m ih =>
    obtain ⟨b, x⟩ := d
    simp only [Memory.writeByte] at h
    split at h
    · split at h
      · exact .inr h
      · rcases List.mem_cons.1 h with rfl | h
        · exact .inl rfl
        · exact .inr h
    · split at h
      · split at h
        · exact .inr (by simp [h])
        · rcases List.mem_cons.1 h with rfl | h
          · exact .inl rfl
          · exact .inr (by simp [h])
      · rcases List.mem_cons.1 h with rfl | h
        · exact .inr (by simp)
        · rcases ih h with h | h
          · exact .inl h
          · exact .inr (by simp [h])

/-- A store keeps the canonical form. -/
theorem Memory.wf_writeByte {m : Memory} {a : Nat} {v : Byte} (hm : Memory.wf m) (ha : a < 2 ^ 32) :
    Memory.wf (Memory.writeByte m a v) := by
  induction m with
  | nil =>
    simp only [Memory.writeByte]
    split
    · exact Memory.wf_nil
    · next h => exact Memory.wf_cons.2 ⟨⟨ha, h, by simp⟩, Memory.wf_nil⟩
  | cons c m ih =>
    obtain ⟨b, x⟩ := c
    have hc := Memory.wf_cons.1 hm
    simp only [Memory.writeByte]
    split
    · next hab =>
      split
      · exact hm
      · next hv =>
        refine Memory.wf_cons.2 ⟨⟨ha, hv, ?_⟩, hm⟩
        intro c hc'
        rcases List.mem_cons.1 hc' with rfl | hc'
        · exact hab
        · exact Nat.lt_trans hab (hc.1.2.2 c hc')
    · next hab =>
      split
      · next hEq =>
        split
        · exact hc.2
        · next hv => exact Memory.wf_cons.2 ⟨⟨ha, hv, hEq ▸ hc.1.2.2⟩, hc.2⟩
      · next hne =>
        refine Memory.wf_cons.2 ⟨⟨hc.1.1, hc.1.2.1, ?_⟩, ih hc.2⟩
        intro d hd
        rcases Memory.mem_writeByte hd with h | h
        · omega
        · exact hc.1.2.2 d h

/-- A byte reads as stored, and every other byte as before. -/
theorem Memory.readByte_writeByte {m : Memory} (hm : Memory.wf m) (a b : Nat) (v : Byte) :
    Memory.readByte (Memory.writeByte m a v) b = if b = a then v else Memory.readByte m b := by
  induction m with
  | nil =>
    simp only [Memory.writeByte]
    split <;> simp_all [Memory.readByte]
  | cons c m ih =>
    obtain ⟨k, x⟩ := c
    have hc := Memory.wf_cons.1 hm
    simp only [Memory.writeByte]
    split
    · next hab =>
      split
      · next hv =>
        split
        · next hba =>
          subst hba hv
          refine Memory.readByte_below fun d hd => ?_
          rcases List.mem_cons.1 hd with rfl | hd
          · exact hab
          · exact Nat.lt_trans hab (hc.1.2.2 d hd)
        · rfl
      · simp only [Memory.readByte]
    · next hab =>
      split
      · next hEq =>
        subst hEq
        split
        · next hv =>
          subst hv
          split
          · next hba => subst hba; exact Memory.readByte_below hc.1.2.2
          · next hba => simp only [Memory.readByte, if_neg hba]
        · simp only [Memory.readByte]
          split <;> rfl
      · next hne =>
        simp only [Memory.readByte, ih hc.2]
        by_cases hbk : b = k
        · subst hbk
          rw [if_pos rfl, if_pos rfl, if_neg (fun h => hne h.symm)]
        · rw [if_neg hbk, if_neg hbk]

/-- Canonical memories with the same bytes are equal. -/
theorem Memory.ext_of_wf {m n : Memory} (hm : Memory.wf m) (hn : Memory.wf n)
    (h : ∀ a, Memory.readByte m a = Memory.readByte n a) : m = n := by
  induction m generalizing n with
  | nil =>
    cases n with
    | nil => rfl
    | cons c n =>
      obtain ⟨b, x⟩ := c
      have := h b
      simp only [Memory.readByte, if_pos] at this
      exact absurd this.symm (Memory.wf_cons.1 hn).1.2.1
  | cons c m ih =>
    obtain ⟨b, x⟩ := c
    have hc := Memory.wf_cons.1 hm
    cases n with
    | nil =>
      have := h b
      simp only [Memory.readByte, if_pos] at this
      exact absurd this hc.1.2.1
    | cons d n =>
      obtain ⟨k, y⟩ := d
      have hd := Memory.wf_cons.1 hn
      have hbk : b = k := by
        rcases Nat.lt_trichotomy b k with hlt | heq | hgt
        · have hb := h b
          rw [Memory.readByte_below (m := (k, y) :: n) fun c hc' => by
            rcases List.mem_cons.1 hc' with rfl | hc'
            · exact hlt
            · exact Nat.lt_trans hlt (hd.1.2.2 c hc')] at hb
          simp only [Memory.readByte, if_pos] at hb
          exact absurd hb hc.1.2.1
        · exact heq
        · have hk := h k
          rw [Memory.readByte_below (m := (b, x) :: m) fun c hc' => by
            rcases List.mem_cons.1 hc' with rfl | hc'
            · exact hgt
            · exact Nat.lt_trans hgt (hc.1.2.2 c hc')] at hk
          simp only [Memory.readByte, if_pos] at hk
          exact absurd hk.symm hd.1.2.1
      subst hbk
      have hxy : x = y := by simpa only [Memory.readByte, if_pos] using h b
      subst hxy
      congr 1
      refine ih hc.2 hd.2 fun a => ?_
      have ha := h a
      simp only [Memory.readByte] at ha
      by_cases hab : a = b
      · subst hab
        rw [Memory.readByte_below hc.1.2.2, Memory.readByte_below hd.1.2.2]
      · simpa only [if_neg hab] using ha

/-! Several bytes. -/

/-- A multi-byte store keeps the canonical form. -/
theorem Memory.wf_write {m : Memory} (hm : Memory.wf m) (a : Word) (n v : Nat) : Memory.wf (m.write a n v) := by
  induction n generalizing m a v with
  | zero => exact hm
  | succ n ih => exact ih (Memory.wf_writeByte hm a.isLt) _ _

/-- The distance from a base to the byte after it. -/
theorem Access.sub_succ (x a : Word) (h : x ≠ a) : (x - (a + 1)).toNat + 1 = (x - a).toNat := by
  have : x - a ≠ 0 := fun h' => h (by simpa using BitVec.sub_eq_iff_eq_add.1 h')
  bv_omega

/-- A multi-byte store leaves every byte outside it alone. -/
theorem Memory.readByte_write_outside {m : Memory} (hm : Memory.wf m) (a x : Word) (n v : Nat)
    (h : n ≤ (x - a).toNat) : Memory.readByte (m.write a n v) x.toNat = Memory.readByte m x.toNat := by
  induction n generalizing m a v with
  | zero => rfl
  | succ n ih =>
    have hne : x ≠ a := by rintro rfl; simp at h
    have hs := Access.sub_succ x a hne
    rw [Memory.write, ih (Memory.wf_writeByte hm a.isLt) _ _ (by omega), Memory.readByte_writeByte hm,
      if_neg (fun h' => hne (BitVec.eq_of_toNat_eq h'))]

/-- A byte inside a multi-byte store is its byte of the value. -/
theorem Memory.readByte_write_inside {m : Memory} (hm : Memory.wf m) (a x : Word) (n v : Nat)
    (h : (x - a).toNat < n) (hn : n ≤ 2 ^ 32) :
    Memory.readByte (m.write a n v) x.toNat = BitVec.ofNat 8 (v / 256 ^ (x - a).toNat) := by
  induction n generalizing m a v with
  | zero => omega
  | succ n ih =>
    by_cases hxa : x = a
    · subst hxa
      rw [Memory.write, Memory.readByte_write_outside (Memory.wf_writeByte hm x.isLt) _ _ _ _ (by
        have : (x - (x + 1)).toNat = 2 ^ 32 - 1 := by
          have : x - (x + 1) = (-1 : BitVec 32) := by bv_omega
          rw [this]; rfl
        omega), Memory.readByte_writeByte hm, if_pos rfl]
      simp
    · have hs := Access.sub_succ x a hxa
      rw [Memory.write, ih (Memory.wf_writeByte hm a.isLt) _ _ (by omega) (by omega), ← hs, Nat.pow_succ,
        Nat.mul_comm, Nat.div_div_eq_div_mul]

/-- A read depends on the bytes it covers only. -/
theorem Memory.read_congr {m m' : Memory} (a : Word) (n : Nat) (hn : n ≤ 2 ^ 32)
    (h : ∀ x : Word, (x - a).toNat < n → Memory.readByte m x.toNat = Memory.readByte m' x.toNat) :
    m.read a n = m'.read a n := by
  induction n generalizing a with
  | zero => rfl
  | succ n ih =>
    rw [Memory.read, Memory.read, h a (by simp), ih (a + 1) (by omega)]
    intro x hx
    by_cases hxa : x = a
    · subst hxa; exact h x (by simp)
    · exact h x (by have := Access.sub_succ x a hxa; omega)

/-- A read gives back a value whose bytes memory holds. -/
theorem Memory.read_of_bytes {m : Memory} (a : Word) (n v : Nat) (hn : n ≤ 2 ^ 32)
    (h : ∀ x : Word, (x - a).toNat < n →
      Memory.readByte m x.toNat = BitVec.ofNat 8 (v / 256 ^ (x - a).toNat)) :
    m.read a n = v % 256 ^ n := by
  induction n generalizing a v with
  | zero => simp [Memory.read, Nat.mod_one]
  | succ n ih =>
    rw [Memory.read, h a (by simp), ih (a + 1) (v / 256) (by omega)]
    · simp only [BitVec.sub_self, BitVec.toNat_ofNat, Nat.zero_mod, Nat.pow_zero, Nat.div_one]
      have hv : v % 256 ^ (n + 1) = v % 256 + 256 * (v / 256 % 256 ^ n) := by
        rw [Nat.pow_succ, Nat.mul_comm (256 ^ n) 256, Nat.mod_mul]
      exact hv.symm
    · intro x hx
      by_cases hxa : x = a
      · subst hxa
        exfalso
        have : x - (x + 1) = (-1 : BitVec 32) := by bv_omega
        rw [this] at hx
        simp at hx
        omega
      · have hs := Access.sub_succ x a hxa
        rw [h x (by omega), ← hs, Nat.pow_succ, Nat.mul_comm (256 ^ _) 256, Nat.div_div_eq_div_mul]

/-- A read of what was just stored there (R10, R61). -/
theorem Memory.read_write {m : Memory} (hm : Memory.wf m) (a : Word) (n v : Nat) (hn : n ≤ 2 ^ 32) :
    (m.write a n v).read a n = v % 256 ^ n :=
  Memory.read_of_bytes a n v hn fun x hx => Memory.readByte_write_inside hm a x n v hx hn

/-! A command's bus. -/

@[simp] theorem Bus.start_mem (m : Memory) : (Bus.start m).mem = m := rfl
@[simp] theorem Bus.start_log (m : Memory) : (Bus.start m).log = [] := rfl
@[simp] theorem Bus.store_mem (b : Bus) (a : Word) (n v : Nat) : (b.store a n v).mem = b.mem.write a n v := rfl
@[simp] theorem Bus.store_log (b : Bus) (a : Word) (n v : Nat) :
    (b.store a n v).log = { addr := a, size := n, value := v } :: b.log := rfl

end Sys2Proof.Machine
end

