-- ==== Sys2Proof/Laws/Footprint.lean ====
section
/-! SUPPORT. Sets of bytes: what it means that two lists of accesses do not meet, that a pixel's value depends on its
own bytes only, and that a store changes its own bytes only. -/

namespace Sys2Proof.Machine

theorem covers_append {l l' : List Access} {a : Word} : Covers (l ++ l') a ↔ Covers l a ∨ Covers l' a := by
  simp only [Covers, List.mem_append]
  constructor
  · rintro ⟨x, h | h, hx⟩
    · exact .inl ⟨x, h, hx⟩
    · exact .inr ⟨x, h, hx⟩
  · rintro (⟨x, h, hx⟩ | ⟨x, h, hx⟩)
    · exact ⟨x, .inl h, hx⟩
    · exact ⟨x, .inr h, hx⟩

/-- Two accesses that share a byte meet. -/
theorem meets_of_covers {x y : Access} {a : Word} (hx : x.covers a = true) (hy : y.covers a = true) :
    x.meets y = true := by
  simp only [Access.covers, decide_eq_true_eq] at hx hy
  simp only [Access.meets, Access.covers, Bool.or_eq_true, Bool.and_eq_true, decide_eq_true_eq]
  by_cases h : (y.addr - x.addr).toNat ≤ (a - x.addr).toNat
  · exact .inl ⟨by omega, by omega⟩
  · refine .inr ⟨by omega, ?_⟩
    have : (x.addr - y.addr).toNat ≤ (a - y.addr).toNat := by bv_omega
    omega

/-- Accesses that meet share a byte. -/
theorem exists_covers_of_meets {x y : Access} (h : x.meets y = true) :
    ∃ a, x.covers a = true ∧ y.covers a = true := by
  simp only [Access.meets, Bool.or_eq_true, Bool.and_eq_true, decide_eq_true_eq] at h
  rcases h with ⟨hy, h⟩ | ⟨hx, h⟩
  · exact ⟨y.addr, h, by simpa [Access.covers] using hy⟩
  · exact ⟨x.addr, by simpa [Access.covers] using hx, h⟩

/-- `anyMeet` says exactly that the two lists share a byte. -/
theorem anyMeet_iff {xs ys : List Access} : anyMeet xs ys = true ↔ ∃ a, Covers xs a ∧ Covers ys a := by
  simp only [anyMeet, List.any_eq_true]
  constructor
  · rintro ⟨x, hx, y, hy, h⟩
    obtain ⟨a, h1, h2⟩ := exists_covers_of_meets h
    exact ⟨a, ⟨x, hx, h1⟩, ⟨y, hy, h2⟩⟩
  · rintro ⟨a, ⟨x, hx, h1⟩, ⟨y, hy, h2⟩⟩
    exact ⟨x, hx, y, hy, meets_of_covers h1 h2⟩

/-- Lists that do not meet share no byte. -/
theorem not_covers_of_anyMeet {xs ys : List Access} (h : anyMeet xs ys = false) {a : Word} (hx : Covers xs a) :
    ¬ Covers ys a := fun hy => by
  rw [anyMeet_iff.2 ⟨a, hx, hy⟩] at h; cases h

theorem anyMeet_eq_false {xs ys : List Access} : anyMeet xs ys = false ↔ ∀ a, ¬ (Covers xs a ∧ Covers ys a) := by
  rw [← Bool.not_eq_true, anyMeet_iff, not_exists]

/-! Contract faults. -/

/-- Which contract fault a command's sets meet (R65, R69, R76): the whole of `contractFault`. -/
theorem contractFault_spec (fp : Footprint) (platform : List Region) :
    let touches := fun kind => ∃ a, Covers (fp.reads ++ fp.writes) a ∧ Covers (spansOf platform kind) a
    (touches .device → fp.contractFault platform = some .deviceMemory) ∧
      (¬ touches .device → touches .unanswered → fp.contractFault platform = some .busError) ∧
      (¬ touches .device → ¬ touches .unanswered → fp.aliased = true → fp.contractFault platform = some .aliasing) ∧
      (¬ touches .device → ¬ touches .unanswered → fp.aliased = false → fp.contractFault platform = none) := by
  simp only [← anyMeet_iff, Footprint.contractFault, Bool.not_eq_true]
  refine ⟨fun h => ?_, fun h h' => ?_, fun h h' h'' => ?_, fun h h' h'' => ?_⟩ <;>
    simp only [*, if_true, Bool.false_eq_true, if_false]

/-- The sets meet no contract fault exactly when they are ordinary memory that answers and do not alias. -/
theorem contractFault_eq_none {fp : Footprint} {platform : List Region} :
    fp.contractFault platform = none ↔
      (∀ a, Covers (fp.reads ++ fp.writes) a →
        ¬ Covers (spansOf platform .device) a ∧ ¬ Covers (spansOf platform .unanswered) a) ∧ fp.aliased = false := by
  simp only [Footprint.contractFault, forall_and, ← not_and, ← not_exists, ← anyMeet_iff]
  cases anyMeet (fp.reads ++ fp.writes) (spansOf platform .device) <;>
    cases anyMeet (fp.reads ++ fp.writes) (spansOf platform .unanswered) <;> cases fp.aliased <;> simp

/-! Pixels. -/

theorem bpb_pos (f : Fmt) : 0 < bpb f := by cases f <;> decide
theorem bpb_le (f : Fmt) : bpb f ≤ 4 := by cases f <;> decide

/-- Two memories agree on an access's bytes. -/
def SameOn (m m' : Memory) (x : Access) : Prop :=
  ∀ a : Word, x.covers a = true → Memory.readByte m a.toNat = Memory.readByte m' a.toNat

/-- A loaded pixel depends on its own bytes only. -/
theorem loadPixel_congr {m m' : Memory} (f : Fmt) (a : Word) (h : SameOn m m' { addr := a, size := bpb f }) :
    loadPixel f m a = loadPixel f m' a := by
  have hr : m.read a (bpb f) = m'.read a (bpb f) := by
    refine Memory.read_congr a (bpb f) ?_ fun x hx => h x (by simpa [Access.covers] using hx)
    have := bpb_le f; omega
  cases f <;> simp only [bpb] at hr <;> simp only [loadPixel, hr]

/-- Storing a pixel of a destination format is one store of its packed value. -/
theorem storePixel_of_dst {f : Fmt} (h : dstFormat f = true) (b : Bus) (a : Word) (w : Wide) :
    storePixel f b a w = b.store a (bpb f) (packPixel f w) := by
  cases f <;> first | rfl | cases h

/-- A byte outside an access is left alone by a store there. -/
theorem readByte_write_of_not_covers {m : Memory} (hm : Memory.wf m) {x : Access} {a : Word} (v : Nat)
    (h : x.covers a = false) :
    Memory.readByte (m.write x.addr x.size v) a.toNat = Memory.readByte m a.toNat := by
  refine Memory.readByte_write_outside hm _ _ _ _ ?_
  simpa [Access.covers] using h

/-- A store changes bytes by its address and value alone, so memories that agree on a byte agree on it after. -/
theorem readByte_write_congr {m m' : Memory} (hm : Memory.wf m) (hm' : Memory.wf m') (a : Word) (n v : Nat)
    (hn : n ≤ 2 ^ 32) {x : Word} (h : Memory.readByte m x.toNat = Memory.readByte m' x.toNat) :
    Memory.readByte (m.write a n v) x.toNat = Memory.readByte (m'.write a n v) x.toNat := by
  by_cases hx : (x - a).toNat < n
  · rw [Memory.readByte_write_inside hm a x n v hx hn, Memory.readByte_write_inside hm' a x n v hx hn]
  · rw [Memory.readByte_write_outside hm a x n v (by omega), Memory.readByte_write_outside hm' a x n v (by omega), h]

/-! The rectangle. -/

theorem mem_rowMajor {w h : Nat} {q : Nat × Nat} : q ∈ rowMajor w h ↔ q.1 < w ∧ q.2 < h := by
  obtain ⟨i, j⟩ := q
  simp only [rowMajor, List.mem_flatMap, List.mem_map, List.mem_range, Prod.mk.injEq]
  constructor
  · rintro ⟨j', hj, i', hi, rfl, rfl⟩; exact ⟨hi, hj⟩
  · rintro ⟨hi, hj⟩; exact ⟨j, hj, i, hi, rfl, rfl⟩

/-- Folding over the rectangle is folding over its rows. -/
theorem foldl_rowMajor {β : Type} (f : β → Nat × Nat → β) (b : β) (w h : Nat) :
    (rowMajor w h).foldl f b =
      (List.range h).foldl (fun b j => (List.range w).foldl (fun b i => f b (i, j)) b) b := by
  simp only [rowMajor, List.foldl_flatMap, List.foldl_map]

/-- A pixel of the rectangle is one of its accesses. -/
theorem mem_rectAccesses {c : Conf} {p : BufDesc} {n i j : Nat} (hi : i < c.rectW.toNat) (hj : j < c.rectH.toNat) :
    { addr := p.rectAddr n i j, size := n } ∈ c.rectAccesses p n :=
  List.mem_map.2 ⟨(i, j), mem_rowMajor.2 ⟨hi, hj⟩, rfl⟩

/-- Every access of the rectangle is a pixel's. -/
theorem exists_of_mem_rectAccesses {c : Conf} {p : BufDesc} {n : Nat} {x : Access} (h : x ∈ c.rectAccesses p n) :
    ∃ i j, i < c.rectW.toNat ∧ j < c.rectH.toNat ∧ x = { addr := p.rectAddr n i j, size := n } := by
  obtain ⟨⟨i, j⟩, hq, rfl⟩ := List.mem_map.1 h
  obtain ⟨hi, hj⟩ := mem_rowMajor.1 hq
  exact ⟨i, j, hi, hj, rfl⟩

/-- An invariant of a fold that every element keeps. -/
theorem foldl_keeps {α β : Type} {P : β → Prop} {f : β → α → β} {l : List α} {b : β} (hb : P b)
    (h : ∀ b, P b → ∀ a ∈ l, P (f b a)) : P (l.foldl f b) := by
  induction l generalizing b with
  | nil => exact hb
  | cons a l ih =>
    exact ih (h b hb a (by simp)) fun b hb a ha => h b hb a (by simp [ha])

/-- Two folds over one list stay related. -/
theorem foldl_related {α β γ : Type} {R : β → γ → Prop} {f : β → α → β} {g : γ → α → γ} {l : List α} {b : β} {c : γ}
    (hbc : R b c) (h : ∀ b c, R b c → ∀ a ∈ l, R (f b a) (g c a)) : R (l.foldl f b) (l.foldl g c) := by
  induction l generalizing b c with
  | nil => exact hbc
  | cons a l ih =>
    exact ih (h b c hbc a (by simp)) fun b c hbc a ha => h b c hbc a (by simp [ha])

end Sys2Proof.Machine
end

