-- ==== Sys2Proof/Laws/Cache.lean ====
section
/-! SUPPORT. The scanline cache: where its scratch bytes lie, what a victim, a decode and a request do, and that a
cached sample is the direct one (`43_sampler_cache.md` R240 to R248). -/

namespace Sys2Proof.Machine

/-! Slots. -/

@[simp] theorem Cache.slot_setSlot_same (c : Cache) (i : SlotId) (v : Slot) : (c.setSlot i v).slot i = v := by
  cases i <;> rfl

theorem Cache.slot_setSlot_ne (c : Cache) {i q : SlotId} (v : Slot) (h : q ≠ i) : (c.setSlot i v).slot q = c.slot q := by
  cases i <;> cases q <;> first | rfl | exact absurd rfl h

theorem Cache.slot_onHit (c : Cache) (i q : SlotId) :
    (c.onHit i).slot q = if q = i then { c.slot i with lock := true } else c.slot q := by
  cases i <;> cases q <;> rfl

theorem Cache.slot_onDecode (c : Cache) (i q : SlotId) (y : Nat) :
    (c.onDecode i y).slot q =
      if q = i then { c.slot i with tag := BitVec.ofNat 16 y, valid := true, lock := true } else c.slot q := by
  cases i <;> cases q <;> rfl

theorem Cache.slot_unlock (c : Cache) (q : SlotId) : c.unlock.slot q = { c.slot q with lock := false } := by
  cases q <;> rfl

theorem Cache.slot_teardown (c : Cache) (q : SlotId) :
    c.teardown.slot q = { c.slot q with valid := false, lock := false, data := [] } := by
  cases q <;> rfl

theorem Cache.slot_create (c : Cache) (q : SlotId) : c.create.slot q = Slot.reset := by
  cases q <;> rfl

theorem Cache.slot_clearCounters (c : Cache) (q : SlotId) : c.clearCounters.slot q = c.slot q := by
  cases q <;> rfl

/-- A hit is a valid slot with the row's tag (R243). -/
theorem hitSlot_some {c : Cache} {y : Nat} {i : SlotId} (h : c.hitSlot y = some i) :
    (c.slot i).valid = true ∧ (c.slot i).tag.toNat = y := by
  have := List.find?_some h
  simpa using this

/-- The victim is unlocked whenever a slot is (R244). -/
theorem victim_unlocked {c : Cache} (pending : Option Nat) {i : SlotId} (h : (c.slot i).lock = false) :
    (c.slot (c.victim pending)).lock = false := by
  have hi : i ∈ [SlotId.s0, SlotId.s1].filter fun i => !(c.slot i).lock :=
    List.mem_filter.2 ⟨by cases i <;> simp, by simp [h]⟩
  have key : ∀ j ∈ [SlotId.s0, SlotId.s1].filter fun i => !(c.slot i).lock, (c.slot j).lock = false := fun j hj => by
    simpa using (List.mem_filter.1 hj).2
  simp only [Cache.victim]
  generalize [SlotId.s0, SlotId.s1].filter (fun i => !(c.slot i).lock) = l at hi key ⊢
  split
  · next j hj => exact key j (List.mem_of_find?_eq_some hj)
  · split
    · next j hj => exact key j (List.mem_of_find?_eq_some hj)
    · cases l with
      | nil => cases hi
      | cons j l => exact key j (by simp)

/-! Scratch addresses. -/

theorem rowBytes_le (c : Conf) : rowBytes c ≤ 262140 := by
  have := c.src.width.isLt
  simp only [rowBytes]; omega

theorem slotId_toNat_le (i : SlotId) : i.toNat ≤ 1 := by cases i <;> decide

/-- The bytes of an access at an offset from a base. -/
theorem covers_offset (base a : Word) (o n : Nat) (h : o + n ≤ 2 ^ 32) :
    Access.covers { addr := base + BitVec.ofNat 32 o, size := n } a = true ↔
      o ≤ (a - base).toNat ∧ (a - base).toNat < o + n := by
  simp only [Access.covers, decide_eq_true_eq]
  rcases Nat.eq_zero_or_pos n with rfl | hn
  · omega
  · have ho : o < 2 ^ 32 := by omega
    have e : (a - (base + BitVec.ofNat 32 o)).toNat = ((a - base).toNat + (2 ^ 32 - o)) % 2 ^ 32 := by
      have : a - (base + BitVec.ofNat 32 o) = (a - base) - BitVec.ofNat 32 o := by bv_omega
      rw [this, BitVec.toNat_sub, BitVec.toNat_ofNat, Nat.mod_eq_of_lt ho, Nat.add_comm]
    have := (a - base).isLt
    rw [e]
    omega

/-- The bytes of a scratch pixel (R242). -/
theorem covers_scratchAddr (c : Conf) (i : SlotId) {x : Nat} (hx : x < c.src.width.toNat) (a : Word) :
    Access.covers { addr := scratchAddr c i x, size := 4 } a = true ↔
      i.toNat * rowBytes c + 4 * x ≤ (a - c.scrBase).toNat ∧
        (a - c.scrBase).toNat < i.toNat * rowBytes c + 4 * x + 4 := by
  refine covers_offset c.scrBase a _ 4 ?_
  have := rowBytes_le c
  have h4 : 4 * x < rowBytes c := by simp only [rowBytes]; omega
  have : i.toNat * rowBytes c ≤ rowBytes c := Nat.le_trans (Nat.mul_le_mul_right _ (slotId_toNat_le i)) (by omega)
  omega

/-- A scratch pixel lies in the scratch region (R242). -/
theorem covers_scratchAccesses {p : Config.Params} {k : KFields} {c : Conf} (hu : cacheUsed k c = true)
    (he : externalScratch p c = true) (i : SlotId) {x : Nat} (hx : x < c.src.width.toNat) {a : Word}
    (h : Access.covers { addr := scratchAddr c i x, size := 4 } a = true) : Covers (scratchAccesses p k c) a := by
  rw [covers_scratchAddr c i hx] at h
  refine ⟨{ addr := c.scrBase, size := 2 * rowBytes c }, by simp [scratchAccesses, hu, he], ?_⟩
  simp only [Access.covers, decide_eq_true_eq]
  have h4 : 4 * x + 4 ≤ rowBytes c := by simp only [rowBytes]; omega
  have hi : i.toNat * rowBytes c ≤ rowBytes c :=
    Nat.le_trans (Nat.mul_le_mul_right _ (slotId_toNat_le i)) (by omega)
  omega

/-- Two different scratch pixels share no byte. -/
theorem scratch_disjoint (c : Conf) {i q : SlotId} {x z : Nat} (hx : x < c.src.width.toNat)
    (hz : z < c.src.width.toNat) (h : (i, x) ≠ (q, z)) {a : Word}
    (ha : Access.covers { addr := scratchAddr c i x, size := 4 } a = true) :
    Access.covers { addr := scratchAddr c q z, size := 4 } a = false := by
  rw [covers_scratchAddr c i hx] at ha
  by_contra hb
  rw [Bool.not_eq_false, covers_scratchAddr c q hz] at hb
  have h4 : 4 * x + 4 ≤ rowBytes c := by simp only [rowBytes]; omega
  have h5 : 4 * z + 4 ≤ rowBytes c := by simp only [rowBytes]; omega
  cases i <;> cases q <;> simp only [SlotId.toNat, ne_eq, Prod.mk.injEq, true_and, not_and] at h ha hb <;> omega

/-! Source rows. -/

/-- The accesses to a whole source row (R245). -/
def rowReads (k : KFields) (c : Conf) (y : Nat) : List Access :=
  (List.range c.src.width.toNat).map fun x => srcAccess k c x y

/-- Two memories hold the same bytes in every access of the list. -/
def SameIn (l : List Access) (m m' : Memory) : Prop :=
  ∀ a : Word, Covers l a → Memory.readByte m a.toNat = Memory.readByte m' a.toNat

theorem lanesAreBytes_srcPix (f : Fmt) (c : Conf) (m : Memory) (x y : Nat) : LanesAreBytes (srcPix f c m x y) :=
  lanesAreBytes_loadPixel _ _ _

/-- A source pixel depends on its own bytes only. -/
theorem srcPix_congr {k : KFields} {c : Conf} {m m' : Memory} {l : List Access} {x y : Nat}
    (hl : srcAccess k c x y ∈ l) (h : SameIn l m m') : srcPix k.sfmt c m x y = srcPix k.sfmt c m' x y :=
  loadPixel_congr k.sfmt _ fun a ha => h a ⟨_, hl, ha⟩

theorem mem_rowReads {k : KFields} {c : Conf} {x : Nat} (y : Nat) (hx : x < c.src.width.toNat) :
    srcAccess k c x y ∈ rowReads k c y := List.mem_map.2 ⟨x, List.mem_range.2 hx, rfl⟩

/-- The stores of a decode into external scratch. -/
def decodeStores (k : KFields) (c : Conf) (i : SlotId) (y n : Nat) (b : Bus) : Bus :=
  (List.range n).foldl (fun b x => b.store (scratchAddr c i x) 4 (pack32 (srcPix k.sfmt c b.mem x y)).toNat) b

/-- What a decode into external scratch does to memory: it changes the slot's pixels only, and they hold the row. -/
theorem decodeStores_spec {k : KFields} {c : Conf} {i : SlotId} {y n : Nat} {b : Bus} {m0 : Memory}
    (hn : n ≤ c.src.width.toNat) (hw : b.mem.wf) (hs : SameIn (rowReads k c y) b.mem m0)
    (hd : ∀ x < c.src.width.toNat, ∀ a, Covers (rowReads k c y) a →
      Access.covers { addr := scratchAddr c i x, size := 4 } a = false) :
    (decodeStores k c i y n b).mem.wf ∧
      (∀ a : Word, (∀ x < n, Access.covers { addr := scratchAddr c i x, size := 4 } a = false) →
        Memory.readByte (decodeStores k c i y n b).mem a.toNat = Memory.readByte b.mem a.toNat) ∧
      ∀ x < n, (decodeStores k c i y n b).mem.read (scratchAddr c i x) 4 = (pack32 (srcPix k.sfmt c m0 x y)).toNat := by
  induction n with
  | zero => exact ⟨hw, fun _ _ => rfl, fun x hx => absurd hx (by omega)⟩
  | succ n ih =>
    obtain ⟨ih1, ih2, ih3⟩ := ih (by omega)
    have hstep : decodeStores k c i y (n + 1) b =
        (decodeStores k c i y n b).store (scratchAddr c i n) 4
          (pack32 (srcPix k.sfmt c (decodeStores k c i y n b).mem n y)).toNat := by
      simp only [decodeStores, List.range_succ, List.foldl_append, List.foldl_cons, List.foldl_nil]
    have hsame : SameIn (rowReads k c y) (decodeStores k c i y n b).mem m0 := fun a ha =>
      (ih2 a fun x hx => hd x (by omega) a ha).trans (hs a ha)
    rw [hstep, Bus.store_mem, srcPix_congr (mem_rowReads y (by omega)) hsame]
    refine ⟨Memory.wf_write ih1 _ _ _, fun a ha => ?_, fun x hx => ?_⟩
    · rw [readByte_write_of_not_covers ih1 (x := { addr := scratchAddr c i n, size := 4 }) _ (ha n (by omega))]
      exact ih2 a fun x hx => ha x (by omega)
    · by_cases hxn : x = n
      · subst hxn
        rw [Memory.read_write ih1 _ _ _ (by decide), Nat.mod_eq_of_lt (by
          have := (pack32 (srcPix k.sfmt c m0 x y)).isLt; omega)]
      · rw [← ih3 x (by omega)]
        refine Memory.read_congr _ _ (by decide) fun a ha => ?_
        refine readByte_write_of_not_covers ih1 (x := { addr := scratchAddr c i n, size := 4 }) _ ?_
        refine scratch_disjoint c (i := i) (x := x) (by omega) (by omega) (fun h => hxn (by simpa using h)) ?_
        simpa [Access.covers] using ha

/-! What the cache holds. -/

/-- Slot `i` gives back source row `y` as it is in memory `m0` (R245). -/
def HoldsRow (p : Config.Params) (k : KFields) (c : Conf) (m0 : Memory) (e : Engine) (i : SlotId) (y : Nat) : Prop :=
  ∀ x < c.src.width.toNat, e.rowPix p c i x = srcPix k.sfmt c m0 x y

/-- A cached pixel depends on the slot's data and the slot's scratch bytes only. -/
theorem holdsRow_congr {p : Config.Params} {k : KFields} {c : Conf} {m0 : Memory} {e e' : Engine} {i : SlotId} {y : Nat}
    (hd : (e'.cache.slot i).data = (e.cache.slot i).data)
    (hm : externalScratch p c = true → ∀ x < c.src.width.toNat, ∀ a : Word,
      Access.covers { addr := scratchAddr c i x, size := 4 } a = true →
        Memory.readByte e'.bus.mem a.toNat = Memory.readByte e.bus.mem a.toNat)
    (h : HoldsRow p k c m0 e i y) : HoldsRow p k c m0 e' i y := fun x hx => by
  rw [← h x hx]
  simp only [Engine.rowPix, hd]
  split
  · next hext =>
    rw [Memory.read_congr (m := e'.bus.mem) (m' := e.bus.mem) _ _ (by decide) fun a ha =>
      hm hext x hx a (by simpa [Access.covers] using ha)]
  · rfl

/-- What holds of a cached COMPOSITE between its steps: memory is canonical, the source is as it was at the start, and
each valid slot gives back the row of its tag. -/
structure CacheInv (p : Config.Params) (k : KFields) (c : Conf) (m0 : Memory) (e : Engine) : Prop where
  wf : e.bus.mem.wf
  source : SameIn (srcReads k c) e.bus.mem m0
  rows : ∀ i, (e.cache.slot i).valid = true → HoldsRow p k c m0 e i (e.cache.slot i).tag.toNat

/-- What the command's sets give a cached COMPOSITE: the source does not meet the scratch (R69). -/
structure CacheSets (p : Config.Params) (k : KFields) (c : Conf) : Prop where
  used : cacheUsed k c = true
  apart : ∀ a, Covers (srcReads k c) a → ¬ Covers (scratchAccesses p k c) a

/-- A decode changes its slot's storage only, which then gives back the row (R245). -/
theorem decode_spec {p : Config.Params} {k : KFields} {c : Conf} {m0 : Memory} {e : Engine} (i : SlotId) {y : Nat}
    (hs : CacheSets p k c) (hw : e.bus.mem.wf) (hsrc : SameIn (srcReads k c) e.bus.mem m0)
    (hy : ∀ x ∈ rowReads k c y, x ∈ srcReads k c) :
    (e.decode p k c i y).bus.mem.wf ∧
      (∀ a : Word, (externalScratch p c = true → ∀ x < c.src.width.toNat,
          Access.covers { addr := scratchAddr c i x, size := 4 } a = false) →
        Memory.readByte (e.decode p k c i y).bus.mem a.toNat = Memory.readByte e.bus.mem a.toNat) ∧
      HoldsRow p k c m0 (e.decode p k c i y) i y ∧
      (∀ q, q ≠ i → ((e.decode p k c i y).cache.slot q) = e.cache.slot q) ∧
      ∀ q, ((e.decode p k c i y).cache.slot q).lock = (e.cache.slot q).lock := by
  have hrow : SameIn (rowReads k c y) e.bus.mem m0 := fun a ⟨x, hx, ha⟩ => hsrc a ⟨x, hy x hx, ha⟩
  by_cases hext : externalScratch p c = true
  · have he : e.decode p k c i y = { e with bus := decodeStores k c i y c.src.width.toNat e.bus } := by
      simp only [Engine.decode, hext, if_true, decodeStores]
    have hd : ∀ x < c.src.width.toNat, ∀ a, Covers (rowReads k c y) a →
        Access.covers { addr := scratchAddr c i x, size := 4 } a = false := fun x hx a ⟨z, hz, ha⟩ => by
      by_contra hc
      rw [Bool.not_eq_false] at hc
      exact hs.apart a ⟨z, hy z hz, ha⟩ (covers_scratchAccesses hs.used hext i hx hc)
    obtain ⟨h1, h2, h3⟩ := decodeStores_spec (Nat.le_refl _) hw hrow hd
    rw [he]
    refine ⟨h1, fun a ha => h2 a (ha hext), fun x hx => ?_, fun _ _ => rfl, fun _ => rfl⟩
    have hx' := h3 x hx
    simp only [Engine.rowPix, hext, if_true]
    rw [hx', BitVec.ofNat_toNat, BitVec.setWidth_eq]
    exact unpack32_pack32 (lanesAreBytes_loadPixel _ _ _)
  · have he : e.decode p k c i y = { e with
        cache := e.cache.setSlot i { e.cache.slot i with
          data := (List.range c.src.width.toNat).map fun x => pack32 (srcPix k.sfmt c e.bus.mem x y) } } := by
      simp only [Engine.decode, hext, Bool.false_eq_true, if_false]
    rw [he]
    refine ⟨hw, fun _ _ => rfl, fun x hx => ?_, fun q hq => Cache.slot_setSlot_ne _ _ hq, fun q => ?_⟩
    · simp only [Engine.rowPix, hext, Bool.false_eq_true, if_false, Cache.slot_setSlot_same]
      rw [List.getD_eq_getElem?_getD, List.getElem?_map, List.getElem?_range hx, Option.map_some, Option.getD_some,
        unpack32_pack32 (lanesAreBytes_srcPix _ _ _ _ _)]
      exact srcPix_congr (mem_rowReads y hx) hrow
    · by_cases hq : q = i
      · subst hq; rw [Cache.slot_setSlot_same]
      · rw [Cache.slot_setSlot_ne _ _ hq]

/-- The slot a request answers is locked (R243). -/
theorem acquire_locks (p : Config.Params) (k : KFields) (c : Conf) (e : Engine) (y : Nat) (pending : Option Nat) :
    ((e.acquire p k c y pending).2.cache.slot (e.acquire p k c y pending).1).lock = true := by
  cases hhit : e.cache.hitSlot y with
  | some i => simp only [Engine.acquire, hhit, Cache.slot_onHit, if_true]
  | none => simp only [Engine.acquire, hhit, Cache.slot_onDecode, if_true]

/-- A request for a row (R243): the slot it answers gives back that row and is locked; a slot that was locked keeps
what it holds while another was unlocked; memory changes in the scratch region only. -/
theorem acquire_spec {p : Config.Params} {k : KFields} {c : Conf} {m0 : Memory} {e : Engine} {y : Nat}
    (pending : Option Nat) (hs : CacheSets p k c) (hi : CacheInv p k c m0 e)
    (hy : ∀ x ∈ rowReads k c y, x ∈ srcReads k c) (hy16 : y < 2 ^ 16) (hu : ∃ u, (e.cache.slot u).lock = false) :
    CacheInv p k c m0 (e.acquire p k c y pending).2 ∧
      HoldsRow p k c m0 (e.acquire p k c y pending).2 (e.acquire p k c y pending).1 y ∧
      (∀ q r, (e.cache.slot q).lock = true → HoldsRow p k c m0 e q r →
        HoldsRow p k c m0 (e.acquire p k c y pending).2 q r) ∧
      (∀ q, q ≠ (e.acquire p k c y pending).1 →
        ((e.acquire p k c y pending).2.cache.slot q).lock = (e.cache.slot q).lock) ∧
      SameOutside (scratchAccesses p k c) (e.acquire p k c y pending).2.bus.mem e.bus.mem := by
  cases hhit : e.cache.hitSlot y with
  | some i =>
    have he : e.acquire p k c y pending = (i, { e with cache := e.cache.onHit i }) := by
      simp only [Engine.acquire, hhit]
    obtain ⟨hv, ht⟩ := hitSlot_some hhit
    have hdata : ∀ q, (({ e with cache := e.cache.onHit i } : Engine).cache.slot q).data = (e.cache.slot q).data := by
      intro q
      simp only [Cache.slot_onHit]
      split
      · next h => subst h; rfl
      · rfl
    have hkeep : ∀ q r, HoldsRow p k c m0 e q r → HoldsRow p k c m0 { e with cache := e.cache.onHit i } q r :=
      fun q r h => holdsRow_congr (hdata q) (fun _ _ _ _ _ => rfl) h
    rw [he]
    refine ⟨⟨hi.wf, hi.source, fun q hq => ?_⟩, ?_, fun q r _ h => hkeep q r h, fun q hq => ?_, fun _ _ => rfl⟩
    · simp only [Cache.slot_onHit] at hq ⊢
      by_cases h : q = i
      · subst h
        simp only [if_true]
        exact hkeep q _ (hi.rows q hv)
      · simp only [if_neg h] at hq ⊢
        exact hkeep q _ (hi.rows q hq)
    · exact hkeep i y (ht ▸ hi.rows i hv)
    · simp only [Cache.slot_onHit, if_neg hq]
  | none =>
    obtain ⟨u, hu⟩ := hu
    have hvu := victim_unlocked pending hu
    generalize hvi : e.cache.victim pending = i at hvu
    have he : e.acquire p k c y pending =
        (i, { e.decode p k c i y with cache := (e.decode p k c i y).cache.onDecode i y }) := by
      simp only [Engine.acquire, hhit, hvi]
    obtain ⟨h1, h2, h3, h4, h5⟩ := decode_spec i hs hi.wf hi.source hy
    generalize e.decode p k c i y = d at he h1 h2 h3 h4 h5
    have hmem : SameOutside (scratchAccesses p k c) d.bus.mem e.bus.mem := fun a ha =>
      h2 a fun hext x hx => by
        by_contra hc
        rw [Bool.not_eq_false] at hc
        exact ha (covers_scratchAccesses hs.used hext i hx hc)
    have hself : ∀ q r, HoldsRow p k c m0 d q r →
        HoldsRow p k c m0 { d with cache := d.cache.onDecode i y } q r := by
      intro q r h
      refine holdsRow_congr (e := d) ?_ (fun _ _ _ _ _ => rfl) h
      simp only [Cache.slot_onDecode]
      split
      · next h => subst h; rfl
      · rfl
    have hkeep : ∀ q r, q ≠ i → HoldsRow p k c m0 e q r →
        HoldsRow p k c m0 { d with cache := d.cache.onDecode i y } q r := by
      intro q r hq h
      refine hself q r (holdsRow_congr (by rw [h4 q hq]) (fun hext x hx a ha => ?_) h)
      refine h2 a fun _ z hz => scratch_disjoint c hx hz (fun h => hq ?_) ha
      simpa using congrArg Prod.fst h
    rw [he]
    refine ⟨⟨h1, fun a ha => ?_, fun q hq => ?_⟩, hself i y h3, fun q r hl h => ?_, fun q hq => ?_, hmem⟩
    · exact (hmem a (hs.apart a ha)).trans (hi.source a ha)
    · simp only [Cache.slot_onDecode] at hq ⊢
      by_cases h : q = i
      · subst h
        simp only [if_true, BitVec.toNat_ofNat, Nat.mod_eq_of_lt hy16]
        exact hself q y h3
      · simp only [if_neg h, h4 q h] at hq ⊢
        exact hkeep q _ h (hi.rows q hq)
    · refine hkeep q r (fun h' => ?_) h
      subst h'
      rw [hvu] at hl
      cases hl
    · simp only [Cache.slot_onDecode, if_neg hq]
      exact h5 q

end Sys2Proof.Machine
end

