-- ==== Sys2Proof/Laws/Composite.lean ====
section
/-! SUPPORT. The pixel phase of a COMPOSITE: its memory is the painted picture of `Safety.lean` at every byte outside
external scratch, cached or not; it keeps the canonical form and leaves no cache instance behind. -/

namespace Sys2Proof.Machine

/-! Rows of the source image. -/

/-- A coordinate the edge policy gives lies inside a non-empty image (R237, R238). -/
theorem edgeCoord_lt {edge : Edge} {n y : Nat} {x : Int} (hn : 0 < n) (h : edgeCoord edge n x = some y) : y < n := by
  cases edge with
  | outside =>
    simp only [edgeCoord] at h
    split at h
    · next hx =>
      rw [Option.some.injEq] at h
      omega
    · cases h
  | pad =>
    simp only [edgeCoord, clampi, Option.some.injEq] at h
    omega

theorem cacheUsed_iff {k : KFields} {c : Conf} :
    cacheUsed k c = true ↔ k.ssolid = false ∧ k.sample = .bilinear ∧ c.xform.d = 0 := by
  simp [cacheUsed, and_assoc]

/-- The rows a destination row needs are in the read set (R68, R245). -/
theorem rowReads_sub_srcReads {k : KFields} {c : Conf} {j y : Nat} (hu : cacheUsed k c = true) (hj : j < c.rectH.toNat)
    (h : (rowPair k c j).1 = some y ∨ (rowPair k c j).2 = some y) : ∀ x ∈ rowReads k c y, x ∈ srcReads k c := by
  intro x hx
  have hss := (cacheUsed_iff.1 hu).1
  simp only [srcReads, hss, hu, Bool.false_eq_true, if_false, if_true, List.mem_flatMap, List.mem_range]
  refine ⟨j, hj, y, ?_, hx⟩
  rcases h with h | h <;> rw [List.reduceOption_mem_iff, h] <;> simp

/-- A row slot of a destination row holds the row asked for, or there is neither slot nor row (R246). -/
def RowHeld (p : Config.Params) (k : KFields) (c : Conf) (m0 : Memory) (e : Engine) :
    Option SlotId → Option Nat → Prop
  | none, none => True
  | some i, some y => HoldsRow p k c m0 e i y
  | none, some _ => False
  | some _, none => False

theorem rowHeld_of_keep {p : Config.Params} {k : KFields} {c : Conf} {m0 : Memory} {e e' : Engine}
    (h : ∀ i y, HoldsRow p k c m0 e i y → HoldsRow p k c m0 e' i y) {row : Option SlotId} {y : Option Nat}
    (hr : RowHeld p k c m0 e row y) : RowHeld p k c m0 e' row y := by
  cases row with
  | none => cases y with
    | none => trivial
    | some y => exact hr.elim
  | some i => cases y with
    | none => exact hr.elim
    | some y => exact h i y hr

/-- What RowStart leaves (R246). -/
theorem rowStart_spec {p : Config.Params} {k : KFields} {c : Conf} {m0 : Memory} {e : Engine} {j : Nat}
    (hs : CacheSets p k c) (hi : CacheInv p k c m0 e) (hh : 0 < c.src.height.toNat) (hj : j < c.rectH.toNat)
    (hu : ∀ i, (e.cache.slot i).lock = false) :
    CacheInv p k c m0 (e.rowStart p k c j).2 ∧
      RowHeld p k c m0 (e.rowStart p k c j).2 (e.rowStart p k c j).1.top (rowPair k c j).1 ∧
      RowHeld p k c m0 (e.rowStart p k c j).2 (e.rowStart p k c j).1.bottom (rowPair k c j).2 ∧
      SameOutside (scratchAccesses p k c) (e.rowStart p k c j).2.bus.mem e.bus.mem := by
  have hsub (y : Nat) := rowReads_sub_srcReads (y := y) hs.used hj
  have h16 : ∀ y, ((rowPair k c j).1 = some y ∨ (rowPair k c j).2 = some y) → y < 2 ^ 16 := by
    intro y h
    have hlt : y < c.src.height.toNat := by rcases h with h | h <;> exact edgeCoord_lt hh h
    have := c.src.height.isLt
    omega
  generalize hp : rowPair k c j = pair at hsub h16
  obtain ⟨r0, r1⟩ := pair
  cases r0 with
  | none =>
    cases r1 with
    | none =>
      have he : e.rowStart p k c j = ({ top := none, bottom := none }, e) := by
        simp only [Engine.rowStart, hp, Engine.acquire?]
      rw [he]
      exact ⟨hi, trivial, trivial, fun _ _ => rfl⟩
    | some y1 =>
      obtain ⟨a1, a2, -, -, a5⟩ := acquire_spec (y := y1) none hs hi (hsub y1 (.inr rfl)) (h16 y1 (.inr rfl)) ⟨.s0, hu .s0⟩
      generalize hq : e.acquire p k c y1 none = q at a1 a2 a5
      have he : e.rowStart p k c j = ({ top := none, bottom := some q.1 }, q.2) := by
        simp only [Engine.rowStart, hp, Engine.acquire?, hq]
      rw [he]
      exact ⟨a1, trivial, a2, a5⟩
  | some y0 =>
    obtain ⟨a1, a2, -, a4, a5⟩ := acquire_spec (y := y0) r1 hs hi (hsub y0 (.inl rfl)) (h16 y0 (.inl rfl)) ⟨.s0, hu .s0⟩
    have hlock := acquire_locks p k c e y0 r1
    generalize hq : e.acquire p k c y0 r1 = q at a1 a2 a4 a5 hlock
    cases r1 with
    | none =>
      have he : e.rowStart p k c j = ({ top := some q.1, bottom := none }, q.2) := by
        simp only [Engine.rowStart, hp, Engine.acquire?, hq]
      rw [he]
      exact ⟨a1, a2, trivial, a5⟩
    | some y1 =>
      have hfree : ∃ u, (q.2.cache.slot u).lock = false := by
        have hne : ∃ u : SlotId, u ≠ q.1 := by cases q.1 <;> [exact ⟨.s1, by simp⟩; exact ⟨.s0, by simp⟩]
        obtain ⟨u, hne⟩ := hne
        exact ⟨u, by rw [a4 u hne]; exact hu u⟩
      obtain ⟨b1, b2, b3, -, b5⟩ := acquire_spec (y := y1) none hs a1 (hsub y1 (.inr rfl)) (h16 y1 (.inr rfl)) hfree
      generalize hq' : q.2.acquire p k c y1 none = q' at b1 b2 b3 b5
      have he : e.rowStart p k c j = ({ top := some q.1, bottom := some q'.1 }, q'.2) := by
        simp only [Engine.rowStart, hp, Engine.acquire?, hq, hq']
      rw [he]
      exact ⟨b1, b3 _ _ hlock a2, b2, fun a ha => (b5 a ha).trans (a5 a ha)⟩

/-! Samples. -/

/-- A corner taken from a slot is the fetched pixel (R246, R248). -/
theorem corner_eq {p : Config.Params} {k : KFields} {c : Conf} {m0 : Memory} {e : Engine} {row : Option SlotId} {x y : Int}
    (hw : 0 < c.src.width.toNat) (h : RowHeld p k c m0 e row (edgeCoord k.edge c.src.height.toNat y)) :
    e.corner p k c row x = fetch k c m0 x y := by
  simp only [Engine.corner, fetch, fetchCoord]
  cases hx : edgeCoord k.edge c.src.width.toNat x with
  | none => cases row <;> rfl
  | some px =>
    generalize edgeCoord k.edge c.src.height.toNat y = py at h
    cases row with
    | none =>
      cases py with
      | none => rfl
      | some py => exact h.elim
    | some i =>
      cases py with
      | none => exact h.elim
      | some py => exact h px (edgeCoord_lt hw hx)

/-- A sample through the cache is the sample read straight from the source as it was at the start (R248). -/
theorem sampleCached_eq {p : Config.Params} {k : KFields} {c : Conf} {m0 : Memory} {e : Engine} {rows : RowSlots}
    {j : Nat} (i : Nat) (hu : cacheUsed k c = true) (hw : 0 < c.src.width.toNat)
    (ht : RowHeld p k c m0 e rows.top (rowPair k c j).1) (hb : RowHeld p k c m0 e rows.bottom (rowPair k c j).2) :
    e.sampleCached p k c rows i j = sampleDirect k c m0 i j := by
  obtain ⟨-, hbil, hd⟩ := cacheUsed_iff.1 hu
  have hv : coordV c.xform i j = c.xform.e.toInt * j + c.xform.f.toInt := by simp [coordV, hd]
  have ht' : RowHeld p k c m0 e rows.top (edgeCoord k.edge c.src.height.toNat (wholePixel (coordV c.xform i j))) := by
    rw [hv]; exact ht
  have hb' : RowHeld p k c m0 e rows.bottom
      (edgeCoord k.edge c.src.height.toNat (wholePixel (coordV c.xform i j) + 1)) := by
    rw [hv]; exact hb
  simp only [Engine.sampleCached, sampleDirect, hbil, corner_eq hw ht', corner_eq hw hb']

/-- A fetched pixel depends on the bytes of the pixel it takes only. -/
theorem fetch_congr {k : KFields} {c : Conf} {m m' : Memory} {i j : Nat} {x y : Int} (hss : k.ssolid = false)
    (hu : cacheUsed k c = false) (hi : i < c.rectW.toNat) (hj : j < c.rectH.toNat)
    (hxy : (x, y) ∈ samplePoints k c i j) (h : SameIn (srcReads k c) m m') : fetch k c m x y = fetch k c m' x y := by
  simp only [fetch]
  cases hf : fetchCoord k.edge c x y with
  | none => rfl
  | some q =>
    obtain ⟨px, py⟩ := q
    refine srcPix_congr (l := srcReads k c) ?_ h
    simp only [srcReads, hss, hu, Bool.false_eq_true, if_false, List.mem_flatMap]
    refine ⟨(i, j), mem_rowMajor.2 ⟨hi, hj⟩, List.mem_map.2 ⟨(px, py), ?_, rfl⟩⟩
    rw [List.reduceOption_mem_iff]
    exact List.mem_map.2 ⟨(x, y), hxy, hf⟩

/-- An uncached sample depends on the source's bytes in the read set only (R249). -/
theorem sampleDirect_congr {k : KFields} {c : Conf} {m m' : Memory} {i j : Nat} (hss : k.ssolid = false)
    (hu : cacheUsed k c = false) (hi : i < c.rectW.toNat) (hj : j < c.rectH.toNat) (h : SameIn (srcReads k c) m m') :
    sampleDirect k c m i j = sampleDirect k c m' i j := by
  have hf (x y : Int) (hxy : (x, y) ∈ samplePoints k c i j) : fetch k c m x y = fetch k c m' x y :=
    fetch_congr hss hu hi hj hxy h
  simp only [sampleDirect]
  cases hsm : k.sample with
  | identity => exact hf _ _ (by simp [samplePoints, hsm])
  | nearest => exact hf _ _ (by simp [samplePoints, hsm])
  | bilinear =>
    simp only
    rw [hf _ _ (by simp [samplePoints, hsm]), hf _ _ (by simp [samplePoints, hsm]),
      hf _ _ (by simp [samplePoints, hsm]), hf _ _ (by simp [samplePoints, hsm])]

/-- The mask vector depends on the mask's bytes in the read set only (R182). -/
theorem maskVector_congr {k : KFields} {c : Conf} {m m' : Memory} {i j : Nat} (hi : i < c.rectW.toNat)
    (hj : j < c.rectH.toNat) (h : SameIn (mskReads k c) m m') : maskVector k c m i j = maskVector k c m' i j := by
  by_cases hb : maskBuffer k = true
  · have hl : loadPixel k.mfmt m (c.msk.rectAddr (bpb k.mfmt) i j) =
        loadPixel k.mfmt m' (c.msk.rectAddr (bpb k.mfmt) i j) :=
      loadPixel_congr k.mfmt _ fun a ha =>
        h a ⟨_, by simpa only [mskReads, hb, if_true] using mem_rectAccesses hi hj, ha⟩
    simp only [maskVector, hl]
  · simp only [maskBuffer, Bool.and_eq_true, bne_iff_ne, ne_eq, Bool.not_eq_true', not_and, Bool.not_eq_false] at hb
    cases hm : k.mmode with
    | noMask => simp only [maskVector, hm]
    | uniform => simp only [maskVector, hm, hb (by simp [hm]), if_true]
    | perComponent => simp only [maskVector, hm, hb (by simp [hm]), if_true]

/-! The pixel phase. -/

/-- What the checks and the contract give the pixel phase (R293, R69). -/
structure RunSets (p : Config.Params) (k : KFields) (c : Conf) : Prop where
  format : dstFormat k.dfmt = true
  size : k.ssolid = false → 0 < c.src.width.toNat ∧ 0 < c.src.height.toNat
  noAlias : ∀ a, Covers (srcReads k c ++ mskReads k c) a → ¬ Covers (dstAccesses k c) a
  noScratchAlias : ∀ a, Covers (srcReads k c ++ mskReads k c ++ dstAccesses k c) a → ¬ Covers (scratchAccesses p k c) a

theorem RunSets.cacheSets {p : Config.Params} {k : KFields} {c : Conf} (h : RunSets p k c) (hu : cacheUsed k c = true) :
    CacheSets p k c :=
  ⟨hu, fun a ha => h.noScratchAlias a (covers_append.2 (.inl (covers_append.2 (.inl ha))))⟩

/-- One painted pixel: the step of `paint`. -/
def paintPixel (r : Wide → Wide → Wide → Wide) (k : KFields) (c : Conf) (m0 m : Memory) (q : Nat × Nat) : Memory :=
  m.write (c.dst.rectAddr (bpb k.dfmt) q.1 q.2) (bpb k.dfmt)
    (packPixel k.dfmt
      (r (maskedSource (directSource k c m0 q.1 q.2) (maskVector k c m0 q.1 q.2))
        (sourceAlpha (directSource k c m0 q.1 q.2) (maskVector k c m0 q.1 q.2)) (dstValue k c m q.1 q.2)))

theorem paint_eq (r : Wide → Wide → Wide → Wide) (k : KFields) (c : Conf) (m0 : Memory) :
    paint r k c m0 = c.pixels.foldl (paintPixel r k c m0) m0 := rfl

/-- How a running COMPOSITE stands to the picture painted so far. -/
structure Agree (p : Config.Params) (k : KFields) (c : Conf) (m0 : Memory) (e : Engine) (m : Memory) : Prop where
  wf : e.bus.mem.wf
  painted : m.wf
  same : SameOutside (scratchAccesses p k c) e.bus.mem m
  inputs : SameIn (srcReads k c ++ mskReads k c) e.bus.mem m0
  rows : cacheUsed k c = true → ∀ i, (e.cache.slot i).valid = true → HoldsRow p k c m0 e i (e.cache.slot i).tag.toNat

theorem Agree.source {p : Config.Params} {k : KFields} {c : Conf} {m0 : Memory} {e : Engine} {m : Memory}
    (h : Agree p k c m0 e m) : SameIn (srcReads k c) e.bus.mem m0 := fun a ha =>
  h.inputs a (covers_append.2 (.inl ha))

theorem Agree.cacheInv {p : Config.Params} {k : KFields} {c : Conf} {m0 : Memory} {e : Engine} {m : Memory}
    (h : Agree p k c m0 e m) (hu : cacheUsed k c = true) : CacheInv p k c m0 e :=
  ⟨h.wf, h.source, h.rows hu⟩

/-- The row's slots hold its two source rows, when the cache is used. -/
def RowsHeld (p : Config.Params) (k : KFields) (c : Conf) (m0 : Memory) (rows : RowSlots) (j : Nat) (e : Engine) : Prop :=
  cacheUsed k c = true →
    RowHeld p k c m0 e rows.top (rowPair k c j).1 ∧ RowHeld p k c m0 e rows.bottom (rowPair k c j).2

/-- The source value of a pixel is the direct one (R181, R248). -/
theorem sourceValue_eq {p : Config.Params} {k : KFields} {c : Conf} {m0 : Memory} {e : Engine} {m : Memory}
    {rows : RowSlots} {i j : Nat} (hs : RunSets p k c) (ha : Agree p k c m0 e m) (hr : RowsHeld p k c m0 rows j e)
    (hi : i < c.rectW.toNat) (hj : j < c.rectH.toNat) : sourceValue p k c e rows i j = directSource k c m0 i j := by
  cases hss : k.ssolid with
  | true => simp only [sourceValue, directSource, hss, if_true]
  | false =>
    simp only [sourceValue, directSource, hss, Bool.false_eq_true, if_false]
    cases hu : cacheUsed k c with
    | true =>
      obtain ⟨ht, hb⟩ := hr hu
      simp only [if_true]
      exact sampleCached_eq i hu (hs.size hss).1 ht hb
    | false =>
      simp only [Bool.false_eq_true, if_false]
      exact sampleDirect_congr hss hu hi hj ha.source

/-- A pixel of the destination is in the write set. -/
theorem covers_dst {k : KFields} {c : Conf} {i j : Nat} (hi : i < c.rectW.toNat) (hj : j < c.rectH.toNat) {a : Word}
    (h : Access.covers { addr := c.dst.rectAddr (bpb k.dfmt) i j, size := bpb k.dfmt } a = true) :
    Covers (dstAccesses k c) a := ⟨_, mem_rectAccesses hi hj, h⟩

/-- One pixel (R185). -/
theorem compositePixel_agree {p : Config.Params} {op : Op} {k : KFields} {c : Conf} {m0 : Memory} {e : Engine}
    {m : Memory} {rows : RowSlots} {i j : Nat} (hs : RunSets p k c) (ha : Agree p k c m0 e m)
    (hr : RowsHeld p k c m0 rows j e) (hi : i < c.rectW.toNat) (hj : j < c.rectH.toNat) :
    Agree p k c m0 (Engine.compositePixel p op k c rows j e i)
        (paintPixel (opResult p.satZeroHeadroom op) k c m0 m (i, j)) ∧
      RowsHeld p k c m0 rows j (Engine.compositePixel p op k c rows j e i) := by
  have hd : dstValue k c e.bus.mem i j = dstValue k c m i j :=
    loadPixel_congr k.dfmt _ fun a h =>
      ha.same a (hs.noScratchAlias a (covers_append.2 (.inr (covers_dst hi hj h))))
  have hm : maskVector k c e.bus.mem i j = maskVector k c m0 i j :=
    maskVector_congr hi hj fun a h => ha.inputs a (covers_append.2 (.inr h))
  have hv := sourceValue_eq hs ha hr hi hj
  have hpix : pixelResult p.satZeroHeadroom op k c e.bus.mem (sourceValue p k c e rows i j) i j =
      opResult p.satZeroHeadroom op (maskedSource (directSource k c m0 i j) (maskVector k c m0 i j))
        (sourceAlpha (directSource k c m0 i j) (maskVector k c m0 i j)) (dstValue k c m i j) := by
    simp only [pixelResult, hv, hm, hd]
  have hstep : Engine.compositePixel p op k c rows j e i = { e with
      bus := e.bus.store (c.dst.rectAddr (bpb k.dfmt) i j) (bpb k.dfmt)
        (packPixel k.dfmt (opResult p.satZeroHeadroom op
          (maskedSource (directSource k c m0 i j) (maskVector k c m0 i j))
          (sourceAlpha (directSource k c m0 i j) (maskVector k c m0 i j)) (dstValue k c m i j))) } := by
    simp only [Engine.compositePixel, hpix, storePixel_of_dst hs.format]
  have hbpb := bpb_le k.dfmt
  rw [hstep]
  simp only [paintPixel]
  generalize packPixel k.dfmt _ = v
  have hout : ∀ a : Word, ¬ Covers (dstAccesses k c) a →
      Memory.readByte (e.bus.mem.write (c.dst.rectAddr (bpb k.dfmt) i j) (bpb k.dfmt) v) a.toNat =
        Memory.readByte e.bus.mem a.toNat := fun a hna =>
    readByte_write_of_not_covers ha.wf (x := { addr := c.dst.rectAddr (bpb k.dfmt) i j, size := bpb k.dfmt }) v
      (by by_contra hc; exact hna (covers_dst hi hj (by simpa using hc)))
  have hkeep : cacheUsed k c = true → ∀ q y, HoldsRow p k c m0 e q y →
      HoldsRow p k c m0 { e with bus := e.bus.store (c.dst.rectAddr (bpb k.dfmt) i j) (bpb k.dfmt) v } q y :=
    fun hu q y h => holdsRow_congr (e := e) rfl (fun hext x hx a hc => hout a fun hda =>
      hs.noScratchAlias a (covers_append.2 (.inr hda)) (covers_scratchAccesses hu hext q hx hc)) h
  refine ⟨⟨Memory.wf_write ha.wf _ _ _, Memory.wf_write ha.painted _ _ _, fun a hna => ?_, fun a hc => ?_,
    fun hu q hq => hkeep hu q _ (ha.rows hu q hq)⟩, fun hu => ?_⟩
  · exact readByte_write_congr ha.wf ha.painted _ _ _ (Nat.le_trans hbpb (by decide)) (ha.same a hna)
  · exact (hout a (hs.noAlias a hc)).trans (ha.inputs a hc)
  · exact ⟨rowHeld_of_keep (hkeep hu) (hr hu).1, rowHeld_of_keep (hkeep hu) (hr hu).2⟩

/-- The pixels of one row, up to column `n`. -/
theorem compositePixels_agree {p : Config.Params} {op : Op} {k : KFields} {c : Conf} {m0 : Memory} {e : Engine}
    {m : Memory} {rows : RowSlots} {j : Nat} (hs : RunSets p k c) (ha : Agree p k c m0 e m)
    (hr : RowsHeld p k c m0 rows j e) (hj : j < c.rectH.toNat) :
    Agree p k c m0 ((List.range c.rectW.toNat).foldl (Engine.compositePixel p op k c rows j) e)
        ((List.range c.rectW.toNat).foldl (fun m i => paintPixel (opResult p.satZeroHeadroom op) k c m0 m (i, j)) m) ∧
      RowsHeld p k c m0 rows j ((List.range c.rectW.toNat).foldl (Engine.compositePixel p op k c rows j) e) :=
  foldl_related (R := fun e m => Agree p k c m0 e m ∧ RowsHeld p k c m0 rows j e) ⟨ha, hr⟩
    fun _ _ h _ hi => compositePixel_agree hs h.1 h.2 (List.mem_range.1 hi) hj

/-- Pixels change no lock. -/
theorem compositePixels_cache (p : Config.Params) (op : Op) (k : KFields) (c : Conf) (rows : RowSlots) (j : Nat)
    (l : List Nat) (e : Engine) : (l.foldl (Engine.compositePixel p op k c rows j) e).cache = e.cache :=
  foldl_keeps (P := fun e' : Engine => e'.cache = e.cache) rfl fun _ h _ _ => h

/-- One destination row (R180, R246). -/
theorem compositeRow_agree {p : Config.Params} {op : Op} {k : KFields} {c : Conf} {m0 : Memory} {e : Engine} {m : Memory}
    {j : Nat} (hs : RunSets p k c) (ha : Agree p k c m0 e m) (hj : j < c.rectH.toNat)
    (hu : cacheUsed k c = true → ∀ i, (e.cache.slot i).lock = false) :
    Agree p k c m0 (Engine.compositeRow p op k c e j)
        ((List.range c.rectW.toNat).foldl (fun m i => paintPixel (opResult p.satZeroHeadroom op) k c m0 m (i, j)) m) ∧
      (cacheUsed k c = true → ∀ i, ((Engine.compositeRow p op k c e j).cache.slot i).lock = false) := by
  cases hc : cacheUsed k c with
  | false =>
    simp only [Engine.compositeRow, hc, Bool.false_eq_true, if_false]
    exact ⟨(compositePixels_agree hs ha (fun h => by rw [hc] at h; cases h) hj).1, fun h => absurd h (by simp)⟩
  | true =>
    have hss := (cacheUsed_iff.1 hc).1
    have hsets := hs.cacheSets hc
    obtain ⟨b1, b2, b3, b4⟩ := rowStart_spec hsets (ha.cacheInv hc) (hs.size hss).2 hj (hu hc)
    simp only [Engine.compositeRow, hc, if_true]
    generalize e.rowStart p k c j = q at b1 b2 b3 b4
    obtain ⟨rows, e1⟩ := q
    simp only at b1 b2 b3 b4 ⊢
    have ha1 : Agree p k c m0 e1 m :=
      ⟨b1.wf, ha.painted, fun a hna => (b4 a hna).trans (ha.same a hna),
        fun a h => (b4 a (hs.noScratchAlias a (covers_append.2 (.inl h)))).trans (ha.inputs a h), fun _ => b1.rows⟩
    obtain ⟨c1, -⟩ := compositePixels_agree (op := op) hs ha1 (fun _ => ⟨b2, b3⟩) hj
    refine ⟨⟨c1.wf, c1.painted, c1.same, c1.inputs, fun hu q hq => ?_⟩, fun _ q => by rw [Cache.slot_unlock]⟩
    rw [Cache.slot_unlock] at hq ⊢
    exact holdsRow_congr (e := (List.range c.rectW.toNat).foldl (Engine.compositePixel p op k c rows j) e1)
      (by rw [Cache.slot_unlock]) (fun _ _ _ _ _ => rfl) (c1.rows hu q hq)

/-- The engine as the last destination row leaves it, before the teardown (R180). -/
def compositeRows (p : Config.Params) (op : Op) (k : KFields) (c : Conf) (m : Memory) (cache : Cache) : Engine :=
  (List.range c.rectH.toNat).foldl (Engine.compositeRow p op k c) { bus := .start m, cache := startCache k c cache }

theorem compositeRun_eq (p : Config.Params) (op : Op) (k : KFields) (c : Conf) (m : Memory) (cache : Cache) :
    compositeRun p op k c m cache = { compositeRows p op k c m cache with
      cache := endCache k c (compositeRows p op k c m cache).cache } := rfl

/-- All rows (R180): the picture is painted, and each valid slot gives back the row of its tag. -/
theorem compositeRows_agree {p : Config.Params} {op : Op} {k : KFields} {c : Conf} {m : Memory} (cache : Cache)
    (hs : RunSets p k c) (hm : m.wf) :
    Agree p k c m (compositeRows p op k c m cache) (paint (opResult p.satZeroHeadroom op) k c m) := by
  have h0 : Agree p k c m { bus := .start m, cache := startCache k c cache } m := by
    refine ⟨hm, hm, fun _ _ => rfl, fun _ _ => rfl, fun hu i hi => ?_⟩
    simp only [startCache, hu, if_true, Cache.slot_create] at hi
    cases hi
  have hl : cacheUsed k c = true → ∀ i, ((startCache k c cache).slot i).lock = false := fun hu i => by
    simp only [startCache, hu, if_true, Cache.slot_create]; rfl
  rw [paint_eq, Conf.pixels, foldl_rowMajor]
  exact (foldl_related
    (R := fun e m' => Agree p k c m e m' ∧ (cacheUsed k c = true → ∀ i, (e.cache.slot i).lock = false))
    (f := Engine.compositeRow p op k c)
    (g := fun m' j => (List.range c.rectW.toNat).foldl
      (fun m' i => paintPixel (opResult p.satZeroHeadroom op) k c m m' (i, j)) m')
    (l := List.range c.rectH.toNat) ⟨h0, hl⟩
    fun e m' h j hj => compositeRow_agree hs h.1 (List.mem_range.1 hj) h.2).1

/-- The pixel phase paints the picture, outside external scratch (R70, R185, R248). -/
theorem compositeRun_paints {p : Config.Params} {op : Op} {k : KFields} {c : Conf} {m : Memory} (cache : Cache)
    (hs : RunSets p k c) (hm : m.wf) :
    SameOutside (scratchAccesses p k c) (compositeRun p op k c m cache).bus.mem
      (paint (opResult p.satZeroHeadroom op) k c m) := (compositeRows_agree cache hs hm).same

/-! What the pixel phase keeps, whatever its sets are. -/

theorem storePixel_wf (f : Fmt) {b : Bus} (a : Word) (w : Wide) (h : b.mem.wf) : (storePixel f b a w).mem.wf := by
  cases f <;> first | exact h | exact Memory.wf_write h _ _ _

theorem decode_wf (p : Config.Params) (k : KFields) (c : Conf) {e : Engine} (i : SlotId) (y : Nat) (h : e.bus.mem.wf) :
    (e.decode p k c i y).bus.mem.wf := by
  simp only [Engine.decode]
  split
  · exact foldl_keeps (P := fun b : Bus => b.mem.wf) h fun b hb x _ => Memory.wf_write hb _ _ _
  · exact h

theorem acquire_wf (p : Config.Params) (k : KFields) (c : Conf) {e : Engine} (y : Nat) (pending : Option Nat)
    (h : e.bus.mem.wf) : (e.acquire p k c y pending).2.bus.mem.wf := by
  cases hhit : e.cache.hitSlot y with
  | some i => simpa only [Engine.acquire, hhit] using h
  | none => simpa only [Engine.acquire, hhit] using decode_wf p k c _ y h

theorem rowStart_wf (p : Config.Params) (k : KFields) (c : Conf) {e : Engine} (j : Nat) (h : e.bus.mem.wf) :
    (e.rowStart p k c j).2.bus.mem.wf := by
  have h1 : ∀ {e : Engine} (y pending : Option Nat), e.bus.mem.wf → (e.acquire? p k c y pending).2.bus.mem.wf := by
    intro e y pending h
    cases y with
    | none => exact h
    | some y => exact acquire_wf p k c y pending h
  exact h1 _ _ (h1 _ _ h)

theorem compositeRow_wf (p : Config.Params) (op : Op) (k : KFields) (c : Conf) {e : Engine} (j : Nat)
    (h : e.bus.mem.wf) : (Engine.compositeRow p op k c e j).bus.mem.wf := by
  have hpix : ∀ (rows : RowSlots) (e : Engine), e.bus.mem.wf →
      ((List.range c.rectW.toNat).foldl (Engine.compositePixel p op k c rows j) e).bus.mem.wf := fun rows e h =>
    foldl_keeps (P := fun e : Engine => e.bus.mem.wf) h fun e h i _ => storePixel_wf _ _ _ h
  simp only [Engine.compositeRow]
  split
  · exact hpix _ _ (rowStart_wf p k c j h)
  · exact hpix _ _ h

/-- The pixel phase keeps memory's canonical form. -/
theorem compositeRun_wf (p : Config.Params) (op : Op) (k : KFields) (c : Conf) {m : Memory} (cache : Cache)
    (h : m.wf) : (compositeRun p op k c m cache).bus.mem.wf :=
  foldl_keeps (P := fun e : Engine => e.bus.mem.wf) (f := Engine.compositeRow p op k c) h
    fun _ h j _ => compositeRow_wf p op k c j h

/-- Without the cache the pixel phase leaves the slots alone and both counters 0 (R249). -/
theorem compositeRun_cache_uncached {p : Config.Params} {op : Op} {k : KFields} {c : Conf} {m : Memory} {cache : Cache}
    (hu : cacheUsed k c = false) : (compositeRun p op k c m cache).cache = cache.clearCounters := by
  have key := foldl_keeps (P := fun e : Engine => e.cache = cache.clearCounters)
    (f := Engine.compositeRow p op k c) (l := List.range c.rectH.toNat)
    (b := { bus := .start m, cache := startCache k c cache }) (by simp only [startCache, hu, Bool.false_eq_true, if_false])
    fun e h j _ => by
      simp only [Engine.compositeRow, hu, Bool.false_eq_true, if_false]
      rw [compositePixels_cache]; exact h
  simp only [compositeRun, endCache, hu, Bool.false_eq_true, if_false]
  exact key

/-- After the pixel phase no cache instance is left, if none was there before (R247). -/
theorem compositeRun_slots (p : Config.Params) (op : Op) (k : KFields) (c : Conf) (m : Memory) {cache : Cache}
    (h : ∀ i, (cache.slot i).valid = false ∧ (cache.slot i).lock = false ∧ (cache.slot i).data = []) (i : SlotId) :
    ((compositeRun p op k c m cache).cache.slot i).valid = false ∧
      ((compositeRun p op k c m cache).cache.slot i).lock = false ∧
      ((compositeRun p op k c m cache).cache.slot i).data = [] := by
  cases hu : cacheUsed k c with
  | true =>
    simp only [compositeRun, endCache, hu, if_true, Cache.slot_teardown, and_self]
  | false =>
    rw [compositeRun_cache_uncached hu, Cache.slot_clearCounters]
    exact h i

/-- The picture changes bytes of the destination rectangle only (R68). -/
theorem paint_outside (r : Wide → Wide → Wide → Wide) (k : KFields) (c : Conf) {m : Memory} (hm : m.wf) :
    SameOutside (dstAccesses k c) (paint r k c m) m := fun a ha =>
  (foldl_keeps (P := fun m' : Memory => m'.wf ∧ Memory.readByte m' a.toNat = Memory.readByte m a.toNat)
    (f := paintPixel r k c m) (l := c.pixels) ⟨hm, rfl⟩ fun m' h q hq => by
      obtain ⟨hi, hj⟩ := mem_rowMajor.1 hq
      refine ⟨Memory.wf_write h.1 _ _ _, ?_⟩
      rw [← h.2]
      refine readByte_write_of_not_covers h.1
        (x := { addr := c.dst.rectAddr (bpb k.dfmt) q.1 q.2, size := bpb k.dfmt }) _ ?_
      by_contra hc
      exact ha (covers_dst hi hj (by simpa using hc))).2

/-! When the pixel phase runs. -/

/-- A COMPOSITE's sets together (R68). -/
theorem covers_compositeFootprint {op : Op} {k : KFields} {c : Conf} {a : Word} :
    Covers ((compositeFootprint Config.params op k c).reads ++ (compositeFootprint Config.params op k c).writes) a ↔
      Covers (compositeSets k c) a := by
  have h : Covers (if op = .src then [] else dstAccesses k c) a → Covers (dstAccesses k c) a := by
    split
    · rintro ⟨_, hx, _⟩; cases hx
    · exact id
  simp only [compositeFootprint, compositeSets, covers_append, or_assoc]
  exact or_congr_right (or_congr_right ⟨fun h' => h'.elim (fun h' => .inl (h h')) id, .inr⟩)

/-- What R69 forbids of a COMPOSITE, byte by byte. -/
theorem compositeAliased_iff {p : Config.Params} {k : KFields} {c : Conf} :
    compositeAliased p k c = true ↔
      (∃ a, Covers (srcReads k c ++ mskReads k c) a ∧ Covers (dstAccesses k c) a) ∨
        ∃ a, Covers (srcReads k c ++ mskReads k c ++ dstAccesses k c) a ∧ Covers (scratchAccesses p k c) a := by
  simp only [compositeAliased, Bool.or_eq_true, anyMeet_iff]

/-- The checks pass, over a rectangle that is not empty, exactly when the plan is to run. -/
theorem compositeChecked_iff (op : Op) (k : KFields) (s : State) :
    CompositeChecked op k s ↔
      compositePlan Config.params op k s.ctrl s.conf = .run (compositeFootprint Config.params op k s.conf) := by
  constructor
  · intro h
    have he : s.conf.emptyRect = false := by simpa [Conf.emptyRect] using h.nonempty
    have h7 : (needsScratch Config.params k s.conf && decide (s.conf.scrLen.toNat < 2 * rowBytes s.conf)) = false := by
      cases hn : needsScratch Config.params k s.conf with
      | false => rfl
      | true => simpa using (h.scratch hn).1
    have h8 : (needsScratch Config.params k s.conf && decide (s.conf.scrBase.toNat % 4 ≠ 0)) = false := by
      cases hn : needsScratch Config.params k s.conf with
      | false => rfl
      | true => simpa using (h.scratch hn).2
    simp only [compositePlan, h.locked, h.enabled, h.formats, he, h.aligned, h.inBounds, h7, h8, Bool.not_true,
      Bool.false_eq_true, if_false]
  · intro hp
    simp only [compositePlan] at hp
    split at hp <;> [cases hp; skip]
    split at hp <;> [cases hp; skip]
    split at hp <;> [cases hp; skip]
    split at hp <;> [cases hp; skip]
    split at hp <;> [cases hp; skip]
    split at hp <;> [cases hp; skip]
    split at hp <;> [cases hp; skip]
    split at hp <;> [cases hp; skip]
    next h1 h2 h3 h4 h5 h6 h7 h8 =>
      refine ⟨by simpa using h1, by simpa using h2, by simpa using h3, ?_, by simpa using h5, by simpa using h6, ?_⟩
      · simpa [Conf.emptyRect] using h4
      · intro hn
        simp only [hn, Bool.true_and, decide_eq_true_eq, ne_eq, not_not, not_lt] at h7 h8
        exact ⟨h7, h8⟩

/-- The conditions of `CompositeReady` are those under which the checks pass and no contract fault is met. -/
theorem compositeReady_iff (op : Op) (k : KFields) (s : State) :
    CompositeReady op k s ↔
      compositePlan Config.params op k s.ctrl s.conf = .run (compositeFootprint Config.params op k s.conf) ∧
        (compositeFootprint Config.params op k s.conf).contractFault s.platform = none := by
  rw [← compositeChecked_iff, contractFault_eq_none]
  simp only [covers_compositeFootprint]
  rw [show (compositeFootprint Config.params op k s.conf).aliased = compositeAliased Config.params k s.conf from rfl,
    ← Bool.not_eq_true, compositeAliased_iff]
  constructor
  · exact fun h => ⟨h.toCompositeChecked, h.ordinary, by
      rintro (⟨a, h1, h2⟩ | ⟨a, h1, h2⟩)
      · exact h.noAlias a h1 h2
      · exact h.noScratchAlias a h1 h2⟩
  · exact fun ⟨hc, ho, ha⟩ => ⟨hc, ho, fun a h1 h2 => ha (.inl ⟨a, h1, h2⟩), fun a h1 h2 => ha (.inr ⟨a, h1, h2⟩)⟩

/-- A ready COMPOSITE has the sets its pixel phase needs. -/
theorem CompositeReady.runSets {op : Op} {k : KFields} {s : State} (h : CompositeReady op k s) :
    RunSets Config.params k s.conf := by
  refine ⟨?_, fun hss => ?_, h.noAlias, h.noScratchAlias⟩
  · have := h.formats
    simp only [formatsLegal, Bool.and_eq_true] at this
    exact this.1.1
  · have := h.inBounds
    simp only [compositeInBounds, hss, Bool.false_or, Bool.and_eq_true, bne_iff_ne, ne_eq] at this
    obtain ⟨-, hw, hh⟩ := this
    constructor
    · exact Nat.pos_of_ne_zero fun h0 => hw (BitVec.eq_of_toNat_eq h0)
    · exact Nat.pos_of_ne_zero fun h0 => hh (BitVec.eq_of_toNat_eq h0)

/-- What a ready COMPOSITE does (R180). -/
theorem exec_composite_of_ready {op : Op} {k : KFields} {s : State} (h : CompositeReady op k s) :
    exec (.composite k op) s = .next (s.afterComposite Config.params op k).endSuccess := by
  obtain ⟨hp, hf⟩ := (compositeReady_iff op k s).1 h
  rw [exec_composite]
  simp only [compositeWith, hp, hf, conclude_ok]

/-! The values the operators see are bytes (R201, R202). -/

theorem lanesAreBytes_fetch (k : KFields) (c : Conf) (m : Memory) (x y : Int) : LanesAreBytes (fetch k c m x y) := by
  simp only [fetch]
  split
  · exact lanesAreBytes_srcPix _ _ _ _ _
  · exact lanesAreBytes_wide (a := 0) (b := 0) (c := 0) (d := 0) (by decide) (by decide) (by decide) (by decide)

theorem lanesAreBytes_directSource (k : KFields) (c : Conf) (m : Memory) (i j : Nat) :
    LanesAreBytes (directSource k c m i j) := by
  simp only [directSource]
  split
  · exact lanesAreBytes_unpack32 _
  · simp only [sampleDirect]
    split
    · exact lanesAreBytes_fetch _ _ _ _ _
    · exact lanesAreBytes_fetch _ _ _ _ _
    · exact lanesAreBytes_interpV (lanesAreBytes_fetch _ _ _ _ _) (lanesAreBytes_fetch _ _ _ _ _)
        (lanesAreBytes_fetch _ _ _ _ _) (lanesAreBytes_fetch _ _ _ _ _) (Nat.le_of_lt (weight_lt _))
        (Nat.le_of_lt (weight_lt _))

theorem lanesAreBytes_maskedSource {s : Wide} (mask : Option Wide) (h : LanesAreBytes s) :
    LanesAreBytes (maskedSource s mask) := by
  cases mask with
  | none => exact h
  | some m => exact lanesAreBytes_mul8V _ _

theorem lanesAreBytes_sourceAlpha {s : Wide} (mask : Option Wide) (h : LanesAreBytes s) :
    LanesAreBytes (sourceAlpha s mask) := by
  cases mask with
  | none => exact lanesAreBytes_bcast (h 3 (by decide))
  | some m => exact lanesAreBytes_mul8V _ _

theorem lanesAreBytes_dstValue (k : KFields) (c : Conf) (m : Memory) (i j : Nat) :
    LanesAreBytes (dstValue k c m i j) := lanesAreBytes_loadPixel _ _ _

/-- Operators that agree on bytes paint the same picture. -/
theorem paint_congr {r r' : Wide → Wide → Wide → Wide} (k : KFields) (c : Conf) (m : Memory)
    (h : ∀ s' a d, LanesAreBytes s' → LanesAreBytes a → LanesAreBytes d → r s' a d = r' s' a d) :
    paint r k c m = paint r' k c m := by
  have hp : ∀ m' q, paintPixel r k c m m' q = paintPixel r' k c m m' q := fun m' q => by
    simp only [paintPixel]
    rw [h _ _ _ (lanesAreBytes_maskedSource _ (lanesAreBytes_directSource _ _ _ _ _))
      (lanesAreBytes_sourceAlpha _ (lanesAreBytes_directSource _ _ _ _ _)) (lanesAreBytes_dstValue _ _ _ _ _)]
  rw [paint_eq, paint_eq, show paintPixel r k c m = paintPixel r' k c m from funext fun m' => funext fun q => hp m' q]

end Sys2Proof.Machine
end

