-- ==== Sys2Proof/Laws/PerInstr.lean ====
section
/-! SUPPORT. Statements about every instruction as syntax, one lemma per constructor. `OpcodeField`: the word of a
well-formed instruction is a 32-bit number whose top six bits are its class (`30_encoding.md` R90, R91). -/

namespace Sys2Proof.Laws.OpcodeField

/-- The major opcode of an instruction's class (R91). -/
def opcode : Instr → Nat
  | .nop => 0x00
  | .lmul _ _ _ => 0x01
  | .lmuladd _ _ _ _ _ => 0x02
  | .ladds _ _ _ => 0x03
  | .lneg _ _ => 0x04
  | .lbca _ _ => 0x05
  | .lbcl _ _ => 0x06
  | .lswaprb _ _ => 0x07
  | .lunpk32 _ _ _ => 0x08
  | .lpack32 _ _ => 0x09
  | .lunpk565 _ _ _ => 0x0A
  | .lpack565 _ _ _ _ => 0x0B
  | .linterp _ _ _ _ _ => 0x0C
  | .compositeSrc _ => 0x20
  | .compositeOver _ => 0x20
  | .compositeOverReverse _ => 0x20
  | .compositeIn _ => 0x20
  | .compositeInReverse _ => 0x20
  | .compositeOut _ => 0x20
  | .compositeOutReverse _ => 0x20
  | .compositeAtop _ => 0x20
  | .compositeAtopReverse _ => 0x20
  | .compositeXor _ => 0x20
  | .compositeAdd _ => 0x20
  | .compositeSaturate _ => 0x20
  | .fill _ => 0x21
  | .blit _ _ => 0x22

/-- The statement of the family. -/
def Statement (i : Instr) : Prop := i.wellFormed = true → encodeNat i < 2 ^ 32 ∧ encodeNat i / 2 ^ 26 = opcode i

theorem reg_lt (r : LReg) : r.toNat < 8 := by cases r <;> decide

theorem half_lt (h : WHalf) : h.code < 4 := by cases h <;> decide

theorem encodeL_field {opc rd ra rb rc re idx : Nat} (ho : opc < 64) (h1 : rd < 8) (h2 : ra < 8) (h3 : rb < 8)
    (h4 : rc < 8) (h5 : re < 8) (h6 : idx < 4) :
    encodeL opc rd ra rb rc re idx < 2 ^ 32 ∧ encodeL opc rd ra rb rc re idx / 2 ^ 26 = opc := by
  simp only [encodeL]; omega

theorem encodeK_field (op : Op) (k : KFields) : encodeK op k < 2 ^ 32 ∧ encodeK op k / 2 ^ 26 = 0x20 := by
  have h1 : op.code < 16 := by cases op <;> decide
  have h2 : k.mmode.code < 4 := by cases k.mmode <;> decide
  have h3 : k.sfmt.code < 8 := by cases k.sfmt <;> decide
  have h4 : k.mfmt.code < 8 := by cases k.mfmt <;> decide
  have h5 : k.dfmt.code < 8 := by cases k.dfmt <;> decide
  have h6 : k.sample.code < 4 := by cases k.sample <;> decide
  have h7 : k.edge.code < 2 := by cases k.edge <;> decide
  have h8 : k.ssolid.toNat < 2 := by cases k.ssolid <;> decide
  have h9 : k.msolid.toNat < 2 := by cases k.msolid <;> decide
  simp only [encodeK]; omega

theorem nop : Statement .nop := fun _ => by decide

theorem lmul (rd ra rb : LReg) : Statement (.lmul rd ra rb) := fun _ =>
  encodeL_field (by decide) (reg_lt rd) (reg_lt ra) (reg_lt rb) (by decide) (by decide) (by decide)

theorem lmuladd (rd ra rb rc re : LReg) : Statement (.lmuladd rd ra rb rc re) := fun _ =>
  encodeL_field (by decide) (reg_lt rd) (reg_lt ra) (reg_lt rb) (reg_lt rc) (reg_lt re) (by decide)

theorem ladds (rd ra rb : LReg) : Statement (.ladds rd ra rb) := fun _ =>
  encodeL_field (by decide) (reg_lt rd) (reg_lt ra) (reg_lt rb) (by decide) (by decide) (by decide)

theorem lneg (rd ra : LReg) : Statement (.lneg rd ra) := fun _ =>
  encodeL_field (by decide) (reg_lt rd) (reg_lt ra) (by decide) (by decide) (by decide) (by decide)

theorem lbca (rd ra : LReg) : Statement (.lbca rd ra) := fun _ =>
  encodeL_field (by decide) (reg_lt rd) (reg_lt ra) (by decide) (by decide) (by decide) (by decide)

theorem lbcl (rd ra : LReg) : Statement (.lbcl rd ra) := fun _ =>
  encodeL_field (by decide) (reg_lt rd) (reg_lt ra) (by decide) (by decide) (by decide) (by decide)

theorem lswaprb (rd ra : LReg) : Statement (.lswaprb rd ra) := fun _ =>
  encodeL_field (by decide) (reg_lt rd) (reg_lt ra) (by decide) (by decide) (by decide) (by decide)

theorem lunpk32 (rd ra : LReg) (half : WHalf) : Statement (.lunpk32 rd ra half) := fun _ =>
  encodeL_field (by decide) (reg_lt rd) (reg_lt ra) (by decide) (by decide) (by decide) (half_lt half)

theorem lpack32 (rd ra : LReg) : Statement (.lpack32 rd ra) := fun _ =>
  encodeL_field (by decide) (reg_lt rd) (reg_lt ra) (by decide) (by decide) (by decide) (by decide)

theorem lunpk565 (rd ra : LReg) (idx : Nat) : Statement (.lunpk565 rd ra idx) := fun h =>
  encodeL_field (by decide) (reg_lt rd) (reg_lt ra) (by decide) (by decide) (by decide) (by simpa [Instr.wellFormed] using h)

theorem lpack565 (rd ra rb : LReg) (idx : Nat) : Statement (.lpack565 rd ra rb idx) := fun h =>
  encodeL_field (by decide) (reg_lt rd) (reg_lt ra) (reg_lt rb) (by decide) (by decide) (by simpa [Instr.wellFormed] using h)

theorem linterp (rd ra rb : LReg) (distx disty : Nat) : Statement (.linterp rd ra rb distx disty) := fun h => by
  simp only [Instr.wellFormed, Bool.and_eq_true, decide_eq_true_eq] at h
  have h1 := reg_lt rd
  have h2 := reg_lt ra
  have h3 := reg_lt rb
  simp only [encodeNat, opcode]; omega

theorem compositeSrc (k : KFields) : Statement (.compositeSrc k) := fun _ => encodeK_field _ k

theorem compositeOver (k : KFields) : Statement (.compositeOver k) := fun _ => encodeK_field _ k

theorem compositeOverReverse (k : KFields) : Statement (.compositeOverReverse k) := fun _ => encodeK_field _ k

theorem compositeIn (k : KFields) : Statement (.compositeIn k) := fun _ => encodeK_field _ k

theorem compositeInReverse (k : KFields) : Statement (.compositeInReverse k) := fun _ => encodeK_field _ k

theorem compositeOut (k : KFields) : Statement (.compositeOut k) := fun _ => encodeK_field _ k

theorem compositeOutReverse (k : KFields) : Statement (.compositeOutReverse k) := fun _ => encodeK_field _ k

theorem compositeAtop (k : KFields) : Statement (.compositeAtop k) := fun _ => encodeK_field _ k

theorem compositeAtopReverse (k : KFields) : Statement (.compositeAtopReverse k) := fun _ => encodeK_field _ k

theorem compositeXor (k : KFields) : Statement (.compositeXor k) := fun _ => encodeK_field _ k

theorem compositeAdd (k : KFields) : Statement (.compositeAdd k) := fun _ => encodeK_field _ k

theorem compositeSaturate (k : KFields) : Statement (.compositeSaturate k) := fun _ => encodeK_field _ k

theorem fill (bpp : Nat) : Statement (.fill bpp) := fun h => by
  simp only [Instr.wellFormed, decide_eq_true_eq] at h
  simp only [encodeNat, opcode]; omega

theorem blit (sbpp dbpp : Nat) : Statement (.blit sbpp dbpp) := fun h => by
  simp only [Instr.wellFormed, Bool.and_eq_true, decide_eq_true_eq] at h
  simp only [encodeNat, opcode]; omega

end Sys2Proof.Laws.OpcodeField
end

