-- ==== Sys2Proof/Laws/Trace.lean ====
section
/-! SUPPORT. The scanline cache's bits and counters over a whole COMPOSITE are those of `rowTrace`, and every write of a
COMPOSITE is a write to its write set (`20_memory.md` R68). -/

namespace Sys2Proof.Machine

/-! The cache without its decoded pixels. -/

/-- The cache with its slots' data left out. -/
def Cache.bare (c : Cache) : Cache :=
  { c with slot0 := { c.slot0 with data := [] }, slot1 := { c.slot1 with data := [] } }

@[simp] theorem Cache.bare_slot (c : Cache) (q : SlotId) : c.bare.slot q = { c.slot q with data := [] } := by
  cases q <;> rfl
@[simp] theorem Cache.bare_decodes (c : Cache) : c.bare.decodes = c.decodes := rfl
@[simp] theorem Cache.bare_hits (c : Cache) : c.bare.hits = c.hits := rfl
@[simp] theorem Cache.hitSlot_bare (c : Cache) (y : Nat) : c.bare.hitSlot y = c.hitSlot y := rfl
@[simp] theorem Cache.onHit_bare (c : Cache) (i : SlotId) : c.bare.onHit i = (c.onHit i).bare := by cases i <;> rfl
@[simp] theorem Cache.onDecode_bare (c : Cache) (i : SlotId) (y : Nat) :
    c.bare.onDecode i y = (c.onDecode i y).bare := by cases i <;> rfl
@[simp] theorem Cache.unlock_bare (c : Cache) : c.bare.unlock = c.unlock.bare := rfl
theorem Cache.teardown_bare (c : Cache) : c.bare.teardown = c.teardown := rfl

/-- The victim depends on the slots' bits and tags only (R244). -/
@[simp] theorem Cache.victim_bare (c : Cache) (pending : Option Nat) : c.bare.victim pending = c.victim pending := by
  simp only [Cache.victim, Cache.bare_slot]

/-- A decode writes pixels and no bit of the cache (R245). -/
theorem decode_bare (p : Config.Params) (k : KFields) (c : Conf) (e : Engine) (i : SlotId) (y : Nat) :
    (e.decode p k c i y).cache.bare = e.cache.bare := by
  simp only [Engine.decode]
  split
  · rfl
  · cases i <;> rfl

/-! A running COMPOSITE and its trace. -/

/-- The scratch rows of a trace's decodes. -/
def RowTrace.rows (p : Config.Params) (c : Conf) (t : RowTrace) : List Access :=
  if externalScratch p c then t.decoded.map fun q => slotRow c q.1 else []

theorem scratchWrites_of_used {p : Config.Params} {k : KFields} {c : Conf} (hu : cacheUsed k c = true) :
    scratchWrites p k c = (rowTrace k c).rows p c := by simp [scratchWrites, RowTrace.rows, hu]

theorem scratchWrites_of_unused {p : Config.Params} {k : KFields} {c : Conf} (hu : cacheUsed k c = false) :
    scratchWrites p k c = [] := by simp [scratchWrites, hu]

/-- The log tells the whole of a bus's memory, and every write in it is to a byte of the list's. -/
structure Logged (m0 : Memory) (l : List Access) (b : Bus) : Prop where
  replay : b.mem = b.log.foldr (fun st m => m.apply st) m0
  inside : ∀ st ∈ b.log, ∀ a, Access.covers { addr := st.addr, size := st.size } a = true → Covers l a

theorem Logged.start (m : Memory) (l : List Access) : Logged m l (.start m) := ⟨rfl, fun _ h => by cases h⟩

theorem Logged.mono {m0 : Memory} {l l' : List Access} {b : Bus} (h : Logged m0 l b)
    (hl : ∀ a, Covers l a → Covers l' a) : Logged m0 l' b := ⟨h.replay, fun st hst a ha => hl a (h.inside st hst a ha)⟩

theorem Logged.store {m0 : Memory} {l : List Access} {b : Bus} (h : Logged m0 l b) {addr : Word} {n : Nat} (v : Nat)
    (hl : ∀ a, Access.covers { addr := addr, size := n } a = true → Covers l a) : Logged m0 l (b.store addr n v) := by
  refine ⟨?_, fun st hst => ?_⟩
  · simp only [Bus.store, List.foldr_cons, ← h.replay]
  · simp only [Bus.store_log, List.mem_cons] at hst
    rcases hst with rfl | hst
    · exact hl
    · exact h.inside st hst

/-- Logged memory is as it was outside the list. -/
theorem Logged.same {m0 : Memory} {l : List Access} {b : Bus} (hm : m0.wf) (h : Logged m0 l b) :
    SameOutside l b.mem m0 := by
  have key : ∀ log : List StoreOp, (∀ st ∈ log, ∀ a, Access.covers { addr := st.addr, size := st.size } a = true →
      Covers l a) → (log.foldr (fun st m => m.apply st) m0).wf ∧
        SameOutside l (log.foldr (fun st m => m.apply st) m0) m0 := by
    intro log
    induction log with
    | nil => exact fun _ => ⟨hm, fun _ _ => rfl⟩
    | cons st log ih =>
      intro h
      obtain ⟨h1, h2⟩ := ih fun st hst => h st (by simp [hst])
      refine ⟨Memory.wf_write h1 _ _ _, fun a ha => ?_⟩
      rw [← h2 a ha]
      refine readByte_write_of_not_covers h1 (x := { addr := st.addr, size := st.size }) _ ?_
      by_contra hc
      exact ha (h st (by simp) a (by simpa using hc))
  rw [h.replay]
  exact (key b.log h.inside).2

/-- How a running COMPOSITE with a cache stands to the trace. -/
structure Traced (p : Config.Params) (k : KFields) (c : Conf) (m0 : Memory) (e : Engine) (t : RowTrace) : Prop where
  cache : e.cache.bare = t.cache
  logged : Logged m0 (dstAccesses k c ++ t.rows p c) e.bus

/-- The words of a decoded row lie in the slot's row. -/
theorem covers_slotRow (c : Conf) (i : SlotId) {x : Nat} (hx : x < c.src.width.toNat) {a : Word}
    (h : Access.covers { addr := scratchAddr c i x, size := 4 } a = true) : (slotRow c i).covers a = true := by
  have hrow := rowBytes_le c
  rw [covers_scratchAddr c i hx] at h
  simp only [slotRow, scratchAddr, Nat.mul_zero, Nat.add_zero]
  have hi : i.toNat * rowBytes c ≤ rowBytes c := Nat.le_trans (Nat.mul_le_mul_right _ (slotId_toNat_le i)) (by omega)
  rw [covers_offset c.scrBase a _ _ (by omega)]
  have h4 : 4 * x + 4 ≤ rowBytes c := by simp only [rowBytes]; omega
  omega

/-- A decode's writes are to the slot's row, if it is in scratch, and there are none otherwise. -/
theorem decode_logged {p : Config.Params} {k : KFields} {c : Conf} {m0 : Memory} {e : Engine} {l : List Access}
    (i : SlotId) (y : Nat) (h : Logged m0 l e.bus)
    (hl : externalScratch p c = true → ∀ a, (slotRow c i).covers a = true → Covers l a) :
    Logged m0 l (e.decode p k c i y).bus := by
  simp only [Engine.decode]
  split
  · next hext =>
    exact foldl_keeps (P := Logged m0 l) h fun b hb x hx =>
      hb.store _ fun a ha => hl hext a (covers_slotRow c i (List.mem_range.1 hx) ha)
  · exact h

/-- A request keeps to the trace (R243). -/
theorem acquire?_traced {p : Config.Params} {k : KFields} {c : Conf} {m0 : Memory} {e : Engine} {t : RowTrace}
    (h : Traced p k c m0 e t) (y pending : Option Nat) :
    Traced p k c m0 (e.acquire? p k c y pending).2 (t.request y pending) := by
  cases y with
  | none => exact h
  | some y =>
    cases hhit : e.cache.hitSlot y with
    | some i =>
      have ht : t.cache.hitSlot y = some i := by rw [← h.cache, Cache.hitSlot_bare, hhit]
      simp only [Engine.acquire?, Engine.acquire, hhit, RowTrace.request, ht]
      exact ⟨by rw [← h.cache, Cache.onHit_bare], h.logged⟩
    | none =>
      have ht : t.cache.hitSlot y = none := by rw [← h.cache, Cache.hitSlot_bare, hhit]
      have hv : t.cache.victim pending = e.cache.victim pending := by rw [← h.cache, Cache.victim_bare]
      simp only [Engine.acquire?, Engine.acquire, hhit, RowTrace.request, ht, hv]
      refine ⟨by rw [← Cache.onDecode_bare, decode_bare, h.cache], decode_logged _ y (h.logged.mono fun a ha => ?_)
        fun hext a ha => ?_⟩
      · rcases covers_append.1 ha with ha | ha
        · exact covers_append.2 (.inl ha)
        · refine covers_append.2 (.inr ?_)
          obtain ⟨x, hx, hxa⟩ := ha
          refine ⟨x, ?_, hxa⟩
          simp only [RowTrace.rows] at hx ⊢
          split at hx
          · next hext => simpa only [hext, if_true, List.map_append, List.mem_append] using Or.inl hx
          · cases hx
      · exact covers_append.2 (.inr ⟨slotRow c (e.cache.victim pending), by simp [RowTrace.rows, hext], ha⟩)

/-- Pixels are written to the destination rectangle (R185). -/
theorem compositePixels_logged {p : Config.Params} {op : Op} {k : KFields} {c : Conf} {m0 : Memory} {e : Engine}
    {l : List Access} {rows : RowSlots} {j : Nat} (hj : j < c.rectH.toNat)
    (h : Logged m0 (dstAccesses k c ++ l) e.bus) :
    Logged m0 (dstAccesses k c ++ l)
      ((List.range c.rectW.toNat).foldl (Engine.compositePixel p op k c rows j) e).bus :=
  foldl_keeps (P := fun e : Engine => Logged m0 (dstAccesses k c ++ l) e.bus) h fun e h i hi => by
    have hin : ∀ a, Access.covers { addr := c.dst.rectAddr (bpb k.dfmt) i j, size := bpb k.dfmt } a = true →
        Covers (dstAccesses k c ++ l) a := fun a ha =>
      covers_append.2 (.inl (covers_dst (List.mem_range.1 hi) hj ha))
    simp only [Engine.compositePixel, storePixel]
    cases hd : k.dfmt <;> rw [hd] at hin
    · exact h.store _ hin
    · exact h.store _ hin
    · exact h
    · exact h

/-- A destination row keeps to the trace (R246). -/
theorem compositeRow_traced {p : Config.Params} {op : Op} {k : KFields} {c : Conf} {m0 : Memory} {e : Engine}
    {t : RowTrace} {j : Nat} (hu : cacheUsed k c = true) (hj : j < c.rectH.toNat) (h : Traced p k c m0 e t) :
    Traced p k c m0 (Engine.compositeRow p op k c e j) (t.row k c j) := by
  have h2 := acquire?_traced (acquire?_traced h (rowPair k c j).1 (rowPair k c j).2) (rowPair k c j).2 none
  simp only [Engine.compositeRow, hu, if_true]
  exact ⟨by
    rw [← Cache.unlock_bare, compositePixels_cache]
    exact congrArg Cache.unlock h2.cache, compositePixels_logged hj h2.logged⟩

/-- All rows of a COMPOSITE with a cache keep to the trace. -/
theorem compositeRows_traced {p : Config.Params} {op : Op} {k : KFields} {c : Conf} {m : Memory} {cache : Cache}
    (hu : cacheUsed k c = true) : Traced p k c m (compositeRows p op k c m cache) (rowTrace k c) :=
  foldl_related (R := Traced p k c m) (f := Engine.compositeRow p op k c) (g := RowTrace.row k c)
    ⟨by simp only [startCache, hu, if_true]; rfl, .start _ _⟩
    fun _ _ h _ hj => compositeRow_traced hu (List.mem_range.1 hj) h

/-- A COMPOSITE with a cache leaves the cache that the trace leaves, torn down (R241 to R247). -/
theorem compositeRun_cache {p : Config.Params} {op : Op} {k : KFields} {c : Conf} {m : Memory} {cache : Cache}
    (hu : cacheUsed k c = true) : (compositeRun p op k c m cache).cache = (rowTrace k c).cache.teardown := by
  rw [compositeRun_eq, ← (compositeRows_traced (p := p) (op := op) (m := m) (cache := cache) hu).cache,
    Cache.teardown_bare]
  simp only [endCache, hu, if_true]

/-- Every write of the pixel phase is to the write set (R68), and its log tells the whole of memory. -/
theorem compositeRun_logged (p : Config.Params) (op : Op) (k : KFields) (c : Conf) (m : Memory) (cache : Cache) :
    Logged m (dstAccesses k c ++ scratchWrites p k c) (compositeRun p op k c m cache).bus := by
  cases hu : cacheUsed k c with
  | true =>
    rw [scratchWrites_of_used hu]
    exact (compositeRows_traced hu).logged
  | false =>
    rw [scratchWrites_of_unused hu]
    refine foldl_keeps (P := fun e : Engine => Logged m (dstAccesses k c ++ []) e.bus)
      (f := Engine.compositeRow p op k c) (.start _ _) fun e h j hj => ?_
    simp only [Engine.compositeRow, hu, Bool.false_eq_true, if_false]
    exact compositePixels_logged (List.mem_range.1 hj) h

/-- The scratch rows written lie in the scratch region. -/
theorem covers_scratchWrites {p : Config.Params} {k : KFields} {c : Conf} {a : Word}
    (h : Covers (scratchWrites p k c) a) : Covers (scratchAccesses p k c) a := by
  obtain ⟨x, hx, hxa⟩ := h
  simp only [scratchWrites] at hx
  split at hx
  · next hc =>
    obtain ⟨q, -, rfl⟩ := List.mem_map.1 hx
    refine ⟨{ addr := c.scrBase, size := 2 * rowBytes c }, by simp only [scratchAccesses, hc, if_true, List.mem_singleton], ?_⟩
    have hrow := rowBytes_le c
    have hi : q.1.toNat * rowBytes c ≤ rowBytes c :=
      Nat.le_trans (Nat.mul_le_mul_right _ (slotId_toNat_le q.1)) (by omega)
    simp only [slotRow, scratchAddr, Nat.mul_zero, Nat.add_zero] at hxa
    rw [covers_offset c.scrBase a _ _ (by omega)] at hxa
    simp only [Access.covers, decide_eq_true_eq]
    omega
  · cases hx

/-- The pixel phase paints the picture, outside the scratch rows that are decoded into (R70, R185, R248). -/
theorem compositeRun_paints_exact {p : Config.Params} {op : Op} {k : KFields} {c : Conf} {m : Memory} (cache : Cache)
    (hs : RunSets p k c) (hm : m.wf) :
    SameOutside (scratchWrites p k c) (compositeRun p op k c m cache).bus.mem
      (paint (opResult p.satZeroHeadroom op) k c m) := fun a ha => by
  by_cases hscr : Covers (scratchAccesses p k c) a
  · have hdst : ¬ Covers (dstAccesses k c) a := fun hd => hs.noScratchAlias a (covers_append.2 (.inr hd)) hscr
    rw [(compositeRun_logged p op k c m cache).same hm a fun h => (covers_append.1 h).elim hdst ha,
      paint_outside _ k c hm a hdst]
  · exact compositeRun_paints cache hs hm a hscr

end Sys2Proof.Machine
end

