-- ==== Sys2Proof/Laws/Runs.lean ====
section
/-! SUPPORT. What FILL and BLIT write, what a reset performs of a command's writes, the CSR map, and what the commands of
other instances do to the block. -/

namespace Sys2Proof.Machine

/-! FILL and BLIT. -/

/-- Stores at the pixels of a rectangle keep the canonical form and change the rectangle's bytes only. -/
theorem storesAt_spec {c : Conf} {p : BufDesc} {n : Nat} (v : Memory → Nat × Nat → Nat) {m : Memory} (hm : m.wf) :
    let b := c.pixels.foldl (fun b q => b.store (p.rectAddr n q.1 q.2) n (v b.mem q)) (Bus.start m)
    b.mem.wf ∧ SameOutside (c.rectAccesses p n) b.mem m := by
  refine foldl_keeps (P := fun b : Bus => b.mem.wf ∧ SameOutside (c.rectAccesses p n) b.mem m) ⟨hm, fun _ _ => rfl⟩
    fun b h q hq => ⟨Memory.wf_write h.1 _ _ _, fun a ha => ?_⟩
  obtain ⟨hi, hj⟩ := mem_rowMajor.1 hq
  rw [← h.2 a ha]
  refine readByte_write_of_not_covers h.1 (x := { addr := p.rectAddr n q.1 q.2, size := n }) _ ?_
  by_contra hc
  exact ha ⟨_, mem_rectAccesses hi hj, by simpa using hc⟩

theorem fillRun_spec (bpp : Nat) (c : Conf) {m : Memory} (hm : m.wf) :
    (fillRun bpp c m).mem.wf ∧ SameOutside (c.rectAccesses c.dst (bpp / 8)) (fillRun bpp c m).mem m :=
  storesAt_spec (fun _ _ => fillStored bpp c) hm

theorem blitRun_spec (n : Nat) (c : Conf) {m : Memory} (hm : m.wf) :
    (blitRun n c m).mem.wf ∧ SameOutside (c.rectAccesses c.dst n) (blitRun n c m).mem m :=
  storesAt_spec (fun m q => m.read (c.src.rectAddr n q.1 q.2) n) hm

/-- Stores at the pixels of a rectangle are logged, and are to the rectangle's bytes. -/
theorem storesAt_logged {c : Conf} {p : BufDesc} {n : Nat} (v : Memory → Nat × Nat → Nat) (m : Memory) :
    Logged m (c.rectAccesses p n)
      (c.pixels.foldl (fun b q => b.store (p.rectAddr n q.1 q.2) n (v b.mem q)) (Bus.start m)) :=
  foldl_keeps (P := Logged m (c.rectAccesses p n)) (.start _ _) fun b h q hq => by
    obtain ⟨hi, hj⟩ := mem_rowMajor.1 hq
    exact h.store _ fun a ha => ⟨_, mem_rectAccesses hi hj, ha⟩

theorem fillRun_logged (bpp : Nat) (c : Conf) (m : Memory) :
    Logged m (c.rectAccesses c.dst (bpp / 8)) (fillRun bpp c m) := storesAt_logged (fun _ _ => fillStored bpp c) m

theorem blitRun_logged (n : Nat) (c : Conf) (m : Memory) : Logged m (c.rectAccesses c.dst n) (blitRun n c m) :=
  storesAt_logged (fun m q => m.read (c.src.rectAddr n q.1 q.2) n) m

/-! Reset over a running command. -/

/-- What a reset leaves of a command's writes is some of them, in their order (R331). -/
theorem performed_sublist (draw n : Nat) (l : List StoreOp) (m : Memory) :
    ∃ l' : List StoreOp, l'.Sublist l ∧ performed draw n l m = l'.foldl Memory.apply m := by
  induction l generalizing n m with
  | nil => exact ⟨[], .refl _, rfl⟩
  | cons st l ih =>
    simp only [performed]
    split
    · obtain ⟨l', h, he⟩ := ih (n + 1) (m.apply st)
      exact ⟨st :: l', h.cons_cons st, he⟩
    · obtain ⟨l', h, he⟩ := ih (n + 1) m
      exact ⟨l', h.cons st, he⟩

theorem performed_wf (draw n : Nat) (l : List StoreOp) {m : Memory} (hm : m.wf) : (performed draw n l m).wf := by
  induction l generalizing n m with
  | nil => exact hm
  | cons st l ih =>
    simp only [performed]
    refine ih (n + 1) ?_
    split
    · exact Memory.wf_write hm _ _ _
    · exact hm

/-! The CSR map. -/

/-- Every CSR stands in the list, so no offset is missed (R24). -/
theorem mem_allCsrs (r : Csr) : r ∈ allCsrs := by
  cases r with
  | buf b r => cases b <;> cases r <;> decide
  | xform r => cases r <;> decide
  | slotState i => cases i <;> decide
  | slotTag i => cases i <;> decide
  | laneHalf r h => cases r <;> cases h <;> decide
  | id | ctrl | status | cmd | kenU | kenCa | rectW | rectH | solidSrc | solidMsk | fillValue | scrBase | scrLen
  | cacheDecodes | cacheHits => decide

/-- A register's offset names it, is a multiple of 4 and lies below 0x140 (R24). -/
theorem at?_offset (r : Csr) : Csr.at? r.offset = some r ∧ r.offset % 4 = 0 ∧ r.offset < 0x140 := by
  have key : ∀ r ∈ allCsrs, Csr.at? r.offset = some r ∧ r.offset % 4 = 0 ∧ r.offset < 0x140 := by decide
  exact key r (mem_allCsrs r)

theorem toNat_offset (r : Csr) : (BitVec.ofNat 12 r.offset).toNat = r.offset := by
  have := (at?_offset r).2.2
  simp only [BitVec.toNat_ofNat]
  omega

theorem csrAccessOk_offset (r : Csr) : csrAccessOk (BitVec.ofNat 12 r.offset) 4 = true := by
  simp only [csrAccessOk, toNat_offset, (at?_offset r).2.1, decide_true, beq_self_eq_true, Bool.and_self]

/-- A host write to a register (R298, R28). -/
theorem csrWrite_offset (r : Csr) (v : Word) (s : State) : csrWrite (BitVec.ofNat 12 r.offset) 4 v s =
    if s.status.busy then .next (s.writeCsrBusy r v) else (s.writeCsr r v).afterWrite := by
  simp only [csrWrite, csrAccessOk_offset, toNat_offset, (at?_offset r).1, Bool.not_true, Bool.false_eq_true, if_false]

/-- A host read of a register (R24, R299). -/
theorem csrRead_offset (r : Csr) (s : State) : csrRead (BitVec.ofNat 12 r.offset) 4 s = s.readCsr r := by
  simp only [csrRead, csrAccessOk_offset, toNat_offset, (at?_offset r).1, Bool.not_true, Bool.false_eq_true, if_false]

/-- Of all registers, CMD alone makes an idle block busy (R28, R308). -/
theorem writeCsr_busy {r : Csr} (h : r ≠ .cmd) (s : State) (v : Word) :
    (s.writeCsr r v).status.busy = s.status.busy := by
  cases r with
  | cmd => exact absurd rfl h
  | kenU => simp only [State.writeCsr]; split <;> rfl
  | kenCa => simp only [State.writeCsr]; split <;> rfl
  | id | ctrl | status | buf | rectW | rectH | solidSrc | solidMsk | fillValue | xform | scrBase | scrLen | cacheDecodes
  | cacheHits | slotState | slotTag | laneHalf => rfl

/-! The running command's sets, and those of the other instances. -/

@[simp] theorem runningFootprint_of_idle {s : State} (h : s.status.busy = false) : s.runningFootprint = .empty := by
  simp [State.runningFootprint, h]

theorem runningFootprint_of_busy {s : State} {i : Instr} (h : s.status.busy = true) (hd : decodeWord s.cmd = .ok i) :
    s.runningFootprint = (instrPlan s i).footprint := by
  simp [State.runningFootprint, h, hd]

/-- `clashes` says exactly that two commands do not keep apart (R306). -/
theorem clashes_eq_false {f g : Footprint} : f.clashes g = false ↔ Apart f g := by
  rw [Footprint.clashes, Bool.or_eq_false_iff, anyMeet_eq_false, anyMeet_eq_false]
  exact ⟨fun h a => ⟨h.1 a, h.2 a⟩, fun h => ⟨fun a => (h a).1, fun a => (h a).2⟩⟩

theorem Apart.symm {f g : Footprint} (h : Apart f g) : Apart g f := fun a => by
  obtain ⟨h1, h2⟩ := h a
  simp only [covers_append] at h1 ⊢
  tauto

theorem apart_empty (g : Footprint) : Apart .empty g := by
  intro a
  constructor <;> (rintro ⟨⟨x, hx, -⟩, -⟩; cases hx)

theorem clashesWithPeer_eq_false {s : State} :
    s.clashesWithPeer = false ↔ ∀ q ∈ s.peers, Apart s.runningFootprint q.sets := by
  simp [State.clashesWithPeer, clashes_eq_false]

/-- An idle block clashes with no other instance. -/
theorem clashesWithPeer_of_idle {s : State} (h : s.status.busy = false) : s.clashesWithPeer = false := by
  rw [clashesWithPeer_eq_false, runningFootprint_of_idle h]
  exact fun q _ => apart_empty q.sets

/-- A write that leaves the block idle is no start of a command. -/
@[simp] theorem afterWrite_of_idle {s : State} (h : s.status.busy = false) : s.afterWrite = .next s := by
  simp [State.afterWrite, clashesWithPeer_of_idle h]

/-- The plan depends on CTRL and the configuration only. -/
theorem instrPlan_congr {s t : State} (hc : t.conf = s.conf) (hk : t.ctrl = s.ctrl) (i : Instr) :
    instrPlan t i = instrPlan s i := by
  cases i <;> simp only [instrPlan, hc, hk]

/-- A command is issued exactly when its sets keep apart from those of the commands other instances run (R28, R306). -/
theorem accept_afterWrite (s : State) (w : Word) :
    (s.ApartFromPeers w ∧ (s.accept w).afterWrite = .next (s.accept w)) ∨
      (¬ s.ApartFromPeers w ∧ (s.accept w).afterWrite = .fault .aliasing) := by
  have key : (s.accept w).clashesWithPeer = false ↔ s.ApartFromPeers w := by
    rw [clashesWithPeer_eq_false]
    cases hd : decodeWord w with
    | error e =>
      have hf : (s.accept w).runningFootprint = .empty := by simp [State.runningFootprint, hd]
      rw [hf]
      constructor
      · intro _ i hi
        rw [hd] at hi
        cases hi
      · exact fun _ q _ => apart_empty q.sets
    | ok i =>
      have hf : (s.accept w).runningFootprint = (instrPlan s i).footprint := by
        simp [State.runningFootprint, hd, instrPlan_congr (s := s) (t := s.accept w) rfl rfl]
      rw [hf]
      exact ⟨fun h i' hi' => by rw [hd] at hi'; cases hi'; exact h, fun h => h i hd⟩
  cases hc : (s.accept w).clashesWithPeer with
  | false => exact .inl ⟨key.1 hc, by simp [State.afterWrite, hc]⟩
  | true => exact .inr ⟨fun h => by simp [key.2 h] at hc, by simp [State.afterWrite, hc]⟩

/-- An access whose bytes are all in a list is covered by it. -/
theorem coveredBy_of_covers {l : List Access} {x : Access} (h : ∀ a, Covers [x] a → Covers l a) :
    coveredBy l x = true := by
  simp only [coveredBy, List.all_eq_true, List.mem_range, List.any_eq_true]
  intro d hd
  refine h _ ⟨x, by simp, ?_⟩
  have he : x.addr + BitVec.ofNat 32 d - x.addr = BitVec.ofNat 32 d := by bv_omega
  simp only [Access.covers, he, decide_eq_true_eq, BitVec.toNat_ofNat]
  exact Nat.lt_of_le_of_lt (Nat.mod_le _ _) hd

/-- What another instance's start of a command can answer (R306). -/
theorem peerStart_cases (peer : Nat) (sets : Footprint) (s : State) :
    (¬ (peer < Config.params.otherInstances ∧ s.peerRun peer = none) ∧ peerStart peer sets s = .next s) ∨
    ((peer < Config.params.otherInstances ∧ s.peerRun peer = none) ∧
      ((∃ f, sets.contractFault s.platform = some f ∧ peerStart peer sets s = .fault f) ∨
        (sets.contractFault s.platform = none ∧
          ((¬ (Apart s.runningFootprint sets ∧ ∀ q ∈ s.peers, Apart sets q.sets) ∧
              peerStart peer sets s = .fault .aliasing) ∨
            (Apart s.runningFootprint sets ∧ (∀ q ∈ s.peers, Apart sets q.sets) ∧
              peerStart peer sets s = .next (s.withPeers ({ peer, sets } :: s.peers))))))) := by
  by_cases hp : peer < Config.params.otherInstances ∧ s.peerRun peer = none
  · refine .inr ⟨hp, ?_⟩
    cases hf : sets.contractFault s.platform with
    | some f => exact .inl ⟨f, rfl, by simp [peerStart, hp, hf]⟩
    | none =>
      refine .inr ⟨rfl, ?_⟩
      cases hc : (s.runningFootprint.clashes sets || s.peers.any (fun q => sets.clashes q.sets)) with
      | true =>
        refine .inl ⟨fun h => ?_, by simp only [peerStart, hp, hf, hc, and_self, if_true]⟩
        simp only [Bool.or_eq_true, List.any_eq_true] at hc
        rcases hc with hc | ⟨q, hq, hc⟩
        · rw [clashes_eq_false.2 h.1] at hc; cases hc
        · rw [clashes_eq_false.2 (h.2 q hq)] at hc; cases hc
      | false =>
        simp only [Bool.or_eq_false_iff, List.any_eq_false, Bool.not_eq_true, clashes_eq_false] at hc
        refine .inr ⟨hc.1, hc.2, ?_⟩
        have h1 := clashes_eq_false.2 hc.1
        have h2 : s.peers.any (fun q => sets.clashes q.sets) = false := by
          simpa only [List.any_eq_false, Bool.not_eq_true, clashes_eq_false] using hc.2
        simp only [peerStart, hp, hf, h1, h2, and_self, if_true, Bool.or_self, Bool.false_eq_true, if_false]
  · exact .inl ⟨hp, by simp only [peerStart, hp, if_false]⟩

/-- What a memory access of another instance can answer (R306). -/
theorem peerAccess_cases (peer : Nat) (x : Access) (isWrite : Bool) (s go : State) :
    peerAccess peer x isWrite s go = .fault .aliasing ∨ peerAccess peer x isWrite s go = .next s ∨
      peerAccess peer x isWrite s go = .next go := by
  simp only [peerAccess]
  repeat' split
  all_goals simp

/-- A write to STATUS that acknowledges a failure and nothing else (R301). -/
theorem writeCsr_acknowledge (s : State) : s.writeCsr .status 4#32 = s.acknowledgeFail := by
  simp [State.writeCsr, Status.hostWrite, State.acknowledgeFail, State.withStatus]

end Sys2Proof.Machine
end

