-- ==== Sys2Proof/Tests/Slice0.lean ====
section
/-! SUPPORT. Tests. Words are written out from the encodings of `30_encoding.md` section 3 and 4, expected values are
those of `95_test_vectors.md`, and each statement with hypotheses has a state or operands that meet them. -/

namespace Sys2Proof.Tests

open Sys2Proof.Machine

/-! ## Helpers -/

/-- The state after reset with some lane registers written. -/
def lanes (l : List (LReg × Wide)) : State := l.foldl (fun s q => s.writeLane q.1 q.2) State.reset

/-- One step of the block on a command word. -/
def issue (w : Word) (s : State) : Host.Outcome State Fault Refusal := step (s.withFetchWord 32 w.toNat)

/-- Something of the next state, if there is one. -/
def resultOf {α : Type} (f : State → α) : Host.Outcome State Fault Refusal → Option α
  | .next t => some (f t)
  | .fault _ => none
  | .refused _ => none

/-- STATUS as the host reads it, and a lane register. -/
def laneOf (r : LReg) (o : Host.Outcome State Fault Refusal) : Option (Word × Wide) :=
  resultOf (fun t => (t.status.word, (t.regs.get r).value)) o

/-- STATUS as the host reads it, and a word of memory. -/
def wordAt (a : Word) (o : Host.Outcome State Fault Refusal) : Option (Word × Nat) :=
  resultOf (fun t => (t.status.word, t.mem.read a 4)) o

/-- STATUS as the host reads it. -/
def statusOf (o : Host.Outcome State Fault Refusal) : Option Word := resultOf (fun t => t.status.word) o

/-- A memory of words. -/
def words (l : List (Word × Nat)) : Memory := l.foldl (fun m q => m.write q.1 4 q.2) []

/-- A buffer of one row, `n` pixels of four bytes. -/
def row (base : Word) (n : BitVec 16) : BufDesc :=
  { base := base, stride := 4, width := n, height := 1, x := 0, y := 0 }

/-- A locked block with every operator enabled, a destination of one ARGB32 pixel at 0x1000 that holds `d`, and the
constants `src` and `msk`. -/
def canvas (src msk : Word) (d : Nat) : State :=
  { State.reset with
    ctrl := { cfgLock := true, irqEn := false }
    conf := { Conf.reset with kenU := 0xFFF, kenCa := 0xFFF, dst := row 0x1000 1, rectW := 1, rectH := 1,
                              solidSrc := src, solidMsk := msk }
    mem := words [(0x1000, d)] }

/-- The fields of a COMPOSITE of a constant source without a mask. -/
def solid : KFields :=
  { mmode := .noMask, sfmt := .argb32, mfmt := .argb32, dfmt := .argb32, sample := .identity, edge := .outside,
    ssolid := true, msolid := false }

/-! ## Well-formedness -/

theorem test_ill_formed_index_of_lunpk565 : Instr.wellFormed (.lunpk565 .w0 .w0 4) = false := by decide
theorem test_ill_formed_index_of_lpack565 : Instr.wellFormed (.lpack565 .w0 .w0 .w0 4) = false := by decide
theorem test_ill_formed_first_weight_of_linterp : Instr.wellFormed (.linterp .w0 .w0 .w0 256 0) = false := by decide
theorem test_ill_formed_second_weight_of_linterp : Instr.wellFormed (.linterp .w0 .w0 .w0 0 256) = false := by decide
theorem test_ill_formed_depth_of_fill : Instr.wellFormed (.fill 64) = false := by decide
theorem test_ill_formed_source_depth_of_blit : Instr.wellFormed (.blit 64 0) = false := by decide
theorem test_ill_formed_destination_depth_of_blit : Instr.wellFormed (.blit 0 64) = false := by decide
theorem test_well_formed_at_the_bounds : Instr.wellFormed (.lpack565 .w7 .w7 .w7 3) = true ∧
    Instr.wellFormed (.linterp .w7 .w7 .w7 255 255) = true ∧ Instr.wellFormed (.blit 63 63) = true := by decide

/-! ## Decoding: each word is written field by field (opcode, then the fields from high to low) -/

theorem test_decode_nop : decodeWord 0b000000_00000000000000000000000000#32 = .ok .nop := by decide
theorem test_decode_lmul : decodeWord 0b000001_101_011_100_00000000000000000#32 = .ok (.lmul .w5 .w3 .w4) := by decide
theorem test_decode_lmuladd : decodeWord 0b000010_001_010_011_100_101_00000000000#32 = .ok (.lmuladd .w1 .w2 .w3 .w4 .w5) := by decide
theorem test_decode_ladds : decodeWord 0b000011_001_010_011_00000000000000000#32 = .ok (.ladds .w1 .w2 .w3) := by decide
theorem test_decode_lneg : decodeWord 0b000100_001_010_00000000000000000000#32 = .ok (.lneg .w1 .w2) := by decide
theorem test_decode_lbca : decodeWord 0b000101_110_111_00000000000000000000#32 = .ok (.lbca .w6 .w7) := by decide
theorem test_decode_lbcl : decodeWord 0b000110_001_010_00000000000000000000#32 = .ok (.lbcl .w1 .w2) := by decide
theorem test_decode_lswaprb : decodeWord 0b000111_001_010_00000000000000000000#32 = .ok (.lswaprb .w1 .w2) := by decide
theorem test_decode_lunpk32 : decodeWord 0b001000_001_010_000000000_01_000000000#32 = .ok (.lunpk32 .w1 .w2 .hi) := by decide
theorem test_decode_lpack32 : decodeWord 0b001001_111_110_00000000000000000000#32 = .ok (.lpack32 .w7 .w6) := by decide
theorem test_decode_lunpk565 : decodeWord 0b001010_011_001_000000000_10_000000000#32 = .ok (.lunpk565 .w3 .w1 2) := by decide
theorem test_decode_lpack565 : decodeWord 0b001011_101_011_100_000000_01_000000000#32 = .ok (.lpack565 .w5 .w3 .w4 1) := by decide
theorem test_decode_linterp : decodeWord 0b001100_001_010_011_10000000_01000000_0#32 = .ok (.linterp .w1 .w2 .w3 128 64) := by decide
theorem test_decode_fill : decodeWord 0b100001_100000_00000000000000000000#32 = .ok (.fill 32) := by decide
theorem test_decode_blit : decodeWord 0b100010_010000_100000_00000000000000#32 = .ok (.blit 16 32) := by decide

/-- The operand fields of the COMPOSITE decode tests, all of them different from `solid`'s. -/
def fields : KFields :=
  { mmode := .perComponent, sfmt := .argb32Npr, mfmt := .a8, dfmt := .rgb565, sample := .bilinear, edge := .pad,
    ssolid := false, msolid := true }

theorem test_decode_composite_src :
    decodeWord 0b100000_0000_10_011_010_001_10_1_0_1_000000#32 = .ok (.compositeSrc fields) := by decide
theorem test_decode_composite_over :
    decodeWord 0b100000_0001_10_011_010_001_10_1_0_1_000000#32 = .ok (.compositeOver fields) := by decide
theorem test_decode_composite_over_reverse :
    decodeWord 0b100000_0010_10_011_010_001_10_1_0_1_000000#32 = .ok (.compositeOverReverse fields) := by decide
theorem test_decode_composite_in :
    decodeWord 0b100000_0011_10_011_010_001_10_1_0_1_000000#32 = .ok (.compositeIn fields) := by decide
theorem test_decode_composite_in_reverse :
    decodeWord 0b100000_0100_10_011_010_001_10_1_0_1_000000#32 = .ok (.compositeInReverse fields) := by decide
theorem test_decode_composite_out :
    decodeWord 0b100000_0101_10_011_010_001_10_1_0_1_000000#32 = .ok (.compositeOut fields) := by decide
theorem test_decode_composite_out_reverse :
    decodeWord 0b100000_0110_10_011_010_001_10_1_0_1_000000#32 = .ok (.compositeOutReverse fields) := by decide
theorem test_decode_composite_atop :
    decodeWord 0b100000_0111_10_011_010_001_10_1_0_1_000000#32 = .ok (.compositeAtop fields) := by decide
theorem test_decode_composite_atop_reverse :
    decodeWord 0b100000_1000_10_011_010_001_10_1_0_1_000000#32 = .ok (.compositeAtopReverse fields) := by decide
theorem test_decode_composite_xor :
    decodeWord 0b100000_1001_10_011_010_001_10_1_0_1_000000#32 = .ok (.compositeXor fields) := by decide
theorem test_decode_composite_add :
    decodeWord 0b100000_1010_10_011_010_001_10_1_0_1_000000#32 = .ok (.compositeAdd fields) := by decide
theorem test_decode_composite_saturate :
    decodeWord 0b100000_1011_10_011_010_001_10_1_0_1_000000#32 = .ok (.compositeSaturate fields) := by decide

theorem test_refuses_reserved_opcode : decodeWord 0x34000000#32 = .error .reservedOpcode := by decide
theorem test_refuses_reserved_opcode_above : decodeWord 0x8C000000#32 = .error .reservedOpcode := by decide
theorem test_refuses_nop_with_bit_0 : decodeWord 0x00000001#32 = .error .fixedBits := by decide
theorem test_refuses_composite_op_12 : decodeWord 0x83000000#32 = .error .reservedValue := by decide
theorem test_refuses_composite_mmode_3 : decodeWord 0x80700000#32 = .error .reservedValue := by decide
theorem test_refuses_composite_sfmt_5 : decodeWord 0x804A0080#32 = .error .reservedValue := by decide
theorem test_refuses_composite_sample_3 : decodeWord 0x80400600#32 = .error .reservedValue := by decide
theorem test_refuses_composite_bit_0 : decodeWord 0x80400001#32 = .error .fixedBits := by decide
theorem test_refuses_lunpk32_index_2 : decodeWord 0x20A00400#32 = .error .reservedValue := by decide
theorem test_refuses_linterp_bit_0 : decodeWord 0x30A60001#32 = .error .fixedBits := by decide
theorem test_table_word : decodeTableWord 32 0x08A72800 = some (.lmuladd .w1 .w2 .w3 .w4 .w5) := by decide
theorem test_encode : encode (.linterp .w1 .w2 .w3 128 64) = 0x30A70080#32 := by decide

/-! ## Lane instructions (`95_test_vectors.md` 2.1, 2.2, 2.4) -/

theorem test_lmul_rounds : laneOf .w5 (issue 0x06B80000#32 (lanes [(.w3, wide 255 0 0 255), (.w4, bcast 127)])) =
    some (2, wide 127 0 0 127) := by decide
theorem test_lmul_out_of_range : laneOf .w1 (issue 0x04800000#32 (lanes [(.w0, wide 0x100 0xFF 0x1FF 0)])) =
    some (0x804, 0) := by decide
theorem test_lmuladd_rounds_once : laneOf .w1 (issue 0x08A72800#32 (lanes [(.w2, bcast 5), (.w3, bcast 5), (.w4, bcast 30), (.w5, bcast 250)])) =
    some (2, bcast 30) := by decide
theorem test_lmuladd_saturates : laneOf .w1 (issue 0x08A72800#32 (lanes [(.w2, bcast 255), (.w3, bcast 255), (.w4, bcast 255), (.w5, bcast 255)])) =
    some (2, bcast 255) := by decide
theorem test_ladds_saturates : laneOf .w1 (issue 0x0CA60000#32 (lanes [(.w2, wide 0 0 128 128), (.w3, wide 127 0 0 128)])) =
    some (2, wide 127 0 128 255) := by decide
theorem test_ladds_out_of_range : laneOf .w1 (issue 0x0C800000#32 (lanes [(.w0, bcast 0x100)])) =
    some (0x804, 0) := by decide
theorem test_lneg : laneOf .w1 (issue 0x10A00000#32 (lanes [(.w2, 0x0100000000FF1234)])) =
    some (2, 0x01FF00FF000012CB) := by decide
theorem test_lbca : laneOf .w1 (issue 0x14A00000#32 (lanes [(.w2, wide 0 0 128 129)])) =
    some (2, bcast 129) := by decide
theorem test_lbcl : laneOf .w1 (issue 0x18A00000#32 (lanes [(.w2, wide 0x80 5 6 7)])) =
    some (2, bcast 0x80) := by decide
theorem test_lswaprb_in_place : laneOf .w1 (issue 0x1C900000#32 (lanes [(.w1, wide 1 2 3 4)])) =
    some (2, wide 3 2 1 4) := by decide
theorem test_lunpk32_low : laneOf .w2 (issue 0x21000000#32 (lanes [(.w0, 0x0000000080800000)])) =
    some (2, 0x0080008000000000) := by decide
theorem test_lunpk32_high : laneOf .w1 (issue 0x20A00200#32 (lanes [(.w2, 0xFF0000FF00000000)])) =
    some (2, wide 0xFF 0 0 0xFF) := by decide
theorem test_lpack32_clamps : laneOf .w7 (issue 0x27E00000#32 (lanes [(.w6, wide 0x100 0xFFFF 0x12 0)])) =
    some (2, 0x0012FFFF) := by decide
theorem test_lunpk565 : laneOf .w1 (issue 0x28800400#32 (lanes [(.w0, 0x00008410001FF800)])) =
    some (2, 0x00FF008400820084) := by decide
theorem test_lpack565 : laneOf .w5 (issue 0x2EB80200#32 (lanes [(.w3, wide 0 0 0xFF 0xFF), (.w4, 0x1111222233334444)])) =
    some (2, 0x11112222F8004444) := by decide
theorem test_lpack565_truncates : laneOf .w4 (issue 0x2E300600#32 (lanes [(.w3, wide 0x7F 0x7F 0x7F 0xFF), (.w0, 0x00008410001FF800)])) =
    some (2, 0x7BEF8410001FF800) := by decide
theorem test_linterp : laneOf .w1 (issue 0x30A70080#32 (lanes [(.w2, 0xFFFF0000FF0000FF), (.w3, 0xFF00FF00FF00FF00)])) =
    some (2, wide 95 63 95 255) := by decide
theorem test_lneg_of_an_unwritten_register : issue 0x10A00000#32 State.reset = .fault .unwrittenW := by rfl
theorem test_interp_keeps_a_weight : interp 0 200 0 0 255 0 = 199 := by decide
theorem test_npr_premultiplies : npr 0x40804020#32 = wide 32 16 8 64 := by decide

/-! ## COMPOSITE (2.3): one constant source pixel over one destination pixel, and masks -/

theorem test_composite_over : wordAt 0x1000 (issue 0x80400080#32 (canvas 0x80800000 0 0x40000040)) =
    some (2, 0xA0800020) := by decide
theorem test_composite_over_reverse : wordAt 0x1000 (issue 0x80800080#32 (canvas 0x80800000 0 0x40000040)) =
    some (2, 0xA0600040) := by decide
theorem test_composite_in : wordAt 0x1000 (issue 0x80C00080#32 (canvas 0x80800000 0 0x40000040)) =
    some (2, 0x20200000) := by decide
theorem test_composite_in_reverse : wordAt 0x1000 (issue 0x81000080#32 (canvas 0x80800000 0 0x40000040)) =
    some (2, 0x20000020) := by decide
theorem test_composite_out : wordAt 0x1000 (issue 0x81400080#32 (canvas 0x80800000 0 0x40000040)) =
    some (2, 0x60600000) := by decide
theorem test_composite_out_reverse : wordAt 0x1000 (issue 0x81800080#32 (canvas 0x80800000 0 0x40000040)) =
    some (2, 0x20000020) := by decide
theorem test_composite_atop : wordAt 0x1000 (issue 0x81C00080#32 (canvas 0x80800000 0 0x40000040)) =
    some (2, 0x40200020) := by decide
theorem test_composite_atop_reverse : wordAt 0x1000 (issue 0x82000080#32 (canvas 0x80800000 0 0x40000040)) =
    some (2, 0x80600020) := by decide
theorem test_composite_xor : wordAt 0x1000 (issue 0x82400080#32 (canvas 0x80800000 0 0x40000040)) =
    some (2, 0x80600020) := by decide
theorem test_composite_add : wordAt 0x1000 (issue 0x82800080#32 (canvas 0x80800000 0 0x40000040)) =
    some (2, 0xC0800040) := by decide
theorem test_composite_over_reverse_per_component :
    wordAt 0x1000 (issue 0x80A000C0#32 (canvas 0xFFFF0000 0x80FF0040 0xFF0000FF)) = some (2, 0xFF0000FF) := by decide
theorem test_composite_in_per_component :
    wordAt 0x1000 (issue 0x80E000C0#32 (canvas 0xFFFF0000 0x80FF0040 0xFF0000FF)) = some (2, 0x80FF0000) := by decide
theorem test_composite_in_reverse_per_component :
    wordAt 0x1000 (issue 0x812000C0#32 (canvas 0xFFFF0000 0x80FF0040 0xFF0000FF)) = some (2, 0x80000040) := by decide
theorem test_composite_out_per_component :
    wordAt 0x1000 (issue 0x816000C0#32 (canvas 0xFFFF0000 0x80FF0040 0xFF0000FF)) = some (2, 0x00000000) := by decide
theorem test_composite_out_reverse_per_component :
    wordAt 0x1000 (issue 0x81A000C0#32 (canvas 0xFFFF0000 0x80FF0040 0xFF0000FF)) = some (2, 0x7F0000BF) := by decide
theorem test_composite_atop_per_component :
    wordAt 0x1000 (issue 0x81E000C0#32 (canvas 0xFFFF0000 0x80FF0040 0xFF0000FF)) = some (2, 0xFFFF00BF) := by decide
theorem test_composite_atop_reverse_per_component :
    wordAt 0x1000 (issue 0x822000C0#32 (canvas 0xFFFF0000 0x80FF0040 0xFF0000FF)) = some (2, 0x80000040) := by decide
theorem test_composite_xor_per_component :
    wordAt 0x1000 (issue 0x826000C0#32 (canvas 0xFFFF0000 0x80FF0040 0xFF0000FF)) = some (2, 0x7F0000BF) := by decide
theorem test_composite_add_per_component :
    wordAt 0x1000 (issue 0x82A000C0#32 (canvas 0xFFFF0000 0x80FF0040 0xFF0000FF)) = some (2, 0xFFFF00FF) := by decide
theorem test_composite_saturate_scales :
    wordAt 0x1000 (issue 0x82C00080#32 (canvas 0x80800000 0 0xC00000C0)) = some (2, 0xFF3F00C0) := by decide
theorem test_saturate_without_headroom :
    saturateResult .noScale (unpack32 0xFF00FF00#32) (bcast 255) (unpack32 0xFF0000FF#32) = unpack32 0xFF00FFFF#32 ∧
      saturateResult .zeroScale (unpack32 0xFF00FF00#32) (bcast 255) (unpack32 0xFF0000FF#32)
        = unpack32 0xFF0000FF#32 := by decide
theorem test_uniform_mask : wordAt 0x1000 (issue 0x805000C0#32 (canvas 0xFFFF0000 0x80000000 0xFF0000FF)) =
    some (2, 0xFF80007F) := by decide

/-- Image Q of 2.4 at 0x2000, two columns and three rows, above a destination at 0x4000. -/
def imageQ : State :=
  { canvas 0 0 0 with
    conf := { Conf.reset with
      kenU := 0xFFF
      src := { base := 0x2000, stride := 8, width := 2, height := 3, x := 0, y := 0 }
      dst := { base := 0x4000, stride := 8, width := 2, height := 4, x := 0, y := 0 }
      rectW := 2, rectH := 4, scrBase := 0x3000, scrLen := 16
      xform := { a := 0x10000, b := 0, c := 0, d := 0, e := 0x8000, f := 0 } }
    mem := words [(0x2000, 0xFF0000FF), (0x2004, 0xFF00FF00), (0x2008, 0xFFFF0000), (0x200C, 0xFFFFFFFF),
      (0x2010, 0x80000080)] }

/-- The fields of program P3. -/
def scaled : KFields := { solid with sample := .bilinear, edge := .pad, ssolid := false }

/-- An implementation whose slots hold `n + 1` pixels on chip. -/
def chip (n : Nat) : Config.Params :=
  { slotWordsLessOne := n, satZeroHeadroom := .noScale, csrPage := 1, otherInstances := 1 }

/-- Counters, tags, and pixels of rows 1 and 3 of the destination of program P3. -/
def seenP3 (t : State) : List Nat :=
  [t.cache.decodes.toNat, t.cache.hits.toNat, t.cache.slot0.tag.toNat, t.cache.slot1.tag.toNat, t.mem.read 0x4008 4,
    t.mem.read 0x400C 4, t.mem.read 0x4018 4, t.mem.read 0x401C 4]

theorem test_program_P3_on_chip : resultOf seenP3 (compositeWith (chip 1) .src scaled imageQ) =
    some [3, 5, 2, 1, 0xFF7F007F, 0xFF7FFF7F, 0xBF7F0040, 0x7F7F7F7F] := by decide
set_option maxRecDepth 4096 in
theorem test_program_P3_in_scratch :
    resultOf (fun t => (seenP3 t, t.mem.read 0x3000 4, t.mem.read 0x3008 4, t.mem.read 0x300C 4))
      (compositeWith (chip 0) .src scaled imageQ) =
    some ([3, 5, 2, 1, 0xFF7F007F, 0xFF7FFF7F, 0xBF7F0040, 0x7F7F7F7F], 0x80000080, 0xFFFF0000, 0xFFFFFFFF) := by decide

/-- Image Q's set-up with another source height, edge policy, rectangle height, T_E and T_F. -/
def tall (height rows : BitVec 16) (e f : Word) : State :=
  { imageQ with conf := { imageQ.conf with
      src := { imageQ.conf.src with height := height }, rectH := rows, xform := { imageQ.conf.xform with e := e, f := f } } }

/-- The decodes of a trace, row and slot, and its counters and tags. -/
def seenTrace (t : RowTrace) : List (Nat × Nat) × List Nat :=
  (t.decoded.map fun q => (q.2, q.1.toNat),
    [t.cache.decodes.toNat, t.cache.hits.toNat, t.cache.slot0.tag.toNat, t.cache.slot1.tag.toNat])

/-- The cache traces of 2.4 under pad and none. -/
theorem test_cache_traces_pad :
    [tall 8 2 0x10000 0x50000, tall 8 2 0xFFFF0000 0x50000, tall 8 1 0x10000 0xFFFF0000].map
        (fun s => seenTrace (rowTrace scaled s.conf)) =
      [([(5, 0), (6, 1), (7, 0)], [3, 1, 7, 6]), ([(5, 0), (6, 1), (4, 1)], [3, 1, 5, 4]), ([(0, 0)], [1, 1, 0, 0])] := by
  decide
theorem test_cache_traces_none :
    [tall 3 1 0x10000 0xFFFF8000, tall 3 1 0x10000 0x20000, tall 3 1 0x10000 0x50000].map
        (fun s => seenTrace (rowTrace { scaled with edge := .outside } s.conf)) =
      [([(0, 0)], [1, 0, 0, 0]), ([(2, 0)], [1, 0, 2, 0]), ([], [0, 0, 0, 0])] := by decide

/-- Scratch is written where a row is decoded into a slot, and nowhere else (`20_memory.md` R68). -/
theorem test_scratch_write_set :
    scratchWrites (chip 0) { scaled with edge := .outside } (tall 3 1 0x10000 0x50000).conf = [] ∧
      scratchWrites (chip 0) scaled (tall 8 1 0x10000 0xFFFF0000).conf = [{ addr := 0x3000, size := 8 }] ∧
      scratchWrites (chip 1) scaled imageQ.conf = [] := by decide

/-- Image Q sampled at (u, v). -/
def sampleQ (k : KFields) (u v : Int) : Word :=
  pack32 (sampleDirect k { imageQ.conf with
    xform := { a := 0, b := 0, c := BitVec.ofInt 32 u, d := 0, e := 0, f := BitVec.ofInt 32 v } } imageQ.mem 0 0)

theorem test_bilinear_samples : sampleQ scaled 32768 32768 = 0xFF7F7F7F#32 ∧ sampleQ scaled 0 (-65536) = 0xFF0000FF#32 ∧
    sampleQ { scaled with edge := .outside } (-32768) (-32768) = 0x3F00003F#32 ∧
    sampleQ { scaled with edge := .outside } 65536 131072 = 0#32 := by decide
theorem test_nearest_samples : sampleQ { scaled with sample := .nearest } 131071 32768 = 0xFF00FF00#32 ∧
    sampleQ { scaled with sample := .nearest, edge := .outside } (-32768) 0 = 0#32 := by decide

/-! ## FILL, BLIT and NOP (2.5) -/

/-- A destination of two 32-bit pixels at 0x6000 and a source at 0x5000, rectangles of both pixels. -/
def board (fill : Word) : State :=
  { State.reset with
    conf := { Conf.reset with dst := row 0x6000 2, src := row 0x5000 2, rectW := 2, rectH := 1, fillValue := fill }
    mem := words [(0x5000, 0xAAAA1111), (0x5004, 0xBBBB2222)] }

theorem test_nop_after_a_failure :
    statusOf (issue 0#32 { State.reset with status := State.reset.status.failWith .align }) = some 2 := by decide
theorem test_fill_32 : wordAt 0x6004 (issue 0x86000000#32 (board 0xFF00FF00)) = some (2, 0xFF00FF00) := by decide
theorem test_fill_16 : wordAt 0x6000 (issue 0x85000000#32 (board 0xABCDABCD)) = some (2, 0xABCDABCD) := by decide
theorem test_blit_32 : wordAt 0x6004 (issue 0x8A080000#32 (board 0)) = some (2, 0xBBBB2222) := by decide
theorem test_blit_flips_with_a_negative_stride :
    resultOf (fun t => (t.mem.read 0x6000 4, t.mem.read 0x6004 4)) (issue 0x8A080000#32 { board 0 with
      conf := { (board 0).conf with
        src := { base := 0x5000, stride := 4, width := 1, height := 2, x := 0, y := 0 }
        dst := { base := 0x6004, stride := 0xFFFFFFFC, width := 1, height := 2, x := 0, y := 0 }
        rectW := 1, rectH := 2 } }) = some (0xBBBB2222, 0xAAAA1111) := by decide

/-! ## The host (2.7) -/

/-- A busy block: a NOP is accepted. -/
def busyNop : State := State.reset.accept 0

theorem test_write_to_cmd_while_busy : resultOf (fun t => (t.cmd, t.status.word)) (csrWrite 0x00C 4 7#32 busyNop) =
    some (0, 9) := by decide
theorem test_lock_is_set_only :
    resultOf (fun t => t.ctrl.cfgLock) (csrWrite 0x004 4 0#32 (canvas 0 0 0)) = some true := by decide
theorem test_interrupt_deasserted :
    resultOf State.irq (csrWrite 0x008 4 2#32
      { State.reset with ctrl := { cfgLock := false, irqEn := true }, status := State.reset.status.doneWith }) =
    some false := by decide

/-- The sets of a command that writes four bytes. -/
def writing (a : Word) : Footprint := { reads := [], writes := [{ addr := a, size := 4 }], aliased := false }

/-- The board beside another instance's command that writes the word at `a`. -/
def beside (a : Word) : State := { board 0xFF00FF00 with peers := [{ peer := 0, sets := writing a }] }

/-- R306 is about the sets: no access need have happened. -/
theorem test_command_accepted_over_another_ones_sets : csrWrite 0x00C 4 0x86000000#32 (beside 0x6004) = .fault .aliasing := by
  rfl
theorem test_command_accepted_apart :
    resultOf (fun t => t.status.busy) (csrWrite 0x00C 4 0x86000000#32 (beside 0x6008)) = some true := by decide
theorem test_negative_stride_address :
    ({ row 0x1000 1 with stride := 0xFFFFFFF0#32 } : BufDesc).pixAddr 3 2 4 = 0xFEC#32 := by decide

/-! ## Witnesses: states and operands that meet the hypotheses of each statement -/

/-- Every memory is ordinary when the platform names no other. -/
theorem ordinary_everywhere {s : State} (h : s.platform = []) (l : List Access) : Ordinary s l := fun a _ => by
  simp only [h]
  constructor <;> (rintro ⟨_, hx, _⟩; cases hx)

/-- A block with a FILL of two pixels accepted. -/
def busyFill : State := (board 0xFF00FF00).accept 0x86000000

theorem busyFill_inv : busyFill.Inv :=
  ⟨by decide, by decide, by decide, by decide, fun i => by cases i <;> decide, by decide, by decide, nofun⟩

theorem test_witness_ResetLeavesTheStatedState :
    (∃ t, hostAct .reset (board 0) = .next t) ∧ (board 0).status.busy = false ∧ ∃ t, hostAct .reset busyFill = .next t :=
  ⟨⟨_, rfl⟩, by decide, ⟨_, rfl⟩⟩

theorem test_witness_EveryStepKeepsTheInvariant : busyFill.Inv ∧ ∃ t, step busyFill = .next t :=
  ⟨busyFill_inv, ⟨_, rfl⟩⟩

theorem test_witness_ConfigurationLockHoldsUntilReset :
    ∃ s t, s.ctrl.cfgLock = true ∧ s.inputs.head? ≠ some (.host .reset) ∧ step s = .next t :=
  ⟨{ canvas 0 0 0 with inputs := [.host (.csrWrite 0x004 4 0#32)] }, _, by decide, by decide, rfl⟩

theorem test_witness_ResetWhileBusyTouchesOnlyTheWriteSet :
    busyFill.Inv ∧ busyFill.status.busy = true ∧ decodeWord busyFill.cmd = .ok (.fill 32) ∧
      (instrPlan busyFill (.fill 32)).footprint.contractFault busyFill.platform = none ∧
      (∃ u, exec (.fill 32) busyFill = .next u) ∧ { addr := 0x6004, size := 4, value := 0xFF00FF00 } ∈
        instrWrites busyFill (.fill 32) ∧
      (State.reset.accept 1).status.busy = true ∧ decodeWord (State.reset.accept 1).cmd = .error .fixedBits :=
  ⟨busyFill_inv, by decide, by decide, by decide, ⟨_, rfl⟩, by decide, by decide, by decide⟩

/-- A FILL of two rows that lie on each other, accepted: its writes that share a byte are to the same bytes. -/
def busySmear : State :=
  { busyFill with conf := { busyFill.conf with dst := { row 0x6000 2 with stride := 0, height := 2 }, rectH := 2 } }

theorem test_witness_of_the_pixel_writes_of_a_reset :
    busySmear.Inv ∧ busySmear.status.busy = true ∧ decodeWord busySmear.cmd = .ok (.fill 32) ∧
      (instrPlan busySmear (.fill 32)).footprint.contractFault busySmear.platform = none ∧
      (instrWrites busySmear (.fill 32)).length = 4 ∧
      ∀ st ∈ instrWrites busySmear (.fill 32), ∀ st' ∈ instrWrites busySmear (.fill 32),
        (∃ a, Covers [{ addr := st.addr, size := st.size }] a ∧ Covers [{ addr := st'.addr, size := st'.size }] a) →
          st'.addr = st.addr ∧ st'.size = st.size := by
  refine ⟨⟨by decide, by decide, by decide, by decide, fun i => by cases i <;> decide, by decide, by decide, nofun⟩,
    by decide, by decide, by decide, by decide, fun st h st' h' hc => ?_⟩
  have apart : ∀ st ∈ instrWrites busySmear (.fill 32), ∀ st' ∈ instrWrites busySmear (.fill 32),
      anyMeet [{ addr := st.addr, size := st.size }] [{ addr := st'.addr, size := st'.size }] = true →
        st'.addr = st.addr ∧ st'.size = st.size := by decide
  exact apart st h st' h' (anyMeet_iff.2 hc)

/-- A word's command keeps apart from those of other instances where there are none, and where the sets are apart. -/
theorem test_witness_CmdIssuesTheWordWritten :
    State.reset.status.busy = false ∧ State.reset.ApartFromPeers 0x86000000 ∧
      (beside 0x6008).ApartFromPeers 0x86000000 := by
  refine ⟨by decide, fun _ _ _ hq => absurd hq List.not_mem_nil, fun i hi q hq a => ?_⟩
  obtain rfl : Instr.fill 32 = i := Except.ok.inj hi
  obtain rfl : q = { peer := 0, sets := writing 0x6008 } := List.mem_singleton.mp hq
  exact ⟨fun h => not_covers_of_anyMeet (ys := (writing 0x6008).reads ++ (writing 0x6008).writes) (by decide) h.1 h.2,
    fun h => not_covers_of_anyMeet (ys := (writing 0x6008).writes) (by decide) h.1 h.2⟩

/-- The conditions of the CSR statements: an idle block, a busy one, an unlocked and a locked one, and an operator
whose enable bits are 0. -/
theorem test_witness_of_the_csr_statements :
    State.reset.status.busy = false ∧ busyNop.status.busy = true ∧ State.reset.ctrl.cfgLock = false ∧
      (canvas 0 0 0).status.busy = false ∧ (canvas 0 0 0).ctrl.cfgLock = true ∧
      (canvas 0 0 0).conf.kenU.getLsbD Op.saturate.code = true ∧
      ({ canvas 0 0 0 with conf := Conf.reset } : State).conf.kenCa.getLsbD Op.saturate.code = false := by decide

theorem test_witness_ConfigurationRegistersReadBack :
    State.reset.status.busy = false ∧ (∃ b q, Csr.buf .msk .y = .buf b q) ∧ (∃ q, Csr.xform .f = .xform q) ∧
      Csr.scrLen ∈ [Csr.rectW, .rectH, .solidSrc, .solidMsk, .fillValue, .scrBase, .scrLen] :=
  ⟨by decide, ⟨_, _, rfl⟩, ⟨_, rfl⟩, by decide⟩

theorem test_witness_LaneWindowWritesAndMarks :
    (lanes [(.w7, 1)]).status.busy = false ∧ ((lanes [(.w7, 1)]).regs.get .w7).written .hi = true ∧
      (State.reset.regs.get .w7).written .hi = false ∧ (busyNop.regs.get .w0).written .lo = false := by decide

theorem test_witness_CsrAccessesAreAlignedWords :
    (2 ≠ 4 ∨ (0x000 : BitVec 12).toNat % 4 ≠ 0) ∧ (4 ≠ 4 ∨ (0x002 : BitVec 12).toNat % 4 ≠ 0) ∧
      ((0x018 : BitVec 12).toNat % 4 = 0 ∧ Csr.at? (0x018 : BitVec 12).toNat = none) ∧
      ((0x140 : BitVec 12).toNat % 4 = 0 ∧ Csr.at? (0x140 : BitVec 12).toNat = none) ∧
      Config.params.csrBase + 4096 ≤ Config.params.csrBase + 4096 :=
  ⟨by decide, by decide, by decide, by decide, Nat.le_refl _⟩

/-- An access that ends where the window starts, on an implementation whose window is not at address 0. -/
theorem test_witness_below_the_window (h : 0 < Config.params.csrPage) :
    Config.params.csrBase - 4 < Config.params.csrBase ∧ Config.params.csrBase - 4 + 4 ≤ Config.params.csrBase := by
  simp only [Config.Params.csrBase]
  omega

theorem test_witness_CacheRegistersAreReadOnly : State.Inv (board 0) ∧ (board 0).status.busy = false :=
  ⟨⟨by decide, by decide, by decide, by decide, fun i => by cases i <;> decide, by decide, by decide, nofun⟩, by decide⟩

theorem test_witness_ReadsWhileBusyChangeNothing :
    busyNop.status.busy = true ∧ (((lanes [(.w0, 5)]).accept 0).status.busy = true ∧
        (((lanes [(.w0, 5)]).accept 0).regs.get .w0).written .lo = true) ∧
      State.reset.status.busy = false ∧ State.reset.csrWord .cmd = some 0#32 := by decide

theorem test_witness_MemoryIsLittleEndianAndWraps :
    (words [(0x1000, 7)]).wf ∧ 4 ≤ 2 ^ 32 ∧ ¬ Covers [{ addr := 0xFFFFFFFE#32, size := 4 }] 2#32 ∧
      Memory.readByte (Memory.write [] 0xFFFFFFFE#32 4 0x04030201) 1 = 4#8 :=
  ⟨by decide, by decide, by unfold Covers; decide, by decide⟩

theorem test_witness_AlignedBuffersHaveAlignedPixels :
    (∀ n ∈ [1, 2, 4], ({ row 0x1000 1 with stride := 0xFFFFFFFC#32 } : BufDesc).base.toNat % n = 0 ∧
      ({ row 0x1000 1 with stride := 0xFFFFFFFC#32 } : BufDesc).stride.toInt % (n : Int) = 0) ∧
      imageQ.conf.scrBase.toNat % 4 = 0 := by decide

theorem test_witness_DecodeOfEncode :
    Instr.wellFormed (.linterp .w7 .w7 .w7 255 255) = true ∧ Instr.wellFormed (.compositeSaturate fields) = true := by
  decide

theorem test_witness_EncodeOfDecode : ∃ i, decodeWord 0x82C00080#32 = .ok i := ⟨_, rfl⟩

theorem test_witness_DecoderAgreesWithTheOpcodeTable :
    0x82C00080#32 &&& (tablePattern (.compositeSaturate solid)).2 = (tablePattern (.compositeSaturate solid)).1 ∧
      ¬ reservedInK 0x82C00080#32 := by
  unfold reservedInK
  decide

theorem test_witness_IllegalWordFails :
    (State.reset.accept 1).status.busy = true ∧ decodeWord (State.reset.accept 1).cmd = .error .fixedBits := by decide

theorem test_witness_StepRunsTheAcceptedCommand :
    (busyNop.status.busy = true ∧ decodeWord busyNop.cmd = .ok .nop ∧ busyNop.inputs = []) ∧
      (busyNop.withInputs [.block]).inputs = .block :: [] ∧ State.reset.status.busy = false ∧
      (State.reset.withInputs [.host .reset]).inputs = .host .reset :: [] := by decide

theorem test_witness_FailedCommandChangesOnlyStatus :
    (∃ t, exec (.fill 24) busyFill = .next t ∧ t.status.fail = true) ∧
      (State.reset.accept 1).status.busy = true ∧
      ∃ t, blockTurn (State.reset.accept 1) = .next t ∧ t.status.fail = true :=
  ⟨⟨_, rfl, rfl⟩, by decide, ⟨_, rfl, rfl⟩⟩

theorem test_witness_CommandLifecycle :
    State.reset.status.busy = false ∧ busyFill.status.busy = true ∧ decodeWord busyFill.cmd = .ok (.fill 32) ∧
      ∃ t, blockTurn busyFill = .next t := ⟨by decide, by decide, by decide, ⟨_, rfl⟩⟩

theorem test_witness_CommandsEndWhenTheContractIsKept :
    ContractKept (.fill 32) busyFill ∧ ContractKept (.lneg .w0 .w1) (lanes [(.w1, 3)]) ∧
      ¬ ContractKept (.lneg .w0 .w1) State.reset ∧
      ¬ ContractKept (.fill 32) { busyFill with platform := [{ span := { addr := 0x6007, size := 1 }, kind := .device }] } := by
  unfold ContractKept
  decide

/-- A destination of two columns and two rows. -/
def quad : State :=
  { canvas 0xFFFF0000 0 0xFF0000FF with
    conf := { (canvas 0xFFFF0000 0 0).conf with
      dst := { base := 0x1000, stride := 8, width := 2, height := 2, x := 0, y := 0 }, rectW := 2, rectH := 2 } }

/-- Part of the platform that is no ordinary memory. -/
def odd (kind : RegionKind) (a : Word) : Region := { span := { addr := a, size := 1 }, kind := kind }

/-- Image Q beside a device or memory that does not answer: the source row that is decoded, and the destination. -/
theorem test_contract_faults_of_a_composite :
    compositeWith (chip 1) .src scaled { imageQ with platform := [odd .unanswered 0x2017, odd .device 0x401F] } =
        .fault .deviceMemory ∧
      compositeWith (chip 1) .src scaled { imageQ with platform := [odd .unanswered 0x2017] } = .fault .busError ∧
      compositeWith (chip 1) .src scaled { imageQ with conf := { imageQ.conf with
        dst := { imageQ.conf.dst with base := 0x2014 } } } = .fault .aliasing ∧
      compositeWith (chip 0) .src scaled { imageQ with conf := { imageQ.conf with scrBase := 0x401C } } =
        .fault .aliasing := ⟨by rfl, by rfl, by rfl, by rfl⟩

/-- The checks pass whatever the platform is and wherever the buffers lie. -/
theorem test_witness_of_the_contract_clauses :
    (∀ op, CompositeChecked op solid { quad with platform := [odd .device 0x1000, odd .unanswered 0x1001] }) ∧
      (∀ kind, State.Touches { quad with platform := [odd kind 0x100F] } kind (dstAccesses solid quad.conf)) ∧
      (∀ kind, State.Touches { board 0 with platform := [odd kind 0x6007] } kind
        ((board 0).conf.rectAccesses (board 0).conf.dst (32 / 8))) ∧
      ∀ kind, State.Touches { board 0 with platform := [odd kind 0x5000] } kind
        ((board 0).conf.rectAccesses (board 0).conf.src (32 / 8) ++
          (board 0).conf.rectAccesses (board 0).conf.dst (32 / 8)) := by
  have touch : ∀ (s : State) kind a l, Covers l a → State.Touches { s with platform := [odd kind a] } kind l :=
    fun s kind a l h => ⟨a, h, odd kind a, .head _, rfl, by simp [odd, Access.covers]⟩
  refine ⟨fun op => (compositeChecked_iff _ _ _).2 (by cases op <;> rfl), fun kind => touch _ _ _ _ ?_,
    fun kind => touch _ _ _ _ ?_, fun kind => touch _ _ _ _ ?_⟩ <;>
  · unfold Covers
    decide

theorem test_witness_FailureMatrix :
    (∃ t, exec (.lmul .w1 .w0 .w0) (lanes [(.w0, bcast 0x100)]) = .next t ∧ t.status.fail = true) ∧
      (∃ t, exec (.ladds .w1 .w0 .w0) (lanes [(.w0, bcast 0x100)]) = .next t ∧ t.status.fail = true) ∧
      (∃ t, exec (.lmuladd .w1 .w0 .w0 .w0 .w0) (lanes [(.w0, bcast 0x100)]) = .next t ∧ t.status.fail = true) ∧
      (∃ t, exec (.fill 24) State.reset = .next t ∧ t.status.fail = true) ∧
      (∃ t, exec (.blit 16 32) State.reset = .next t ∧ t.status.fail = true) ∧
      ∃ t, exec (.compositeXor solid) State.reset = .next t ∧ t.status.fail = true :=
  ⟨⟨_, rfl, rfl⟩, ⟨_, rfl, rfl⟩, ⟨_, rfl, rfl⟩, ⟨_, rfl, rfl⟩, ⟨_, rfl, rfl⟩, ⟨_, rfl, rfl⟩⟩

/-- A block with the interrupt enabled. -/
def armed : State := { State.reset with ctrl := { cfgLock := false, irqEn := true } }

theorem test_witness_InterruptFollowsStatusAndEnable :
    ((armed.accept 0).status.busy = true ∧ (armed.accept 0).ctrl.irqEn = true ∧
        ∃ t, blockTurn (armed.accept 0) = .next t) ∧
      ((6#32).getLsbD 1 = true ∧ (6#32).getLsbD 2 = true ∧ ∃ t, csrWrite 0x008 4 6#32 armed = .next t) ∧
      (armed.status.busy = false ∧ (0#32).getLsbD 1 = false ∧ ∃ t, csrWrite 0x004 4 0#32 armed = .next t) ∧
      ((2#32).getLsbD 1 = true ∧ ∃ t, csrWrite 0x004 4 2#32 armed = .next t) ∧
      ∃ t, csrWrite 0x00C 4 0#32 armed = .next t :=
  ⟨⟨by decide, by decide, ⟨_, rfl⟩⟩, ⟨by decide, by decide, ⟨_, rfl⟩⟩, ⟨by decide, by decide, ⟨_, rfl⟩⟩,
    ⟨by decide, ⟨_, rfl⟩⟩, ⟨_, rfl⟩⟩

/-- Each of the four turns that deassert the interrupt. -/
theorem test_witness_of_the_deasserting_turns :
    ∀ a ∈ [HostAction.reset, .csrWrite 0x008 4 2#32, .csrWrite 0x004 4 0#32, .csrWrite 0x00C 4 0#32],
      let s : State := { armed with status := armed.status.doneWith, inputs := [.host a] }
      s.irq = true ∧ resultOf State.irq (step s) = some false := by decide

theorem test_witness_NopOnlyEnds : (0x03FFFFFF#32).extractLsb' 26 6 = 0#6 ∧ 0x03FFFFFF#32 ≠ 0#32 := by decide

theorem test_witness_UnwrittenHalfIsAContractFault :
    (∃ q ∈ readsHalves (.lunpk32 .w1 .w2 .hi), (State.reset.regs.get q.1).written q.2 = false) ∧
      ∃ q ∈ readsHalves (.lmuladd .w1 .w2 .w2 .w2 .w3), ((lanes [(.w2, 1)]).regs.get q.1).written q.2 = false := by
  decide

/-- Lanes at the two ends of LMUL's and LMULADD's range: products 0xFFFF and 0x10000. -/
theorem test_witness_LmulRoundsEachProduct :
    (lanes [(.w2, bcast 0xFF), (.w3, bcast 0x101)]).Readable .w2 ∧
      (∀ k < 4, laneNat (bcast 0xFF) k * laneNat (bcast 0x101) k ≤ 0xFFFF) ∧
      ∃ k < 4, 0xFFFF < laneNat (wide 0xFF 0x100 0 0) k * laneNat (wide 0x101 0x100 0 0) k := by
  unfold State.Readable
  decide

theorem test_witness_LmuladdRoundsOnce :
    (∀ r ∈ [LReg.w2, .w3, .w4, .w5], (lanes [(.w2, bcast 0xFF), (.w3, bcast 0x101), (.w4, bcast 1),
        (.w5, bcast 0xFFFF)]).Readable r) ∧
      (∀ k < 4, laneNat (bcast 0xFF) k * laneNat (bcast 0x101) k ≤ 0xFFFF ∧
        laneNat (bcast 1) k * laneNat (bcast 0xFFFF) k ≤ 0xFFFF) ∧
      ∃ k < 4, 0xFFFF < laneNat (bcast 1) k * laneNat (bcast 1) k ∨
        0xFFFF < laneNat (wide 0 0 0 2) k * laneNat (wide 0 0 0 0x8000) k := by
  unfold State.Readable
  decide

theorem test_witness_LaddsSaturatesBytes :
    (lanes [(.w2, bcast 0xFF), (.w3, bcast 0xFF)]).Readable .w3 ∧
      (∀ k < 4, laneNat (bcast 0xFF) k ≤ 0xFF ∧ laneNat (bcast 0xFF) k ≤ 0xFF) ∧
      ∃ k < 4, 0xFF < laneNat (bcast 0xFF) k ∨ 0xFF < laneNat (wide 0 0 0 0x100) k := by
  unfold State.Readable
  decide

/-- LUNPK32 needs one half only; the other register instructions need both; indexes and weights at their bounds. -/
theorem test_witness_of_the_unpacking_statements :
    (((State.reset.writeCsr (.laneHalf .w2 .hi) 5).regs.get .w2).written .hi = true ∧
      ((State.reset.writeCsr (.laneHalf .w2 .hi) 5).regs.get .w2).written .lo = false) ∧
      (lanes [(.w6, 1)]).Readable .w6 ∧ 3 < 4 ∧ 255 < 256 := by
  unfold State.Readable
  decide

theorem test_witness_MultiplyLaws : 255 ≤ 255 ∧ mul8 255 255 = (255 * 255 + 127) / 255 := by decide

theorem test_witness_FormatRoundTrips : LanesAreBytes (wide 0x7F 0x7F 0x7F 0xFF) := by
  unfold LanesAreBytes
  decide

/-! COMPOSITE's checks: a word for each clause of their order. -/

/-- The canvas with another configuration. -/
def canvasWith (f : Conf → Conf) : State := { canvas 0 0 0 with conf := f (canvas 0 0 0).conf }

/-- A state and word for each clause but the scratch ones (2.6); each word decodes to a COMPOSITE but the first two. -/
theorem test_witness_CompositeCheckOrder :
    statusOf (issue 0x83000000#32 State.reset) = some 0x104 ∧ statusOf (issue 0x80400001#32 (canvas 0 0 0)) = some 0x104 ∧
      decodeWord 0x80400080#32 = .ok (.composite solid .over) ∧
      statusOf (issue 0x80400080#32 State.reset) = some 0x204 ∧
      statusOf (issue 0x80400080#32 (canvasWith fun c => { c with kenU := 0xFFD })) = some 0x304 ∧
      statusOf (issue 0x806000C0#32 (canvasWith fun c => { c with kenCa := 0xFFD })) = some 0x304 ∧
      statusOf (issue 0x80401080#32 (canvas 0 0 0)) = some 0x304 ∧
      statusOf (issue 0x80440000#32 (canvas 0 0 0)) = some 0x304 ∧
      statusOf (issue 0x80400080#32 (canvasWith fun c => { c with dst := row 0x1001 1, rectW := 0 })) = some 2 ∧
      statusOf (issue 0x80400080#32 (canvasWith fun c => { c with dst := { row 0x1001 1 with x := 5 } })) = some 0x504 ∧
      statusOf (issue 0x80400080#32 (canvasWith fun c => { c with dst := { row 0x1000 1 with y := 1 } })) = some 0x604 ∧
      statusOf (issue 0x80400000#32 (canvas 0 0 0)) = some 0x604 ∧
      statusOf (issue 0x80400080#32 (canvas 0 0 0)) = some 2 := by decide

/-- The scratch clauses, on an implementation whose slots hold one pixel. -/
theorem test_witness_of_the_scratch_order :
    compositePlan (chip 0) .src scaled imageQ.ctrl { imageQ.conf with scrLen := 15 } = .fail .noMem ∧
      compositePlan (chip 0) .src scaled imageQ.ctrl { imageQ.conf with scrBase := 0x3002 } = .fail .align := by decide

/-- The scratch clauses on the machine at hand, whose slots must be shorter than the widest row. -/
theorem test_witness_of_the_scratch_checks (h : Config.params.slotOnchipBytes < 4 * 0xFFFF) :
    let c := { imageQ.conf with
      src := { imageQ.conf.src with width := 0xFFFF, stride := 0x40000 }, scrBase := 0x3002, scrLen := 524280 }
    (scaled.ssolid = false ∧ scaled.sample = .bilinear ∧ c.xform.d = 0 ∧
        Config.params.slotOnchipBytes < 4 * c.src.width.toNat) ∧
      c.scrLen.toNat = 8 * c.src.width.toNat ∧ c.scrBase.toNat % 4 ≠ 0 :=
  ⟨⟨by decide, by decide, by decide, h⟩, by decide, by decide⟩

/-- Every operator is ready on the canvas. -/
theorem test_witness_CompositeReady : ∀ op, CompositeReady op solid (canvas 0x80800000 0 0x40000040) := by
  intro op
  refine (compositeReady_iff _ _ _).2 ?_
  cases op <;> exact ⟨by rfl, by rfl⟩

/-- Readiness, whether the rows fit on chip or not. -/
theorem ready_by_cases {op : Op} {k : KFields} {s : State} (h : ∀ external, externalScratch Config.params s.conf = external →
    compositePlan Config.params op k s.ctrl s.conf = .run (compositeFootprint Config.params op k s.conf) ∧
      (compositeFootprint Config.params op k s.conf).contractFault s.platform = none) : CompositeReady op k s :=
  (compositeReady_iff _ _ _).2 (h _ rfl)

/-- So is a cached one, program P3's, whether its rows fit on chip or not. -/
theorem test_witness_CompositeReady_through_the_cache : CompositeReady .src scaled imageQ := by
  refine ready_by_cases fun external h => ?_
  simp only [compositePlan, needsScratch, compositeFootprint, compositeAliased, scratchAccesses, scratchWrites, h]
  cases external <;> exact ⟨by rfl, by rfl⟩

theorem test_witness_of_the_painting_statements : (canvas 0x80800000 0 0x40000040).mem.wf := by decide

theorem test_witness_PixelsAreIndependent :
    quad.mem.wf ∧ CompositeReady .over solid quad ∧ DisjointPixels quad.conf quad.conf.dst (bpb solid.dfmt) ∧
      1 < quad.conf.rectW.toNat := by
  refine ⟨by decide, (compositeReady_iff _ _ _).2 ⟨by rfl, by rfl⟩, fun q hq q' hq' hne a h => ?_, by decide⟩
  have apart : ∀ q ∈ quad.conf.pixels, ∀ q' ∈ quad.conf.pixels, q ≠ q' →
      anyMeet [{ addr := quad.conf.dst.rectAddr 4 q.1 q.2, size := 4 }]
        [{ addr := quad.conf.dst.rectAddr 4 q'.1 q'.2, size := 4 }] = false := by decide
  exact not_covers_of_anyMeet (apart q hq q' hq' hne) h.1 h.2

/-- A source and a mask from memory: the mask pixel's lanes exist for every format, in both mask modes. -/
theorem test_witness_of_the_input_clauses :
    (solid.ssolid = true ∧ solid.mmode = .noMask) ∧ (fields.ssolid = false ∧ fields.mmode = .perComponent ∧
      fields.msolid = true) ∧ ({ fields with mmode := .uniform, msolid := false } : KFields).msolid = false ∧
      ∃ mp : Nat → Nat, ∀ n < 4, mp n = if fields.msolid = true then channel imageQ.conf.solidMsk.toNat n
        else storedLane fields.mfmt imageQ.mem 0x2000 n :=
  ⟨by decide, by decide, by decide, ⟨_, fun _ _ => rfl⟩⟩

/-- A uniform A8 mask in memory: `LoadPixel` gives the mask byte as alpha. -/
theorem test_uniform_mask_in_memory :
    maskVector { fields with mmode := .uniform, msolid := false }
      { imageQ.conf with msk := { row 0x2003 1 with stride := 1 } } imageQ.mem 0 0 = some (bcast 0xFF) := by decide

theorem test_witness_CompositeFrame : quad.mem.wf ∧ ∃ t, exec (.composite solid .over) quad = .next t :=
  ⟨by decide, ⟨_, rfl⟩⟩

/-- The policies and samplings, at coordinates on and beside the edges of image Q. -/
theorem test_witness_SamplingAndEdgePolicies :
    scaled.edge = .pad ∧ fields.sample = .bilinear ∧ solid.edge = .outside ∧ solid.sample = .identity ∧
      ({ scaled with sample := .nearest } : KFields).sample = .nearest ∧ (0 : Int) ≤ 1 ∧ 1 < imageQ.conf.src.width.toNat ∧
      (2 : Int) < imageQ.conf.src.height.toNat ∧ (-1 : Int) < 0 ∧ (imageQ.conf.src.width.toNat : Int) ≤ 2 := by decide

/-- A slot that is valid, with a tag. -/
def held (lock : Bool) (tag : BitVec 16) : Slot := { valid := true, lock := lock, tag := tag, data := [] }

/-- The victim's three cases: an invalid slot, a slot whose tag is not the pending row, and neither. -/
theorem test_witness_VictimChoice :
    (({ State.reset.cache with slot0 := held false 5 } : Cache).victim (some 5) = .s1) ∧
      (({ State.reset.cache with slot0 := held false 5, slot1 := held false 6 } : Cache).victim (some 5) = .s1) ∧
      (({ State.reset.cache with slot0 := held true 5, slot1 := held false 6 } : Cache).victim (some 6) = .s1) ∧
      ({ State.reset.cache with slot0 := held false 6, slot1 := held false 6 } : Cache).victim (some 6) = .s0 := by
  decide

/-- A request on image Q: a miss, with the rows on chip or in scratch, and a hit. -/
theorem test_witness_RowRequests :
    imageQ.mem.wf ∧ 2 < imageQ.conf.src.height.toNat ∧ cacheUsed scaled imageQ.conf = true ∧
      (∀ p ∈ [chip 0, chip 1], ∀ a, Covers ((List.range imageQ.conf.src.width.toNat).map fun x =>
        srcAccess scaled imageQ.conf x 2) a → ¬ Covers (scratchAccesses p scaled imageQ.conf) a) ∧
      (∀ i, (imageQ.cache.slot i).valid = true → (imageQ.cache.slot i).tag.toNat ≠ 2) ∧
      (({ imageQ.cache with slot1 := held false 2 } : Cache).slot .s1).valid = true ∧
      (({ imageQ.cache with slot1 := held false 2 } : Cache).slot .s1).tag.toNat = 2 := by
  refine ⟨by decide, by decide, by decide, fun p hp a h => ?_, fun i => by cases i <;> decide, by decide, by decide⟩
  have apart : ∀ p ∈ [chip 0, chip 1], anyMeet ((List.range imageQ.conf.src.width.toNat).map fun x =>
      srcAccess scaled imageQ.conf x 2) (scratchAccesses p scaled imageQ.conf) = false := by decide
  exact not_covers_of_anyMeet (apart p hp) h

/-- A destination row may need no row of the source, one, or two. -/
theorem test_witness_of_the_row_pairs :
    rowPair { scaled with edge := .outside } (tall 3 1 0x10000 0x50000).conf 0 = (none, none) ∧
      rowPair { scaled with edge := .outside } (tall 3 1 0x10000 0x20000).conf 0 = (some 2, none) ∧
      rowPair { scaled with edge := .outside } (tall 3 1 0x10000 0xFFFF8000).conf 0 = (none, some 0) ∧
      rowPair scaled (tall 8 2 0x10000 0x50000).conf 0 = (some 5, some 6) := by decide

/-- Each set-up of the traces is a COMPOSITE that runs its pixel phase through the cache. -/
theorem test_witness_CachedCompositeTrace :
    (imageQ.mem.wf ∧ cacheUsed scaled imageQ.conf = true ∧ CompositeReady .src scaled imageQ ∧
        (imageQ.conf.src.height = 3 ∧ imageQ.conf.rectH = 4 ∧ imageQ.conf.xform.f.toInt = 0 ∧
          imageQ.conf.xform.e.toInt = 32768) ∧ externalScratch (chip 0) imageQ.conf = true ∧ (rowTrace scaled imageQ.conf).decoded ≠ []) ∧
      CompositeReady .src scaled (tall 8 2 0x10000 0x50000) ∧ CompositeReady .src scaled (tall 8 2 0xFFFF0000 0x50000) ∧
      CompositeReady .src scaled (tall 8 1 0x10000 0xFFFF0000) ∧
      CompositeReady .src { scaled with edge := .outside } (tall 3 1 0x10000 0xFFFF8000) ∧
      CompositeReady .src { scaled with edge := .outside } (tall 3 1 0x10000 0x20000) ∧
      CompositeReady .src { scaled with edge := .outside } (tall 3 1 0x10000 0x50000) := by
  refine ⟨⟨by decide, by decide, test_witness_CompositeReady_through_the_cache, by decide, by decide, by decide⟩, ?_, ?_, ?_, ?_,
    ?_, ?_⟩ <;>
  · refine ready_by_cases fun external h => ?_
    simp only [compositePlan, needsScratch, compositeFootprint, compositeAliased, scratchAccesses, scratchWrites, h]
    cases external <;> exact ⟨by rfl, by rfl⟩

theorem test_witness_UncachedCountersStayZero :
    CompositeReady .src solid quad ∧ cacheUsed solid quad.conf = false :=
  ⟨(compositeReady_iff _ _ _).2 ⟨by rfl, by rfl⟩, by decide⟩

/-! FILL and BLIT. -/

theorem test_witness_FillWritesTheRectangle :
    (board 0xABCDABCD).mem.wf ∧
      (board 0xABCDABCD).conf.fillValue.toNat / 2 ^ 16 = (board 0xABCDABCD).conf.fillValue.toNat % 2 ^ 16 ∧
      (board 0xABCDABCD).conf.rectW ≠ 0 ∧ (board 0xABCDABCD).conf.rectH ≠ 0 ∧
      RectFits (board 0xABCDABCD).conf (board 0xABCDABCD).conf.dst (16 / 8) ∧
      RectFits (board 0xABCDABCD).conf (board 0xABCDABCD).conf.dst (32 / 8) ∧
      Ordinary (board 0xABCDABCD)
        ((board 0xABCDABCD).conf.rectAccesses (board 0xABCDABCD).conf.dst (32 / 8)) := by
  refine ⟨by decide, by decide, by decide, by decide, ?_, ?_, ordinary_everywhere rfl _⟩ <;>
    (unfold RectFits; decide)

/-- The board with its source at another address. -/
def boardFrom (base : Word) : Conf := { (board 0).conf with src := row base 2 }

theorem test_witness_of_the_blit_statements :
    (board 0).mem.wf ∧ (board 0).conf.rectW ≠ 0 ∧ (board 0).conf.rectH ≠ 0 ∧
      (∀ base ∈ [0x5000#32, 0x6000#32, 0x6004#32], RectFits (boardFrom base) (boardFrom base).src (32 / 8) ∧
        RectFits (boardFrom base) (boardFrom base).dst (32 / 8)) ∧
      Ordinary (board 0) ((board 0).conf.rectAccesses (board 0).conf.src (32 / 8)
        ++ (board 0).conf.rectAccesses (board 0).conf.dst (32 / 8)) ∧
      (∀ a, Covers ((board 0).conf.rectAccesses (board 0).conf.src (32 / 8)) a →
        ¬ Covers ((board 0).conf.rectAccesses (board 0).conf.dst (32 / 8)) a) ∧
      (∀ q ∈ (boardFrom 0x6000).pixels,
        (boardFrom 0x6000).src.rectAddr (32 / 8) q.1 q.2 = (boardFrom 0x6000).dst.rectAddr (32 / 8) q.1 q.2) ∧
      (∃ q ∈ (boardFrom 0x6004).pixels,
        (boardFrom 0x6004).src.rectAddr (32 / 8) q.1 q.2 ≠ (boardFrom 0x6004).dst.rectAddr (32 / 8) q.1 q.2) ∧
      ∃ a, Covers ((boardFrom 0x6004).rectAccesses (boardFrom 0x6004).src (32 / 8)) a ∧
        Covers ((boardFrom 0x6004).rectAccesses (boardFrom 0x6004).dst (32 / 8)) a := by
  refine ⟨by decide, by decide, by decide, ?_, ordinary_everywhere rfl _, fun a h => ?_, by decide, by decide,
    0x6004, ?_, ?_⟩
  · unfold RectFits
    intro base hb
    fin_cases hb <;> decide
  · exact not_covers_of_anyMeet (xs := (board 0).conf.rectAccesses (board 0).conf.src (32 / 8)) (by decide) h
  · unfold Covers
    decide
  · unfold Covers
    decide

/-- A word of each clause of FILL's and BLIT's order (2.5). -/
theorem test_witness_FillAndBlitCheckOrder :
    statusOf (issue 0x85800000#32 (board 0)) = some 0x304 ∧ statusOf (issue 0x85000000#32 (board 0x1234ABCD)) = some 0x404 ∧
      statusOf (issue 0x85000000#32 State.reset) = some 2 ∧
      statusOf (issue 0x86000000#32 { board 0 with conf := { (board 0).conf with dst := row 0x6002 2 } }) = some 0x504 ∧
      statusOf (issue 0x86000000#32 { board 0 with conf := { (board 0).conf with dst := row 0x6000 1 } }) = some 0x604 ∧
      statusOf (issue 0x88820000#32 (board 0)) = some 0x304 ∧ statusOf (issue 0x89080000#32 (board 0)) = some 0x404 ∧
      statusOf (issue 0x8A080000#32 State.reset) = some 2 ∧
      statusOf (issue 0x8A080000#32 { board 0 with conf := boardFrom 0x5002 }) = some 0x504 ∧
      statusOf (issue 0x8A080000#32 (board 0)) = some 2 ∧
      statusOf (issue 0x8A080000#32 { board 0 with conf := { (board 0).conf with src := row 0x5000 1 } }) = some 0x604 := by
  decide

/-! The outside world. -/

theorem test_witness_HostRaceIsAContractFault :
    busyFill.status.busy = true ∧ decodeWord busyFill.cmd = .ok (.fill 32) ∧
      (∃ a, Covers [{ addr := 0x6007#32, size := 1 }] a ∧
        Covers ((instrPlan busyFill (.fill 32)).footprint.reads ++ (instrPlan busyFill (.fill 32)).footprint.writes) a) ∧
      (board 0).status.busy = false ∧ (board 0).platform = [] := by
  refine ⟨by decide, by decide, ⟨0x6007, ?_⟩, by decide, by decide⟩
  unfold Covers
  decide

/-- An access beside a running command's sets, and one into another instance's. -/
theorem test_witness_of_the_host_access_clauses :
    ({ busyFill with peers := (beside 0x6010).peers } : State).status.busy = true ∧
      { peer := 0, sets := writing 0x6010 } ∈ (beside 0x6010).peers ∧
      (∃ a, Covers [{ addr := 0x6013#32, size := 1 }] a ∧
        Covers ((writing 0x6010).reads ++ (writing 0x6010).writes) a) ∧
      ∀ a, Covers [{ addr := 0x6008#32, size := 4 }] a →
        ¬ Covers ((instrPlan busyFill (.fill 32)).footprint.reads ++ (instrPlan busyFill (.fill 32)).footprint.writes) a ∧
        ¬ Covers ((writing 0x6010).reads ++ (writing 0x6010).writes) a := by
  refine ⟨by decide, by decide, ⟨0x6013, ?_⟩, fun a ha => ⟨?_, ?_⟩⟩
  · unfold Covers
    decide
  · exact not_covers_of_anyMeet (xs := [{ addr := 0x6008#32, size := 4 }]) (by decide) ha
  · exact not_covers_of_anyMeet (xs := [{ addr := 0x6008#32, size := 4 }]) (by decide) ha

/-- On a system with more than one instance. -/
theorem test_witness_OtherInstancesMustNotAlias (h : 1 < Config.params.numInstances) :
    0 + 1 < Config.params.numInstances ∧ busyFill.status.busy = true ∧ decodeWord busyFill.cmd = .ok (.fill 32) ∧
      busyFill.platform = [] ∧
      (∃ a, Covers [{ addr := 0x6007#32, size := 1 }] a ∧
        Covers (instrPlan busyFill (.fill 32)).footprint.writes a) ∧
      ∀ a, Covers [{ addr := 0x6008#32, size := 4 }] a → ¬ Covers (instrPlan busyFill (.fill 32)).footprint.writes a := by
  refine ⟨h, by decide, by decide, by decide, ⟨0x6007, ?_⟩, fun a ha => ?_⟩
  · unfold Covers
    decide
  · exact not_covers_of_anyMeet (xs := [{ addr := 0x6008#32, size := 4 }]) (by decide) ha

/-- On the same system: a command that starts over a running one's sets and one that starts apart, a word accepted over
another's sets, and a running command of another instance with its own access. -/
theorem test_witness_of_the_peer_clauses (h : 1 < Config.params.numInstances) :
    (∀ q ∈ busyFill.peers, q.peer ≠ 0) ∧ (writing 0x6004).contractFault busyFill.platform = none ∧
      ¬ Apart (instrPlan busyFill (.fill 32)).footprint (writing 0x6004) ∧
      Apart (instrPlan busyFill (.fill 32)).footprint (writing 0x6008) ∧
      (beside 0x6004).status.busy = false ∧ ¬ (beside 0x6004).ApartFromPeers 0x86000000 ∧ (beside 0x6008).Inv ∧
      { peer := 0, sets := writing 0x6008 } ∈ (beside 0x6008).peers ∧
      ∀ a, Covers [{ addr := 0x6008#32, size := 2 }] a → Covers (writing 0x6008).writes a := by
  have meet : Covers (instrPlan busyFill (.fill 32)).footprint.writes 0x6004 ∧
      Covers ((writing 0x6004).reads ++ (writing 0x6004).writes) 0x6004 := by
    unfold Covers
    decide
  refine ⟨nofun, by decide, fun hn => (hn _).1 meet, fun a => ⟨fun hc => ?_, fun hc => ?_⟩, by decide,
    fun hn => (hn (.fill 32) (by decide) _ (List.mem_singleton.mpr rfl) _).1 meet,
    ⟨by decide, by decide, by decide, by decide, fun i => by cases i <;> decide, by decide, by decide,
      fun q hq => ?_⟩, by decide, fun a ha => ?_⟩
  · exact not_covers_of_anyMeet (ys := (writing 0x6008).reads ++ (writing 0x6008).writes) (by decide) hc.1 hc.2
  · exact not_covers_of_anyMeet (ys := (writing 0x6008).writes) (by decide) hc.1 hc.2
  · obtain rfl := List.mem_singleton.mp hq
    exact ⟨Nat.lt_of_succ_lt_succ h, by decide⟩
  · simp only [Covers, writing, List.mem_singleton, exists_eq_left, Access.covers, decide_eq_true_eq] at ha ⊢
    exact Nat.lt_of_lt_of_le ha (by decide)

end Sys2Proof.Tests
end

section
/-! Proofs, family `00_scope`: byte addresses of a multi-byte access, and its store read back (O18). -/

namespace Sys2Proof.Machine

/-- Byte `d` of an access at `a` is at distance `d` from `a`, also where the address wraps (R10, R61). -/
theorem Access.add_ofNat_sub (a : Word) {d : Nat} (hd : d < 2 ^ 32) : (a + BitVec.ofNat 32 d - a).toNat = d := by
  rw [BitVec.add_comm, BitVec.add_sub_cancel, BitVec.toNat_ofNat, Nat.mod_eq_of_lt hd]

/-- Byte `d` of a multi-byte store, named by its offset, is byte `d` of the value (R10, R61). -/
theorem Memory.readByte_write_offset {m : Memory} (hm : m.wf) (a : Word) {n d : Nat} (v : Nat) (hd : d < n)
    (hn : n ≤ 2 ^ 32) :
    Memory.readByte (m.write a n v) (a + BitVec.ofNat 32 d).toNat = BitVec.ofNat 8 (v / 256 ^ d) := by
  have hdist : (a + BitVec.ofNat 32 d - a).toNat = d := Access.add_ofNat_sub a (Nat.lt_of_lt_of_le hd hn)
  rw [Memory.readByte_write_inside hm a _ n v (by rwa [hdist]) hn, hdist]

/-- A list of one access covers the bytes of that access only. -/
theorem not_covers_singleton {x : Access} {a : Word} : ¬ Covers [x] a ↔ x.covers a = false := by
  simp [Covers]

/-- Settles O18: the store keeps the canonical form, reads back, holds each byte of the value at its offset modulo 2^32,
and leaves every byte it does not cover. -/
theorem memoryIsLittleEndianAndWraps : Obligations.MemoryIsLittleEndianAndWraps := by
  intro m hm a n v hn
  refine ⟨Memory.wf_write hm a n v, Memory.read_write hm a n v hn, fun d hd => ?_, fun x hx => ?_⟩
  · exact Memory.readByte_write_offset hm a v hd hn
  · exact readByte_write_of_not_covers hm v (not_covers_singleton.1 hx)

end Sys2Proof.Machine
end

section
/-! Proofs, family `10_state`: what one step can do to the block, said once as inversion lemmas, and from it the
invariant (O3) and the configuration lock (O4). -/

namespace Sys2Proof.Machine

/-! What a command leaves unchanged. -/

/-- The cache is torn down: both slots are invalid, unlocked and without data (R39, R247). -/
def Cache.TornDown (c : Cache) : Prop :=
  ∀ i, (c.slot i).valid = false ∧ (c.slot i).lock = false ∧ (c.slot i).data = []

/-- How the state after a command stands to the state before it, whatever the command: the settings of the block and
its surroundings are kept, memory stays canonical, and a cache that was torn down is so again. -/
structure CommandFrame (s t : State) : Prop where
  ctrl : t.ctrl = s.ctrl
  conf : t.conf = s.conf
  platform : t.platform = s.platform
  peers : t.peers = s.peers
  memory : s.mem.wf → t.mem.wf
  tornDown : s.cache.TornDown → t.cache.TornDown

theorem CommandFrame.raiseFail (s : State) (c : ErrCode) : CommandFrame s (s.raiseFail c) :=
  ⟨rfl, rfl, rfl, rfl, id, id⟩

theorem CommandFrame.endSuccess {s u : State} (h : CommandFrame s u) : CommandFrame s u.endSuccess :=
  ⟨h.ctrl, h.conf, h.platform, h.peers, h.memory, h.tornDown⟩

theorem CommandFrame.refl (s : State) : CommandFrame s s := ⟨rfl, rfl, rfl, rfl, id, id⟩

theorem CommandFrame.writeLane (s : State) (rd : LReg) (v : Wide) : CommandFrame s (s.writeLane rd v) :=
  ⟨rfl, rfl, rfl, rfl, id, id⟩

theorem CommandFrame.withMem (s : State) {m : Memory} (hm : s.mem.wf → m.wf) : CommandFrame s (s.withMem m) :=
  ⟨rfl, rfl, rfl, rfl, hm, id⟩

theorem CommandFrame.clearCounters (s : State) : CommandFrame s (s.withCache s.cache.clearCounters) :=
  ⟨rfl, rfl, rfl, rfl, id, fun h i => by
    rw [State.withCache_cache, Cache.slot_clearCounters]
    exact h i⟩

theorem CommandFrame.afterComposite (p : Config.Params) (op : Op) (k : KFields) (s : State) :
    CommandFrame s (s.afterComposite p op k) :=
  ⟨rfl, rfl, rfl, rfl, compositeRun_wf p op k s.conf s.cache, compositeRun_slots p op k s.conf s.mem⟩

/-- Every next state the outcome can be stands to `s` as a command's does. -/
def Framed (s : State) (o : Host.Outcome State Fault Refusal) : Prop := ∀ t, o = .next t → CommandFrame s t

theorem Framed.next {s u : State} (h : CommandFrame s u) : Framed s (.next u) := by
  rintro t ⟨⟩
  exact h

theorem Framed.fault (s : State) (f : Fault) : Framed s (.fault f) := by
  intro t h
  cases h

theorem withLane_framed {s : State} (r : LReg) {k : Wide → Host.Outcome State Fault Refusal}
    (hk : ∀ v, Framed s (k v)) : Framed s (s.withLane r k) := fun t h => hk _ t (withLane_next h).2

theorem withHalf_framed {s : State} (r : LReg) (half : WHalf) {k : Word → Host.Outcome State Fault Refusal}
    (hk : ∀ v, Framed s (k v)) : Framed s (s.withHalf r half k) := fun t h => hk _ t (withHalf_next h).2

theorem finishLane_framed (s : State) (rd : LReg) (r : Except ErrCode Wide) : Framed s (s.finishLane rd r) := by
  intro t h
  obtain ⟨v, -, rfl⟩ | ⟨c, -, rfl⟩ := finishLane_next h
  · exact (CommandFrame.writeLane s rd v).endSuccess
  · exact CommandFrame.raiseFail s c

theorem runPlan_framed (s : State) (plan : Plan) {run : Memory → Bus} (hrun : s.mem.wf → (run s.mem).mem.wf) :
    Framed s (s.runPlan plan run) := by
  obtain ⟨c, -, h⟩ | ⟨-, h⟩ | ⟨_, f, -, -, h⟩ | ⟨_, -, -, h⟩ := runPlan_cases s plan run <;> rw [h]
  · exact .next (CommandFrame.raiseFail s c)
  · exact .next (CommandFrame.refl s).endSuccess
  · exact .fault s f
  · exact .next (CommandFrame.withMem s hrun).endSuccess

theorem compositeWith_framed (p : Config.Params) (op : Op) (k : KFields) (s : State) :
    Framed s (compositeWith p op k s) := by
  obtain ⟨c, -, h⟩ | ⟨-, h⟩ | ⟨_, f, -, -, h⟩ | ⟨_, -, -, h⟩ := compositeWith_cases p op k s <;> rw [h]
  · exact .next (CommandFrame.raiseFail s c)
  · exact .next (CommandFrame.clearCounters s).endSuccess
  · exact .fault s f
  · exact .next (CommandFrame.afterComposite p op k s).endSuccess

/-- Every command keeps the settings and the surroundings (R41, R290, R296). -/
theorem exec_framed (i : Instr) (s : State) : Framed s (exec i s) := by
  cases i with
  | nop => exact .next (CommandFrame.refl s).endSuccess
  | lmul rd ra rb | ladds rd ra rb | lpack565 rd ra rb idx | linterp rd ra rb distx disty =>
    exact withLane_framed ra fun _ => withLane_framed rb fun _ => finishLane_framed s rd _
  | lmuladd rd ra rb rc re =>
    exact withLane_framed ra fun _ => withLane_framed rb fun _ => withLane_framed rc fun _ =>
      withLane_framed re fun _ => finishLane_framed s rd _
  | lneg rd ra | lbca rd ra | lbcl rd ra | lswaprb rd ra | lpack32 rd ra | lunpk565 rd ra idx =>
    exact withLane_framed ra fun _ => finishLane_framed s rd _
  | lunpk32 rd ra half => exact withHalf_framed ra half fun _ => finishLane_framed s rd _
  | compositeSrc k | compositeOver k | compositeOverReverse k | compositeIn k | compositeInReverse k | compositeOut k
  | compositeOutReverse k | compositeAtop k | compositeAtopReverse k | compositeXor k | compositeAdd k
  | compositeSaturate k => exact compositeWith_framed Config.params _ k s
  | fill bpp => exact runPlan_framed s _ fun hm => (fillRun_spec bpp s.conf hm).1
  | blit sbpp dbpp => exact runPlan_framed s _ fun hm => (blitRun_spec (sbpp / 8) s.conf hm).1

/-! STATUS. -/

/-- What the invariant says of STATUS alone (R27, R290, R291, R296). -/
structure Status.Consistent (st : Status) : Prop where
  running : st.busy = true → st.done = false ∧ st.fail = false
  ended : ¬ (st.done = true ∧ st.fail = true)
  errorCode : st.fail = true ↔ st.err ≠ .noError

theorem Status.consistent_doneWith (st : Status) : st.doneWith.Consistent :=
  ⟨nofun, by simp [Status.doneWith], by simp [Status.doneWith]⟩

theorem Status.consistent_failWith (st : Status) {c : ErrCode} (hc : c ≠ .noError) : (st.failWith c).Consistent :=
  ⟨nofun, by simp [Status.failWith], by simp [Status.failWith, hc]⟩

theorem Status.Consistent.hostWrite {st : Status} (h : st.Consistent) (v : Word) : (st.hostWrite v).Consistent := by
  obtain ⟨hrun, hend, herr⟩ := h
  refine ⟨fun hb => ?_, ?_, ?_⟩
  · simp [Status.hostWrite, hrun hb]
  · rintro ⟨hd, hf⟩
    simp only [Status.hostWrite, Bool.and_eq_true] at hd hf
    exact hend ⟨hd.1, hf.1⟩
  · cases hv : v.getLsbD 2 <;> simp only [Status.hostWrite, hv] <;> simp [herr]

theorem Status.Consistent.withOvr {st : Status} (h : st.Consistent) : st.withOvr.Consistent :=
  ⟨h.running, h.ended, h.errorCode⟩

/-- A command ends with success or under an error code, and then STATUS says so (R290, R296). -/
theorem exec_status {i : Instr} {s t : State} (h : exec i s = .next t) :
    t.status = s.status.doneWith ∨ ∃ c, c ≠ .noError ∧ t.status = s.status.failWith c := by
  obtain ⟨u, hu, hst⟩ | ⟨c, hc, hf⟩ | ⟨f, hf⟩ := exec_concludes i s
  · obtain rfl : u.endSuccess = t := by rw [h] at hu; cases hu; rfl
    exact .inl (by simp [Status.doneWith, hst])
  · obtain rfl : s.raiseFail c = t := by rw [h] at hf; cases hf; rfl
    exact .inr ⟨c, hc, rfl⟩
  · rw [h] at hf; cases hf

/-! What the block's turn can answer. -/

/-- The state after a turn in which a command ended: idle, with a consistent STATUS, and framed. -/
structure CommandEnded (s t : State) : Prop extends CommandFrame s t where
  idle : t.status.busy = false
  consistent : t.status.Consistent

theorem exec_ended {i : Instr} {s t : State} (h : exec i s = .next t) : CommandEnded s t := by
  obtain hst | ⟨c, hc, hst⟩ := exec_status h
  · exact ⟨exec_framed i s t h, by rw [hst]; rfl, hst ▸ s.status.consistent_doneWith⟩
  · exact ⟨exec_framed i s t h, by rw [hst]; rfl, hst ▸ s.status.consistent_failWith hc⟩

theorem raiseFail_ended (s : State) {c : ErrCode} (hc : c ≠ .noError) : CommandEnded s (s.raiseFail c) :=
  ⟨CommandFrame.raiseFail s c, rfl, s.status.consistent_failWith hc⟩

/-- The block does nothing, or its command ends (R106, R296, R308). -/
theorem blockTurn_next {s t : State} (h : blockTurn s = .next t) : t = s ∨ CommandEnded s t := by
  simp only [blockTurn] at h
  split at h
  · split at h
    · exact .inr (exec_ended h)
    · cases h
      exact .inr (raiseFail_ended s (by simp))
  · cases h
    exact .inl rfl

/-! What an action of the outside world can do. -/

/-- The state after the action `a` of the outside world that was neither a fault nor refused. -/
inductive OutsideMove (a : HostAction) (s : State) : State → Prop
  /-- an access outside the window or to an offset that names no CSR, or an action of no effect on the block -/
  | nothing : OutsideMove a s s
  /-- a host read -/
  | answered (v : Word) : OutsideMove a s (s.withHostData v)
  /-- a host read of a working register of a busy block (R299) -/
  | answeredFree (v : Word) : OutsideMove a s (s.withHostData v).drawn
  /-- a host write to a CSR of a busy block (R298) -/
  | wroteBusy (r : Csr) (v : Word) : OutsideMove a s (s.writeCsrBusy r v)
  /-- a host write to a CSR of an idle block -/
  | wroteIdle (r : Csr) (v : Word) (idle : s.status.busy = false)
      (apart : (s.writeCsr r v).clashesWithPeer = false) : OutsideMove a s (s.writeCsr r v)
  /-- a memory write of the host or of another PXCORE block -/
  | stored (addr : Word) (n v : Nat) : OutsideMove a s (s.withMem (s.mem.write addr n v))
  /-- another PXCORE block started a command (R306) -/
  | peerStarted (peer : Nat) (sets : Footprint) (isPeer : peer < Config.params.otherInstances)
      (free : s.peerRun peer = none) (contract : sets.contractFault s.platform = none)
      (apart : Apart s.runningFootprint sets) (peersApart : ∀ q ∈ s.peers, Apart sets q.sets) :
      OutsideMove a s (s.withPeers ({ peer, sets } :: s.peers))
  /-- another PXCORE block's command ended -/
  | peerEnded (peer : Nat) : OutsideMove a s (peerEnd peer s)
  /-- reset (R330, R331) -/
  | reset (isReset : a = .reset) (m : Memory) (memory : s.mem.wf → m.wf) : OutsideMove a s (s.resetBlock m)

theorem csrWrite_next {a : HostAction} {offset : BitVec 12} {size : Nat} {v : Word} {s t : State}
    (h : csrWrite offset size v s = .next t) : OutsideMove a s t := by
  simp only [csrWrite] at h
  split at h
  · cases h
  split at h
  · cases h
    exact .nothing
  next r _ =>
  split at h
  · cases h
    exact .wroteBusy r v
  next hidle =>
  simp only [State.afterWrite] at h
  split at h
  · cases h
  next hc =>
  cases h
  exact .wroteIdle r v (by simpa using hidle) (by simpa using hc)

theorem readCsr_next {a : HostAction} {r : Csr} {s t : State} (h : s.readCsr r = .next t) : OutsideMove a s t := by
  simp only [State.readCsr] at h
  split at h
  · cases h
  split at h
  · cases h
    exact .answeredFree _
  · cases h
    exact .answered _

theorem csrRead_next {a : HostAction} {offset : BitVec 12} {size : Nat} {s t : State}
    (h : csrRead offset size s = .next t) : OutsideMove a s t := by
  simp only [csrRead] at h
  split at h
  · cases h
  split at h
  · cases h
    exact .answered 0
  · exact readCsr_next h

theorem busAccessOutside_next {hostAddr size : Nat} {s t : State} (h : busAccessOutside hostAddr size s = .next t) :
    t = s := by
  simp only [busAccessOutside] at h
  split at h
  · cases h
  · cases h
    rfl

theorem hostAccess_next {x : Access} {s go t : State} (h : hostAccess x s go = .next t) : t = go := by
  simp only [hostAccess] at h
  split at h
  · cases h
  split at h
  · cases h
  · cases h
    rfl

theorem peerStart_next {a : HostAction} {peer : Nat} {sets : Footprint} {s t : State}
    (h : peerStart peer sets s = .next t) : OutsideMove a s t := by
  obtain ⟨-, he⟩ | ⟨⟨hex, hfree⟩, ⟨f, -, he⟩ | ⟨hc, ⟨-, he⟩ | ⟨hrun, hpeers, he⟩⟩⟩ :=
    peerStart_cases peer sets s <;>
    rw [h] at he <;> cases he
  · exact .nothing
  · exact .peerStarted peer sets hex hfree hc hrun hpeers

theorem peerAccess_next {peer : Nat} {x : Access} {isWrite : Bool} {s go t : State}
    (h : peerAccess peer x isWrite s go = .next t) : t = s ∨ t = go := by
  obtain he | he | he := peerAccess_cases peer x isWrite s go <;> rw [h] at he <;> cases he
  · exact .inl rfl
  · exact .inr rfl

theorem hostReset_next {s t : State} (h : hostReset s = .next t) : OutsideMove .reset s t := by
  simp only [hostReset] at h
  split at h
  · split at h
    · cases h
      exact .reset rfl _ id
    split at h
    · cases h
    · cases h
      exact .reset rfl _ (performed_wf s.draws 0 _)
  · cases h
    exact .reset rfl _ id

/-- Whatever the outside world does, it does one of the moves. -/
theorem hostAct_next {a : HostAction} {s t : State} (h : hostAct a s = .next t) : OutsideMove a s t := by
  cases a with
  | csrWrite offset size v => exact csrWrite_next h
  | csrRead offset size => exact csrRead_next h
  | busWrite hostAddr size v =>
    simp only [hostAct] at h
    split at h
    · exact csrWrite_next h
    · exact busAccessOutside_next h ▸ .nothing
  | busRead hostAddr size =>
    simp only [hostAct] at h
    split at h
    · exact csrRead_next h
    · exact busAccessOutside_next h ▸ .nothing
  | memWrite addr size v => exact hostAccess_next h ▸ .stored addr size v.toNat
  | memRead addr size => exact hostAccess_next h ▸ .answered _
  | peerStart peer sets => exact peerStart_next h
  | peerEnd peer =>
    cases h
    exact .peerEnded peer
  | peerWrite peer addr size v =>
    obtain rfl | rfl := peerAccess_next h
    · exact .nothing
    · exact .stored addr size v.toNat
  | peerRead peer addr size =>
    obtain rfl | rfl := peerAccess_next h <;> exact .nothing
  | reset => exact hostReset_next h

/-- A step is the block's turn or an action that was the next turn waiting; the turns to come are all else that it
changes. -/
theorem step_next {s t : State} (h : step s = .next t) : ∃ rest, blockTurn (s.withInputs rest) = .next t ∨
    ∃ a, s.inputs.head? = some (.host a) ∧ OutsideMove a (s.withInputs rest) t := by
  simp only [step] at h
  split at h
  next hin => exact ⟨[], .inl (by rwa [show s.withInputs [] = s by cases s; cases hin; rfl])⟩
  next rest _ => exact ⟨rest, .inl h⟩
  next a rest hin => exact ⟨rest, .inr ⟨a, by rw [hin]; rfl, hostAct_next h⟩⟩

/-! The invariant. -/

theorem State.Inv.consistent {s : State} (h : s.Inv) : s.status.Consistent := ⟨h.running, h.ended, h.errorCode⟩

/-- The invariant, for a state among the same other blocks on the same platform, from what it says of the parts. -/
theorem State.Inv.of_parts {s t : State} (h : s.Inv) (hpeers : t.peers = s.peers) (hplat : t.platform = s.platform)
    (hmem : t.mem.wf) (hcache : t.cache.TornDown) (hst : t.status.Consistent) (hc : t.clashesWithPeer = false) :
    t.Inv where
  memory := hmem
  running := hst.running
  ended := hst.ended
  errorCode := hst.errorCode
  slots := hcache
  apart := hc
  peersApart := by rw [hpeers]; exact h.peersApart
  peersKeepContract := by rw [hpeers, hplat]; exact h.peersKeepContract

theorem State.Inv.of_ended {s t : State} (h : s.Inv) (he : CommandEnded s t) : t.Inv :=
  h.of_parts he.peers he.platform (he.memory h.memory) (he.tornDown h.slots) he.consistent
    (clashesWithPeer_of_idle he.idle)

theorem State.Inv.resetBlock {s : State} (h : s.Inv) {m : Memory} (hm : m.wf) : (s.resetBlock m).Inv :=
  h.of_parts rfl rfl hm (fun i => by cases i <;> exact ⟨rfl, rfl, rfl⟩)
    ⟨nofun, by simp [State.resetBlock, State.reset], by simp [State.resetBlock, State.reset]⟩
    (clashesWithPeer_of_idle rfl)

/-- The running command's sets depend on BUSY, CMD, CTRL and the configuration only. -/
theorem runningFootprint_congr {s t : State} (hb : t.status.busy = s.status.busy) (hcmd : t.cmd = s.cmd)
    (hctrl : t.ctrl = s.ctrl) (hconf : t.conf = s.conf) : t.runningFootprint = s.runningFootprint := by
  simp only [State.runningFootprint, hb, hcmd, instrPlan_congr hconf hctrl]

@[simp] theorem State.withPeers_runningFootprint (s : State) (l : List PeerRun) :
    (s.withPeers l).runningFootprint = s.runningFootprint := runningFootprint_congr rfl rfl rfl rfl

/-- The same command runs in both states, or none, with the same settings and in the same surroundings. -/
structure SameCommand (s t : State) : Prop where
  busy : t.status.busy = s.status.busy
  cmd : t.cmd = s.cmd
  ctrl : t.ctrl = s.ctrl
  conf : t.conf = s.conf
  cache : t.cache = s.cache
  platform : t.platform = s.platform
  peers : t.peers = s.peers

/-- While the same command runs, the invariant is about memory and STATUS. -/
theorem State.Inv.of_sameCommand {s t : State} (h : s.Inv) (hs : SameCommand s t) (hmem : t.mem.wf)
    (hst : t.status.Consistent) : t.Inv := by
  have hc : t.clashesWithPeer = s.clashesWithPeer := by
    simp only [State.clashesWithPeer, runningFootprint_congr hs.busy hs.cmd hs.ctrl hs.conf, hs.peers]
  exact h.of_parts hs.peers hs.platform hmem (hs.cache ▸ h.slots) hst (hc.trans h.apart)

theorem State.Inv.withStatus {s : State} (h : s.Inv) {st : Status} (hst : st.Consistent)
    (hb : st.busy = s.status.busy) : (s.withStatus st).Inv :=
  h.of_sameCommand ⟨hb, rfl, rfl, rfl, rfl, rfl, rfl⟩ h.memory hst

theorem State.Inv.withMem {s : State} (h : s.Inv) {m : Memory} (hm : m.wf) : (s.withMem m).Inv :=
  h.of_sameCommand ⟨rfl, rfl, rfl, rfl, rfl, rfl, rfl⟩ hm h.consistent

theorem State.Inv.withInputs {s : State} (h : s.Inv) (l : List Turn) : (s.withInputs l).Inv :=
  h.of_sameCommand ⟨rfl, rfl, rfl, rfl, rfl, rfl, rfl⟩ h.memory h.consistent

theorem State.Inv.withHostData {s : State} (h : s.Inv) (v : Word) : (s.withHostData v).Inv :=
  h.of_sameCommand ⟨rfl, rfl, rfl, rfl, rfl, rfl, rfl⟩ h.memory h.consistent

theorem State.Inv.drawn {s : State} (h : s.Inv) : s.drawn.Inv :=
  h.of_sameCommand ⟨rfl, rfl, rfl, rfl, rfl, rfl, rfl⟩ h.memory h.consistent

theorem State.Inv.writeCsrBusy {s : State} (h : s.Inv) (r : Csr) (v : Word) : (s.writeCsrBusy r v).Inv := by
  simp only [State.writeCsrBusy]
  split
  · exact h.withStatus (h.consistent.hostWrite v) rfl
  · exact h.withStatus h.consistent.withOvr rfl

/-- What a host write to a CSR of an idle block leaves unchanged, whichever the register. -/
theorem writeCsr_frame (s : State) (r : Csr) (v : Word) : (s.writeCsr r v).peers = s.peers ∧
    (s.writeCsr r v).platform = s.platform ∧ (s.writeCsr r v).mem = s.mem ∧ (s.writeCsr r v).cache = s.cache := by
  cases r with
  | kenU | kenCa => simp only [State.writeCsr]; split <;> exact ⟨rfl, rfl, rfl, rfl⟩
  | id | ctrl | status | cmd | buf | rectW | rectH | solidSrc | solidMsk | fillValue | xform | scrBase | scrLen
  | cacheDecodes | cacheHits | slotState | slotTag | laneHalf => exact ⟨rfl, rfl, rfl, rfl⟩

/-- A host write to a CSR keeps STATUS consistent: STATUS and CMD alone change it. -/
theorem writeCsr_consistent {s : State} (h : s.status.Consistent) (r : Csr) (v : Word) :
    (s.writeCsr r v).status.Consistent := by
  cases r with
  | status => exact h.hostWrite v
  | cmd => exact ⟨fun _ => ⟨rfl, rfl⟩, by simp [State.writeCsr], by simp [State.writeCsr]⟩
  | kenU | kenCa => simp only [State.writeCsr]; split <;> exact h
  | id | ctrl | buf | rectW | rectH | solidSrc | solidMsk | fillValue | xform | scrBase | scrLen
  | cacheDecodes | cacheHits | slotState | slotTag | laneHalf => exact h

theorem State.Inv.writeCsr {s : State} (h : s.Inv) (r : Csr) (v : Word)
    (hc : (s.writeCsr r v).clashesWithPeer = false) : (s.writeCsr r v).Inv := by
  obtain ⟨hpeers, hplat, hmem, hcache⟩ := writeCsr_frame s r v
  exact h.of_parts hpeers hplat (hmem ▸ h.memory) (hcache ▸ h.slots) (writeCsr_consistent h.consistent r v) hc

theorem peerRun_eq_none {s : State} {peer : Nat} : s.peerRun peer = none ↔ ∀ q ∈ s.peers, q.peer ≠ peer := by
  simp [State.peerRun]

/-- One more command runs, another block's, and it keeps apart from all that run (R306). -/
theorem State.Inv.peerStarted {s : State} (h : s.Inv) {peer : Nat} {sets : Footprint}
    (hex : peer < Config.params.otherInstances) (hfree : s.peerRun peer = none)
    (hcon : sets.contractFault s.platform = none) (hrun : Apart s.runningFootprint sets)
    (hpeers : ∀ q ∈ s.peers, Apart sets q.sets) : (s.withPeers ({ peer, sets } :: s.peers)).Inv where
  memory := h.memory
  running := h.running
  ended := h.ended
  errorCode := h.errorCode
  slots := h.slots
  apart := by
    rw [clashesWithPeer_eq_false, State.withPeers_runningFootprint]
    exact List.forall_mem_cons.2 ⟨hrun, clashesWithPeer_eq_false.1 h.apart⟩
  peersApart := List.pairwise_cons.2
    ⟨fun q hq => ⟨(peerRun_eq_none.1 hfree q hq).symm, clashes_eq_false.2 (hpeers q hq)⟩, h.peersApart⟩
  peersKeepContract := List.forall_mem_cons.2 ⟨⟨hex, hcon⟩, h.peersKeepContract⟩

/-- A command fewer runs, another block's. -/
theorem State.Inv.peerEnded {s : State} (h : s.Inv) (peer : Nat) : (peerEnd peer s).Inv where
  memory := h.memory
  running := h.running
  ended := h.ended
  errorCode := h.errorCode
  slots := h.slots
  apart := by
    rw [clashesWithPeer_eq_false, peerEnd, State.withPeers_runningFootprint]
    exact fun q hq => clashesWithPeer_eq_false.1 h.apart q (List.mem_of_mem_filter hq)
  peersApart := h.peersApart.filter _
  peersKeepContract := fun q hq => h.peersKeepContract q (List.mem_of_mem_filter hq)

/-- The outside world keeps the invariant. -/
theorem OutsideMove.inv {a : HostAction} {s t : State} (hm : OutsideMove a s t) (h : s.Inv) : t.Inv := by
  cases hm with
  | nothing => exact h
  | answered v => exact h.withHostData v
  | answeredFree v => exact (h.withHostData v).drawn
  | wroteBusy r v => exact h.writeCsrBusy r v
  | wroteIdle r v _ apart => exact h.writeCsr r v apart
  | stored addr n v => exact h.withMem (Memory.wf_write h.memory addr n v)
  | peerStarted _ _ isPeer free contract apart peersApart =>
    exact h.peerStarted isPeer free contract apart peersApart
  | peerEnded peer => exact h.peerEnded peer
  | reset _ _ memory => exact h.resetBlock (memory h.memory)

/-- Settles O3: the block's turn ends a command or does nothing, and each move of the outside world keeps what the
invariant says. -/
theorem everyStepKeepsTheInvariant : Obligations.EveryStepKeepsTheInvariant := by
  intro s t h hstep
  obtain ⟨rest, hblock | ⟨a, -, hmove⟩⟩ := step_next hstep
  · obtain rfl | hended := blockTurn_next hblock
    · exact h.withInputs rest
    · exact (h.withInputs rest).of_ended hended
  · exact hmove.inv (h.withInputs rest)

/-! The configuration lock. -/

/-- The lock is set and the kernel tables are those of `s` (R26, R29, R30). -/
structure LockKept (s t : State) : Prop where
  locked : t.ctrl.cfgLock = true
  kenU : t.conf.kenU = s.conf.kenU
  kenCa : t.conf.kenCa = s.conf.kenCa

theorem LockKept.of_same {s t : State} (hl : s.ctrl.cfgLock = true) (hctrl : t.ctrl = s.ctrl)
    (hconf : t.conf = s.conf) : LockKept s t := ⟨by rw [hctrl, hl], by rw [hconf], by rw [hconf]⟩

/-- Under the lock no host write to a CSR clears it or changes a kernel table. -/
theorem writeCsr_lockKept {s : State} (hl : s.ctrl.cfgLock = true) (r : Csr) (v : Word) :
    LockKept s (s.writeCsr r v) := by
  cases r with
  | ctrl => exact ⟨by simp [State.writeCsr, Ctrl.hostWrite, hl], rfl, rfl⟩
  | kenU | kenCa =>
    simp only [State.writeCsr, hl, if_true]
    exact .of_same hl rfl rfl
  | buf b _ => cases b <;> exact ⟨hl, rfl, rfl⟩
  | rectW | rectH | solidSrc | solidMsk | fillValue | xform | scrBase | scrLen => exact ⟨hl, rfl, rfl⟩
  | id | status | cmd | cacheDecodes | cacheHits | slotState | slotTag | laneHalf => exact .of_same hl rfl rfl

theorem writeCsrBusy_lockKept {s : State} (hl : s.ctrl.cfgLock = true) (r : Csr) (v : Word) :
    LockKept s (s.writeCsrBusy r v) := by
  simp only [State.writeCsrBusy]
  split <;> exact .of_same hl rfl rfl

/-- Of all moves of the outside world, a reset alone touches the lock. -/
theorem OutsideMove.lockKept {a : HostAction} {s t : State} (hm : OutsideMove a s t) (ha : a ≠ .reset)
    (hl : s.ctrl.cfgLock = true) : LockKept s t := by
  cases hm with
  | wroteBusy r v => exact writeCsrBusy_lockKept hl r v
  | wroteIdle r v => exact writeCsr_lockKept hl r v
  | reset isReset => exact absurd isReset ha
  | nothing | answered | answeredFree | stored | peerStarted | peerEnded => exact .of_same hl rfl rfl

/-- Settles O4: a command writes no CTRL and no configuration, and of the moves of the outside world a reset alone
touches the lock. -/
theorem configurationLockHoldsUntilReset : Obligations.ConfigurationLockHoldsUntilReset := by
  intro s t hl hin hstep
  obtain ⟨rest, hkept⟩ : ∃ rest, LockKept (s.withInputs rest) t := by
    obtain ⟨rest, hblock | ⟨a, ha, hmove⟩⟩ := step_next hstep
    · obtain rfl | hended := blockTurn_next hblock
      · exact ⟨rest, .of_same hl rfl rfl⟩
      · exact ⟨rest, .of_same hl hended.ctrl hended.conf⟩
    · exact ⟨rest, hmove.lockKept (fun h => hin (h ▸ ha)) hl⟩
  exact ⟨hkept.locked, hkept.kenU, hkept.kenCa⟩

end Sys2Proof.Machine
end

section
/-! Proofs, family `10_state`: an instruction that reads a lane register half never written (O33). -/

namespace Sys2Proof.Machine

/-- Some half of the list has its mark clear (R22). -/
def State.Unwritten (s : State) (l : List (LReg × WHalf)) : Prop :=
  ∃ q ∈ l, (s.regs.get q.1).written q.2 = false

theorem State.not_unwritten_nil (s : State) : ¬ s.Unwritten [] := by
  rintro ⟨q, hq, -⟩
  cases hq

/-- A register with an unwritten half is not readable, or the unwritten half is one of the rest. -/
theorem State.unwritten_register {s : State} {r : LReg} {l : List (LReg × WHalf)}
    (h : s.Unwritten ((r, .lo) :: (r, .hi) :: l)) : ¬ s.Readable r ∨ s.Unwritten l := by
  obtain ⟨q, hq, hw⟩ := h
  obtain rfl | rfl | hq : q = (r, .lo) ∨ q = (r, .hi) ∨ q ∈ l := by simpa using hq
  · exact .inl fun hr => by simp [LaneReg.written, hr.1] at hw
  · exact .inl fun hr => by simp [LaneReg.written, hr.2] at hw
  · exact .inr ⟨q, hq, hw⟩

/-- A read of a whole register faults at once, or the reads after it do (R120 step 2). -/
theorem withLane_faults {s : State} {r : LReg} {l : List (LReg × WHalf)}
    {k : Wide → Host.Outcome State Fault Refusal} (h : s.Unwritten ((r, .lo) :: (r, .hi) :: l))
    (hk : s.Unwritten l → ∀ v, k v = .fault .unwrittenW) : s.withLane r k = .fault .unwrittenW := by
  by_cases hr : s.Readable r
  · rw [withLane_of_readable hr]
    exact hk ((State.unwritten_register h).resolve_left (not_not_intro hr)) _
  · exact withLane_of_not_readable hr k

/-- A read of the last whole register of an instruction. -/
theorem withLane_faults_last {s : State} {r : LReg} {k : Wide → Host.Outcome State Fault Refusal}
    (h : s.Unwritten [(r, .lo), (r, .hi)]) : s.withLane r k = .fault .unwrittenW :=
  withLane_faults h fun hnil => absurd hnil s.not_unwritten_nil

/-- A read of one half (R151). -/
theorem withHalf_faults {s : State} {r : LReg} {half : WHalf} {k : Word → Host.Outcome State Fault Refusal}
    (h : s.Unwritten [(r, half)]) : s.withHalf r half k = .fault .unwrittenW := by
  have hw : (s.regs.get r).written half = false := by simpa [State.Unwritten] using h
  simp [State.withHalf, LaneReg.readHalf?, hw]

/-- Settles O33, source register by source register in the order in which the instruction reads them. -/
theorem unwrittenHalfIsAContractFault : Obligations.UnwrittenHalfIsAContractFault := by
  intro i s (h : s.Unwritten (readsHalves i))
  cases i with
  | lneg rd ra | lbca rd ra | lbcl rd ra | lswaprb rd ra | lpack32 rd ra | lunpk565 rd ra idx =>
    exact withLane_faults_last h
  | lunpk32 rd ra half => exact withHalf_faults h
  | lmul rd ra rb | ladds rd ra rb | lpack565 rd ra rb idx | linterp rd ra rb distx disty =>
    exact withLane_faults h fun hb _ => withLane_faults_last hb
  | lmuladd rd ra rb rc re =>
    exact withLane_faults h fun hb _ => withLane_faults hb fun hc _ => withLane_faults hc fun he _ =>
      withLane_faults_last he
  | nop | compositeSrc | compositeOver | compositeOverReverse | compositeIn | compositeInReverse | compositeOut
  | compositeOutReverse | compositeAtop | compositeAtopReverse | compositeXor | compositeAdd | compositeSaturate | fill
  | blit => exact absurd h s.not_unwritten_nil

end Sys2Proof.Machine
end

section
/-! Proofs, family `10_state`: the CSR window (O6 to O15). A host access to a register by its offset is its write or its
read, so each statement is about `writeCsr` and `csrWord` of one register. -/

namespace Sys2Proof.Machine

/-! Accesses to a register. -/

/-- A host write to any register of an idle block but CMD. -/
theorem csrWrite_of_idle {s : State} (hidle : s.status.busy = false) {r : Csr} (hr : r ≠ .cmd) (v : Word) :
    csrWrite (BitVec.ofNat 12 r.offset) 4 v s = .next (s.writeCsr r v) := by
  rw [csrWrite_offset, hidle, if_neg (by simp), afterWrite_of_idle (by rw [writeCsr_busy hr, hidle])]

/-- A host read of a register that holds a value, unless the block is busy and the register is a working one (R299). -/
theorem csrRead_of_word {s : State} {r : Csr} {w : Word} (hw : s.csrWord r = some w)
    (hb : s.status.busy = false ∨ r.busyWidth? = none) :
    csrRead (BitVec.ofNat 12 r.offset) 4 s = .next (s.withHostData w) := by
  rw [csrRead_offset]
  simp only [State.readCsr, hw]
  split
  next hbusy hwidth => simp [hbusy, hwidth] at hb
  next => rfl

/-- The reserved upper bits of a register read as 0 (R24). -/
theorem setWidth_eq_zero_append {m n : Nat} (x : BitVec n) : x.setWidth (m + n) = 0#m ++ x := by
  rw [BitVec.setWidth_eq_append (by omega)]
  simp

/-- A 16-bit register reads as the value written with bits 31:16 cleared (R24). -/
theorem setWidth_setWidth_16 (v : Word) : (v.setWidth 16).setWidth 32 = v &&& 0xFFFF#32 :=
  (setWidth_eq_zero_append (m := 16) _).trans (BitVec.and_setWidth_allOnes 16 16 v).symm

/-! The CSR map. -/

/-- Settles O6: the summary is checked row by row, and an offset that names a register is that register's. -/
theorem csrMapIsTheSummary : Obligations.CsrMapIsTheSummary := by
  refine ⟨by decide, fun r => ⟨(at?_offset (.laneHalf r .lo)).1, ?_⟩, fun n r h => ?_⟩
  · have hoff : 0x104 + 8 * r.toNat = (Csr.laneHalf r .hi).offset := by
      simp only [Csr.offset, WHalf.code]
      omega
    rw [hoff]
    exact (at?_offset (.laneHalf r .hi)).1
  · obtain rfl : r.offset = n := by simpa using List.find?_some h
    exact ⟨rfl, (at?_offset r).2⟩

/-! Descriptor, rectangle, constant, transform and scratch registers. -/

/-- What a descriptor register reads as after a write of `v` (R31). -/
def BufReg.readBack (q : BufReg) (v : Word) : Word :=
  match q with
  | .base => v
  | .stride => v
  | .width => v &&& 0xFFFF#32
  | .height => v &&& 0xFFFF#32
  | .x => v &&& 0xFFFF#32
  | .y => v &&& 0xFFFF#32

theorem BufDesc.word_write_same (p : BufDesc) (q : BufReg) (v : Word) : (p.write q v).word q = q.readBack v := by
  cases q with
  | base | stride => rfl
  | width | height | x | y => exact setWidth_setWidth_16 v

theorem BufDesc.word_write_ne (p : BufDesc) {q q' : BufReg} (v : Word) (h : q' ≠ q) :
    (p.write q v).word q' = p.word q' := by
  cases q <;> cases q' <;> trivial

theorem Transform.word_write_same (t : Transform) (q : XformReg) (v : Word) : (t.write q v).word q = v := by
  cases q <;> rfl

theorem Transform.word_write_ne (t : Transform) {q q' : XformReg} (v : Word) (h : q' ≠ q) :
    (t.write q v).word q' = t.word q' := by
  cases q <;> cases q' <;> trivial

theorem Conf.buf_setBuf_same (c : Conf) (b : BufId) (p : BufDesc) : (c.setBuf b p).buf b = p := by
  cases b <;> rfl

theorem Conf.buf_setBuf_ne (c : Conf) {b b' : BufId} (p : BufDesc) (h : b' ≠ b) :
    (c.setBuf b p).buf b' = c.buf b' := by
  cases b <;> cases b' <;> trivial

/-- A write of `v` to the register changes the configuration only; the register then reads as `w`, and every other one
as before. -/
def WritesConf (s : State) (r : Csr) (v w : Word) : Prop :=
  ∃ c, s.writeCsr r v = s.withConf c ∧ (s.withConf c).csrWord r = some w ∧
    ∀ r', r' ≠ r → (s.withConf c).csrWord r' = s.csrWord r'

/-- A descriptor register (R31). -/
theorem writesConf_buf (s : State) (b : BufId) (q : BufReg) (v : Word) :
    WritesConf s (.buf b q) v (q.readBack v) := by
  refine ⟨_, rfl, ?_, fun r' hr' => ?_⟩
  · simp only [State.csrWord, State.withConf_conf, Conf.buf_setBuf_same, BufDesc.word_write_same]
  cases r' with
  | buf b' q' =>
    simp only [State.csrWord, State.withConf_conf]
    by_cases hb : b' = b
    · subst hb
      rw [Conf.buf_setBuf_same, BufDesc.word_write_ne _ v fun hq => hr' (by rw [hq])]
    · rw [Conf.buf_setBuf_ne _ _ hb]
  | id | ctrl | status | cmd | cacheDecodes | cacheHits | slotState | slotTag | laneHalf => rfl
  | kenU | kenCa | rectW | rectH | solidSrc | solidMsk | fillValue | xform | scrBase | scrLen => cases b <;> rfl

/-- A transform register (R34). -/
theorem writesConf_xform (s : State) (q : XformReg) (v : Word) : WritesConf s (.xform q) v v := by
  refine ⟨_, rfl, congrArg some (Transform.word_write_same _ q v), fun r' hr' => ?_⟩
  cases r' with
  | xform q' => exact congrArg some (Transform.word_write_ne _ v fun hq => hr' (by rw [hq]))
  | id | ctrl | status | cmd | kenU | kenCa | buf | rectW | rectH | solidSrc | solidMsk | fillValue | scrBase | scrLen
  | cacheDecodes | cacheHits | slotState | slotTag | laneHalf => rfl

/-- RECT_W and RECT_H (R32). -/
theorem writesConf_rect (s : State) {r : Csr} (hr : r ∈ [Csr.rectW, .rectH]) (v : Word) :
    WritesConf s r v (v &&& 0xFFFF#32) := by
  obtain rfl | rfl : r = .rectW ∨ r = .rectH := by simpa using hr
  all_goals exact ⟨_, rfl, congrArg some (setWidth_setWidth_16 v), fun r' hr' => by cases r' <;> trivial⟩

/-- The constants (R33) and the scratch region (R35). -/
theorem writesConf_word (s : State) {r : Csr} (hr : r ∈ [Csr.solidSrc, .solidMsk, .fillValue, .scrBase, .scrLen])
    (v : Word) : WritesConf s r v v := by
  obtain rfl | rfl | rfl | rfl | rfl :
    r = .solidSrc ∨ r = .solidMsk ∨ r = .fillValue ∨ r = .scrBase ∨ r = .scrLen := by simpa using hr
  all_goals exact ⟨_, rfl, rfl, fun r' hr' => by cases r' <;> trivial⟩

/-- The 16-bit registers among those the host configures a command with (R31, R32). -/
def halfWordCsrs : List Csr :=
  [Csr.rectW, .rectH] ++ [BufId.dst, .src, .msk].flatMap fun b =>
    [Csr.buf b .width, .buf b .height, .buf b .x, .buf b .y]

theorem BufReg.readBack_eq (b : BufId) (q : BufReg) (v : Word) :
    q.readBack v = if Csr.buf b q ∈ halfWordCsrs then v &&& 0xFFFF#32 else v := by
  cases b <;> cases q <;> rfl

/-- Settles O12, one kind of register at a time. -/
theorem configurationRegistersReadBack : Obligations.ConfigurationRegistersReadBack := by
  intro s v hidle r hr
  have hcmd : r ≠ .cmd := by
    rintro rfl
    simp at hr
  have hw : WritesConf s r v (if r ∈ halfWordCsrs then v &&& 0xFFFF#32 else v) := by
    obtain ⟨b, q, rfl⟩ | ⟨q, rfl⟩ | hr := hr
    · exact q.readBack_eq b v ▸ writesConf_buf s b q v
    · rw [if_neg (by simp [halfWordCsrs])]
      exact writesConf_xform s q v
    · obtain hr | hr : r ∈ [Csr.rectW, .rectH] ∨ r ∈ [Csr.solidSrc, .solidMsk, .fillValue, .scrBase, .scrLen] :=
        List.mem_append.1 hr
      · have hhalf : r ∈ halfWordCsrs := List.mem_append_left _ hr
        rw [if_pos hhalf]
        exact writesConf_rect s hr v
      · have hwide : r ∉ halfWordCsrs := by
          have key : ∀ r ∈ [Csr.solidSrc, .solidMsk, .fillValue, .scrBase, .scrLen], r ∉ halfWordCsrs := by decide
          exact key r hr
        rw [if_neg hwide]
        exact writesConf_word s hr v
  obtain ⟨c, hc, hsame, hother⟩ := hw
  exact ⟨c, (csrWrite_of_idle hidle hcmd v).trans (congrArg _ hc), hsame, hother⟩

/-! The lane register window. -/

theorem LaneReg.half_setHalf_same (r : LaneReg) (h : WHalf) (v : Word) : (r.setHalf h v).half h = v := by
  cases h with
  | lo => exact BitVec.extractLsb'_append_eq_right
  | hi => exact BitVec.extractLsb'_append_eq_left

theorem LaneReg.half_setHalf_ne (r : LaneReg) {h h' : WHalf} (v : Word) (hne : h' ≠ h) :
    (r.setHalf h v).half h' = r.half h' := by
  cases h <;> cases h'
  · exact absurd rfl hne
  · exact BitVec.extractLsb'_append_eq_left
  · exact BitVec.extractLsb'_append_eq_right
  · exact absurd rfl hne

theorem LaneReg.written_setHalf_same (r : LaneReg) (h : WHalf) (v : Word) : (r.setHalf h v).written h = true := by
  cases h <;> rfl

theorem LaneReg.written_setHalf_ne (r : LaneReg) {h h' : WHalf} (v : Word) (hne : h' ≠ h) :
    (r.setHalf h v).written h' = r.written h' := by
  cases h <;> cases h' <;> trivial

/-- Settles O13: the write from what `setHalf` does to each half and mark, the reads from what the half's mark is. -/
theorem laneWindowWritesAndMarks : Obligations.LaneWindowWritesAndMarks := by
  refine ⟨fun s r h v hidle => ⟨_, csrWrite_of_idle hidle (by simp) v, ?_⟩, fun s r h hidle hw => ?_,
    fun s r h hw => ?_⟩
  · simp only [LaneFile.get_set_same]
    exact ⟨LaneReg.half_setHalf_same _ h v, LaneReg.written_setHalf_same _ h v,
      fun h' hne => ⟨LaneReg.half_setHalf_ne _ v hne, LaneReg.written_setHalf_ne _ v hne⟩,
      fun q hq => LaneFile.get_set_ne _ _ hq⟩
  · exact csrRead_of_word (by simp [State.csrWord, LaneReg.readHalf?, hw]) (.inl hidle)
  · have hnone : s.csrWord (.laneHalf r h) = none := by simp [State.csrWord, LaneReg.readHalf?, hw]
    rw [csrRead_offset, State.readCsr, hnone]

/-! ID, CTRL and STATUS. -/

/-- Settles O7: `csrWord` of ID is the constant in every state, and `writeCsr` of ID is the state itself. -/
theorem idIsConstant : Obligations.IdIsConstant :=
  ⟨(at?_offset .id).1, rfl, fun _ => csrRead_of_word (r := .id) rfl (.inr rfl),
    fun _ v hidle => csrWrite_of_idle (r := .id) hidle (by simp) v, by decide, by decide⟩

/-- A COMPOSITE whose checks fail, fails with their code (R290, R293). -/
theorem exec_composite_of_fail {op : Op} {k : KFields} {s : State} {c : ErrCode}
    (h : compositePlan Config.params op k s.ctrl s.conf = .fail c) :
    exec (.composite k op) s = .next (s.failed c) := by
  rw [exec_composite, compositeWith, h]
  rfl

/-- The bits of CTRL as the host reads it (R26). -/
theorem Ctrl.word_bits (c : Ctrl) : c.word.getLsbD 0 = c.cfgLock ∧ c.word.getLsbD 1 = c.irqEn ∧
    c.word.extractLsb' 2 30 = 0#30 := by
  obtain ⟨l, i⟩ := c
  revert l i
  decide

/-- Settles O8: CTRL's two bits are checked over all their values, and NOTCFG is the first check of a COMPOSITE. -/
theorem ctrlLockIsSetOnly : Obligations.CtrlLockIsSetOnly := by
  refine ⟨fun s v hidle => csrWrite_of_idle (r := .ctrl) hidle (by simp) v,
    fun s => ⟨s.ctrl.word, csrRead_of_word (r := .ctrl) rfl (.inr rfl), s.ctrl.word_bits⟩, fun op k s hl => ?_⟩
  exact exec_composite_of_fail (by simp [compositePlan, hl])

/-- The number of an error code as STATUS holds it (R291). -/
def ErrCode.byte : ErrCode → BitVec 8
  | .noError => 0#8
  | .illegal => 1#8
  | .notCfg => 2#8
  | .unsupported => 3#8
  | .precond => 4#8
  | .align => 5#8
  | .bounds => 6#8
  | .noMem => 7#8
  | .laneRange => 8#8

/-- The bits of STATUS as the host reads it (R27). -/
theorem Status.word_bits (st : Status) : st.word.getLsbD 0 = st.busy ∧ st.word.getLsbD 1 = st.done ∧
    st.word.getLsbD 2 = st.fail ∧ st.word.getLsbD 3 = st.ovr ∧ st.word.extractLsb' 4 4 = 0#4 ∧
    st.word.extractLsb' 16 16 = 0#16 ∧ st.word.extractLsb' 8 8 = st.err.byte := by
  obtain ⟨b, d, f, o, e⟩ := st
  revert b d f o
  cases e <;> decide

/-- A host write to STATUS acts the same whether the block is busy or not (R27, R298). -/
theorem csrWrite_status (s : State) (v : Word) :
    csrWrite (BitVec.ofNat 12 Csr.status.offset) 4 v s = .next (s.withStatus (s.status.hostWrite v)) := by
  cases hb : s.status.busy with
  | false => exact csrWrite_of_idle hb (by simp) v
  | true => simp [csrWrite_offset, hb, State.writeCsrBusy]

/-- Settles O9: STATUS's bits are checked over all their values, and its write acts the same on a busy block. -/
theorem statusBitsAndWriteOneToClear : Obligations.StatusBitsAndWriteOneToClear := by
  refine ⟨fun s => ⟨s.status.word, csrRead_of_word (r := .status) rfl (.inr rfl), ?_⟩, csrWrite_status⟩
  obtain ⟨hbusy, hdone, hfail, hovr, hlow, hhigh, herr⟩ := s.status.word_bits
  refine ⟨hbusy, hdone, hfail, hovr, hlow, hhigh, herr.trans ?_⟩
  cases s.status.err <;> rfl

/-! CMD and the kernel tables. -/

/-- Settles O10: a write to CMD is an acceptance, which goes on where the word's sets keep apart from all others. -/
theorem cmdIssuesTheWordWritten : Obligations.CmdIssuesTheWordWritten := by
  refine ⟨(at?_offset .cmd).1, rfl, fun s v hidle hapart => ?_, fun s => csrRead_of_word (r := .cmd) rfl (.inr rfl)⟩
  have haccept : (s.accept v).afterWrite = .next (s.accept v) := by
    obtain ⟨-, h⟩ | ⟨hn, -⟩ := accept_afterWrite s v
    · exact h
    · exact absurd hapart hn
  exact (csrWrite_offset .cmd v s).trans ((if_neg (by simp [hidle])).trans haccept)

/-- The table that enables an operator is KEN_CA for a per-component mask and KEN_U for the others (R29, R30). -/
theorem kernelEnabled_eq (op : Op) (k : KFields) (c : Conf) : kernelEnabled op k c =
    if k.mmode = .perComponent then c.kenCa.getLsbD op.code else c.kenU.getLsbD op.code := by
  simp only [kernelEnabled]
  cases k.mmode <;> rfl

/-- A host write to a kernel table while unlocked (R29, R30). -/
theorem writeCsr_ken_unlocked {s : State} (hl : s.ctrl.cfgLock = false) (v : Word) :
    s.writeCsr .kenU v = s.withConf { s.conf with kenU := v.extractLsb' 0 12 } ∧
      s.writeCsr .kenCa v = s.withConf { s.conf with kenCa := v.extractLsb' 0 12 } := by
  have hbits : v.setWidth 12 = v.extractLsb' 0 12 := BitVec.eq_of_toNat_eq (by simp)
  simp [State.writeCsr, hl, hbits]

/-- A host write to a kernel table once locked (R29, R30). -/
theorem writeCsr_ken_locked {s : State} (hl : s.ctrl.cfgLock = true) (v : Word) :
    s.writeCsr .kenU v = s ∧ s.writeCsr .kenCa v = s := by
  simp [State.writeCsr, hl]

/-- Settles O11: each table's write by the lock's value, its read, and the check it decides for a COMPOSITE. -/
theorem kernelEnablesAreReadWriteUntilLocked : Obligations.KernelEnablesAreReadWriteUntilLocked := by
  refine ⟨(at?_offset .kenU).1, (at?_offset .kenCa).1, rfl, rfl, fun s v hidle hl => ?_, fun s v hidle hl => ?_,
    fun s => ?_, fun op k s hl hken => ?_⟩
  · obtain ⟨hu, hca⟩ := writeCsr_ken_unlocked hl v
    exact ⟨(csrWrite_of_idle (r := .kenU) hidle (by simp) v).trans (congrArg _ hu),
      (csrWrite_of_idle (r := .kenCa) hidle (by simp) v).trans (congrArg _ hca)⟩
  · obtain ⟨hu, hca⟩ := writeCsr_ken_locked hl v
    exact ⟨(csrWrite_of_idle (r := .kenU) hidle (by simp) v).trans (congrArg _ hu),
      (csrWrite_of_idle (r := .kenCa) hidle (by simp) v).trans (congrArg _ hca)⟩
  · exact ⟨csrRead_of_word (r := .kenU) (congrArg some (setWidth_eq_zero_append (m := 20) _)) (.inr rfl),
      csrRead_of_word (r := .kenCa) (congrArg some (setWidth_eq_zero_append (m := 20) _)) (.inr rfl)⟩
  · rw [← kernelEnabled_eq] at hken
    exact exec_composite_of_fail (by simp [compositePlan, hl, hken])

/-! Accesses that are no register's. -/

theorem csrAccessOk_eq_false {off : BitVec 12} {size : Nat} (h : size ≠ 4 ∨ off.toNat % 4 ≠ 0) :
    csrAccessOk off size = false := by
  simp only [csrAccessOk, Bool.and_eq_false_iff, beq_eq_false_iff_ne, decide_eq_false_iff_not]
  exact h

/-- The window answers at CSR_BASE (R6, R24). -/
theorem csrOffset?_inside (p : Config.Params) (off : BitVec 12) :
    csrOffset? p (p.csrBase + off.toNat) = some off := by
  have hoff : off.toNat < 4096 := off.isLt
  simp [csrOffset?, hoff]

/-- An address outside the window starts no access to it. -/
theorem csrOffset?_outside {p : Config.Params} {addr : Nat} (h : addr < p.csrBase ∨ p.csrBase + 4096 ≤ addr) :
    csrOffset? p addr = none := if_neg (by omega)

/-- An access clear of the window reaches no byte of it. -/
theorem reachesWindow_eq_false {p : Config.Params} {addr size : Nat}
    (h : addr + size ≤ p.csrBase ∨ p.csrBase + 4096 ≤ addr) : reachesWindow p addr size = false := by
  simp only [reachesWindow, Bool.and_eq_false_iff, decide_eq_false_iff_not]
  omega

/-- Settles O14: which accesses the window takes, which offsets are registers', and which addresses are the window's. -/
theorem csrAccessesAreAlignedWords : Obligations.CsrAccessesAreAlignedWords := by
  refine ⟨fun off size v s h => ?_, fun off v s halign hat => ?_, fun off size v s => ?_, fun addr size v s h => ?_⟩
  · simp [csrRead, csrWrite, csrAccessOk_eq_false h]
  · have hok : csrAccessOk off 4 = true := by simp [csrAccessOk, halign]
    simp only [csrRead, csrWrite, hok, hat]
    exact ⟨rfl, rfl⟩
  · simp only [hostAct, csrOffset?_inside, and_self]
  · have hnone : csrOffset? Config.params addr = none := csrOffset?_outside (h.imp_left And.left)
    have hclear : reachesWindow Config.params addr size = false := reachesWindow_eq_false (h.imp_left And.right)
    simp [hostAct, hnone, busAccessOutside, hclear]

/-! The cache's registers. -/

/-- A slot that is invalid and unlocked reads its STATE register as 0 (R37, R247). -/
theorem Slot.stateWord_eq_zero {sl : Slot} (hv : sl.valid = false) (hl : sl.lock = false) : sl.stateWord = 0#32 := by
  simp [Slot.stateWord, hv, hl]

/-- Settles O15: six registers that `writeCsr` leaves alone, and the invariant's torn-down slots for STATE. -/
theorem cacheRegistersAreReadOnly : Obligations.CacheRegistersAreReadOnly := by
  refine ⟨fun s v hidle n hn => ?_, fun s hidle => ?_, fun s hinv hidle => ?_⟩
  · obtain ⟨r, hr, rfl⟩ : ∃ r ∈ [Csr.cacheDecodes, .cacheHits, .slotState .s0, .slotTag .s0, .slotState .s1,
        .slotTag .s1], r.offset = n := List.mem_map.1 hn
    rw [csrWrite_of_idle hidle (by rintro rfl; simp at hr)]
    simp only [List.mem_cons, List.not_mem_nil, or_false] at hr
    obtain rfl | rfl | rfl | rfl | rfl | rfl := hr <;> rfl
  · exact ⟨csrRead_of_word (r := .cacheDecodes) rfl (.inl hidle), csrRead_of_word (r := .cacheHits) rfl (.inl hidle),
      csrRead_of_word (r := .slotTag .s0) (congrArg some (setWidth_eq_zero_append (m := 16) _)) (.inl hidle),
      csrRead_of_word (r := .slotTag .s1) (congrArg some (setWidth_eq_zero_append (m := 16) _)) (.inl hidle)⟩
  · have hstate : ∀ i, s.csrWord (.slotState i) = some 0#32 := fun i =>
      congrArg some (Slot.stateWord_eq_zero (hinv.slots i).1 (hinv.slots i).2.1)
    exact ⟨csrRead_of_word (hstate .s0) (.inl hidle), csrRead_of_word (hstate .s1) (.inl hidle)⟩

end Sys2Proof.Machine
end

section
/-! Proofs, family `20_memory`: pixel addresses (O19, O20), the bytes of a command's sets and the frame of a COMPOSITE
(O49), and the host's memory accesses (O58). -/

namespace Sys2Proof.Machine

/-! Pixel addresses. -/

/-- Settles O19: the address is a 32-bit word, so as a number it is the sum modulo 2^32. -/
theorem pixelAddressFormula : Obligations.PixelAddressFormula := by
  intro p x y n
  rw [BufDesc.pixAddr, BitVec.toNat_ofInt]
  exact Int.toNat_of_nonneg (Int.emod_nonneg _ (by decide))

/-- Settles O20: a pixel size divides 2^32, so wrapping keeps the sum a multiple of it; a scratch pixel's offset is a
multiple of 4 by its form. -/
theorem alignedBuffersHaveAlignedPixels : Obligations.AlignedBuffersHaveAlignedPixels := by
  refine ⟨fun p n x y hn hbase hstride => ?_, fun c i x hscr => ?_⟩
  · have hdvd : (n : Int) ∣ 2 ^ 32 := by
      simp only [List.mem_cons, List.not_mem_nil, or_false] at hn
      rcases hn with rfl | rfl | rfl <;> decide
    have hb : (n : Int) ∣ (p.base.toNat : Int) := Int.natCast_dvd_natCast.2 (Nat.dvd_of_mod_eq_zero hbase)
    have hs : (n : Int) ∣ (y : Int) * p.stride.toInt := (Int.dvd_of_emod_eq_zero hstride).mul_left _
    have hsum := (hb.add hs).add (Int.dvd_mul_left (x : Int) n)
    refine Nat.mod_eq_zero_of_dvd (Int.natCast_dvd_natCast.1 ?_)
    rw [pixelAddressFormula p x y n]
    exact (EuclideanDomain.dvd_mod_iff hdvd).2 hsum
  · have hoff : i.toNat * rowBytes c + 4 * x = 4 * (i.toNat * c.src.width.toNat + x) := by
      rw [rowBytes]
      ring
    rw [scratchAddr, hoff, BitVec.toNat_add, BitVec.toNat_ofNat]
    omega

/-! The bytes of an access. -/

/-- An access's bytes are those at an offset below its size. -/
theorem covers_iff_offset {x : Access} {a : Word} :
    x.covers a = true ↔ ∃ d < x.size, a = x.addr + BitVec.ofNat 32 d := by
  simp only [Access.covers, decide_eq_true_eq]
  constructor
  · exact fun h => ⟨(a - x.addr).toNat, h, by rw [BitVec.ofNat_toNat, BitVec.setWidth_eq]; bv_omega⟩
  · rintro ⟨d, hd, rfl⟩
    rw [BitVec.add_comm, BitVec.add_sub_cancel, BitVec.toNat_ofNat]
    exact Nat.lt_of_le_of_lt (Nat.mod_le _ _) hd

theorem not_covers_nil (a : Word) : ¬ Covers [] a := by
  rintro ⟨_, hx, -⟩
  cases hx

/-- A list that stands under a condition covers its bytes under the condition. -/
theorem covers_ite {b : Bool} {l : List Access} {a : Word} :
    Covers (if b then l else []) a ↔ b = true ∧ Covers l a := by
  cases b <;> simp [not_covers_nil]

/-- The bytes of a rectangle are those of its pixels (R62, R68). -/
theorem covers_rectAccesses (c : Conf) (p : BufDesc) (n : Nat) (a : Word) :
    Covers (c.rectAccesses p n) a ↔ ∃ i j d, i < c.rectW.toNat ∧ j < c.rectH.toNat ∧ d < n ∧
      a = p.pixAddr (p.x.toNat + i) (p.y.toNat + j) n + BitVec.ofNat 32 d := by
  constructor
  · rintro ⟨x, hx, hxa⟩
    obtain ⟨i, j, hi, hj, rfl⟩ := exists_of_mem_rectAccesses hx
    obtain ⟨d, hd, ha⟩ := covers_iff_offset.1 hxa
    exact ⟨i, j, d, hi, hj, hd, ha⟩
  · rintro ⟨i, j, d, hi, hj, hd, ha⟩
    exact ⟨_, mem_rectAccesses hi hj, covers_iff_offset.2 ⟨d, hd, ha⟩⟩

/-- A mask buffer is read unless there is no mask or a constant one (R182). -/
theorem covers_mskReads (k : KFields) (c : Conf) (a : Word) :
    Covers (mskReads k c) a ↔
      k.mmode ≠ .noMask ∧ k.msolid = false ∧ Covers (c.rectAccesses c.msk (bpb k.mfmt)) a := by
  have hm : maskBuffer k = true ↔ k.mmode ≠ .noMask ∧ k.msolid = false := by simp [maskBuffer]
  rw [mskReads, covers_ite, hm, and_assoc]

/-! The source bytes. -/

/-- The whole pixel of a coordinate, by the division that rounds down (R233, R234). -/
theorem wholePixel_eq_fdiv (u : Int) : wholePixel u = u.fdiv 65536 :=
  (Int.fdiv_eq_ediv_of_nonneg u (by decide)).symm

/-- `(X, Y)` is a point that the sample of rectangle pixel `(i, j)` fetches without the cache (R231 to R234). -/
def SamplesAt (k : KFields) (c : Conf) (i j : Nat) (X Y : Int) : Prop :=
  let u := c.xform.a.toInt * i + c.xform.b.toInt * j + c.xform.c.toInt
  let v := c.xform.d.toInt * i + c.xform.e.toInt * j + c.xform.f.toInt
  match k.sample with
  | .identity => X = c.src.x.toNat + i ∧ Y = c.src.y.toNat + j
  | .nearest => X = u.fdiv 65536 ∧ Y = v.fdiv 65536
  | .bilinear => (X = u.fdiv 65536 ∨ X = u.fdiv 65536 + 1) ∧ (Y = v.fdiv 65536 ∨ Y = v.fdiv 65536 + 1)

/-- The edge policy takes the image's pixel `(x, y)` for the point `(X, Y)` (R237, R238). -/
def EdgeTakes (k : KFields) (c : Conf) (X Y : Int) (x y : Nat) : Prop :=
  match k.edge with
  | .pad => x = (min (max X 0) ((c.src.width.toNat : Int) - 1)).toNat ∧
      y = (min (max Y 0) ((c.src.height.toNat : Int) - 1)).toNat
  | .outside => (x : Int) = X ∧ (y : Int) = Y ∧ x < c.src.width.toNat ∧ y < c.src.height.toNat

theorem mem_samplePoints {k : KFields} {c : Conf} {i j : Nat} {X Y : Int} :
    (X, Y) ∈ samplePoints k c i j ↔ SamplesAt k c i j X Y := by
  simp only [samplePoints, SamplesAt, coordU, coordV, wholePixel_eq_fdiv]
  cases k.sample with
  | identity => simp
  | nearest => simp
  | bilinear =>
    simp only [List.mem_cons, Prod.mk.injEq, List.not_mem_nil, or_false]
    tauto

/-- Under the policy of no column outside, a coordinate inside the image is its own column, and no other has one. -/
theorem edgeCoord_outside {n x : Nat} {X : Int} : edgeCoord .outside n X = some x ↔ (x : Int) = X ∧ x < n := by
  simp only [edgeCoord, Option.ite_none_right_eq_some, Option.some.injEq]
  omega

theorem fetchCoord_eq_some {k : KFields} {c : Conf} {X Y : Int} {x y : Nat} :
    fetchCoord k.edge c X Y = some (x, y) ↔ EdgeTakes k c X Y x y := by
  have hboth : fetchCoord k.edge c X Y = some (x, y) ↔
      edgeCoord k.edge c.src.width.toNat X = some x ∧ edgeCoord k.edge c.src.height.toNat Y = some y := by
    simp only [fetchCoord]
    cases edgeCoord k.edge c.src.width.toNat X <;> cases edgeCoord k.edge c.src.height.toNat Y <;> simp
  rw [hboth, EdgeTakes]
  cases k.edge with
  | pad => simp only [edgeCoord, clampi, Option.some.injEq, eq_comm]
  | outside =>
    simp only [edgeCoord_outside]
    tauto

/-- Source pixel `(x, y)` is in a row that the cache is asked for (R245, R246). -/
def RowPixel (k : KFields) (c : Conf) (x y : Nat) : Prop :=
  x < c.src.width.toNat ∧ ∃ j < c.rectH.toNat, (rowPair k c j).1 = some y ∨ (rowPair k c j).2 = some y

/-- Source pixel `(x, y)` is fetched by a sample of a rectangle pixel, without the cache (R249). -/
def FetchedPixel (k : KFields) (c : Conf) (x y : Nat) : Prop :=
  ∃ i j : Nat, i < c.rectW.toNat ∧ j < c.rectH.toNat ∧ ∃ X Y : Int, SamplesAt k c i j X Y ∧ EdgeTakes k c X Y x y

/-- The accesses to the source: none to a constant one, the pixels of whole rows with the cache, and those the samples
fetch without it (R68). -/
theorem mem_srcReads {k : KFields} {c : Conf} {r : Access} :
    r ∈ srcReads k c ↔ k.ssolid = false ∧ ∃ x y, r = srcAccess k c x y ∧
      if k.sample = .bilinear ∧ c.xform.d = 0 then RowPixel k c x y else FetchedPixel k c x y := by
  cases hss : k.ssolid with
  | true => simp [srcReads, hss]
  | false =>
    have hused : cacheUsed k c = true ↔ k.sample = .bilinear ∧ c.xform.d = 0 := by rw [cacheUsed_iff, hss]; simp
    simp only [srcReads, hss, Bool.false_eq_true, if_false, hused, true_and]
    split
    · simp only [RowPixel, List.mem_flatMap, List.mem_range, List.mem_map, List.reduceOption_mem_iff, List.mem_cons,
        List.not_mem_nil, or_false]
      constructor
      · rintro ⟨j, hj, y, hy, x, hx, rfl⟩
        exact ⟨x, y, rfl, hx, j, hj, hy.imp Eq.symm Eq.symm⟩
      · rintro ⟨x, y, rfl, hx, j, hj, hy⟩
        exact ⟨j, hj, y, hy.imp Eq.symm Eq.symm, x, hx, rfl⟩
    · simp only [FetchedPixel, List.mem_flatMap, List.mem_map, List.reduceOption_mem_iff, Prod.exists,
        mem_samplePoints, fetchCoord_eq_some, Conf.pixels, mem_rowMajor]
      constructor
      · rintro ⟨i, j, ⟨hi, hj⟩, x, y, ⟨X, Y, hs, he⟩, rfl⟩
        exact ⟨x, y, rfl, i, j, hi, hj, X, Y, hs, he⟩
      · rintro ⟨x, y, rfl, i, j, hi, hj, X, Y, hs, he⟩
        exact ⟨i, j, ⟨hi, hj⟩, x, y, ⟨X, Y, hs, he⟩, rfl⟩

/-- The source bytes of the read set (R68). -/
theorem covers_srcReads (k : KFields) (c : Conf) (a : Word) :
    Covers (srcReads k c) a ↔ k.ssolid = false ∧ ∃ x y d : Nat, d < bpb k.sfmt ∧
      a = c.src.pixAddr x y (bpb k.sfmt) + BitVec.ofNat 32 d ∧
      if k.sample = .bilinear ∧ c.xform.d = 0 then RowPixel k c x y else FetchedPixel k c x y := by
  constructor
  · rintro ⟨r, hr, hra⟩
    obtain ⟨hss, x, y, rfl, hxy⟩ := mem_srcReads.1 hr
    obtain ⟨d, hd, ha⟩ := covers_iff_offset.1 hra
    exact ⟨hss, x, y, d, hd, ha, hxy⟩
  · rintro ⟨hss, x, y, d, hd, ha, hxy⟩
    exact ⟨_, mem_srcReads.2 ⟨hss, x, y, rfl, hxy⟩, covers_iff_offset.2 ⟨d, hd, ha⟩⟩

/-! The scratch bytes. -/

theorem externalScratch_iff {p : Config.Params} {c : Conf} :
    externalScratch p c = true ↔ p.slotOnchipBytes < 4 * c.src.width.toNat := by
  rw [externalScratch, decide_eq_true_eq, rowBytes]

/-- The scratch region is two rows at SCR_BASE (R242). -/
theorem covers_scratchAccesses_iff (p : Config.Params) (k : KFields) (c : Conf) (a : Word) :
    Covers (scratchAccesses p k c) a ↔ cacheUsed k c = true ∧ p.slotOnchipBytes < 4 * c.src.width.toNat ∧
      (a - c.scrBase).toNat < 8 * c.src.width.toNat := by
  have hsize : 2 * rowBytes c = 8 * c.src.width.toNat := by rw [rowBytes]; omega
  rw [scratchAccesses, covers_ite, Bool.and_eq_true, externalScratch_iff, and_assoc]
  simp only [Covers, List.mem_singleton, exists_eq_left, Access.covers, decide_eq_true_eq, hsize]

/-- The scratch bytes written are those of the rows of the slots that are decoded into (R242, R245). -/
theorem covers_scratchWrites_iff (p : Config.Params) (k : KFields) (c : Conf) (a : Word) :
    Covers (scratchWrites p k c) a ↔ cacheUsed k c = true ∧ p.slotOnchipBytes < 4 * c.src.width.toNat ∧
      ∃ q ∈ (rowTrace k c).decoded, ∃ d < 4 * c.src.width.toNat,
        a = c.scrBase + BitVec.ofNat 32 (q.1.toNat * (4 * c.src.width.toNat) + d) := by
  rw [scratchWrites, covers_ite, Bool.and_eq_true, externalScratch_iff, and_assoc]
  simp only [Covers, List.mem_map, exists_exists_and_eq_and, covers_iff_offset, slotRow, scratchAddr, rowBytes,
    Nat.mul_zero, Nat.add_zero, BitVec.ofNat_add, BitVec.add_assoc]

/-! The frame. -/

/-- A COMPOSITE that ends changed memory, the cache and STATUS at most; of STATUS not OVR, and of memory only bytes of
the destination rectangle and of the scratch rows decoded into (R68, R203). -/
theorem exec_composite_frame {op : Op} {k : KFields} {s t : State} (hm : s.mem.wf)
    (h : exec (.composite k op) s = .next t) :
    t = { s with mem := t.mem, cache := t.cache, status := t.status } ∧ t.status.ovr = s.status.ovr ∧
      SameOutside (dstAccesses k s.conf ++ scratchWrites Config.params k s.conf) t.mem s.mem := by
  rw [exec_composite] at h
  obtain ⟨c, -, ho⟩ | ⟨-, ho⟩ | ⟨_, f, -, -, ho⟩ | ⟨_, -, -, ho⟩ := compositeWith_cases Config.params op k s <;>
    rw [ho] at h <;> cases h
  · exact ⟨rfl, rfl, fun _ _ => rfl⟩
  · exact ⟨rfl, rfl, fun _ _ => rfl⟩
  · exact ⟨rfl, rfl, (compositeRun_logged Config.params op k s.conf s.mem s.cache).same hm⟩

/-- Settles O49: each set's bytes by the lemma about its accesses, and the frame by the log of the pixel phase. -/
theorem compositeFrame : Obligations.CompositeFrame :=
  ⟨covers_rectAccesses, fun k c a => ⟨.rfl, covers_mskReads k c a, covers_srcReads k c a,
    covers_scratchAccesses_iff _ k c a, covers_scratchWrites_iff _ k c a⟩, fun _ _ _ _ => exec_composite_frame⟩

/-! The host's accesses. -/

/-- A byte is in use by the command that this block runs or by one that the other instances run (R68, R72). -/
theorem covers_bytesInUse {s : State} {a : Word} : Covers s.bytesInUse a ↔
    (∃ i, s.status.busy = true ∧ decodeWord s.cmd = .ok i ∧
      Covers ((instrPlan s i).footprint.reads ++ (instrPlan s i).footprint.writes) a) ∨
    ∃ q ∈ s.peers, Covers (q.sets.reads ++ q.sets.writes) a := by
  have hown : Covers (s.runningFootprint.reads ++ s.runningFootprint.writes) a ↔
      ∃ i, s.status.busy = true ∧ decodeWord s.cmd = .ok i ∧
        Covers ((instrPlan s i).footprint.reads ++ (instrPlan s i).footprint.writes) a := by
    cases hb : s.status.busy with
    | false => simp [runningFootprint_of_idle hb, Footprint.empty, not_covers_nil]
    | true =>
      cases hd : decodeWord s.cmd with
      | error e => simp [State.runningFootprint, hb, hd, Footprint.empty, not_covers_nil]
      | ok i => simp [runningFootprint_of_busy hb hd]
  have hpeers : Covers (s.peers.flatMap fun q => q.sets.reads ++ q.sets.writes) a ↔
      ∃ q ∈ s.peers, Covers (q.sets.reads ++ q.sets.writes) a := by
    simp only [Covers, List.mem_flatMap]
    tauto
  rw [State.bytesInUse, covers_append, hown, hpeers]

/-- A host access to a byte in use is a race (R72). -/
theorem hostAccess_of_race {x : Access} {s : State} (go : State) {a : Word} (hx : Covers [x] a)
    (ha : Covers s.bytesInUse a) : hostAccess x s go = .fault .hostRace := by
  simp only [hostAccess, anyMeet_iff.2 ⟨a, hx, ha⟩, if_true]

/-- A host access to ordinary memory of which no byte is in use goes on (R60). -/
theorem hostAccess_of_free {x : Access} {s : State} (go : State)
    (h : ∀ a, Covers [x] a → ¬ Covers s.bytesInUse a ∧ ¬ Covers (s.platform.map Region.span) a) :
    hostAccess x s go = .next go := by
  have huse : anyMeet [x] s.bytesInUse = false := anyMeet_eq_false.2 fun a ⟨hx, ha⟩ => (h a hx).1 ha
  have hplat : platformOk s.platform x = true := by
    rw [platformOk, anyMeet_eq_false.2 fun a ⟨hx, ha⟩ => (h a hx).2 ha]
    rfl
  simp only [hostAccess, huse, hplat, Bool.not_true, Bool.false_eq_true, if_false]

/-- Settles O58: the bytes in use are those of the running commands' sets, and the host port asks for nothing else but
ordinary memory. -/
theorem hostRaceIsAContractFault : Obligations.HostRaceIsAContractFault := by
  refine ⟨fun s i hb hd addr size v ⟨a, hx, ha⟩ => ?_, fun s q hq addr size v ⟨a, hx, ha⟩ => ?_,
    fun s addr size v h => ?_⟩
  · have huse := covers_bytesInUse.2 (.inl ⟨i, hb, hd, ha⟩)
    exact ⟨hostAccess_of_race _ hx huse, hostAccess_of_race _ hx huse⟩
  · have huse := covers_bytesInUse.2 (.inr ⟨q, hq, ha⟩)
    exact ⟨hostAccess_of_race _ hx huse, hostAccess_of_race _ hx huse⟩
  · have hfree : ∀ a, Covers [{ addr, size }] a →
        ¬ Covers s.bytesInUse a ∧ ¬ Covers (s.platform.map Region.span) a := fun a hx => by
      obtain ⟨hown, hpeers, hplat⟩ := h a hx
      refine ⟨fun ha => ?_, hplat⟩
      obtain ⟨i, hb, hd, hi⟩ | ⟨q, hq, hc⟩ := covers_bytesInUse.1 ha
      · exact hown hb i hd hi
      · exact hpeers q hq hc
    exact ⟨hostAccess_of_free _ hfree, hostAccess_of_free _ hfree⟩

end Sys2Proof.Machine
end

section
/-! Proofs, family `30_encoding`: the fields of a word. A list of fields that fill a word determines it, and a table
row's match and mask say what its fixed fields hold. -/

namespace Sys2Proof

/-- A field `w[hi:lo]` of a command word: the value it holds, and whether the word's row of the opcode table fixes that
value or an operand gives it. -/
structure BitField where
  hi : Nat
  lo : Nat
  value : Nat
  fixed : Bool

/-- The field's number of bits. -/
def BitField.width (f : BitField) : Nat := f.hi - f.lo + 1

/-- The field has room for its value. -/
def BitField.Fits (f : BitField) : Prop := f.value < 2 ^ f.width

/-- The word holds the field's value. -/
def BitField.HeldBy (f : BitField) (w : Word) : Prop := field w f.hi f.lo = f.value

/-- The fields, listed from high to low, are the bits below `n`, each in one field. -/
def FillsBelow : Nat → List BitField → Prop
  | n, [] => n = 0
  | n, f :: l => n = f.hi + 1 ∧ f.lo ≤ f.hi ∧ FillsBelow f.lo l

/-- The number whose fields hold their values. -/
def packed : List BitField → Nat
  | [] => 0
  | f :: l => packed l + 2 ^ f.lo * f.value

/-- The field as part of a row's match: its value where the row fixes it (`30_encoding.md` section 4). -/
def BitField.toMatch (f : BitField) : BitField := { f with value := if f.fixed then f.value else 0 }

/-- The field as part of a row's mask: all ones where the row fixes it. -/
def BitField.toMask (f : BitField) : BitField := { f with value := if f.fixed then 2 ^ f.width - 1 else 0 }

theorem field_lt (w : Word) (hi lo : Nat) : field w hi lo < 2 ^ (hi - lo + 1) := Nat.mod_lt _ (by positivity)

/-- The spec's `w[hi:lo]` is the library's bit range. -/
theorem toNat_extractLsb'_eq_field (w : Word) (lo width : Nat) :
    (w.extractLsb' lo (width + 1)).toNat = field w (lo + width) lo := by
  rw [BitVec.extractLsb'_toNat, Nat.shiftRight_eq_div_pow, field, Nat.add_sub_cancel_left]

theorem FillsBelow.tail {f : BitField} {l : List BitField} {n : Nat} (h : FillsBelow n (f :: l)) : FillsBelow f.lo l :=
  h.2.2

theorem FillsBelow.two_pow {f : BitField} {l : List BitField} {n : Nat} (h : FillsBelow n (f :: l)) :
    2 ^ n = 2 ^ f.lo * 2 ^ f.width := by
  obtain ⟨rfl, hle, -⟩ := h
  rw [← Nat.pow_add, BitField.width]
  congr 1
  omega

/-- Fields whose values change stay in their places. -/
theorem FillsBelow.map {g : BitField → BitField} (hg : ∀ f, (g f).hi = f.hi ∧ (g f).lo = f.lo) {l : List BitField} :
    ∀ {n : Nat}, FillsBelow n l → FillsBelow n (l.map g) := by
  induction l with
  | nil => exact id
  | cons f l ih =>
    rintro n ⟨hn, hle, hl⟩
    obtain ⟨hhi, hlo⟩ := hg f
    exact ⟨by rw [hhi, hn], by rwa [hhi, hlo], hlo ▸ ih hl⟩

theorem FillsBelow.toMask {l : List BitField} {n : Nat} (h : FillsBelow n l) :
    FillsBelow n (l.map BitField.toMask) := h.map (g := BitField.toMask) fun _ => ⟨rfl, rfl⟩

theorem FillsBelow.toMatch {l : List BitField} {n : Nat} (h : FillsBelow n l) :
    FillsBelow n (l.map BitField.toMatch) := h.map (g := BitField.toMatch) fun _ => ⟨rfl, rfl⟩

theorem packed_lt {l : List BitField} :
    ∀ {n : Nat}, FillsBelow n l → (∀ f ∈ l, f.Fits) → packed l < 2 ^ n := by
  induction l with
  | nil => exact fun _ _ => Nat.two_pow_pos _
  | cons f l ih =>
    intro n hfill hfit
    obtain ⟨hf, hl⟩ := List.forall_mem_cons.1 hfit
    calc packed l + 2 ^ f.lo * f.value < 2 ^ f.lo * (f.value + 1) := by
          rw [Nat.mul_succ, Nat.add_comm]
          exact Nat.add_lt_add_left (ih hfill.tail hl) _
      _ ≤ 2 ^ f.lo * 2 ^ f.width := Nat.mul_le_mul_left _ hf
      _ = 2 ^ n := hfill.two_pow.symm

/-- The highest field of a packed number, and the number of the fields below it. -/
theorem packed_cons_div_mod {f : BitField} {l : List BitField} {n : Nat} (hfill : FillsBelow n (f :: l))
    (hfit : ∀ f ∈ l, f.Fits) : packed (f :: l) / 2 ^ f.lo = f.value ∧ packed (f :: l) % 2 ^ f.lo = packed l :=
  (Nat.div_mod_unique (Nat.two_pow_pos _)).2 ⟨rfl, packed_lt hfill.tail hfit⟩

/-- The highest field of a word's low bits, and the bits below it. -/
theorem toNat_mod_div_mod {f : BitField} {l : List BitField} {n : Nat} (hfill : FillsBelow n (f :: l)) (w : Word) :
    w.toNat % 2 ^ n / 2 ^ f.lo = field w f.hi f.lo ∧ w.toNat % 2 ^ n % 2 ^ f.lo = w.toNat % 2 ^ f.lo := by
  rw [hfill.two_pow]
  exact ⟨Nat.mod_mul_right_div_self _ _ _, Nat.mod_mul_right_mod _ _ _⟩

/-- Fields that fill a word determine it. -/
theorem toNat_mod_eq_packed_iff (w : Word) {l : List BitField} :
    ∀ {n : Nat}, FillsBelow n l → (∀ f ∈ l, f.Fits) → (w.toNat % 2 ^ n = packed l ↔ ∀ f ∈ l, f.HeldBy w) := by
  induction l with
  | nil =>
    rintro n rfl -
    simp [packed, Nat.mod_one]
  | cons f l ih =>
    intro n hfill hfit
    have hl : ∀ g ∈ l, g.Fits := (List.forall_mem_cons.1 hfit).2
    obtain ⟨hdiv, hmod⟩ := packed_cons_div_mod hfill hl
    obtain ⟨hwdiv, hwmod⟩ := toNat_mod_div_mod hfill w
    rw [Nat.ext_div_mod_iff (2 ^ f.lo), hdiv, hmod, hwdiv, hwmod, ih hfill.tail hl, List.forall_mem_cons,
      BitField.HeldBy]

theorem BitField.fits_toMask (f : BitField) : f.toMask.Fits := by
  have hpos : 0 < 2 ^ f.width := Nat.two_pow_pos _
  change (if f.fixed then 2 ^ f.width - 1 else 0) < 2 ^ f.width
  split <;> omega

theorem BitField.fits_toMatch (f : BitField) (h : f.fixed = true → f.Fits) : f.toMatch.Fits := by
  change (if f.fixed then f.value else 0) < 2 ^ f.width
  split
  · exact h ‹_›
  · exact Nat.two_pow_pos _

theorem fits_map_toMask (l : List BitField) : ∀ f ∈ l.map BitField.toMask, f.Fits :=
  List.forall_mem_map.2 fun f _ => f.fits_toMask

theorem fits_map_toMatch {l : List BitField} (h : ∀ f ∈ l, f.fixed = true → f.Fits) :
    ∀ f ∈ l.map BitField.toMatch, f.Fits :=
  List.forall_mem_map.2 fun f hf => f.fits_toMatch (h f hf)

/-- A field agrees with its part of the match under its part of the mask when it is not fixed or holds its value. -/
theorem BitField.field_and_toMask_iff (f : BitField) (w : Word) :
    field w f.hi f.lo &&& f.toMask.value = f.toMatch.value ↔ (f.fixed = true → f.HeldBy w) := by
  cases hf : f.fixed
  · simp [toMask, toMatch, hf]
  · have hlt : field w f.hi f.lo % 2 ^ f.width = field w f.hi f.lo := Nat.mod_eq_of_lt (field_lt w f.hi f.lo)
    simp [toMask, toMatch, hf, hlt, HeldBy]

/-- A word agrees with the match under the mask exactly when its fixed fields hold their values. -/
theorem toNat_and_mask_iff (w : Word) {l : List BitField} :
    ∀ {n : Nat}, FillsBelow n l → (∀ f ∈ l, f.fixed = true → f.Fits) →
      (w.toNat % 2 ^ n &&& packed (l.map BitField.toMask) = packed (l.map BitField.toMatch) ↔
        ∀ f ∈ l, f.fixed = true → f.HeldBy w) := by
  induction l with
  | nil => simp [packed]
  | cons f l ih =>
    intro n hfill hfit
    have hl : ∀ g ∈ l, g.fixed = true → g.Fits := (List.forall_mem_cons.1 hfit).2
    obtain ⟨hmaskDiv, hmaskMod⟩ : packed (f.toMask :: l.map BitField.toMask) / 2 ^ f.lo = f.toMask.value ∧
        packed (f.toMask :: l.map BitField.toMask) % 2 ^ f.lo = packed (l.map BitField.toMask) :=
      packed_cons_div_mod hfill.toMask (fits_map_toMask l)
    obtain ⟨hmatchDiv, hmatchMod⟩ : packed (f.toMatch :: l.map BitField.toMatch) / 2 ^ f.lo = f.toMatch.value ∧
        packed (f.toMatch :: l.map BitField.toMatch) % 2 ^ f.lo = packed (l.map BitField.toMatch) :=
      packed_cons_div_mod hfill.toMatch (fits_map_toMatch hl)
    obtain ⟨hwdiv, hwmod⟩ := toNat_mod_div_mod hfill w
    rw [Nat.ext_div_mod_iff (2 ^ f.lo), Nat.and_div_two_pow, Nat.and_mod_two_pow, List.map_cons, List.map_cons, hwdiv,
      hwmod, hmaskDiv, hmaskMod, hmatchDiv, hmatchMod, f.field_and_toMask_iff, ih hfill.tail hl, List.forall_mem_cons]

end Sys2Proof
end

section
/-! Proofs, family `30_encoding`: the fields of every command's word, that the encoder writes them, and that the decoder
accepts a word exactly when it holds them. -/

namespace Sys2Proof

/-! The formats. -/

/-- A COMPOSITE's fields (format K, R95); the row is an operator's, so it fixes OP. -/
def compositeLayout (op : Op) (k : KFields) : List BitField :=
  [⟨31, 26, 0x20, true⟩, ⟨25, 22, op.code, true⟩, ⟨21, 20, k.mmode.code, false⟩, ⟨19, 17, k.sfmt.code, false⟩,
    ⟨16, 14, k.mfmt.code, false⟩, ⟨13, 11, k.dfmt.code, false⟩, ⟨10, 9, k.sample.code, false⟩,
    ⟨8, 8, k.edge.code, false⟩, ⟨7, 7, k.ssolid.toNat, false⟩, ⟨6, 6, k.msolid.toNat, false⟩, ⟨5, 0, 0, true⟩]

/-- The fields of a lane instruction of two registers. -/
def twoRegLayout (opc : Nat) (rd ra : LReg) : List BitField :=
  [⟨31, 26, opc, true⟩, ⟨25, 23, rd.toNat, false⟩, ⟨22, 20, ra.toNat, false⟩, ⟨19, 0, 0, true⟩]

/-- The fields of a lane instruction of three registers. -/
def threeRegLayout (opc : Nat) (rd ra rb : LReg) : List BitField :=
  [⟨31, 26, opc, true⟩, ⟨25, 23, rd.toNat, false⟩, ⟨22, 20, ra.toNat, false⟩, ⟨19, 17, rb.toNat, false⟩,
    ⟨16, 0, 0, true⟩]

/-- The fields of an instruction's word (R92 to R97). -/
def layout : Instr → List BitField
  | .nop => [⟨31, 26, 0x00, true⟩, ⟨25, 0, 0, true⟩]
  | .lmul rd ra rb => threeRegLayout 0x01 rd ra rb
  | .lmuladd rd ra rb rc re => [⟨31, 26, 0x02, true⟩, ⟨25, 23, rd.toNat, false⟩, ⟨22, 20, ra.toNat, false⟩,
      ⟨19, 17, rb.toNat, false⟩, ⟨16, 14, rc.toNat, false⟩, ⟨13, 11, re.toNat, false⟩, ⟨10, 0, 0, true⟩]
  | .ladds rd ra rb => threeRegLayout 0x03 rd ra rb
  | .lneg rd ra => twoRegLayout 0x04 rd ra
  | .lbca rd ra => twoRegLayout 0x05 rd ra
  | .lbcl rd ra => twoRegLayout 0x06 rd ra
  | .lswaprb rd ra => twoRegLayout 0x07 rd ra
  | .lunpk32 rd ra half => [⟨31, 26, 0x08, true⟩, ⟨25, 23, rd.toNat, false⟩, ⟨22, 20, ra.toNat, false⟩,
      ⟨19, 10, 0, true⟩, ⟨9, 9, half.code, false⟩, ⟨8, 0, 0, true⟩]
  | .lpack32 rd ra => twoRegLayout 0x09 rd ra
  | .lunpk565 rd ra idx => [⟨31, 26, 0x0A, true⟩, ⟨25, 23, rd.toNat, false⟩, ⟨22, 20, ra.toNat, false⟩,
      ⟨19, 11, 0, true⟩, ⟨10, 9, idx, false⟩, ⟨8, 0, 0, true⟩]
  | .lpack565 rd ra rb idx => [⟨31, 26, 0x0B, true⟩, ⟨25, 23, rd.toNat, false⟩, ⟨22, 20, ra.toNat, false⟩,
      ⟨19, 17, rb.toNat, false⟩, ⟨16, 11, 0, true⟩, ⟨10, 9, idx, false⟩, ⟨8, 0, 0, true⟩]
  | .linterp rd ra rb distx disty => [⟨31, 26, 0x0C, true⟩, ⟨25, 23, rd.toNat, false⟩, ⟨22, 20, ra.toNat, false⟩,
      ⟨19, 17, rb.toNat, false⟩, ⟨16, 9, distx, false⟩, ⟨8, 1, disty, false⟩, ⟨0, 0, 0, true⟩]
  | .compositeSrc k => compositeLayout .src k
  | .compositeOver k => compositeLayout .over k
  | .compositeOverReverse k => compositeLayout .overReverse k
  | .compositeIn k => compositeLayout .srcIn k
  | .compositeInReverse k => compositeLayout .inReverse k
  | .compositeOut k => compositeLayout .out k
  | .compositeOutReverse k => compositeLayout .outReverse k
  | .compositeAtop k => compositeLayout .atop k
  | .compositeAtopReverse k => compositeLayout .atopReverse k
  | .compositeXor k => compositeLayout .xor k
  | .compositeAdd k => compositeLayout .add k
  | .compositeSaturate k => compositeLayout .saturate k
  | .fill bpp => [⟨31, 26, 0x21, true⟩, ⟨25, 20, bpp, false⟩, ⟨19, 0, 0, true⟩]
  | .blit sbpp dbpp => [⟨31, 26, 0x22, true⟩, ⟨25, 20, sbpp, false⟩, ⟨19, 14, dbpp, false⟩, ⟨13, 0, 0, true⟩]

theorem layout_composite (k : KFields) (op : Op) : layout (.composite k op) = compositeLayout op k := by
  cases op <;> rfl

theorem wellFormed_composite (k : KFields) (op : Op) : (Instr.composite k op).wellFormed = true := by
  cases op <;> rfl

/-- Every instruction's fields are the 32 bits of its word, each in one field (R90). -/
theorem fillsBelow_layout (i : Instr) : FillsBelow 32 (layout i) := by
  cases i <;> simp [layout, twoRegLayout, threeRegLayout, compositeLayout, FillsBelow]

/-! Codes. -/

theorem Op.code_lt (op : Op) : op.code < 16 := by cases op <;> decide

theorem MMode.code_lt (m : MMode) : m.code < 3 := by cases m <;> decide

theorem Fmt.code_lt (f : Fmt) : f.code < 4 := by cases f <;> decide

theorem Sampling.code_lt (s : Sampling) : s.code < 3 := by cases s <;> decide

theorem Edge.code_lt (e : Edge) : e.code < 2 := by cases e <;> decide

theorem WHalf.code_lt (h : WHalf) : h.code < 2 := by cases h <;> decide

/-- A field names the operator, mode, format or sampling whose code it holds, and nothing else (R101 to R104). -/
theorem Op.ofField?_eq_some_iff {n : Nat} {op : Op} : Op.ofField? n = some op ↔ n = op.code := by
  refine ⟨fun h => ?_, fun h => by subst h; cases op <;> rfl⟩
  unfold Op.ofField? at h
  split at h <;> cases h <;> rfl

theorem MMode.ofField?_eq_some_iff {n : Nat} {m : MMode} : MMode.ofField? n = some m ↔ n = m.code := by
  refine ⟨fun h => ?_, fun h => by subst h; cases m <;> rfl⟩
  unfold MMode.ofField? at h
  split at h <;> cases h <;> rfl

theorem Fmt.ofField?_eq_some_iff {n : Nat} {f : Fmt} : Fmt.ofField? n = some f ↔ n = f.code := by
  refine ⟨fun h => ?_, fun h => by subst h; cases f <;> rfl⟩
  unfold Fmt.ofField? at h
  split at h <;> cases h <;> rfl

theorem Sampling.ofField?_eq_some_iff {n : Nat} {s : Sampling} : Sampling.ofField? n = some s ↔ n = s.code := by
  refine ⟨fun h => ?_, fun h => by subst h; cases s <;> rfl⟩
  unfold Sampling.ofField? at h
  split at h <;> cases h <;> rfl

theorem Edge.ofField_eq_iff {n : Nat} {e : Edge} (hn : n < 2) : Edge.ofField n = e ↔ n = e.code := by
  refine ⟨fun h => ?_, fun h => by subst h; cases e <;> rfl⟩
  subst h
  interval_cases n <;> rfl

theorem LReg.ofField_eq_iff {n : Nat} {r : LReg} (hn : n < 8) : LReg.ofField n = r ↔ n = r.toNat := by
  refine ⟨fun h => ?_, fun h => by subst h; cases r <;> rfl⟩
  subst h
  interval_cases n <;> rfl

theorem beq_one_eq_iff {n : Nat} {b : Bool} (hn : n < 2) : (n == 1) = b ↔ n = b.toNat := by
  refine ⟨fun h => ?_, fun h => by subst h; cases b <;> rfl⟩
  subst h
  interval_cases n <;> rfl

/-- A register field names the register whose number it holds (R98). -/
theorem regField_eq_iff {w : Word} {lo : Nat} {r : LReg} : regField w lo = r ↔ field w (lo + 2) lo = r.toNat := by
  have hlt := field_lt w (lo + 2) lo
  rw [Nat.add_sub_cancel_left] at hlt
  exact LReg.ofField_eq_iff hlt

@[simp] theorem toNat_regField (w : Word) (lo : Nat) : (regField w lo).toNat = field w (lo + 2) lo :=
  (regField_eq_iff.1 rfl).symm

/-- A code that is not reserved names a mode, a format or a sampling (R102 to R104). -/
theorem MMode.exists_code {n : Nat} (h : n < 3) : ∃ m : MMode, n = m.code := by
  interval_cases n
  exacts [⟨.noMask, rfl⟩, ⟨.uniform, rfl⟩, ⟨.perComponent, rfl⟩]

theorem Fmt.exists_code {n : Nat} (h : n < 4) : ∃ f : Fmt, n = f.code := by
  interval_cases n
  exacts [⟨.argb32, rfl⟩, ⟨.rgb565, rfl⟩, ⟨.a8, rfl⟩, ⟨.argb32Npr, rfl⟩]

theorem Sampling.exists_code {n : Nat} (h : n < 3) : ∃ s : Sampling, n = s.code := by
  interval_cases n
  exacts [⟨.identity, rfl⟩, ⟨.nearest, rfl⟩, ⟨.bilinear, rfl⟩]

theorem WHalf.exists_code {n : Nat} (h : n < 2) : ∃ half : WHalf, n = half.code := by
  interval_cases n
  exacts [⟨.lo, rfl⟩, ⟨.hi, rfl⟩]

/-! The encoder. -/

theorem packed_compositeLayout (k : KFields) (op : Op) : packed (compositeLayout op k) = encodeK op k := by
  simp only [compositeLayout, packed, encodeK]
  omega

/-- The encoder packs the instruction's fields. -/
theorem packed_layout (i : Instr) : packed (layout i) = encodeNat i := by
  cases i with
  | compositeSrc k | compositeOver k | compositeOverReverse k | compositeIn k | compositeInReverse k | compositeOut k
  | compositeOutReverse k | compositeAtop k | compositeAtopReverse k | compositeXor k | compositeAdd k
  | compositeSaturate k => exact packed_compositeLayout k _
  | _ =>
    simp only [layout, twoRegLayout, threeRegLayout, packed, encodeNat, encodeL]
    omega

theorem fits_compositeLayout (k : KFields) (op : Op) : ∀ f ∈ compositeLayout op k, f.Fits := by
  have hop := op.code_lt
  have hmmode := k.mmode.code_lt
  have hsfmt := k.sfmt.code_lt
  have hmfmt := k.mfmt.code_lt
  have hdfmt := k.dfmt.code_lt
  have hsample := k.sample.code_lt
  have hedge := k.edge.code_lt
  have hssolid := k.ssolid.toNat_lt
  have hmsolid := k.msolid.toNat_lt
  simp only [compositeLayout, List.forall_mem_cons, List.not_mem_nil, false_implies, implies_true, BitField.Fits,
    BitField.width, Nat.reduceSub, Nat.reduceAdd, Nat.reducePow, and_true]
  omega

/-- In a well-formed instruction every field has room for its value, and in any instruction the fields its row fixes. -/
theorem fits_layout (i : Instr) : ∀ f ∈ layout i, f.fixed = true ∨ i.wellFormed = true → f.Fits := by
  have hreg := Laws.OpcodeField.reg_lt
  have hhalf := WHalf.code_lt
  cases i with
  | compositeSrc k | compositeOver k | compositeOverReverse k | compositeIn k | compositeInReverse k | compositeOut k
  | compositeOutReverse k | compositeAtop k | compositeAtopReverse k | compositeXor k | compositeAdd k
  | compositeSaturate k => exact fun f hf _ => fits_compositeLayout k _ f hf
  | _ => simp +contextual [layout, twoRegLayout, threeRegLayout, BitField.Fits, BitField.width, Instr.wellFormed,
      hreg, hhalf]

/-- A word is the encoding of a well-formed instruction exactly when it holds the instruction's fields. -/
theorem encode_eq_iff {w : Word} {i : Instr} (hi : i.wellFormed = true) :
    encode i = w ↔ ∀ f ∈ layout i, f.HeldBy w := by
  have hfit : ∀ f ∈ layout i, f.Fits := fun f hf => fits_layout i f hf (.inr hi)
  have hlt : encodeNat i < 2 ^ 32 := packed_layout i ▸ packed_lt (fillsBelow_layout i) hfit
  rw [← toNat_mod_eq_packed_iff w (fillsBelow_layout i) hfit, packed_layout, Nat.mod_eq_of_lt w.isLt, encode,
    ← BitVec.toNat_inj, BitVec.toNat_ofNat, Nat.mod_eq_of_lt hlt]
  exact eq_comm

/-! The decoder. -/

theorem mustBeZero_eq_ok_iff {w : Word} {hi lo : Nat} {r : Except Illegal Instr} {i : Instr} :
    mustBeZero w hi lo r = .ok i ↔ field w hi lo = 0 ∧ r = .ok i := by
  unfold mustBeZero
  split <;> simp [*]

theorem decodeLunpk32_eq_ok_iff {w : Word} {i : Instr} : decodeLunpk32 w = .ok i ↔
    ∃ half : WHalf, field w 10 9 = half.code ∧ i = .lunpk32 (regField w 23) (regField w 20) half := by
  constructor
  · intro h
    unfold decodeLunpk32 at h
    split at h
    case h_1 hf => cases h; exact ⟨.lo, hf, rfl⟩
    case h_2 hf => cases h; exact ⟨.hi, hf, rfl⟩
    case h_3 => cases h
  · rintro ⟨half, hf, rfl⟩
    cases half <;> simp [decodeLunpk32, hf, WHalf.code]

/-- The operator and the operand fields a COMPOSITE word holds (R95). -/
structure HoldsComposite (w : Word) (op : Op) (k : KFields) : Prop where
  op : field w 25 22 = op.code
  mmode : field w 21 20 = k.mmode.code
  sfmt : field w 19 17 = k.sfmt.code
  mfmt : field w 16 14 = k.mfmt.code
  dfmt : field w 13 11 = k.dfmt.code
  sample : field w 10 9 = k.sample.code
  edge : field w 8 8 = k.edge.code
  ssolid : field w 7 7 = k.ssolid.toNat
  msolid : field w 6 6 = k.msolid.toNat

theorem heldBy_compositeLayout_iff {w : Word} {op : Op} {k : KFields} : (∀ f ∈ compositeLayout op k, f.HeldBy w) ↔
    field w 31 26 = 0x20 ∧ HoldsComposite w op k ∧ field w 5 0 = 0 := by
  simp only [compositeLayout, BitField.HeldBy, List.forall_mem_cons]
  constructor
  · rintro ⟨hopc, hop, hmmode, hsfmt, hmfmt, hdfmt, hsample, hedge, hssolid, hmsolid, hzero, -⟩
    exact ⟨hopc, ⟨hop, hmmode, hsfmt, hmfmt, hdfmt, hsample, hedge, hssolid, hmsolid⟩, hzero⟩
  · rintro ⟨hopc, ⟨hop, hmmode, hsfmt, hmfmt, hdfmt, hsample, hedge, hssolid, hmsolid⟩, hzero⟩
    exact ⟨hopc, hop, hmmode, hsfmt, hmfmt, hdfmt, hsample, hedge, hssolid, hmsolid, hzero, by simp⟩

theorem decodeComposite_eq_ok_iff {w : Word} {i : Instr} : decodeComposite w = .ok i ↔
    ∃ op k, HoldsComposite w op k ∧ i = .composite k op := by
  constructor
  · intro h
    unfold decodeComposite at h
    split at h
    case h_1 op mmode sfmt mfmt dfmt sample hop hmmode hsfmt hmfmt hdfmt hsample =>
      cases h
      exact ⟨op, _, ⟨Op.ofField?_eq_some_iff.1 hop, MMode.ofField?_eq_some_iff.1 hmmode,
        Fmt.ofField?_eq_some_iff.1 hsfmt, Fmt.ofField?_eq_some_iff.1 hmfmt, Fmt.ofField?_eq_some_iff.1 hdfmt,
        Sampling.ofField?_eq_some_iff.1 hsample, (Edge.ofField_eq_iff (field_lt w 8 8)).1 rfl,
        (beq_one_eq_iff (field_lt w 7 7)).1 rfl, (beq_one_eq_iff (field_lt w 6 6)).1 rfl⟩, rfl⟩
    case h_2 => cases h
  · rintro ⟨op, k, h, rfl⟩
    rw [decodeComposite, Op.ofField?_eq_some_iff.2 h.op, MMode.ofField?_eq_some_iff.2 h.mmode,
      Fmt.ofField?_eq_some_iff.2 h.sfmt, Fmt.ofField?_eq_some_iff.2 h.mfmt, Fmt.ofField?_eq_some_iff.2 h.dfmt,
      Sampling.ofField?_eq_some_iff.2 h.sample, (Edge.ofField_eq_iff (field_lt w 8 8)).2 h.edge,
      (beq_one_eq_iff (field_lt w 7 7)).2 h.ssolid, (beq_one_eq_iff (field_lt w 6 6)).2 h.msolid]

/-- Bits 19:10 of LUNPK32, all fixed by its row, and its half (R99), against the decoder's bits 19:11 and its 2-bit
IDX. -/
theorem field_lunpk32_iff {w : Word} {half : WHalf} : field w 19 10 = 0 ∧ field w 9 9 = half.code ↔
    field w 19 11 = 0 ∧ field w 10 9 = half.code := by
  have hhalf := half.code_lt
  simp only [field]
  omega

/-- The decoder reads the fields of the instruction it answers. -/
theorem heldBy_layout_of_decodeWord {w : Word} {i : Instr} (h : decodeWord w = .ok i) :
    i.wellFormed = true ∧ ∀ f ∈ layout i, f.HeldBy w := by
  have hidx : field w 10 9 < 4 := field_lt w 10 9
  have hdistx : field w 16 9 < 256 := field_lt w 16 9
  have hdisty : field w 8 1 < 256 := field_lt w 8 1
  have hdepth : field w 25 20 < 64 := field_lt w 25 20
  have hdepth' : field w 19 14 < 64 := field_lt w 19 14
  unfold decodeWord at h
  split at h
  case h_9 hopc => -- LUNPK32
    simp only [mustBeZero_eq_ok_iff, decodeLunpk32_eq_ok_iff] at h
    obtain ⟨hz, hz', half, hhalf, rfl⟩ := h
    obtain ⟨hfix, hbit⟩ := field_lunpk32_iff.2 ⟨hz, hhalf⟩
    simp [layout, BitField.HeldBy, Instr.wellFormed, *]
  case h_11 | h_12 => -- LUNPK565, LPACK565
    simp only [mustBeZero_eq_ok_iff, Except.ok.injEq] at h
    obtain ⟨hz, hz', rfl⟩ := h
    simp [layout, BitField.HeldBy, Instr.wellFormed, *]
  case h_14 hopc => -- COMPOSITE
    simp only [mustBeZero_eq_ok_iff, decodeComposite_eq_ok_iff] at h
    obtain ⟨hz, op, k, hk, rfl⟩ := h
    rw [layout_composite, heldBy_compositeLayout_iff]
    exact ⟨wellFormed_composite k op, hopc, hk, hz⟩
  case h_17 => cases h -- a reserved opcode
  all_goals -- one fixed field besides the opcode
    simp only [mustBeZero_eq_ok_iff, Except.ok.injEq] at h
    obtain ⟨hz, rfl⟩ := h
    simp [layout, twoRegLayout, threeRegLayout, BitField.HeldBy, Instr.wellFormed, *]

/-- A word that holds the fields of a COMPOSITE decodes to it. -/
theorem decodeWord_of_heldBy_compositeLayout {w : Word} {op : Op} {k : KFields}
    (h : ∀ f ∈ compositeLayout op k, f.HeldBy w) : decodeWord w = .ok (.composite k op) := by
  obtain ⟨hopc, hk, hz⟩ := heldBy_compositeLayout_iff.1 h
  simp only [decodeWord, hopc]
  exact mustBeZero_eq_ok_iff.2 ⟨hz, decodeComposite_eq_ok_iff.2 ⟨op, k, hk, rfl⟩⟩

/-- A word that holds the fields of an instruction decodes to it. -/
theorem decodeWord_of_heldBy_layout {w : Word} {i : Instr} (h : ∀ f ∈ layout i, f.HeldBy w) : decodeWord w = .ok i := by
  cases i with
  | compositeSrc k | compositeOver k | compositeOverReverse k | compositeIn k | compositeInReverse k | compositeOut k
  | compositeOutReverse k | compositeAtop k | compositeAtopReverse k | compositeXor k | compositeAdd k
  | compositeSaturate k => exact decodeWord_of_heldBy_compositeLayout h
  | lunpk32 rd ra half =>
    simp only [layout, BitField.HeldBy, List.forall_mem_cons] at h
    obtain ⟨hopc, hrd, hra, hfix, hbit, hz, -⟩ := h
    obtain ⟨hz', hhalf⟩ := field_lunpk32_iff.1 ⟨hfix, hbit⟩
    simp only [decodeWord, hopc, mustBeZero_eq_ok_iff, decodeLunpk32_eq_ok_iff]
    exact ⟨hz', hz, half, hhalf, by rw [regField_eq_iff.2 hrd, regField_eq_iff.2 hra]⟩
  | _ =>
    simp only [layout, twoRegLayout, threeRegLayout, BitField.HeldBy, List.forall_mem_cons] at h
    simp [decodeWord, mustBeZero_eq_ok_iff, regField_eq_iff, h]

/-- The decoder inverts the encoder on the well-formed instructions, and accepts nothing else (R106, R111). -/
theorem decodeWord_eq_ok_iff {w : Word} {i : Instr} : decodeWord w = .ok i ↔ i.wellFormed = true ∧ encode i = w := by
  constructor
  · intro h
    obtain ⟨hi, hheld⟩ := heldBy_layout_of_decodeWord h
    exact ⟨hi, (encode_eq_iff hi).2 hheld⟩
  · rintro ⟨hi, hw⟩
    exact decodeWord_of_heldBy_layout ((encode_eq_iff hi).1 hw)

end Sys2Proof
end

section
/-! Proofs, family `30_encoding`: the opcode table's match and mask by the fields that a row fixes, and the statements
(O21 to O25). -/

namespace Sys2Proof.Machine

/-- Settles O21: the encoder's word holds the instruction's fields, which fill it, and the decoder reads them back. -/
theorem decodeOfEncode : Obligations.DecodeOfEncode :=
  fun _ hi => decodeWord_eq_ok_iff.2 ⟨hi, rfl⟩

/-- Settles O22: an accepted word holds the fields of its instruction, and the fields that fill a word determine it. -/
theorem encodeOfDecode : Obligations.EncodeOfDecode :=
  fun _ _ h => decodeWord_eq_ok_iff.1 h

/-- The opcode table's match and mask are those of the fields that the row fixes. -/
theorem tablePattern_eq (i : Instr) : tablePattern i =
    (BitVec.ofNat 32 (packed ((layout i).map BitField.toMatch)),
      BitVec.ofNat 32 (packed ((layout i).map BitField.toMask))) := by
  cases i <;> simp [tablePattern, layout, twoRegLayout, threeRegLayout, compositeLayout, packed, BitField.toMatch,
    BitField.toMask, BitField.width, Op.code]

/-- A word has the match of an instruction's row exactly when it holds the fields that the row fixes. -/
theorem and_tablePattern_iff (w : Word) (i : Instr) : w &&& (tablePattern i).2 = (tablePattern i).1 ↔
    ∀ f ∈ layout i, f.fixed = true → f.HeldBy w := by
  have hfit : ∀ f ∈ layout i, f.fixed = true → f.Fits := fun f hf hfix => fits_layout i f hf (.inl hfix)
  have hmask : packed ((layout i).map BitField.toMask) < 2 ^ 32 :=
    packed_lt (fillsBelow_layout i).toMask (fits_map_toMask _)
  have hmatch : packed ((layout i).map BitField.toMatch) < 2 ^ 32 :=
    packed_lt (fillsBelow_layout i).toMatch (fits_map_toMatch hfit)
  rw [← toNat_and_mask_iff w (fillsBelow_layout i) hfit, tablePattern_eq, ← BitVec.toNat_inj, BitVec.toNat_and,
    BitVec.toNat_ofNat, BitVec.toNat_ofNat, Nat.mod_eq_of_lt hmask, Nat.mod_eq_of_lt hmatch, Nat.mod_eq_of_lt w.isLt]

/-- R102 to R104, by the fields of format K. -/
theorem reservedInK_iff (w : Word) : reservedInK w ↔ field w 21 20 = 3 ∨ 4 ≤ field w 19 17 ∨ 4 ≤ field w 16 14 ∨
    4 ≤ field w 13 11 ∨ field w 10 9 = 3 := by
  simp only [reservedInK, ← BitVec.toNat_inj, BitVec.toNat_ofNat]
  simp only [toNat_extractLsb'_eq_field w 20 1, toNat_extractLsb'_eq_field w 17 2, toNat_extractLsb'_eq_field w 14 2,
    toNat_extractLsb'_eq_field w 11 2, toNat_extractLsb'_eq_field w 9 1]

theorem not_reservedInK_of_holdsComposite {w : Word} {op : Op} {k : KFields} (h : HoldsComposite w op k) :
    ¬ reservedInK w := by
  have hmmode := k.mmode.code_lt
  have hsfmt := k.sfmt.code_lt
  have hmfmt := k.mfmt.code_lt
  have hdfmt := k.dfmt.code_lt
  have hsample := k.sample.code_lt
  rw [reservedInK_iff, h.mmode, h.sfmt, h.mfmt, h.dfmt, h.sample]
  omega

/-- Without a reserved value, format K's fields are those of some COMPOSITE (R102 to R104). -/
theorem exists_holdsComposite {w : Word} {op : Op} (hop : field w 25 22 = op.code) (hr : ¬ reservedInK w) :
    ∃ k, HoldsComposite w op k := by
  have hmmode := field_lt w 21 20
  have hsample := field_lt w 10 9
  simp only [reservedInK_iff, not_or, not_le] at hr
  obtain ⟨hmmode', hsfmt, hmfmt, hdfmt, hsample'⟩ := hr
  obtain ⟨mmode, hm⟩ := MMode.exists_code (n := field w 21 20) (by omega)
  obtain ⟨sfmt, hs⟩ := Fmt.exists_code hsfmt
  obtain ⟨mfmt, hmf⟩ := Fmt.exists_code hmfmt
  obtain ⟨dfmt, hd⟩ := Fmt.exists_code hdfmt
  obtain ⟨sample, hsa⟩ := Sampling.exists_code (n := field w 10 9) (by omega)
  exact ⟨⟨mmode, sfmt, mfmt, dfmt, sample, .ofField (field w 8 8), field w 7 7 == 1, field w 6 6 == 1⟩, hop, hm, hs,
    hmf, hd, hsa, (Edge.ofField_eq_iff (field_lt w 8 8)).1 rfl, (beq_one_eq_iff (field_lt w 7 7)).1 rfl,
    (beq_one_eq_iff (field_lt w 6 6)).1 rfl⟩

/-- The row of a COMPOSITE depends on its operator alone (section 4). -/
theorem tablePattern_composite (k k' : KFields) (op : Op) :
    tablePattern (.composite k' op) = tablePattern (.composite k op) := by
  cases op <;> rfl

theorem decodeWord_of_fixed_composite {w : Word} {op : Op} {k : KFields}
    (h : ∀ f ∈ compositeLayout op k, f.fixed = true → f.HeldBy w)
    (hr : isComposite (.composite k op) → ¬ reservedInK w) :
    ∃ i, decodeWord w = .ok i ∧ tablePattern i = tablePattern (.composite k op) := by
  obtain ⟨hopc, hop, hz⟩ : field w 31 26 = 0x20 ∧ field w 25 22 = op.code ∧ field w 5 0 = 0 := by
    simpa [compositeLayout, BitField.HeldBy] using h
  obtain ⟨k', hk⟩ := exists_holdsComposite hop (hr ⟨op, k, rfl⟩)
  exact ⟨_, decodeWord_of_heldBy_compositeLayout (heldBy_compositeLayout_iff.2 ⟨hopc, hk, hz⟩),
    tablePattern_composite k k' op⟩

/-- A word that holds what an instruction's row fixes, and in a COMPOSITE no reserved value, decodes to an instruction
of that row (R106). -/
theorem decodeWord_of_fixed {w : Word} {i : Instr} (h : ∀ f ∈ layout i, f.fixed = true → f.HeldBy w)
    (hr : isComposite i → ¬ reservedInK w) :
    ∃ i', decodeWord w = .ok i' ∧ tablePattern i' = tablePattern i := by
  cases i with
  | compositeSrc k | compositeOver k | compositeOverReverse k | compositeIn k | compositeInReverse k | compositeOut k
  | compositeOutReverse k | compositeAtop k | compositeAtopReverse k | compositeXor k | compositeAdd k
  | compositeSaturate k => exact decodeWord_of_fixed_composite h hr
  | lunpk32 rd ra half =>
    obtain ⟨half', hhalf⟩ := WHalf.exists_code (field_lt w 9 9)
    refine ⟨.lunpk32 (regField w 23) (regField w 20) half', decodeWord_of_heldBy_layout ?_, rfl⟩
    simp only [layout, BitField.HeldBy, List.forall_mem_cons, forall_const] at h
    simp [layout, BitField.HeldBy, h, hhalf]
  | _ =>
    simp only [layout, twoRegLayout, threeRegLayout, BitField.HeldBy, List.forall_mem_cons, forall_const] at h
    simp [decodeWord, mustBeZero, h, tablePattern]

theorem not_reservedInK_of_decodeWord {w : Word} {i : Instr} (h : decodeWord w = .ok i) (hc : isComposite i) :
    ¬ reservedInK w := by
  obtain ⟨op, k, rfl⟩ := hc
  have hheld := (heldBy_layout_of_decodeWord h).2
  rw [layout_composite] at hheld
  obtain ⟨-, hk, -⟩ := heldBy_compositeLayout_iff.1 hheld
  exact not_reservedInK_of_holdsComposite hk

/-- Settles O23: the match and mask of a row are those of the fields it fixes; an accepted word holds them, and a word
that holds them and no reserved value is accepted. -/
theorem decoderAgreesWithTheOpcodeTable : Obligations.DecoderAgreesWithTheOpcodeTable := by
  refine ⟨fun w i h => ⟨?_, not_reservedInK_of_decodeWord h⟩, fun w i h hr => ?_⟩
  · exact (and_tablePattern_iff w i).2 fun f hf _ => (heldBy_layout_of_decodeWord h).2 f hf
  · exact decodeWord_of_fixed ((and_tablePattern_iff w i).1 h) hr

/-- Settles O24: the turn of a busy block whose word does not decode concludes with ILLEGAL. -/
theorem illegalWordFails : Obligations.IllegalWordFails := by
  intro s e hbusy he
  rw [blockTurn, if_pos hbusy, he]
  rfl

/-- Settles O25: the words are closed terms, and the decoder evaluates on them. -/
theorem decodingOfStatedWords : Obligations.DecodingOfStatedWords := by
  unfold Obligations.DecodingOfStatedWords
  decide

end Sys2Proof.Machine
end

section
/-! Proofs, family `40_lane_arith`: the lane instructions on readable sources (O34 to O37), each the end of a command
with the result of its lane function, and the laws of `mul8` (O41). -/

namespace Sys2Proof.Machine

/-! How a lane instruction ends. -/

/-- A lane instruction whose operands are in its range writes its result (R120 steps 4 to 6). -/
theorem finishLane_of_inRange {s : State} {rd : LReg} {outOfRange : Bool} {v : Wide} (h : outOfRange = false) :
    s.finishLane rd (if outOfRange then .error .laneRange else .ok v) = .next (s.laneDone rd v) := by
  subst h
  rfl

/-- A lane instruction whose operands are out of its range changes nothing but STATUS (R120 step 3). -/
theorem finishLane_of_outOfRange {s : State} {rd : LReg} {outOfRange : Bool} {v : Wide} (h : outOfRange = true) :
    s.finishLane rd (if outOfRange then .error .laneRange else .ok v) = .next (s.failed .laneRange) := by
  subst h
  rfl

/-- A lane instruction with one source and no range condition (R120). -/
theorem withLane_finishLane_ok {s : State} {ra : LReg} (ha : s.Readable ra) (rd : LReg) (f : Wide → Wide) :
    (s.withLane ra fun a => s.finishLane rd (.ok (f a))) = .next (s.laneDone rd (f (s.laneValue ra))) :=
  withLane_of_readable ha _

/-- A lane instruction with two sources (R120 step 2). -/
theorem withLane_withLane {s : State} {ra rb : LReg} (ha : s.Readable ra) (hb : s.Readable rb)
    (k : Wide → Wide → Host.Outcome State Fault Refusal) :
    (s.withLane ra fun a => s.withLane rb (k a)) = k (s.laneValue ra) (s.laneValue rb) :=
  (withLane_of_readable ha _).trans (withLane_of_readable hb _)

/-! Range conditions. -/

theorem anyLane_iff (p : Nat → Bool) : anyLane p = true ↔ ∃ k < 4, p k = true := by
  simp only [anyLane, Bool.or_eq_true, Nat.exists_lt_succ_right, Nat.not_lt_zero, false_and, exists_false, false_or]

theorem productTooWide_iff (a b : Wide) :
    productTooWide a b = true ↔ ∃ k < 4, 0xFFFF < laneNat a k * laneNat b k := by
  simp [productTooWide, anyLane_iff]

theorem laneNoByte_iff (a : Wide) : laneNoByte a = true ↔ ∃ k < 4, 0xFF < laneNat a k := by
  simp [laneNoByte, anyLane_iff]

/-! The lane functions in closed form. -/

/-- R121 on every lane. -/
theorem mul8V_eq (a b : Wide) : mul8V a b = wideOf fun k => rounded (laneNat a k * laneNat b k + 128) := by
  simp only [mul8V, map2, mul8_eq_rounded]

/-- R122 on every lane. -/
theorem muladd8V_eq (x a y b : Wide) : muladd8V x a y b =
    wideOf fun k => rounded (laneNat x k * laneNat a k + laneNat y k * laneNat b k + 128) := by
  simp only [muladd8V, muladd8_eq_rounded]

/-- R127 on every lane. -/
theorem neg8V_eq_wide (a : Wide) : neg8V a = wide (lane a 0 ^^^ 0x00FF#16) (lane a 1 ^^^ 0x00FF#16)
    (lane a 2 ^^^ 0x00FF#16) (lane a 3 ^^^ 0x00FF#16) :=
  wide_ext fun k hk => by
    rw [lane_neg8V a k hk]
    match k, hk with
    | 0, _ | 1, _ | 2, _ | 3, _ => simp

/-! The instructions. -/

/-- Settles O34: LMUL ends by its range condition, and its result lane by lane is `mul8` in closed form. -/
theorem lmulRoundsEachProduct : Obligations.LmulRoundsEachProduct := by
  intro rd ra rb s ha hb
  have hexec : exec (.lmul rd ra rb) s = s.finishLane rd (lmulResult (s.laneValue ra) (s.laneValue rb)) :=
    withLane_withLane ha hb _
  rw [hexec, lmulResult, ← mul8V_eq]
  refine ⟨fun h => finishLane_of_inRange ?_, fun h => finishLane_of_outOfRange ((productTooWide_iff _ _).2 h)⟩
  simpa [← Bool.not_eq_true, productTooWide_iff] using h

/-- Settles O35: LMULADD ends by its range condition, and its result lane by lane is `muladd8` in closed form. -/
theorem lmuladdRoundsOnce : Obligations.LmuladdRoundsOnce := by
  intro rd ra rb rc re s ha hb hc he
  have hexec : exec (.lmuladd rd ra rb rc re) s = s.finishLane rd
      (lmuladdResult (s.laneValue ra) (s.laneValue rb) (s.laneValue rc) (s.laneValue re)) :=
    (withLane_withLane ha hb _).trans (withLane_withLane hc he _)
  rw [hexec, lmuladdResult, ← muladd8V_eq]
  refine ⟨fun h => finishLane_of_inRange ?_, fun h => finishLane_of_outOfRange ?_⟩
  · simpa [← Bool.not_eq_true, productTooWide_iff, forall_and] using h
  · simpa [productTooWide_iff, and_or_left, exists_or] using h

/-- Settles O36: LADDS ends by its range condition, and `adds8` is the sum cut at 255 as it stands. -/
theorem laddsSaturatesBytes : Obligations.LaddsSaturatesBytes := by
  intro rd ra rb s ha hb
  have hexec : exec (.ladds rd ra rb) s = s.finishLane rd (laddsResult (s.laneValue ra) (s.laneValue rb)) :=
    withLane_withLane ha hb _
  rw [hexec, laddsResult]
  refine ⟨fun h => finishLane_of_inRange ?_, fun h => finishLane_of_outOfRange ?_⟩
  · simpa [← Bool.not_eq_true, laneNoByte_iff, forall_and] using h
  · simpa [laneNoByte_iff, and_or_left, exists_or] using h

/-- Settles O37: the four instructions have no range condition, and LNEG's result lane by lane is the lane's complement
of the low byte. -/
theorem negateBroadcastAndSwap : Obligations.NegateBroadcastAndSwap := by
  intro rd ra s ha
  refine ⟨?_, withLane_finishLane_ok ha rd _, withLane_finishLane_ok ha rd _, withLane_finishLane_ok ha rd swaprb⟩
  rw [← neg8V_eq_wide]
  exact withLane_finishLane_ok ha rd neg8V

/-! The laws of `mul8` (R124). -/

/-- The correction divides by 255, rounding to nearest, where nothing saturates. -/
theorem rounded_eq_div {t : Nat} (h : t ≤ 255 * 255) : rounded (t + 128) = (t + 127) / 255 := by
  simp only [rounded]
  omega

theorem mul_le_of_bytes {a b : Nat} (ha : a ≤ 255) (hb : b ≤ 255) : a * b ≤ 255 * 255 := Nat.mul_le_mul ha hb

/-- R124 (a). -/
theorem mul8_eq_div {a b : Nat} (ha : a ≤ 255) (hb : b ≤ 255) : mul8 a b = (a * b + 127) / 255 := by
  rw [mul8_eq_rounded, rounded_eq_div (mul_le_of_bytes ha hb)]

/-- R124 (b), for every pair of numbers. -/
theorem mul8_comm (a b : Nat) : mul8 a b = mul8 b a := by rw [mul8, mul8, Nat.mul_comm]

/-- One half of R124 (f); the other is its mirror image. -/
theorem mul8_le_left {a b : Nat} (ha : a ≤ 255) (hb : b ≤ 255) : mul8 a b ≤ a := by
  have hab : a * b ≤ a * 255 := Nat.mul_le_mul_left a hb
  rw [mul8_eq_div ha hb]
  omega

/-- Settles O41: the laws follow from the quotient form of `mul8` on bytes, and the examples evaluate. -/
theorem multiplyLaws : Obligations.MultiplyLaws := by
  refine ⟨fun a b ha hb => ?_, by decide⟩
  have hab : a * b ≤ 255 * 255 := mul_le_of_bytes ha hb
  have hdiv := mul8_eq_div ha hb
  have hunit := mul8_eq_div ha (Nat.le_refl 255)
  have hzero := mul8_eq_div (Nat.zero_le 255) hb
  have hright : mul8 a b ≤ b := mul8_comm a b ▸ mul8_le_left hb ha
  exact ⟨hdiv, by omega, by omega, mul8_comm a b, by omega, by omega, Nat.le_min.2 ⟨mul8_le_left ha hb, hright⟩,
    by omega⟩

end Sys2Proof.Machine
end

section
/-! Proofs, family `41_format_codec`: the conversions as numbers, the four codec instructions (O38, O39), the round
trips (O42), and a source pixel under each format, edge policy and sampling (O50). -/

namespace Sys2Proof.Machine

/-! Wide values given by numbers. -/

/-- A wide value is determined by its lanes as numbers. -/
theorem eq_wideOf {v : Wide} {f : Nat → Nat} (h : ∀ k < 4, laneNat v k = f k) : v = wideOf f :=
  wide_ext fun k hk => BitVec.eq_of_toNat_eq <|
    calc laneNat v k = f k := h k hk
      _ = laneNat (wideOf f) k := (laneNat_wideOf_of_lt f k hk (h k hk ▸ laneNat_lt v k)).symm

/-- Bits side by side, as a number. -/
theorem toNat_append_eq_add {m n : Nat} (x : BitVec m) (y : BitVec n) :
    (x ++ y).toNat = x.toNat * 2 ^ n + y.toNat := by
  rw [BitVec.toNat_append, ← Nat.shiftLeft_add_eq_or_of_lt y.isLt, Nat.shiftLeft_eq]

/-! Packed 32-bit pixels (R150 to R152). -/

/-- A channel is a byte of the low 32 bits. -/
theorem channel_mod_two_pow_32 (p : Nat) {k : Nat} (hk : k < 4) : channel (p % 2 ^ 32) k = channel p k := by
  match k, hk with
  | 0, _ | 1, _ | 2, _ | 3, _ => simp only [channel]; omega

theorem laneNat_unpack32 (p : Word) {k : Nat} (hk : k < 4) : laneNat (unpack32 p) k = channel p.toNat k := by
  have hbyte : (pixelByte p k).toNat = channel p.toNat k := by
    rw [pixelByte, BitVec.extractLsb'_toNat, Nat.shiftRight_eq_div_pow, channel, Nat.pow_mul]
  rw [laneNat, lane_unpack32 p k hk, BitVec.toNat_setWidth_of_le (by decide), hbyte]

theorem toNat_clampByte (w : Wide) (k : Nat) : (clampByte w k).toNat = min (laneNat w k) 255 := by
  rw [clampByte, clamp8, BitVec.toNat_ofNat]
  omega

theorem toNat_pack32 (w : Wide) : (pack32 w).toNat =
    min (laneNat w 0) 255 + min (laneNat w 1) 255 * 2 ^ 8 + min (laneNat w 2) 255 * 2 ^ 16
      + min (laneNat w 3) 255 * 2 ^ 24 := by
  simp only [pack32, toNat_append_eq_add, toNat_clampByte]
  omega

/-! RGB565 pixels (R149, R154, R156). -/

/-- Repeating the high bits below a 5-bit channel, as arithmetic. -/
theorem expand5_eq {x : Nat} (h : x < 32) : expand5 x = x * 8 + x / 4 := by
  revert x; decide

/-- Repeating the high bits below a 6-bit channel, as arithmetic. -/
theorem expand6_eq {x : Nat} (h : x < 64) : expand6 x = x * 4 + x / 16 := by
  revert x; decide

/-- The lanes of an expanded RGB565 pixel: its fields with their high bits repeated below, and alpha opaque. -/
def lane565 (h : Nat) : Nat → Nat
  | 0 => h % 32 * 8 + h % 32 / 4
  | 1 => h / 32 % 64 * 4 + h / 32 % 64 / 16
  | 2 => h / 2048 * 8 + h / 2048 / 4
  | _ => 255

theorem expand565_eq_wideOf (h : LaneWord) : expand565 h = wideOf (lane565 h.toNat) := by
  have hblue : (h.extractLsb' 0 5).toNat = h.toNat % 32 := by simp
  have hgreen : (h.extractLsb' 5 6).toNat = h.toNat / 32 % 64 := by simp [Nat.shiftRight_eq_div_pow]
  have hred : (h.extractLsb' 11 5).toNat = h.toNat / 2048 := by
    simp only [BitVec.extractLsb'_toNat, Nat.shiftRight_eq_div_pow]
    omega
  rw [expand565, expand5_eq (BitVec.isLt _), expand6_eq (BitVec.isLt _), expand5_eq (BitVec.isLt _), hblue, hgreen,
    hred]
  rfl

theorem laneNat_expand565 (h : LaneWord) {k : Nat} (hk : k < 4) : laneNat (expand565 h) k = lane565 h.toNat k := by
  rw [expand565_eq_wideOf]
  refine laneNat_wideOf_of_lt _ k hk ?_
  match k, hk with
  | 0, _ | 1, _ | 2, _ | 3, _ => simp only [lane565]; omega

theorem toNat_pack565 (w : Wide) : (pack565 w).toNat =
    min (laneNat w 2) 255 / 8 * 2048 + min (laneNat w 1) 255 / 4 * 32 + min (laneNat w 0) 255 / 8 := by
  simp only [pack565, toNat_append_eq_add, BitVec.extractLsb'_toNat, toNat_clampByte, Nat.shiftRight_eq_div_pow]
  omega

/-! The codec instructions. -/

/-- A half of a lane register, as a number. -/
theorem LaneReg.toNat_half (r : LaneReg) (h : WHalf) :
    (r.half h).toNat = r.value.toNat / 2 ^ (32 * h.code) % 2 ^ 32 := by
  cases h with
  | lo => simp [LaneReg.half, WHalf.code]
  | hi => simp [LaneReg.half, WHalf.code, Nat.shiftRight_eq_div_pow]

/-- A lane instruction that reads one half needs no other to be written (R151). -/
theorem withHalf_of_written {s : State} {r : LReg} {h : WHalf} (hw : (s.regs.get r).written h = true)
    (k : Word → Host.Outcome State Fault Refusal) : s.withHalf r h k = k ((s.regs.get r).half h) := by
  simp only [State.withHalf, LaneReg.readHalf?, hw, if_true]

/-- Settles O38: a channel of the half is that channel of the register shifted down to it, and the packed pixel is the
sum of its clamped channels, each at its place. -/
theorem unpackAndPack32 : Obligations.UnpackAndPack32 := by
  refine ⟨fun rd ra h s hw => ?_, fun rd ra s ha => ?_⟩
  · have hexec : exec (.lunpk32 rd ra h) s = .next (s.laneDone rd (unpack32 ((s.regs.get ra).half h))) :=
      withHalf_of_written hw _
    have hlanes : unpack32 ((s.regs.get ra).half h) =
        wideOf fun k => channel ((s.laneValue ra).toNat / 2 ^ (32 * h.code)) k :=
      eq_wideOf fun k hk => by
        rw [laneNat_unpack32 _ hk, LaneReg.toNat_half, channel_mod_two_pow_32 _ hk, State.laneValue]
    rw [hexec, hlanes]
  · rw [← toNat_pack32, BitVec.ofNat_toNat]
    exact withLane_finishLane_ok ha rd fun a => (pack32 a).setWidth 64

/-- Settles O39: the two conversions as arithmetic, and `setLane` replaces the lane of the index alone. -/
theorem unpackAndPack565 : Obligations.UnpackAndPack565 := by
  refine ⟨fun rd ra idx s _ ha => ?_, fun rd ra rb idx s hidx ha hb => ?_⟩
  · have hexec : exec (.lunpk565 rd ra idx) s = .next (s.laneDone rd (expand565 (lane (s.laneValue ra) idx))) :=
      withLane_finishLane_ok ha rd fun a => expand565 (lane a idx)
    rw [hexec, expand565_eq_wideOf]
    rfl
  · refine ⟨setLane (s.laneValue rb) idx (pack565 (s.laneValue ra)), withLane_withLane ha hb _, ?_, fun k hk hne => ?_⟩
    · rw [laneNat, lane_setLane _ _ _ _ hidx hidx, if_pos rfl, toNat_pack565]
    · rw [lane_setLane _ _ _ _ hidx hk, if_neg hne]

/-! The round trips (R162). -/

/-- R162 (a). -/
theorem pack32_unpack32 (p : Word) : pack32 (unpack32 p) = p := by
  apply BitVec.eq_of_toNat_eq
  rw [toNat_pack32, laneNat_unpack32 p (by decide), laneNat_unpack32 p (by decide), laneNat_unpack32 p (by decide),
    laneNat_unpack32 p (by decide)]
  simp only [channel]
  omega

/-- R162 (b): expanding only appends bits below those that packing keeps. -/
theorem pack565_expand565 (h : LaneWord) : pack565 (expand565 h) = h := by
  have hfive (x : Nat) (hx : x < 32) : min (x * 8 + x / 4) 255 / 8 = x := by omega
  have hsix (x : Nat) (hx : x < 64) : min (x * 4 + x / 16) 255 / 4 = x := by omega
  apply BitVec.eq_of_toNat_eq
  rw [toNat_pack565, laneNat_expand565 h (by decide), laneNat_expand565 h (by decide), laneNat_expand565 h (by decide)]
  simp only [lane565]
  rw [hfive (h.toNat % 32) (by omega), hsix (h.toNat / 32 % 64) (by omega), hfive (h.toNat / 2048) (by omega)]
  omega

/-- The high bits of a colour that RGB565 keeps, followed by their own highest bits (R154, R156). -/
theorem laneNat_expand565_pack565 {w : Wide} (hw : LanesAreBytes w) :
    (∀ k ∈ [0, 2], laneNat (expand565 (pack565 w)) k = laneNat w k / 8 * 8 + laneNat w k / 32) ∧
      laneNat (expand565 (pack565 w)) 1 = laneNat w 1 / 4 * 4 + laneNat w 1 / 64 := by
  have hblue := hw 0 (by decide)
  have hgreen := hw 1 (by decide)
  have hred := hw 2 (by decide)
  simp only [List.forall_mem_cons, List.not_mem_nil, false_imp_iff, implies_true, and_true,
    laneNat_expand565 _ (show 0 < 4 by decide), laneNat_expand565 _ (show 1 < 4 by decide),
    laneNat_expand565 _ (show 2 < 4 by decide), lane565, toNat_pack565]
  omega

/-- Settles O42: a colour that went through RGB565 has its low bits replaced by copies of its high bits. -/
theorem formatRoundTrips : Obligations.FormatRoundTrips := by
  refine ⟨pack32_unpack32, pack565_expand565, fun w hw => ?_⟩
  obtain ⟨hredBlue, hgreen⟩ := laneNat_expand565_pack565 hw
  refine ⟨fun k hk => ?_, ?_⟩
  · have hbyte := hw k (by grind)
    rw [hredBlue k hk]
    omega
  · have hbyte := hw 1 (by decide)
    rw [hgreen]
    omega

/-! Pixels in memory (R158, R159). -/

theorem byteAt_succ (m : Memory) (a : Word) (n : Nat) : byteAt m a (n + 1) = byteAt m (a + 1) n := by
  have haddr : a + BitVec.ofNat 32 (n + 1) = a + 1 + BitVec.ofNat 32 n := by
    rw [BitVec.ofNat_add, BitVec.add_assoc, BitVec.add_comm (BitVec.ofNat 32 n)]
    rfl
  rw [byteAt, byteAt, haddr]

theorem byteAt_lt (m : Memory) (a : Word) (n : Nat) : byteAt m a n < 256 := BitVec.isLt _

/-- A read takes the bytes of its access, least significant first (R61). -/
theorem Memory.read_succ (m : Memory) (a : Word) (n : Nat) :
    m.read a (n + 1) = byteAt m a 0 + 256 * m.read (a + 1) n := by
  rw [Memory.read, byteAt, BitVec.ofNat_eq_ofNat, BitVec.add_zero]

theorem channel_read (m : Memory) (a : Word) {k n : Nat} (hk : k < n) : channel (m.read a n) k = byteAt m a k := by
  induction n generalizing a k with
  | zero => omega
  | succ n ih =>
    have hb := byteAt_lt m a 0
    rw [Memory.read_succ]
    cases k with
    | zero => simp only [channel, Nat.pow_zero, Nat.div_one]; omega
    | succ k =>
      have hrest : (byteAt m a 0 + 256 * m.read (a + 1) n) / 256 = m.read (a + 1) n := by omega
      rw [byteAt_succ, ← ih (a + 1) (Nat.lt_of_succ_lt_succ hk), channel, Nat.pow_succ', ← Nat.div_div_eq_div_mul,
        hrest, channel]

theorem laneNat_unpack32_read (m : Memory) (a : Word) {k : Nat} (hk : k < 4) :
    laneNat (unpack32 (BitVec.ofNat 32 (m.read a 4))) k = byteAt m a k := by
  rw [laneNat_unpack32 _ hk, BitVec.toNat_ofNat, channel_mod_two_pow_32 _ hk, channel_read m a hk]

/-- A byte multiplied by full alpha is itself (R124). -/
theorem rounded_byte_mul_255 {b : Nat} (h : b < 256) : rounded (b * 255 + 128) = b := by
  rw [rounded_eq_div (by omega)]
  omega

/-- The premultiplied lanes of a reversed pixel whose channels are `b` (R159). -/
def nprLane (b : Nat → Nat) : Nat → Nat
  | 0 => rounded (b 2 * b 3 + 128)
  | 1 => rounded (b 1 * b 3 + 128)
  | 2 => rounded (b 0 * b 3 + 128)
  | _ => b 3

theorem laneNat_npr (p : Word) {k : Nat} (hk : k < 4) : laneNat (npr p) k = nprLane (laneNat (unpack32 p)) k := by
  have halpha : laneNat (unpack32 p) 3 < 256 := Nat.lt_succ_of_le (lanesAreBytes_unpack32 p 3 (by decide))
  rw [npr, laneNat_mul8V _ _ k hk, mul8_eq_rounded]
  match k, hk with
  | 0, _ | 1, _ | 2, _ => simp [laneNat, swaprb, nprLane]
  | 3, _ => simpa [laneNat, swaprb, nprLane] using rounded_byte_mul_255 halpha

theorem laneNat_loadPixel (f : Fmt) (m : Memory) (a : Word) {n : Nat} (hn : n < 4) :
    laneNat (loadPixel f m a) n = storedLane f m a n := by
  cases f with
  | argb32 => exact laneNat_unpack32_read m a hn
  | rgb565 =>
    have hread : (BitVec.ofNat 16 (m.read a 2)).toNat = byteAt m a 0 + 256 * byteAt m a 1 := by
      have h0 := byteAt_lt m a 0
      have h1 := byteAt_lt m a 1
      rw [BitVec.toNat_ofNat, Memory.read_succ, Memory.read_succ, Memory.read, ← byteAt_succ, Nat.zero_add]
      omega
    rw [loadPixel, laneNat_expand565 _ hn, hread]
    match n, hn with
    | 0, _ | 1, _ | 2, _ | 3, _ => rfl
  | a8 =>
    have hread : (BitVec.ofNat 16 (m.read a 1)).toNat = byteAt m a 0 := by
      have h0 := byteAt_lt m a 0
      rw [BitVec.toNat_ofNat, Memory.read_succ, Memory.read]
      omega
    match n, hn with
    | 0, _ | 1, _ | 2, _ => simp [loadPixel, laneNat, storedLane]
    | 3, _ => rw [loadPixel, laneNat, lane_wide_3, hread, storedLane]
  | argb32Npr =>
    rw [loadPixel, laneNat_npr _ hn]
    match n, hn with
    | 0, _ | 1, _ | 2, _ | 3, _ => simp [nprLane, storedLane, laneNat_unpack32_read]

theorem loadPixel_eq_wideOf (f : Fmt) (m : Memory) (a : Word) : loadPixel f m a = wideOf (storedLane f m a) :=
  eq_wideOf fun _ hn => laneNat_loadPixel f m a hn

theorem storedLane_le (f : Fmt) (m : Memory) (a : Word) {n : Nat} (hn : n < 4) : storedLane f m a n ≤ 255 :=
  laneNat_loadPixel f m a hn ▸ lanesAreBytes_loadPixel f m a n hn

/-! Edge policies (R237, R238). -/

/-- A fetch of a point takes the pixel that the edge policy takes for it. -/
theorem fetch_of_edgeTakes {k : KFields} {c : Conf} {X Y : Int} {x y : Nat} (h : EdgeTakes k c X Y x y) (m : Memory) :
    fetch k c m X Y = srcPix k.sfmt c m x y := by
  rw [fetch, fetchCoord_eq_some.2 h]

/-- A fetch of a point for which the edge policy takes no pixel is transparent black. -/
theorem fetch_of_not_edgeTakes {k : KFields} {c : Conf} {X Y : Int} (h : ∀ x y, ¬ EdgeTakes k c X Y x y) (m : Memory) :
    fetch k c m X Y = wide 0 0 0 0 := by
  have hnone : fetchCoord k.edge c X Y = none :=
    Option.eq_none_iff_forall_ne_some.2 fun q hq => h q.1 q.2 (fetchCoord_eq_some.1 hq)
  rw [fetch, hnone]
  rfl

/-! The bilinear blend (R234, R235). -/

/-- The blend with its weights multiplied out. -/
theorem interp_eq_weighted (tl tr bl br dx dy : Nat) : interp tl tr bl br dx dy =
    (tl * ((256 - dx) * (256 - dy)) + tr * (dx * (256 - dy)) + bl * ((256 - dx) * dy) + br * (dx * dy)) / 2 ^ 16 := by
  rw [interp, Nat.shiftRight_eq_div_pow]
  congr 1
  ring

/-- The weight of a coordinate: the top 8 of the 16 bits below its whole pixel. -/
theorem weight_eq (u : Int) : weight u = ((u - 65536 * wholePixel u) / 256).toNat := by
  rw [weight, wholePixel, Nat.shiftRight_eq_div_pow]
  omega

/-- Settles O50: a pixel's lanes format by format, the pixel of an edge policy by `EdgeTakes`, and the samples by the
coordinates and weights of R232 to R234. -/
theorem samplingAndEdgePolicies : Obligations.SamplingAndEdgePolicies := by
  refine ⟨fun f m a => ⟨loadPixel_eq_wideOf f m a, fun n hn => storedLane_le f m a hn⟩,
    fun f c m x y => loadPixel_eq_wideOf f m _, ⟨rfl, rfl, rfl, rfl⟩, ?pad, ?inside, ?outside, ?identity, ?nearest,
    ?bilinear⟩
  case pad =>
    intro k c m x y hpad
    exact fetch_of_edgeTakes (by simp only [EdgeTakes, hpad, and_self]) m
  case inside =>
    intro k c m x y hnone hx0 hx hy0 hy
    refine fetch_of_edgeTakes ?_ m
    simp only [EdgeTakes, hnone]
    omega
  case outside =>
    intro k c m x y hnone hout
    refine fetch_of_not_edgeTakes (fun px py htakes => ?_) m
    simp only [EdgeTakes, hnone] at htakes
    omega
  case identity =>
    intro k c m i j hs
    simp only [sampleDirect, hs, Int.natCast_add]
  case nearest =>
    rintro k c m i j hs _ _ rfl rfl
    simp only [sampleDirect, hs, wholePixel_eq_fdiv, coordU, coordV]
  case bilinear =>
    rintro k c m i j hs u v rfl rfl
    simp only [← weight_eq, ← wholePixel_eq_fdiv]
    refine ⟨weight_lt _, weight_lt _, ?_⟩
    simp only [sampleDirect, hs, interpV, interp_eq_weighted, coordU, coordV]

end Sys2Proof.Machine
end

section
/-! Proofs, family `42_compositing`: each operator of a COMPOSITE in closed form on bytes and the picture it paints (O44
to O47), and the inputs and the independence of its pixels (O48). -/

namespace Sys2Proof.Machine

/-! What the operators are built from, in closed form. -/

/-- R131 on every lane. -/
theorem adds8V_eq (a b : Wide) : adds8V a b = wideOf fun n => min (laneNat a n + laneNat b n) 255 := rfl

/-- A wide value given lane by lane depends on its four lanes alone. -/
theorem wideOf_congr {f g : Nat → Nat} (h : ∀ n < 4, f n = g n) : wideOf f = wideOf g := by
  simp only [wideOf, h 0 (by decide), h 1 (by decide), h 2 (by decide), h 3 (by decide)]

theorem laneNat_mul8V_eq_rounded (a b : Wide) {n : Nat} (hn : n < 4) :
    laneNat (mul8V a b) n = rounded (laneNat a n * laneNat b n + 128) := by
  rw [laneNat_mul8V a b n hn, mul8_eq_rounded]

/-- D of R189: every lane is the destination's alpha. -/
theorem laneNat_alpha (d : Wide) {n : Nat} (hn : n < 4) : laneNat (bcast (lane d 3)) n = laneNat d 3 :=
  laneNat_bcast _ n hn

/-- nD of R188: every lane is the complement of the destination's alpha. -/
theorem laneNat_neg8V_alpha {d : Wide} (hd : LanesAreBytes d) {n : Nat} (hn : n < 4) :
    laneNat (neg8V (bcast (lane d 3))) n = 255 - laneNat d 3 := by
  have hbyte : laneNat (bcast (lane d 3)) n ≤ 255 := (laneNat_alpha d hn).trans_le (hd 3 (by decide))
  rw [laneNat_neg8V hn hbyte, laneNat_alpha d hn]

/-! The operators in closed form (R186 to R199). -/

section
variable {s' a d : Wide}

theorem overResult_eq (ha : LanesAreBytes a) : overResult s' a d =
    wideOf fun n => min (laneNat s' n + rounded (laneNat d n * (255 - laneNat a n) + 128)) 255 := by
  rw [overResult, adds8V_eq]
  exact wideOf_congr fun n hn => by rw [laneNat_mul8V_eq_rounded _ _ hn, laneNat_neg8V hn (ha n hn)]

theorem overReverseResult_eq (hd : LanesAreBytes d) : overReverseResult s' d =
    wideOf fun n => min (laneNat d n + rounded (laneNat s' n * (255 - laneNat d 3) + 128)) 255 := by
  rw [overReverseResult, adds8V_eq]
  exact wideOf_congr fun n hn => by rw [laneNat_mul8V_eq_rounded _ _ hn, laneNat_neg8V_alpha hd hn]

theorem inResult_eq : inResult s' d = wideOf fun n => rounded (laneNat s' n * laneNat d 3 + 128) := by
  rw [inResult, mul8V_eq]
  exact wideOf_congr fun n hn => by rw [laneNat_alpha d hn]

theorem outResult_eq (hd : LanesAreBytes d) : outResult s' d =
    wideOf fun n => rounded (laneNat s' n * (255 - laneNat d 3) + 128) := by
  rw [outResult, mul8V_eq]
  exact wideOf_congr fun n hn => by rw [laneNat_neg8V_alpha hd hn]

theorem outReverseResult_eq (ha : LanesAreBytes a) : outReverseResult a d =
    wideOf fun n => rounded (laneNat d n * (255 - laneNat a n) + 128) := by
  rw [outReverseResult, mul8V_eq]
  exact wideOf_congr fun n hn => by rw [laneNat_neg8V hn (ha n hn)]

theorem atopResult_eq (ha : LanesAreBytes a) : atopResult s' a d =
    wideOf fun n => rounded (laneNat s' n * laneNat d 3 + laneNat d n * (255 - laneNat a n) + 128) := by
  rw [atopResult, muladd8V_eq]
  exact wideOf_congr fun n hn => by rw [laneNat_alpha d hn, laneNat_neg8V hn (ha n hn)]

theorem atopReverseResult_eq (hd : LanesAreBytes d) : atopReverseResult s' a d =
    wideOf fun n => rounded (laneNat s' n * (255 - laneNat d 3) + laneNat d n * laneNat a n + 128) := by
  rw [atopReverseResult, muladd8V_eq]
  exact wideOf_congr fun n hn => by rw [laneNat_neg8V_alpha hd hn]

theorem xorResult_eq (ha : LanesAreBytes a) (hd : LanesAreBytes d) : xorResult s' a d =
    wideOf fun n => rounded (laneNat s' n * (255 - laneNat d 3) + laneNat d n * (255 - laneNat a n) + 128) := by
  rw [xorResult, muladd8V_eq]
  exact wideOf_congr fun n hn => by rw [laneNat_neg8V_alpha hd hn, laneNat_neg8V hn (ha n hn)]

end

/-- A lane of S'' with the case of no scaling first (R197 to R199). -/
theorem saturateLane_eq (z : Config.SatZeroHeadroom) (h sk ak : Nat) : saturateLane z h sk ak =
    if ak ≤ h then sk else if h = 0 ∧ z = .noScale then sk else rounded (sk * ((h * 255 + ak / 2) / ak) + 128) := by
  rw [saturateLane, divUn8, mul8_eq_rounded]
  by_cases hle : ak ≤ h
  · rw [if_pos hle, if_neg (Nat.not_lt.2 hle)]
  · rw [if_neg hle, if_pos (Nat.lt_of_not_le hle)]

/-- Scaling a byte gives a byte. -/
theorem saturateLane_le (z : Config.SatZeroHeadroom) (h ak : Nat) {sk : Nat} (hs : sk ≤ 255) :
    saturateLane z h sk ak ≤ 255 := by
  rw [saturateLane_eq]
  split_ifs
  · exact hs
  · exact hs
  · exact rounded_le _

theorem saturateResult_eq (z : Config.SatZeroHeadroom) {s' : Wide} (a d : Wide) (hs : LanesAreBytes s') :
    saturateResult z s' a d = wideOf fun n =>
      min (laneNat d n + saturateLane z (255 - laneNat d 3) (laneNat s' n) (laneNat a n)) 255 := by
  rw [saturateResult, adds8V_eq]
  exact wideOf_congr fun n hn => by
    have hbyte := saturateLane_le z (255 - laneNat d 3) (laneNat a n) (hs n hn)
    rw [laneNat_wideOf _ n hn, Nat.mod_eq_of_lt (Nat.lt_of_le_of_lt hbyte (by decide))]

/-! The picture of an operator. -/

/-- A ready COMPOSITE completes and paints every formula that is its operator's on bytes (R180, R202, R203, R248). -/
theorem CompositeReady.paints {op : Op} {k : KFields} {s : State} {r : Wide → Wide → Wide → Wide}
    (h : CompositeReady op k s) (hm : s.mem.wf)
    (hr : ∀ s' a d, LanesAreBytes s' → LanesAreBytes a → LanesAreBytes d →
      opResult Config.params.satZeroHeadroom op s' a d = r s' a d) : Paints (.composite k op) k r s := by
  refine ⟨_, exec_composite_of_ready h, rfl, ?_⟩
  rw [← paint_congr k s.conf s.mem hr]
  exact compositeRun_paints_exact s.cache h.runSets hm

/-- Settles O44: the four operators in closed form; SRC and ADD are so by definition. -/
theorem sourceOverAndAddPaint : Obligations.SourceOverAndAddPaint := fun _ _ hm =>
  ⟨fun h => h.paints hm fun _ _ _ _ _ _ => rfl,
    fun h => h.paints hm fun _ _ _ _ ha _ => overResult_eq ha,
    fun h => h.paints hm fun _ _ _ _ _ hd => overReverseResult_eq hd,
    fun h => h.paints hm fun _ _ _ _ _ _ => adds8V_eq _ _⟩

/-- Settles O45: the four operators in closed form; IN_REVERSE is `mul8` of destination and source alpha. -/
theorem inAndOutPaint : Obligations.InAndOutPaint := fun _ _ hm =>
  ⟨fun h => h.paints hm fun _ _ _ _ _ _ => inResult_eq,
    fun h => h.paints hm fun _ _ _ _ _ _ => mul8V_eq _ _,
    fun h => h.paints hm fun _ _ _ _ _ hd => outResult_eq hd,
    fun h => h.paints hm fun _ _ _ _ ha _ => outReverseResult_eq ha⟩

/-- Settles O46: the three operators in closed form, each one `muladd8`. -/
theorem atopAndXorPaint : Obligations.AtopAndXorPaint := fun _ _ hm =>
  ⟨fun h => h.paints hm fun _ _ _ _ ha _ => atopResult_eq ha,
    fun h => h.paints hm fun _ _ _ _ _ hd => atopReverseResult_eq hd,
    fun h => h.paints hm fun _ _ _ _ ha hd => xorResult_eq ha hd⟩

/-- Settles O47: the operator in closed form, the open parameter kept as it stands. -/
theorem saturatePaints : Obligations.SaturatePaints := fun _ _ hm h =>
  h.paints hm fun s' a d hs _ _ => (saturateResult_eq _ a d hs).trans (by simp only [saturateLane_eq])

/-! The inputs of a pixel (R181 to R184). -/

theorem unpack32_eq_wideOf (p : Word) : unpack32 p = wideOf (channel p.toNat) :=
  eq_wideOf fun _ hn => laneNat_unpack32 p hn

theorem bcast_lane_eq_wideOf (v : Wide) (n : Nat) : bcast (lane v n) = wideOf fun _ => laneNat v n :=
  eq_wideOf fun k hk => laneNat_bcast _ k hk

/-- The mask pixel of R182: the constant's, unpacked, or the stored one. -/
def maskPixel (k : KFields) (c : Conf) (m : Memory) (i j : Nat) : Wide :=
  if k.msolid then unpack32 c.solidMsk else loadPixel k.mfmt m (c.msk.rectAddr (bpb k.mfmt) i j)

section
variable {k : KFields}

theorem maskVector_of_noMask (hk : k.mmode = .noMask) (c : Conf) (m : Memory) (i j : Nat) :
    maskVector k c m i j = none := by
  simp only [maskVector, hk]

theorem maskVector_of_uniform (hk : k.mmode = .uniform) (c : Conf) (m : Memory) (i j : Nat) :
    maskVector k c m i j = some (bcast (lane (maskPixel k c m i j) 3)) := by
  simp only [maskVector, hk, maskAlpha, maskPixel]

theorem maskVector_of_perComponent (hk : k.mmode = .perComponent) (c : Conf) (m : Memory) (i j : Nat) :
    maskVector k c m i j = some (maskPixel k c m i j) := by
  simp only [maskVector, hk, maskPixel]

end

theorem laneNat_maskPixel (k : KFields) (c : Conf) (m : Memory) (i j : Nat) {n : Nat} (hn : n < 4) :
    laneNat (maskPixel k c m i j) n = if k.msolid = true then channel c.solidMsk.toNat n
      else storedLane k.mfmt m (c.msk.rectAddr (bpb k.mfmt) i j) n := by
  rw [maskPixel]
  split
  · exact laneNat_unpack32 _ hn
  · exact laneNat_loadPixel _ _ _ hn

/-- Under a mask with the lanes `f` the source and its alpha are multiplied by them lane by lane (R183). -/
theorem maskedInputs_of_lanes (src : Wide) {m : Wide} {f : Nat → Nat} (h : ∀ n < 4, laneNat m n = f n) :
    some m = some (wideOf f) ∧
      maskedSource src (some m) = wideOf (fun n => rounded (laneNat src n * f n + 128)) ∧
      sourceAlpha src (some m) = wideOf fun n => rounded (laneNat src 3 * f n + 128) := by
  refine ⟨congrArg some (eq_wideOf h), ?_, ?_⟩
  · rw [maskedSource, mul8V_eq]
    exact wideOf_congr fun n hn => by rw [h n hn]
  · rw [sourceAlpha, mul8V_eq]
    exact wideOf_congr fun n hn => by rw [h n hn, laneNat_alpha src hn]

/-! The pixels of a picture (R185, R202). -/

theorem nodup_rowMajor (w h : Nat) : (rowMajor w h).Nodup := by
  have hrow (j : Nat) : ((List.range w).map fun i => (i, j)).Nodup :=
    List.nodup_range.map fun _ _ hij => congrArg Prod.fst hij
  have hrows : (List.range h).Pairwise
      (Function.onFun List.Disjoint fun j => (List.range w).map fun i => (i, j)) :=
    List.nodup_range.imp fun hne q hq hq' => by
      obtain ⟨_, -, rfl⟩ := List.mem_map.1 hq
      obtain ⟨_, -, heq⟩ := List.mem_map.1 hq'
      exact hne (congrArg Prod.snd heq).symm
  exact List.nodup_flatMap.2 ⟨fun j _ => hrow j, hrows⟩

/-- A packed pixel fills the bytes of its format. -/
theorem packPixel_lt (f : Fmt) (w : Wide) : packPixel f w < 256 ^ bpb f := by
  cases f with
  | argb32 => exact (pack32 w).isLt
  | rgb565 => exact (pack565 w).isLt
  | a8 => exact Nat.pow_pos (by decide)
  | argb32Npr => exact Nat.pow_pos (by decide)

/-- The access of a pixel of the destination. -/
def dstPixel (k : KFields) (c : Conf) (q : Nat × Nat) : Access :=
  { addr := c.dst.rectAddr (bpb k.dfmt) q.1 q.2, size := bpb k.dfmt }

theorem SameOn.read_eq {m m' : Memory} {a : Word} {f : Fmt} (h : SameOn m m' { addr := a, size := bpb f }) :
    m.read a (bpb f) = m'.read a (bpb f) :=
  Memory.read_congr a (bpb f) ((bpb_le f).trans (by decide)) fun x hx => h x (decide_eq_true hx)

/-- Painting other pixels leaves a pixel's bytes alone. -/
theorem foldl_paintPixel_sameOn (r : Wide → Wide → Wide → Wide) {k : KFields} {c : Conf} (m0 : Memory)
    (hd : DisjointPixels c c.dst (bpb k.dfmt)) {q : Nat × Nat} (hq : q ∈ c.pixels) {l : List (Nat × Nat)}
    (hl : ∀ q' ∈ l, q' ∈ c.pixels ∧ q' ≠ q) {m : Memory} (hm : m.wf) :
    (l.foldl (paintPixel r k c m0) m).wf ∧ SameOn (l.foldl (paintPixel r k c m0) m) m (dstPixel k c q) :=
  foldl_keeps (P := fun m' => m'.wf ∧ SameOn m' m (dstPixel k c q)) ⟨hm, fun _ _ => rfl⟩
    fun m' ⟨hwf, hsame⟩ q' hq' => by
      obtain ⟨hmem, hne⟩ := hl q' hq'
      refine ⟨Memory.wf_write hwf _ _ _, fun a ha => ?_⟩
      have hout : (dstPixel k c q').covers a = false := not_covers_singleton.1 fun hcov =>
        hd q' hmem q hq hne a ⟨hcov, _, List.mem_singleton_self _, ha⟩
      exact (readByte_write_of_not_covers hwf _ hout).trans (hsame a ha)

/-- A pixel of the picture is the operator's result of its own inputs at the start, packed. -/
theorem read_paint (r : Wide → Wide → Wide → Wide) {k : KFields} {c : Conf} {m : Memory} (hm : m.wf)
    (hd : DisjointPixels c c.dst (bpb k.dfmt)) {i j : Nat} (hi : i < c.rectW.toNat) (hj : j < c.rectH.toNat) :
    (paint r k c m).read (c.dst.rectAddr (bpb k.dfmt) i j) (bpb k.dfmt) = packPixel k.dfmt
      (r (maskedSource (directSource k c m i j) (maskVector k c m i j))
        (sourceAlpha (directSource k c m i j) (maskVector k c m i j)) (dstValue k c m i j)) := by
  have hq : (i, j) ∈ c.pixels := mem_rowMajor.2 ⟨hi, hj⟩
  obtain ⟨before, after, hsplit⟩ := List.append_of_mem hq
  have hnodup : (before ++ (i, j) :: after).Nodup := hsplit ▸ nodup_rowMajor _ _
  have hother : ∀ q ∈ before ++ after, q ∈ c.pixels ∧ q ≠ (i, j) := fun q hmem =>
    ⟨hsplit ▸ List.perm_middle.mem_iff.2 (List.mem_cons_of_mem _ hmem),
      fun heq => (List.nodup_middle.1 hnodup).notMem (heq ▸ hmem)⟩
  obtain ⟨hwf, hstart⟩ := foldl_paintPixel_sameOn r m hd hq (fun q h => hother q (List.mem_append_left _ h)) hm
  obtain ⟨-, hkept⟩ := foldl_paintPixel_sameOn r m hd hq (fun q h => hother q (List.mem_append_right _ h))
    (m := paintPixel r k c m (before.foldl (paintPixel r k c m) m) (i, j)) (Memory.wf_write hwf _ _ _)
  rw [paint_eq, hsplit, List.foldl_append, List.foldl_cons, hkept.read_eq, paintPixel,
    Memory.read_write hwf _ _ _ ((bpb_le _).trans (by decide)), Nat.mod_eq_of_lt (packPixel_lt _ _), dstValue,
    loadPixel_congr k.dfmt _ hstart, dstValue]

/-- A destination pixel of the memory a ready COMPOSITE leaves is that pixel of the picture: no scratch row touches it
(R69). -/
theorem CompositeReady.read_pixel {op : Op} {k : KFields} {s : State} (h : CompositeReady op k s) (hm : s.mem.wf)
    {i j : Nat} (hi : i < s.conf.rectW.toNat) (hj : j < s.conf.rectH.toNat) :
    (s.afterComposite Config.params op k).mem.read (s.conf.dst.rectAddr (bpb k.dfmt) i j) (bpb k.dfmt) =
      (paint (opResult Config.params.satZeroHeadroom op) k s.conf s.mem).read
        (s.conf.dst.rectAddr (bpb k.dfmt) i j) (bpb k.dfmt) :=
  SameOn.read_eq fun a ha => compositeRun_paints s.cache h.runSets hm a
    (h.noScratchAlias a (covers_append.2 (.inr (covers_dst hi hj ha))))

/-- Settles O48: the inputs by the lemmas about them, and a pixel of the memory the command leaves is that pixel of the
picture, whose bytes no other pixel's paint touches. -/
theorem pixelsAreIndependent : Obligations.PixelsAreIndependent := by
  refine ⟨fun k c m i j => ⟨?constant, ?sampled, ?dst, ?unmasked, fun mp hmp => ?masked⟩,
    fun op k s hm h hd => ⟨_, exec_composite_of_ready h, fun i j hi hj => ?pixel⟩⟩
  case constant => exact fun hs => (if_pos hs).trans (unpack32_eq_wideOf _)
  case sampled => exact fun hs => if_neg (by simp [hs])
  case dst => exact loadPixel_eq_wideOf _ _ _
  case unmasked =>
    intro hk
    rw [maskVector_of_noMask hk]
    exact ⟨rfl, bcast_lane_eq_wideOf _ _⟩
  case masked =>
    have hlanes (n : Nat) (hn : n < 4) : laneNat (maskPixel k c m i j) n = mp n :=
      (laneNat_maskPixel k c m i j hn).trans (hmp n hn).symm
    refine ⟨fun hk => ?_, fun hk => ?_⟩
    · rw [maskVector_of_uniform hk]
      exact maskedInputs_of_lanes _ fun n hn => (laneNat_alpha _ hn).trans (hlanes 3 (by decide))
    · rw [maskVector_of_perComponent hk]
      exact maskedInputs_of_lanes _ hlanes
  case pixel =>
    have hsrc := lanesAreBytes_directSource k s.conf s.mem i j
    exact ⟨hsrc, lanesAreBytes_dstValue k s.conf s.mem i j,
      lanesAreBytes_opResult _ op _ _ (lanesAreBytes_maskedSource _ hsrc),
      (h.read_pixel hm hi hj).trans (read_paint _ hm hd hi hj)⟩

end Sys2Proof.Machine
end

section
/-! Proofs, family `43_sampler_cache`: LINTERP (O40), the victim slot (O51), a request for a row and the rows of a
destination row (O52), a COMPOSITE that does not use the cache (O53), and the cache of a whole COMPOSITE that does
(O60). -/

namespace Sys2Proof.Machine

/-! LINTERP (R235, R236). -/

/-- The blend of four pixels whose channels are bytes is `interp` on every lane. -/
theorem laneNat_interpV {tl tr bl br : Wide} {dx dy : Nat} (htl : LanesAreBytes tl) (htr : LanesAreBytes tr)
    (hbl : LanesAreBytes bl) (hbr : LanesAreBytes br) (hx : dx ≤ 256) (hy : dy ≤ 256) {k : Nat} (hk : k < 4) :
    laneNat (interpV tl tr bl br dx dy) k =
      interp (laneNat tl k) (laneNat tr k) (laneNat bl k) (laneNat br k) dx dy :=
  laneNat_wideOf_of_lt (fun n => interp (laneNat tl n) (laneNat tr n) (laneNat bl n) (laneNat br n) dx dy) k hk
    (Nat.lt_of_le_of_lt (interp_le (htl k hk) (htr k hk) (hbl k hk) (hbr k hk) hx hy) (by decide))

/-- The left pixel of a source of LINTERP. -/
theorem laneNat_unpack32_low (v : Wide) {k : Nat} (hk : k < 4) :
    laneNat (unpack32 (v.extractLsb' 0 32)) k = channel (v.toNat % 2 ^ 32) k := by
  rw [laneNat_unpack32 _ hk, BitVec.extractLsb'_toNat, Nat.shiftRight_zero]

/-- The right pixel of a source of LINTERP. -/
theorem laneNat_unpack32_high (v : Wide) {k : Nat} (hk : k < 4) :
    laneNat (unpack32 (v.extractLsb' 32 32)) k = channel (v.toNat / 2 ^ 32) k := by
  rw [laneNat_unpack32 _ hk, BitVec.extractLsb'_toNat, Nat.shiftRight_eq_div_pow, channel_mod_two_pow_32 _ hk]

/-- Settles O40: the result lane by lane is the blend of the sources' channels, its weights multiplied out. -/
theorem linterpBlendsFourPixels : Obligations.LinterpBlendsFourPixels := by
  intro rd ra rb dx dy s hdx hdy ha hb
  have hb32 := lanesAreBytes_unpack32
  refine ⟨_, lanesAreBytes_interpV (hb32 _) (hb32 _) (hb32 _) (hb32 _) hdx.le hdy.le, withLane_withLane ha hb _,
    fun k hk => ?_⟩
  rw [laneNat_interpV (hb32 _) (hb32 _) (hb32 _) (hb32 _) hdx.le hdy.le hk, interp_eq_weighted]
  simp only [laneNat_unpack32_low _ hk, laneNat_unpack32_high _ hk]

/-! The victim (R244). -/

/-- The lowest slot with a property. -/
def Lowest (P : SlotId → Prop) (i : SlotId) : Prop := P i ∧ ∀ q, P q → i.toNat ≤ q.toNat

/-- A search through the two slots answers the lowest one that passes. -/
theorem lowest_of_find? {p : SlotId → Bool} {i : SlotId} (h : [SlotId.s0, SlotId.s1].find? p = some i) :
    Lowest (fun q => p q = true) i := by
  refine ⟨List.find?_some h, fun q hq => ?_⟩
  cases h0 : p .s0 with
  | true =>
    rw [List.find?_cons_of_pos h0, Option.some.injEq] at h
    exact h ▸ Nat.zero_le _
  | false =>
    cases q with
    | s0 => rw [h0] at hq; cases hq
    | s1 => exact slotId_toNat_le i

/-- A search through the two slots that answers none tried both. -/
theorem not_of_find?_none {p : SlotId → Bool} (h : [SlotId.s0, SlotId.s1].find? p = none) (q : SlotId) :
    p q = false := by
  have hq := List.find?_eq_none.1 h q (by cases q <;> decide)
  simpa using hq

/-- The victim is the lowest unlocked invalid slot, else the lowest unlocked one whose tag is not the pending row, else
the lowest unlocked one. -/
theorem victim_cases {c : Cache} (pending : Option Nat) (hu : ∃ u, (c.slot u).lock = false) :
    Lowest (fun q => (c.slot q).lock = false ∧ (c.slot q).valid = false) (c.victim pending) ∨
    ((∀ q, (c.slot q).lock = false → (c.slot q).valid = true) ∧
      (Lowest (fun q => (c.slot q).lock = false ∧ some (c.slot q).tag.toNat ≠ pending) (c.victim pending) ∨
      (∀ q, (c.slot q).lock = false → some (c.slot q).tag.toNat = pending) ∧
        Lowest (fun q => (c.slot q).lock = false) (c.victim pending))) := by
  have hhead : ([SlotId.s0, SlotId.s1].filter fun i => !(c.slot i).lock).headD .s0 =
      ([SlotId.s0, SlotId.s1].find? fun i => !(c.slot i).lock).getD .s0 := by
    rw [List.headD_eq_head?_getD, List.head?_filter]
  simp only [Cache.victim, List.find?_filter, hhead]
  split
  next i hi => exact .inl (by simpa using lowest_of_find? hi)
  next hinvalid =>
    refine .inr ⟨fun q hq => by simpa [hq] using not_of_find?_none hinvalid q, ?_⟩
    split
    next i hi => exact .inl (by simpa using lowest_of_find? hi)
    next hother =>
      refine .inr ⟨fun q hq => by simpa [hq] using not_of_find?_none hother q, ?_⟩
      cases hfree : [SlotId.s0, SlotId.s1].find? fun i => !(c.slot i).lock with
      | some i => simpa using lowest_of_find? hfree
      | none =>
        obtain ⟨u, hu⟩ := hu
        simpa [hu] using not_of_find?_none hfree u

/-- As long as an unlocked slot is invalid the victim is one, the lowest (R244). -/
theorem victim_lowest_invalid {c : Cache} (pending : Option Nat) {i : SlotId} (hl : (c.slot i).lock = false)
    (hv : (c.slot i).valid = false) :
    Lowest (fun q => (c.slot q).lock = false ∧ (c.slot q).valid = false) (c.victim pending) := by
  obtain h | ⟨hvalid, -⟩ := victim_cases pending ⟨i, hl⟩
  · exact h
  · exact absurd (hvalid i hl) (by simp [hv])

/-- Settles O51: each clause's condition rules out the victim's other cases. -/
theorem victimChoice : Obligations.VictimChoice := by
  intro c pending hu
  have hcases := victim_cases pending hu
  refine ⟨hu.elim fun u hu => victim_unlocked pending hu, fun ⟨q, hl, hv⟩ => ?invalid, fun hvalid ⟨q, hl, ht⟩ => ?other,
    fun hnone => ?lowest⟩
  case invalid =>
    obtain ⟨⟨-, hvi⟩, hlow⟩ := victim_lowest_invalid pending hl hv
    exact ⟨hvi, fun q hl hv => hlow q ⟨hl, hv⟩⟩
  case other =>
    obtain ⟨⟨hli, hvi⟩, -⟩ | ⟨-, ⟨⟨-, hti⟩, hlow⟩ | ⟨htag, -⟩⟩ := hcases
    · exact absurd hvi (by simp [hvalid _ hli])
    · exact ⟨hti, fun q hl ht => hlow q ⟨hl, ht⟩⟩
    · exact absurd (htag q hl) ht
  case lowest =>
    obtain ⟨⟨hli, hvi⟩, -⟩ | ⟨-, ⟨⟨hli, hti⟩, -⟩ | ⟨-, -, hlow⟩⟩ := hcases
    · exact absurd hvi (by simp [(hnone _ hli).1])
    · exact absurd (hnone _ hli).2 hti
    · exact ⟨trivial, fun q hl _ => hlow q hl⟩

/-! The rows a destination row needs (R246). -/

/-- The whole row of a destination row's source coordinate. -/
def firstRow (c : Conf) (j : Nat) : Int := (c.xform.e.toInt * (j : Int) + c.xform.f.toInt).fdiv 65536

theorem rowPair_eq (k : KFields) (c : Conf) (j : Nat) : rowPair k c j =
    (edgeCoord k.edge c.src.height.toNat (firstRow c j), edgeCoord k.edge c.src.height.toNat (firstRow c j + 1)) := by
  simp only [rowPair, firstRow, wholePixel_eq_fdiv]

/-- The requests of a destination row, in their order: the second row is the first request's pending one. -/
theorem rowStart_eq (p : Config.Params) {k : KFields} {c : Conf} (e : Engine) {j : Nat} {r0 r1 : Option Nat}
    (h : rowPair k c j = (r0, r1)) : e.rowStart p k c j =
      let a := e.acquire? p k c r0 r1
      let b := a.2.acquire? p k c r1 none
      ({ top := a.1, bottom := b.1 }, b.2) := by
  simp only [Engine.rowStart, h]

/-- Pixels change nothing of the cache, and the row's end unlocks both slots. -/
theorem compositeRow_cache (p : Config.Params) (op : Op) {k : KFields} {c : Conf} (e : Engine) (j : Nat)
    (hu : cacheUsed k c = true) :
    (Engine.compositeRow p op k c e j).cache = (e.rowStart p k c j).2.cache.unlock := by
  simp only [Engine.compositeRow, hu, if_true, compositePixels_cache]

/-! A request for a row (R243, R245). -/

/-- No slot holds a row exactly when no valid slot has its tag. -/
theorem hitSlot_eq_none_iff {c : Cache} {y : Nat} :
    c.hitSlot y = none ↔ ∀ q, (c.slot q).valid = true → (c.slot q).tag.toNat ≠ y := by
  constructor
  · intro h q hv ht
    simpa [hv, ht] using not_of_find?_none h q
  · intro h
    cases hhit : c.hitSlot y with
    | none => rfl
    | some i => exact absurd (hitSlot_some hhit).2 (h i (hitSlot_some hhit).1)

theorem acquire_of_hit {e : Engine} {y : Nat} {i : SlotId} (h : e.cache.hitSlot y = some i) (p : Config.Params)
    (k : KFields) (c : Conf) (pending : Option Nat) :
    e.acquire p k c y pending = (i, { e with cache := e.cache.onHit i }) := by
  simp only [Engine.acquire, h]

theorem acquire_of_miss {e : Engine} {y : Nat} (h : e.cache.hitSlot y = none) (p : Config.Params) (k : KFields)
    (c : Conf) (pending : Option Nat) :
    e.acquire p k c y pending =
      (e.cache.victim pending, { e.decode p k c (e.cache.victim pending) y with
        cache := (e.decode p k c (e.cache.victim pending) y).cache.onDecode (e.cache.victim pending) y }) := by
  simp only [Engine.acquire, h]

@[simp] theorem Cache.onHit_hits (c : Cache) (i : SlotId) : (c.onHit i).hits = c.hits + 1 := rfl
@[simp] theorem Cache.onHit_decodes (c : Cache) (i : SlotId) : (c.onHit i).decodes = c.decodes := by cases i <;> rfl
@[simp] theorem Cache.onDecode_hits (c : Cache) (i : SlotId) (y : Nat) : (c.onDecode i y).hits = c.hits := by
  cases i <;> rfl
@[simp] theorem Cache.onDecode_decodes (c : Cache) (i : SlotId) (y : Nat) :
    (c.onDecode i y).decodes = c.decodes + 1 := rfl

@[simp] theorem decode_decodes (p : Config.Params) (k : KFields) (c : Conf) (e : Engine) (i : SlotId) (y : Nat) :
    (e.decode p k c i y).cache.decodes = e.cache.decodes := by
  rw [← Cache.bare_decodes, decode_bare, Cache.bare_decodes]

@[simp] theorem decode_hits (p : Config.Params) (k : KFields) (c : Conf) (e : Engine) (i : SlotId) (y : Nat) :
    (e.decode p k c i y).cache.hits = e.cache.hits := by
  rw [← Cache.bare_hits, decode_bare, Cache.bare_hits]

theorem decode_external {p : Config.Params} {c : Conf} (h : externalScratch p c = true) (k : KFields) (e : Engine)
    (i : SlotId) (y : Nat) :
    e.decode p k c i y = { e with bus := decodeStores k c i y c.src.width.toNat e.bus } := by
  simp only [Engine.decode, h, if_true, decodeStores]

theorem decode_onchip {p : Config.Params} {c : Conf} (h : externalScratch p c = false) (k : KFields) (e : Engine)
    (i : SlotId) (y : Nat) :
    e.decode p k c i y = { e with cache := e.cache.setSlot i { e.cache.slot i with
      data := (List.range c.src.width.toNat).map fun x => pack32 (srcPix k.sfmt c e.bus.mem x y) } } := by
  simp only [Engine.decode, h, Bool.false_eq_true, if_false]

/-- A decode leaves the other slot alone. -/
theorem decode_slot_ne (p : Config.Params) (k : KFields) (c : Conf) (e : Engine) {i q : SlotId} (hq : q ≠ i) (y : Nat) :
    (e.decode p k c i y).cache.slot q = e.cache.slot q := by
  cases h : externalScratch p c with
  | true => rw [decode_external h]
  | false => rw [decode_onchip h, Cache.slot_setSlot_ne _ _ hq]

/-- A decode of a row that keeps apart from the scratch region changes no memory outside the slot's scratch row, and the
slot then gives back the row. -/
theorem decode_row {p : Config.Params} {k : KFields} {c : Conf} {e : Engine} (i : SlotId) {y : Nat}
    (hw : e.bus.mem.wf) (hu : cacheUsed k c = true)
    (hap : ∀ a, Covers (rowReads k c y) a → ¬ Covers (scratchAccesses p k c) a) :
    SameOutside [slotRow c i] (e.decode p k c i y).bus.mem e.bus.mem ∧
      HoldsRow p k c e.bus.mem (e.decode p k c i y) i y := by
  cases hext : externalScratch p c with
  | true =>
    obtain ⟨-, hsame, hread⟩ := decodeStores_spec (i := i) (le_refl _) hw (fun _ _ => rfl) fun x hx a ha =>
      Bool.eq_false_iff.2 fun hc => hap a ha (covers_scratchAccesses hu hext i hx hc)
    rw [decode_external hext]
    refine ⟨fun a ha => hsame a fun x hx => Bool.eq_false_iff.2 fun hc => ha ?_, fun x hx => ?_⟩
    · exact ⟨_, List.mem_singleton_self _, covers_slotRow c i hx hc⟩
    · simp only [Engine.rowPix, hext, if_true, hread x hx, BitVec.ofNat_toNat, BitVec.setWidth_eq]
      exact unpack32_pack32 (lanesAreBytes_srcPix _ _ _ _ _)
  | false =>
    rw [decode_onchip hext]
    refine ⟨fun _ _ => rfl, fun x hx => ?_⟩
    simp only [Engine.rowPix, hext, Bool.false_eq_true, if_false, Cache.slot_setSlot_same]
    rw [List.getD_eq_getElem?_getD, List.getElem?_map, List.getElem?_range hx, Option.map_some, Option.getD_some,
      unpack32_pack32 (lanesAreBytes_srcPix _ _ _ _ _)]

/-- What counting and locking do to a slot's pixels: nothing. -/
theorem holdsRow_onDecode {p : Config.Params} {k : KFields} {c : Conf} {m : Memory} {e : Engine} {i : SlotId} {y : Nat}
    (h : HoldsRow p k c m e i y) : HoldsRow p k c m { e with cache := e.cache.onDecode i y } i y :=
  holdsRow_congr (e := e) (by rw [Cache.slot_onDecode, if_pos rfl]) (fun _ _ _ _ _ => rfl) h

/-- The slot a request answers: locked, valid and tagged with the row; the other slot is left alone. -/
theorem acquire_slot (p : Config.Params) (k : KFields) (c : Conf) (e : Engine) {y : Nat} (hy : y < 2 ^ 16)
    (pending : Option Nat) (q : SlotId) :
    let i := (e.acquire p k c y pending).1
    let e' := (e.acquire p k c y pending).2
    (q = i → (e'.cache.slot q).lock = true ∧ (e'.cache.slot q).valid = true ∧ (e'.cache.slot q).tag.toNat = y) ∧
      (q ≠ i → e'.cache.slot q = e.cache.slot q) := by
  cases hhit : e.cache.hitSlot y with
  | some i =>
    obtain ⟨hv, ht⟩ := hitSlot_some hhit
    simp only [acquire_of_hit hhit, Cache.slot_onHit]
    refine ⟨?_, fun hq => if_neg hq⟩
    rintro rfl
    simp only [if_true]
    exact ⟨trivial, hv, ht⟩
  | none =>
    simp only [acquire_of_miss hhit, Cache.slot_onDecode]
    refine ⟨?_, fun hq => (if_neg hq).trans (decode_slot_ne p k c e hq y)⟩
    rintro rfl
    simp only [if_true, BitVec.toNat_ofNat]
    exact ⟨trivial, trivial, Nat.mod_eq_of_lt hy⟩

/-- Settles O52: the rows by the edge policy of the row coordinate, their requests by what there is to request, and a
request by whether it hits. -/
theorem rowRequests : Obligations.RowRequests := by
  refine ⟨fun k c j => ⟨fun hpad => ?pad, fun hout => ?outside⟩, fun p k c e j => ?starts,
    fun p op k c e j hu => compositeRow_cache p op e j hu, ?request⟩
  case pad => rw [rowPair_eq, hpad]; rfl
  case outside => rw [rowPair_eq, hout]; rfl
  case starts => exact ⟨rowStart_eq p e, fun _ => rowStart_eq p e, fun _ => rowStart_eq p e, fun _ _ => rowStart_eq p e⟩
  case request =>
    intro p k c e y pending hw hy hu hap
    have h16 : y < 2 ^ 16 := hy.trans c.src.height.isLt
    obtain ⟨hl, hv, ht⟩ := (acquire_slot p k c e h16 pending _).1 rfl
    refine ⟨hl, hv, ht, fun q => (acquire_slot p k c e h16 pending q).2, fun ⟨q, hqv, hqt⟩ => ?hit, fun hmiss => ?miss⟩
    case hit =>
      cases hhit : e.cache.hitSlot y with
      | none => exact absurd hqt (hitSlot_eq_none_iff.1 hhit q hqv)
      | some i => simp [acquire_of_hit hhit]
    case miss =>
      have hhit := hitSlot_eq_none_iff.2 hmiss
      obtain ⟨hmem, hrow⟩ := decode_row (e.cache.victim pending) hw hu hap
      rw [acquire_of_miss hhit]
      exact ⟨rfl, by simp, by simp, hmem, holdsRow_onDecode hrow⟩

/-! The counters without the cache (R249). -/

/-- Settles O53: the pixel phase without the cache leaves the slots alone and the counters cleared. -/
theorem uncachedCountersStayZero : Obligations.UncachedCountersStayZero := fun _ _ _ h hu =>
  ⟨_, exec_composite_of_ready h, compositeRun_cache_uncached hu⟩

/-! The requests of a whole COMPOSITE (R246), tallied. -/

/-- The requests that a destination row with these two source rows makes, and the row's end: the step of `rowTrace`. -/
def RowTrace.pair (t : RowTrace) (q : Option Nat × Option Nat) : RowTrace :=
  let t' := (t.request q.1 q.2).request q.2 none
  { t' with cache := t'.cache.unlock }

/-- The trace of a cache just created (R241). -/
def RowTrace.start : RowTrace :=
  { decoded := [], cache := { decodes := 0, hits := 0, slot0 := .reset, slot1 := .reset } }

theorem rowTrace_eq (k : KFields) (c : Conf) :
    rowTrace k c = ((List.range c.rectH.toNat).map (rowPair k c)).foldl RowTrace.pair .start := by
  rw [List.foldl_map]
  rfl

/-- The rows that a destination row requests. -/
def pairRows (q : Option Nat × Option Nat) : List Nat := q.1.toList ++ q.2.toList

/-- The last row decoded into a slot, 0 if there is none. -/
def RowTrace.lastDecoded (t : RowTrace) (i : SlotId) : Nat :=
  ((t.decoded.filter fun q => q.1 = i).getLast?.map fun q => q.2).getD 0

/-- Two different rows are among the requested ones. -/
def TwoRows (rows : List Nat) : Prop := ∃ y ∈ rows, ∃ y' ∈ rows, y ≠ y'

theorem TwoRows.append {rows : List Nat} (h : TwoRows rows) (l : List Nat) : TwoRows (rows ++ l) := by
  obtain ⟨y, hy, y', hy', hne⟩ := h
  exact ⟨y, List.mem_append_left l hy, y', List.mem_append_left l hy', hne⟩

/-- A row requested again makes no difference. -/
theorem twoRows_append_of_mem {rows : List Nat} {y : Nat} (hy : y ∈ rows) : TwoRows (rows ++ [y]) ↔ TwoRows rows := by
  refine ⟨fun ⟨z, hz, z', hz', hne⟩ => ?_, fun h => h.append _⟩
  have hmem (x : Nat) (hx : x ∈ rows ++ [y]) : x ∈ rows :=
    (List.mem_append.1 hx).elim id fun hxy => List.mem_singleton.1 hxy ▸ hy
  exact ⟨z, hmem z hz, z', hmem z' hz', hne⟩

/-- How a trace stands to the rows requested so far: what its counters, tags and bits say. -/
structure Tallied (t : RowTrace) (rows : List Nat) : Prop where
  /-- each request is a decode or a hit -/
  requests : t.cache.decodes + t.cache.hits = BitVec.ofNat 32 rows.length
  decodes : t.cache.decodes = BitVec.ofNat 32 t.decoded.length
  /-- the tag is the last row decoded into the slot, also while it is invalid -/
  tag : ∀ i, (t.cache.slot i).tag.toNat = t.lastDecoded i
  /-- the valid slots are those decoded into -/
  valid : ∀ i, (∃ q ∈ t.decoded, q.1 = i) ↔ (t.cache.slot i).valid = true
  unlocked : ∀ i, (t.cache.slot i).valid = false → (t.cache.slot i).lock = false
  held : ∀ i, (t.cache.slot i).valid = true → (t.cache.slot i).tag.toNat ∈ rows
  /-- slot 0 is the first to be filled -/
  first : (t.cache.slot .s0).valid = true ↔ rows ≠ []
  /-- slot 1 is filled by the first row that is not slot 0's -/
  second : (t.cache.slot .s1).valid = true ↔ TwoRows rows

theorem RowTrace.start_slot (i : SlotId) : RowTrace.start.cache.slot i = .reset := by cases i <;> rfl

theorem tallied_start : Tallied .start [] := by
  refine ⟨rfl, rfl, fun i => ?_, fun i => ?_, fun i => ?_, fun i => ?_, ?_, ?_⟩ <;> rw [RowTrace.start_slot]
  · rfl
  · simp [RowTrace.start, Slot.reset]
  · exact fun _ => rfl
  · simp [Slot.reset]
  · simp [Slot.reset]
  · simp [Slot.reset, TwoRows]

/-- A hit counts as one, and the row was requested before (R243). -/
theorem Tallied.hit {t : RowTrace} {rows : List Nat} (T : Tallied t rows) {y : Nat} {i : SlotId}
    (h : t.cache.hitSlot y = some i) : Tallied { t with cache := t.cache.onHit i } (rows ++ [y]) := by
  obtain ⟨hv, ht⟩ := hitSlot_some h
  have hy : y ∈ rows := ht ▸ T.held i hv
  have hvalid (q : SlotId) : ((t.cache.onHit i).slot q).valid = (t.cache.slot q).valid := by
    rw [Cache.slot_onHit]; split <;> simp [*]
  have htag (q : SlotId) : ((t.cache.onHit i).slot q).tag = (t.cache.slot q).tag := by
    rw [Cache.slot_onHit]; split <;> simp [*]
  refine ⟨?requests, ?decodes, fun q => ?tag, fun q => ?valid, fun q hq => ?unlocked, fun q hq => ?held, ?first,
    ?second⟩
  case requests =>
    rw [Cache.onHit_decodes, Cache.onHit_hits, ← add_assoc, T.requests, List.length_append, BitVec.ofNat_add]
    rfl
  case decodes => rw [Cache.onHit_decodes, T.decodes]
  case tag => exact (congrArg BitVec.toNat (htag q)).trans (T.tag q)
  case valid => rw [hvalid, T.valid]
  case unlocked =>
    rw [hvalid] at hq
    have hne : q ≠ i := by
      rintro rfl
      exact Bool.eq_false_iff.1 hq hv
    rw [Cache.slot_onHit, if_neg hne]
    exact T.unlocked q hq
  case held =>
    rw [htag]
    exact List.mem_append_left _ (T.held q (hvalid q ▸ hq))
  case first => exact iff_of_true ((hvalid _).trans (T.first.2 (List.ne_nil_of_mem hy))) (by simp)
  case second => rw [hvalid, T.second, twoRows_append_of_mem hy]

theorem valid_onDecode {c : Cache} {i q : SlotId} {y : Nat} :
    ((c.onDecode i y).slot q).valid = true ↔ q = i ∨ (c.slot q).valid = true := by
  rw [Cache.slot_onDecode]
  split <;> simp [*]

/-- The first row is decoded into slot 0. -/
theorem Tallied.victim_first {t : RowTrace} (T : Tallied t []) (pending : Option Nat) :
    t.cache.victim pending = .s0 := by
  have hv : (t.cache.slot .s0).valid = false := Bool.eq_false_iff.2 fun h => T.first.1 h rfl
  have hlow := (victim_lowest_invalid pending (T.unlocked _ hv) hv).2 .s0 ⟨T.unlocked _ hv, hv⟩
  cases hvic : t.cache.victim pending with
  | s0 => rfl
  | s1 => rw [hvic] at hlow; cases hlow

/-- While one row only was requested, another one is decoded into slot 1. -/
theorem Tallied.victim_second {t : RowTrace} {rows : List Nat} (T : Tallied t rows) (hne : rows ≠ [])
    (hone : ¬ TwoRows rows) (pending : Option Nat) : t.cache.victim pending = .s1 := by
  have hv : (t.cache.slot .s1).valid = false := Bool.eq_false_iff.2 fun h => hone (T.second.1 h)
  obtain ⟨⟨-, hinv⟩, -⟩ := victim_lowest_invalid pending (T.unlocked _ hv) hv
  cases hvic : t.cache.victim pending with
  | s0 => rw [hvic, T.first.2 hne] at hinv; cases hinv
  | s1 => rfl

/-- A decode is its slot's last one, and no other slot's. -/
theorem lastDecoded_append (decoded : List (SlotId × Nat)) (i q : SlotId) (y : Nat) (c c' : Cache) :
    RowTrace.lastDecoded { decoded := decoded ++ [(i, y)], cache := c } q =
      if q = i then y else RowTrace.lastDecoded { decoded := decoded, cache := c' } q := by
  rw [RowTrace.lastDecoded, List.filter_append]
  split
  next hq => simp [hq]
  next hq => rw [List.filter_singleton, decide_eq_false (Ne.symm hq), cond_false, List.append_nil, RowTrace.lastDecoded]

/-- A decode counts as one, and makes the last decode of its slot (R243). -/
theorem Tallied.miss {t : RowTrace} {rows : List Nat} (T : Tallied t rows) {y : Nat} (hy : y < 2 ^ 16)
    (pending : Option Nat) (h : t.cache.hitSlot y = none) :
    Tallied { decoded := t.decoded ++ [(t.cache.victim pending, y)],
              cache := t.cache.onDecode (t.cache.victim pending) y } (rows ++ [y]) := by
  have hmiss := hitSlot_eq_none_iff.1 h
  have htag : (BitVec.ofNat 16 y).toNat = y := (BitVec.toNat_ofNat y 16).trans (Nat.mod_eq_of_lt hy)
  refine ⟨?requests, ?decodes, fun q => ?tag, fun q => ?valid, fun q hq => ?unlocked, fun q hq => ?held, ?first,
    ?second⟩
  case requests =>
    rw [Cache.onDecode_decodes, Cache.onDecode_hits, add_right_comm, T.requests, List.length_append, BitVec.ofNat_add]
    rfl
  case decodes =>
    rw [Cache.onDecode_decodes, T.decodes, List.length_append, BitVec.ofNat_add]
    rfl
  case tag =>
    rw [Cache.slot_onDecode, lastDecoded_append _ _ _ _ _ t.cache]
    split
    · exact htag
    · exact T.tag q
  case valid =>
    rw [valid_onDecode, ← T.valid q]
    simp only [List.mem_append, List.mem_singleton, or_and_right, exists_or, exists_eq_left]
    rw [or_comm, eq_comm]
  case unlocked =>
    obtain ⟨hne, hv⟩ := not_or.1 (mt valid_onDecode.2 (Bool.eq_false_iff.1 hq))
    rw [Cache.slot_onDecode, if_neg hne]
    exact T.unlocked q (Bool.eq_false_iff.2 hv)
  case held =>
    rw [valid_onDecode] at hq
    rw [Cache.slot_onDecode]
    split
    next => exact List.mem_append_right _ (List.mem_singleton.2 htag)
    next hne => exact List.mem_append_left _ (T.held q (hq.resolve_left hne))
  case first =>
    refine iff_of_true (valid_onDecode.2 ?_) (by simp)
    by_cases hrows : rows = []
    · subst hrows
      exact .inl (T.victim_first pending).symm
    · exact .inr (T.first.2 hrows)
  case second =>
    rw [valid_onDecode, T.second]
    by_cases htwo : TwoRows rows
    · exact iff_of_true (.inr htwo) (htwo.append _)
    by_cases hrows : rows = []
    · subst hrows
      rw [T.victim_first]
      simp [TwoRows]
    · have hv := T.first.2 hrows
      refine iff_of_true (.inl (T.victim_second hrows htwo pending).symm) ⟨_, ?_, y, ?_, hmiss .s0 hv⟩
      · exact List.mem_append_left _ (T.held .s0 hv)
      · simp

/-- A request, if there is a row to request. -/
theorem Tallied.request {t : RowTrace} {rows : List Nat} (T : Tallied t rows) {y : Option Nat}
    (hy : ∀ z, y = some z → z < 2 ^ 16) (pending : Option Nat) :
    Tallied (t.request y pending) (rows ++ y.toList) := by
  cases y with
  | none => simpa [RowTrace.request] using T
  | some y =>
    simp only [RowTrace.request, Option.toList_some]
    cases hhit : t.cache.hitSlot y with
    | some i => exact T.hit hhit
    | none => exact T.miss (hy y rfl) pending hhit

/-- The end of a destination row touches locks only (R246). -/
theorem Tallied.unlock {t : RowTrace} {rows : List Nat} (T : Tallied t rows) :
    Tallied { t with cache := t.cache.unlock } rows := by
  refine ⟨T.requests, T.decodes, ?_, ?_, ?_, ?_, ?_, ?_⟩ <;> simp only [Cache.slot_unlock]
  · exact T.tag
  · exact T.valid
  · exact fun _ _ => trivial
  · exact T.held
  · exact T.first
  · exact T.second

/-- The requests of one destination row. -/
theorem Tallied.pair {t : RowTrace} {rows : List Nat} (T : Tallied t rows) {q : Option Nat × Option Nat}
    (hq : ∀ y ∈ pairRows q, y < 2 ^ 16) : Tallied (t.pair q) (rows ++ pairRows q) := by
  have T1 := T.request (y := q.1) (fun y hy => hq y (by simp [pairRows, hy])) q.2
  have T2 := T1.request (y := q.2) (fun y hy => hq y (by simp [pairRows, hy])) none
  rw [pairRows, ← List.append_assoc]
  exact T2.unlock

/-- The requests of any number of destination rows. -/
theorem Tallied.pairs {l : List (Option Nat × Option Nat)} (hl : ∀ y ∈ l.flatMap pairRows, y < 2 ^ 16) {t : RowTrace}
    {rows : List Nat} (T : Tallied t rows) : Tallied (l.foldl RowTrace.pair t) (rows ++ l.flatMap pairRows) := by
  induction l generalizing t rows with
  | nil => simpa using T
  | cons q l ih =>
    rw [List.flatMap_cons] at hl ⊢
    rw [← List.append_assoc]
    exact ih (fun y hy => hl y (List.mem_append_right _ hy)) (T.pair fun y hy => hl y (List.mem_append_left _ hy))

/-- The rows a COMPOSITE requests, in their order. -/
def requestedRows (k : KFields) (c : Conf) : List Nat :=
  (List.range c.rectH.toNat).flatMap fun j => (rowPair k c j).1.toList ++ (rowPair k c j).2.toList

/-- A requested row is a row of the image. -/
theorem lt_height_of_mem_requestedRows {k : KFields} {c : Conf} (hh : 0 < c.src.height.toNat) {y : Nat}
    (hy : y ∈ requestedRows k c) : y < c.src.height.toNat := by
  obtain ⟨j, -, hy⟩ := List.mem_flatMap.1 hy
  obtain hy | hy := List.mem_append.1 hy <;> exact edgeCoord_lt hh (Option.mem_toList.1 hy)

/-- The trace of a whole COMPOSITE, tallied. -/
theorem tallied_rowTrace (k : KFields) {c : Conf} (hh : 0 < c.src.height.toNat) :
    Tallied (rowTrace k c) (requestedRows k c) := by
  have hrows : requestedRows k c = ((List.range c.rectH.toNat).map (rowPair k c)).flatMap pairRows := by
    rw [List.flatMap_map]
    rfl
  rw [rowTrace_eq, hrows]
  exact tallied_start.pairs fun y hy =>
    (lt_height_of_mem_requestedRows hh (hrows ▸ hy)).trans c.src.height.isLt

/-! The traces of R250. -/

/-- The counters and the tags of a cache. -/
def Cache.Ends (c : Cache) (decodes hits : Word) (tag0 tag1 : BitVec 16) : Prop :=
  c.decodes = decodes ∧ c.hits = hits ∧ c.slot0.tag = tag0 ∧ c.slot1.tag = tag1

/-- A row coordinate inside the image is its own row under either edge policy (R237, R238). -/
theorem edgeCoord_inside (edge : Edge) {n y : Nat} (hy : y < n) : edgeCoord edge n (y : Int) = some y := by
  cases edge with
  | pad => simp only [edgeCoord, clampi, Option.some.injEq]; omega
  | outside => exact edgeCoord_outside.2 ⟨rfl, hy⟩

/-- Above the image and at its first row, pad takes the first row (R237). -/
theorem edgeCoord_pad_of_nonpos {n : Nat} {y : Int} (hy : y ≤ 0) : edgeCoord .pad n y = some 0 := by
  simp only [edgeCoord, clampi, Option.some.injEq]
  omega

/-- Both rows of a pair inside the image, under either edge policy. -/
theorem rowPair_of_inside {k : KFields} {c : Conf} {j y : Nat} (h : firstRow c j = (y : Int))
    (hy : y + 1 < c.src.height.toNat) : rowPair k c j = (some y, some (y + 1)) := by
  have hnext : firstRow c j + 1 = ((y + 1 : Nat) : Int) := by omega
  rw [rowPair_eq, hnext, h, edgeCoord_inside _ (Nat.lt_of_succ_lt hy), edgeCoord_inside _ hy]

/-- The counters and tags of a COMPOSITE whose row pairs are known. -/
theorem rowTrace_ends_of_pairs {k : KFields} {c : Conf} {l : List (Option Nat × Option Nat)} {decodes hits : Word}
    {tag0 tag1 : BitVec 16} (hl : (List.range c.rectH.toNat).map (rowPair k c) = l)
    (h : (l.foldl RowTrace.pair .start).cache.Ends decodes hits tag0 tag1) :
    (rowTrace k c).cache.Ends decodes hits tag0 tag1 := by
  rwa [rowTrace_eq, hl]

section
variable {k : KFields} {c : Conf}

/-- A COMPOSITE of one destination row. -/
theorem rowTrace_ends_of_one {q : Option Nat × Option Nat} {decodes hits : Word} {tag0 tag1 : BitVec 16}
    (hr : c.rectH = 1) (h0 : rowPair k c 0 = q) (h : (RowTrace.start.pair q).cache.Ends decodes hits tag0 tag1) :
    (rowTrace k c).cache.Ends decodes hits tag0 tag1 :=
  rowTrace_ends_of_pairs (l := [q]) (by rw [hr, ← h0]; rfl) h

/-- A COMPOSITE of two destination rows. -/
theorem rowTrace_ends_of_two {q q' : Option Nat × Option Nat} {decodes hits : Word} {tag0 tag1 : BitVec 16}
    (hr : c.rectH = 2) (h0 : rowPair k c 0 = q) (h1 : rowPair k c 1 = q')
    (h : ((RowTrace.start.pair q).pair q').cache.Ends decodes hits tag0 tag1) :
    (rowTrace k c).cache.Ends decodes hits tag0 tag1 :=
  rowTrace_ends_of_pairs (l := [q, q']) (by rw [hr, ← h0, ← h1]; rfl) h

/-- Two overlapping row pairs downwards: (5, 6), (6, 7). -/
theorem rowTrace_ends_downwards (hh : 8 ≤ c.src.height.toNat) (hr : c.rectH = 2) (hf : c.xform.f.toInt = 5 * 65536)
    (he : c.xform.e.toInt = 65536) : (rowTrace k c).cache.Ends 3 1 7 6 := by
  have h0 : rowPair k c 0 = (some 5, some 6) := rowPair_of_inside (by rw [firstRow, he, hf]; rfl) (by omega)
  have h1 : rowPair k c 1 = (some 6, some 7) := rowPair_of_inside (by rw [firstRow, he, hf]; rfl) (by omega)
  exact rowTrace_ends_of_two hr h0 h1 ⟨rfl, rfl, rfl, rfl⟩

/-- Two overlapping row pairs upwards: (5, 6), (4, 5). -/
theorem rowTrace_ends_upwards (hh : 8 ≤ c.src.height.toNat) (hr : c.rectH = 2) (hf : c.xform.f.toInt = 5 * 65536)
    (he : c.xform.e.toInt = -65536) : (rowTrace k c).cache.Ends 3 1 5 4 := by
  have h0 : rowPair k c 0 = (some 5, some 6) := rowPair_of_inside (by rw [firstRow, he, hf]; rfl) (by omega)
  have h1 : rowPair k c 1 = (some 4, some 5) := rowPair_of_inside (by rw [firstRow, he, hf]; rfl) (by omega)
  exact rowTrace_ends_of_two hr h0 h1 ⟨rfl, rfl, rfl, rfl⟩

/-- Program P3: (0, 1) twice, (1, 2) twice. -/
theorem rowTrace_ends_scaled (hh : c.src.height = 3) (hr : c.rectH = 4) (hf : c.xform.f.toInt = 0)
    (he : c.xform.e.toInt = 32768) : (rowTrace k c).cache.Ends 3 5 2 1 := by
  have hlast : 2 < c.src.height.toNat := by rw [hh]; decide
  have h0 : rowPair k c 0 = (some 0, some 1) := rowPair_of_inside (by rw [firstRow, he, hf]; rfl) (by omega)
  have h1 : rowPair k c 1 = (some 0, some 1) := rowPair_of_inside (by rw [firstRow, he, hf]; rfl) (by omega)
  have h2 : rowPair k c 2 = (some 1, some 2) := rowPair_of_inside (by rw [firstRow, he, hf]; rfl) (by omega)
  have h3 : rowPair k c 3 = (some 1, some 2) := rowPair_of_inside (by rw [firstRow, he, hf]; rfl) (by omega)
  refine rowTrace_ends_of_pairs (l := [(some 0, some 1), (some 0, some 1), (some 1, some 2), (some 1, some 2)]) ?_
    ⟨rfl, rfl, rfl, rfl⟩
  rw [hr, ← h2, ← h0]
  exact congrArg₂ (fun a b => [rowPair k c 0, a, rowPair k c 2, b]) (h1.trans h0.symm) (h3.trans h2.symm)

/-- The first destination row's source coordinate. -/
theorem rowPair_zero {v : Int} (hf : c.xform.f.toInt = v) : rowPair k c 0 =
    (edgeCoord k.edge c.src.height.toNat (v.fdiv 65536), edgeCoord k.edge c.src.height.toNat (v.fdiv 65536 + 1)) := by
  rw [rowPair_eq, firstRow, hf, Int.natCast_zero, mul_zero, zero_add]

/-- A row pair clamped to one row: (0, 0). -/
theorem rowTrace_ends_clamped (hpad : k.edge = .pad) (hr : c.rectH = 1) (hf : c.xform.f.toInt = -65536) :
    (rowTrace k c).cache.Ends 1 1 0 0 :=
  rowTrace_ends_of_one (q := (some 0, some 0)) hr
    (by rw [rowPair_zero hf, hpad, edgeCoord_pad_of_nonpos (by decide), edgeCoord_pad_of_nonpos (by decide)])
    ⟨rfl, rfl, rfl, rfl⟩

/-- The top edge under none: no row and row 0. -/
theorem rowTrace_ends_top_outside (hout : k.edge = .outside) (hh : c.src.height = 3) (hr : c.rectH = 1)
    (hf : c.xform.f.toInt = -32768) : (rowTrace k c).cache.Ends 1 0 0 0 :=
  rowTrace_ends_of_one (q := (none, some 0)) hr (by rw [rowPair_zero hf, hout, hh]; rfl) ⟨rfl, rfl, rfl, rfl⟩

/-- The bottom edge under none: the last row and no row. -/
theorem rowTrace_ends_bottom_outside (hout : k.edge = .outside) (hh : c.src.height = 3) (hr : c.rectH = 1)
    (hf : c.xform.f.toInt = 2 * 65536) : (rowTrace k c).cache.Ends 1 0 2 0 :=
  rowTrace_ends_of_one (q := (some 2, none)) hr (by rw [rowPair_zero hf, hout, hh]; rfl) ⟨rfl, rfl, rfl, rfl⟩

/-- Below the image under none: no row at all. -/
theorem rowTrace_ends_below_outside (hout : k.edge = .outside) (hh : c.src.height = 3) (hr : c.rectH = 1)
    (hf : c.xform.f.toInt = 5 * 65536) : (rowTrace k c).cache.Ends 0 0 0 0 :=
  rowTrace_ends_of_one (q := (none, none)) hr (by rw [rowPair_zero hf, hout, hh]; rfl) ⟨rfl, rfl, rfl, rfl⟩

end

/-! What is left in external scratch (R247). -/

theorem Memory.read_lt (m : Memory) (a : Word) (n : Nat) : m.read a n < 256 ^ n := by
  induction n generalizing a with
  | zero => exact Nat.one_pos
  | succ n ih =>
    have hb := byteAt_lt m a 0
    have hrest := ih (a + 1)
    rw [Memory.read_succ, Nat.pow_succ']
    omega

/-- A slot in external scratch that gives back a row holds its packed pixels. -/
theorem HoldsRow.read_scratch {p : Config.Params} {k : KFields} {c : Conf} {m0 : Memory} {e : Engine} {i : SlotId}
    {y : Nat} (h : HoldsRow p k c m0 e i y) (hext : externalScratch p c = true) {x : Nat} (hx : x < c.src.width.toNat) :
    e.bus.mem.read (scratchAddr c i x) 4 = (pack32 (srcPix k.sfmt c m0 x y)).toNat := by
  rw [← h x hx, Engine.rowPix, if_pos hext, pack32_unpack32, BitVec.toNat_ofNat, Nat.mod_eq_of_lt]
  exact Memory.read_lt _ _ 4

/-- Each slot of a ready COMPOSITE that was decoded into gives back the row of its tag when the last destination row is
done. -/
theorem CompositeReady.holdsRow {op : Op} {k : KFields} {s : State} (h : CompositeReady op k s) (hm : s.mem.wf)
    (hu : cacheUsed k s.conf = true) {i : SlotId} (hv : ((rowTrace k s.conf).cache.slot i).valid = true) :
    HoldsRow Config.params k s.conf s.mem (compositeRows Config.params op k s.conf s.mem s.cache) i
      ((rowTrace k s.conf).cache.slot i).tag.toNat := by
  have hrows := (compositeRows_agree (op := op) s.cache h.runSets hm).rows hu i
  rw [← (compositeRows_traced hu).cache, Cache.bare_slot] at hv ⊢
  exact hrows hv

/-- Settles O60: the cache left is the trace's, torn down; the trace is tallied; and the traces of R250 follow from
their row pairs. -/
theorem cachedCompositeTrace : Obligations.CachedCompositeTrace := by
  intro op k s hm h hu
  have hh : 0 < s.conf.src.height.toNat := (h.runSets.size (cacheUsed_iff.1 hu).1).2
  have T := tallied_rowTrace k hh
  have hcache : (s.afterComposite Config.params op k).endSuccess.cache = (rowTrace k s.conf).cache.teardown :=
    compositeRun_cache hu
  refine ⟨_, exec_composite_of_ready h, ?_⟩
  simp only [hcache, Cache.slot_teardown]
  refine ⟨T.requests, T.decodes, rfl, rfl, fun i => ⟨trivial, T.tag i⟩, (T.valid _).trans T.first,
    (T.valid _).trans T.second, fun _ => ⟨trivial, trivial⟩,
    fun hext i hi x hx => (h.holdsRow hm hu ((T.valid i).1 hi)).read_scratch hext hx, fun _ hn hr hf => ?overlapping,
    rowTrace_ends_clamped, fun _ => rowTrace_ends_scaled, fun hout hn hr => ?outside⟩
  case overlapping => exact ⟨rowTrace_ends_downwards hn hr hf, rowTrace_ends_upwards hn hr hf⟩
  case outside =>
    exact ⟨rowTrace_ends_top_outside hout hn hr, rowTrace_ends_bottom_outside hout hn hr,
      rowTrace_ends_below_outside hout hn hr⟩

end Sys2Proof.Machine
end

section
/-! Proofs, family `44_fill_blit`: NOP (O32), and FILL and BLIT where their checks pass: the stores they make one pixel
after another, and the memory that these leave (O54 to O56). -/

namespace Sys2Proof.Machine

/-! NOP (R270). -/

theorem decodeWord_of_opcode_zero {w : Word} (hopc : field w 31 26 = 0) :
    decodeWord w = mustBeZero w 25 0 (.ok .nop) := by
  simp only [decodeWord, hopc]

/-- The two fields of a NOP word are the whole word. -/
theorem eq_zero_of_fields {w : Word} (hopc : field w 31 26 = 0) (hrest : field w 25 0 = 0) : w = 0#32 := by
  have hw := w.isLt
  simp only [field] at hopc hrest
  exact BitVec.eq_of_toNat_eq (by simp only [BitVec.toNat_ofNat]; omega)

/-- Settles O32: the bits under OPC = 0 are all fixed, so a word that has one of them set is refused for it. -/
theorem nopOnlyEnds : Obligations.NopOnlyEnds := by
  refine ⟨by decide, fun w hopc hne => ⟨.fixedBits, ?_⟩, fun _ => rfl⟩
  have hfield : field w 31 26 = 0 := (toNat_extractLsb'_eq_field w 26 5).symm.trans (congrArg BitVec.toNat hopc)
  rw [decodeWord_of_opcode_zero hfield, mustBeZero, if_neg fun hrest => hne (eq_zero_of_fields hfield hrest)]

/-! The checks (R294). -/

theorem depthSupported_iff {bpp : Nat} : depthSupported bpp = true ↔ bpp = 16 ∨ bpp = 32 := by simp [depthSupported]

theorem emptyRect_eq_false_iff {c : Conf} : c.emptyRect = false ↔ c.rectW ≠ 0 ∧ c.rectH ≠ 0 := by
  simp [Conf.emptyRect]

theorem rectFits_iff {c : Conf} {p : BufDesc} {n : Nat} :
    RectFits c p n ↔ p.aligned n = true ∧ p.holdsRect c.rectW c.rectH = true := by
  simp [RectFits, BufDesc.aligned, BufDesc.holdsRect, and_assoc]

theorem fillHalvesAgree_iff {c : Conf} :
    fillHalvesAgree c = true ↔ c.fillValue.toNat / 2 ^ 16 = c.fillValue.toNat % 2 ^ 16 := by
  have hv := c.fillValue.isLt
  rw [fillHalvesAgree, beq_iff_eq, ← BitVec.toNat_inj, BitVec.extractLsb'_toNat, BitVec.extractLsb'_toNat,
    Nat.shiftRight_zero, Nat.shiftRight_eq_div_pow, Nat.mod_eq_of_lt (a := _ / _) (by omega)]

theorem fillPlan_of_checked {bpp : Nat} {c : Conf} (hd : bpp = 16 ∨ bpp = 32)
    (hv : bpp = 16 → c.fillValue.toNat / 2 ^ 16 = c.fillValue.toNat % 2 ^ 16) (hw : c.rectW ≠ 0) (hh : c.rectH ≠ 0)
    (hdst : RectFits c c.dst (bpp / 8)) : fillPlan bpp c = .run (fillFootprint bpp c) := by
  obtain ⟨hal, hin⟩ := rectFits_iff.1 hdst
  have hhalves : (bpp == 16 && !fillHalvesAgree c) = false := by
    simpa using fun hb => fillHalvesAgree_iff.2 (hv hb)
  simp [fillPlan, depthSupported_iff.2 hd, hhalves, emptyRect_eq_false_iff.2 ⟨hw, hh⟩, hal, hin]

theorem blitPlan_of_checked {bpp : Nat} {c : Conf} (hd : bpp = 16 ∨ bpp = 32) (hw : c.rectW ≠ 0) (hh : c.rectH ≠ 0)
    (hsrc : RectFits c c.src (bpp / 8)) (hdst : RectFits c c.dst (bpp / 8)) :
    blitPlan bpp bpp c = .run (blitFootprint (bpp / 8) c) := by
  obtain ⟨hsal, hsin⟩ := rectFits_iff.1 hsrc
  obtain ⟨hdal, hdin⟩ := rectFits_iff.1 hdst
  simp [blitPlan, depthSupported_iff.2 hd, emptyRect_eq_false_iff.2 ⟨hw, hh⟩, hsal, hsin, hdal, hdin]

/-! What a command answers whose plan is to run (R65, R69, R76). -/

/-- In ordinary memory, aliasing is the one contract fault left. -/
theorem contractFault_of_ordinary {s : State} {fp : Footprint} (ho : Ordinary s (fp.reads ++ fp.writes)) :
    fp.contractFault s.platform = if fp.aliased then some .aliasing else none := by
  obtain ⟨-, -, haliased, hclear⟩ := contractFault_spec fp s.platform
  have hdevice : ¬ ∃ a, Covers (fp.reads ++ fp.writes) a ∧ Covers (spansOf s.platform .device) a :=
    fun ⟨a, ha, hspan⟩ => (ho a ha).1 hspan
  have hunanswered : ¬ ∃ a, Covers (fp.reads ++ fp.writes) a ∧ Covers (spansOf s.platform .unanswered) a :=
    fun ⟨a, ha, hspan⟩ => (ho a ha).2 hspan
  cases h : fp.aliased with
  | true => exact haliased hdevice hunanswered h
  | false => exact hclear hdevice hunanswered h

theorem runPlan_of_ordinary {s : State} {fp : Footprint} (ho : Ordinary s (fp.reads ++ fp.writes))
    (run : Memory → Bus) : s.runPlan (.run fp) run =
      if fp.aliased then .fault .aliasing else .next { s.ended with mem := (run s.mem).mem } := by
  rw [State.runPlan, contractFault_of_ordinary ho]
  cases fp.aliased <;> rfl

theorem blitIdentical_iff {n : Nat} {c : Conf} : blitIdentical n c = true ↔
    ∀ q ∈ c.pixels, c.src.rectAddr n q.1 q.2 = c.dst.rectAddr n q.1 q.2 := by
  simp only [blitIdentical, List.all_eq_true, beq_iff_eq]

/-- The overlap of BLIT's regions that R273 forbids. -/
theorem blitFootprint_aliased_iff {n : Nat} {c : Conf} : (blitFootprint n c).aliased = true ↔
    (∃ a, Covers (c.rectAccesses c.src n) a ∧ Covers (c.rectAccesses c.dst n) a) ∧
      ∃ q ∈ c.pixels, c.src.rectAddr n q.1 q.2 ≠ c.dst.rectAddr n q.1 q.2 := by
  rw [blitFootprint, Bool.and_eq_true, anyMeet_iff, Bool.not_eq_true', ← Bool.not_eq_true, blitIdentical_iff]
  simp only [not_forall, exists_prop, ne_eq]

/-- The regions that R273 permits. -/
theorem blitFootprint_not_aliased {n : Nat} {c : Conf}
    (h : (∀ a, Covers (c.rectAccesses c.src n) a → ¬ Covers (c.rectAccesses c.dst n) a) ∨
      ∀ q ∈ c.pixels, c.src.rectAddr n q.1 q.2 = c.dst.rectAddr n q.1 q.2) : ¬ (blitFootprint n c).aliased = true := by
  rw [blitFootprint_aliased_iff]
  rintro ⟨⟨a, hsrc, hdst⟩, q, hq, hne⟩
  rcases h with hdisj | hsame
  · exact hdisj a hsrc hdst
  · exact hne (hsame q hq)

/-! One store (R61, R64). -/

theorem SameOutside.write {l : List Access} {m m' : Memory} (h : SameOutside l m m') (hm : m.wf) {x : Access}
    (hx : x ∈ l) (v : Nat) : SameOutside l (m.write x.addr x.size v) m' := fun a ha => by
  have hout : x.covers a = false := by simpa using fun hcov => ha ⟨x, hx, hcov⟩
  exact (readByte_write_of_not_covers hm v hout).trans (h a ha)

theorem Memory.writeByte_readByte {m : Memory} (hm : m.wf) {a : Nat} (ha : a < 2 ^ 32) :
    Memory.writeByte m a (Memory.readByte m a) = m :=
  Memory.ext_of_wf (Memory.wf_writeByte hm ha) hm fun b => by
    rw [Memory.readByte_writeByte hm]
    split
    · next h => rw [h]
    · rfl

/-- A store of the value that memory holds already leaves memory as it is (R273). -/
theorem Memory.write_read {m : Memory} (hm : m.wf) (a : Word) (n : Nat) : m.write a n (m.read a n) = m := by
  induction n generalizing a with
  | zero => rfl
  | succ n ih =>
    have hlow : BitVec.ofNat 8 (m.read a (n + 1)) = Memory.readByte m a.toNat := BitVec.eq_of_toNat_eq (by
      have hb := (Memory.readByte m a.toNat).isLt
      rw [Memory.read, BitVec.toNat_ofNat]
      omega)
    have hrest : m.read a (n + 1) / 256 = m.read (a + 1) n := by
      have hb := (Memory.readByte m a.toNat).isLt
      rw [Memory.read]
      omega
    rw [Memory.write, hlow, hrest, Memory.writeByte_readByte hm a.isLt, ih]

/-- Aligned pixels that share a byte are the same pixel. -/
theorem eq_of_aligned {n : Nat} (hn : n = 2 ∨ n = 4) {a b x : Word} (ha : a.toNat % n = 0) (hb : b.toNat % n = 0)
    (hxa : (x - a).toNat < n) (hxb : (x - b).toNat < n) : a = b := by
  rcases hn with rfl | rfl <;> bv_omega

/-- An aligned pixel that holds a value still does when that value is stored at an aligned address. -/
theorem Memory.read_write_aligned {m : Memory} (hm : m.wf) {n : Nat} (hn : n = 2 ∨ n = 4) {a b : Word}
    (ha : a.toNat % n = 0) (hb : b.toNat % n = 0) {v : Nat} (h : m.read a n = v % 256 ^ n) :
    (m.write b n v).read a n = v % 256 ^ n := by
  have hsize : n ≤ 2 ^ 32 := by omega
  by_cases hab : a = b
  · rw [hab, Memory.read_write hm b n v hsize]
  · rw [← h]
    refine Memory.read_congr a n hsize fun x hx => Memory.readByte_write_outside hm b x n v ?_
    by_contra hlt
    exact hab (eq_of_aligned hn ha hb hx (not_le.1 hlt))

/-! Stores one pixel after another (R271, R272). -/

/-- The memory that storing the value `v q` at `addr q` leaves, for one pixel `q` of the list after another. -/
def Memory.storeEach (m : Memory) (addr : Nat × Nat → Word) (n : Nat) (v : Nat × Nat → Nat) (l : List (Nat × Nat)) :
    Memory :=
  l.foldl (fun m q => m.write (addr q) n (v q)) m

theorem Memory.wf_storeEach {m : Memory} (hm : m.wf) (addr : Nat × Nat → Word) (n : Nat) (v : Nat × Nat → Nat)
    (l : List (Nat × Nat)) : (m.storeEach addr n v l).wf :=
  foldl_keeps (P := Memory.wf) hm fun _ h _ _ => Memory.wf_write h _ _ _

/-- One value stored at every pixel is what every pixel holds, also where aligned pixels lie on each other. -/
theorem Memory.read_storeEach_const {m : Memory} (hm : m.wf) {addr : Nat × Nat → Word} {n : Nat} (hn : n = 2 ∨ n = 4)
    (hal : ∀ q, (addr q).toNat % n = 0) (v : Nat) {l : List (Nat × Nat)} {q : Nat × Nat} (hq : q ∈ l) :
    (m.storeEach addr n (fun _ => v) l).read (addr q) n = v % 256 ^ n := by
  obtain ⟨before, after, rfl⟩ := List.append_of_mem hq
  have hwf : (m.storeEach addr n (fun _ => v) before).wf := Memory.wf_storeEach hm _ _ _ _
  rw [Memory.storeEach, List.foldl_append, List.foldl_cons]
  refine (foldl_keeps (P := fun m' : Memory => m'.wf ∧ m'.read (addr q) n = v % 256 ^ n)
    ⟨Memory.wf_write hwf _ _ _, Memory.read_write hwf _ _ _ (by omega)⟩ fun m' ⟨hm', h⟩ q' _ => ?_).2
  exact ⟨Memory.wf_write hm' _ _ _, Memory.read_write_aligned hm' hn (hal q) (hal q') h⟩

/-- A region stored onto itself stays as it is (R273). -/
theorem Memory.storeEach_read {m : Memory} (hm : m.wf) {src dst : Nat × Nat → Word} (n : Nat) {l : List (Nat × Nat)}
    (hsame : ∀ q ∈ l, src q = dst q) : m.storeEach dst n (fun q => m.read (src q) n) l = m :=
  foldl_keeps (P := fun m' => m' = m) rfl fun m' h q hq => by
    simp only [h, hsame q hq, Memory.write_read hm]

/-! FILL. -/

theorem fillRun_mem (bpp : Nat) (c : Conf) (m : Memory) : (fillRun bpp c m).mem =
    m.storeEach (fun q => c.dst.rectAddr (bpp / 8) q.1 q.2) (bpp / 8) (fun _ => fillStored bpp c) c.pixels :=
  (List.foldl_hom Bus.mem fun _ _ => rfl).symm

/-- FILL stores the low `bpp` bits of FILL_VALUE (R271). -/
theorem fillStored_mod {bpp : Nat} (hd : bpp = 16 ∨ bpp = 32) (c : Conf) :
    fillStored bpp c % 256 ^ (bpp / 8) = c.fillValue.toNat % 2 ^ bpp := by
  rcases hd with rfl | rfl <;> simp [fillStored]

theorem rectAddr_aligned {c : Conf} {p : BufDesc} {n : Nat} (hn : n = 2 ∨ n = 4) (hp : RectFits c p n) (i j : Nat) :
    (p.rectAddr n i j).toNat % n = 0 := by
  obtain ⟨hbase, hstride, -⟩ := hp
  exact alignedBuffersHaveAlignedPixels.1 p n _ _ (by rcases hn with rfl | rfl <;> simp) hbase hstride

/-- Settles O54: FILL's stores leave its value in every pixel of the rectangle and change no byte outside it. -/
theorem fillWritesTheRectangle : Obligations.FillWritesTheRectangle := by
  intro bpp s hm hd hv hw hh hdst ho
  have hn : bpp / 8 = 2 ∨ bpp / 8 = 4 := by omega
  have hexec : exec (.fill bpp) s = .next { s.ended with mem := (fillRun bpp s.conf s.mem).mem } := by
    rw [exec, execFill, fillPlan_of_checked hd hv hw hh hdst]
    exact runPlan_of_ordinary (fp := fillFootprint bpp s.conf) ho _
  refine ⟨_, hexec, rfl, (fillRun_spec bpp s.conf hm).2, fun i j hi hj => ?_⟩
  rw [← fillStored_mod hd, fillRun_mem]
  exact Memory.read_storeEach_const hm hn (fun q => rectAddr_aligned hn hdst q.1 q.2) _ (q := (i, j))
    (mem_rowMajor.2 ⟨hi, hj⟩)

/-! BLIT. -/

/-- Where source and destination share no byte, BLIT stores the source's pixels as they were at the start. -/
theorem blitRun_mem_of_disjoint {n : Nat} {c : Conf} (hn : n ≤ 2 ^ 32)
    (hdisj : ∀ a, Covers (c.rectAccesses c.src n) a → ¬ Covers (c.rectAccesses c.dst n) a) {m : Memory} (hm : m.wf) :
    (blitRun n c m).mem = m.storeEach (fun q => c.dst.rectAddr n q.1 q.2) n
      (fun q => m.read (c.src.rectAddr n q.1 q.2) n) c.pixels := by
  refine (foldl_related (R := fun (b : Bus) m' => b.mem = m' ∧ m'.wf ∧ SameOutside (c.rectAccesses c.dst n) m' m)
    ⟨rfl, hm, fun _ _ => rfl⟩ fun b m' ⟨hb, hm', hsame⟩ q hq => ?_).1
  obtain ⟨hi, hj⟩ := mem_rowMajor.1 hq
  have hread : m'.read (c.src.rectAddr n q.1 q.2) n = m.read (c.src.rectAddr n q.1 q.2) n :=
    Memory.read_congr _ n hn fun x hx => hsame x (hdisj x ⟨_, mem_rectAccesses hi hj, decide_eq_true hx⟩)
  exact ⟨by rw [Bus.store_mem, hb, hread], Memory.wf_write hm' _ _ _, hsame.write hm' (mem_rectAccesses hi hj) _⟩

/-- BLIT of a region onto itself stores in each pixel what it holds (R273). -/
theorem blitRun_mem_of_identical {n : Nat} {c : Conf}
    (hsame : ∀ q ∈ c.pixels, c.src.rectAddr n q.1 q.2 = c.dst.rectAddr n q.1 q.2) {m : Memory} (hm : m.wf) :
    (blitRun n c m).mem = m :=
  foldl_keeps (P := fun b : Bus => b.mem = m) rfl fun b hb q hq => by
    rw [Bus.store_mem, hb, hsame q hq, Memory.write_read hm]

/-- What BLIT answers in ordinary memory when its checks pass (R272, R273). -/
theorem exec_blit_of_checked {bpp : Nat} {s : State} (hd : bpp = 16 ∨ bpp = 32) (hw : s.conf.rectW ≠ 0)
    (hh : s.conf.rectH ≠ 0) (hsrc : RectFits s.conf s.conf.src (bpp / 8)) (hdst : RectFits s.conf s.conf.dst (bpp / 8))
    (ho : Ordinary s (s.conf.rectAccesses s.conf.src (bpp / 8) ++ s.conf.rectAccesses s.conf.dst (bpp / 8))) :
    exec (.blit bpp bpp) s = if (blitFootprint (bpp / 8) s.conf).aliased then .fault .aliasing
      else .next { s.ended with mem := (blitRun (bpp / 8) s.conf s.mem).mem } := by
  rw [exec, execBlit, blitPlan_of_checked hd hw hh hsrc hdst]
  exact runPlan_of_ordinary (fp := blitFootprint (bpp / 8) s.conf) ho _

/-- Settles O55: disjoint or identical regions meet no contract fault, and BLIT's stores are of the source's pixels at
the start: no store touches the source, or every store leaves memory as it is. -/
theorem blitCopiesTheRectangle : Obligations.BlitCopiesTheRectangle := by
  intro bpp s hm hd hw hh hsrc hdst ho hregions
  have hexec := exec_blit_of_checked hd hw hh hsrc hdst ho
  rw [if_neg (blitFootprint_not_aliased hregions)] at hexec
  refine ⟨_, hexec, rfl, (blitRun_spec (bpp / 8) s.conf hm).2, ?_⟩
  rcases hregions with hdisj | hsame
  · exact blitRun_mem_of_disjoint (by omega) hdisj hm
  · exact (blitRun_mem_of_identical hsame hm).trans (Memory.storeEach_read hm _ hsame).symm

/-- Settles O56: identical regions meet no contract fault and BLIT stores back what it reads; any other overlap is
the aliasing that R273 forbids. -/
theorem blitOntoItself : Obligations.BlitOntoItself := by
  intro bpp s hm hd hw hh hsrc hdst ho
  have hexec := exec_blit_of_checked hd hw hh hsrc hdst ho
  refine ⟨fun hsame => ?_, fun hdiffer hoverlap => ?_⟩
  · rw [hexec, if_neg (blitFootprint_not_aliased (.inr hsame)), blitRun_mem_of_identical hsame hm]
    rfl
  · rw [hexec, if_pos (blitFootprint_aliased_iff.2 ⟨hoverlap, hdiffer⟩)]

end Sys2Proof.Machine
end

section
/-! Proofs, family `60_exceptions`: how a command ends. What it has changed and which error codes it can have reported
(O27, O28, O30), and which contract fault stops it where it does not end (O29). -/

namespace Sys2Proof.Machine

/-! What a command that ends can have done. -/

/-- The error codes that each command can report (R310); ILLEGAL is the decoder's. -/
def failCodes : Instr → List ErrCode
  | .lmul _ _ _ | .lmuladd _ _ _ _ _ | .ladds _ _ _ => [.laneRange]
  | .fill _ | .blit _ _ => [.unsupported, .precond, .align, .bounds]
  | .nop | .lneg _ _ | .lbca _ _ | .lbcl _ _ | .lswaprb _ _ | .lunpk32 _ _ _ | .lpack32 _ _ | .lunpk565 _ _ _
  | .lpack565 _ _ _ _ | .linterp _ _ _ _ _ => []
  | .compositeSrc _ | .compositeOver _ | .compositeOverReverse _ | .compositeIn _ | .compositeInReverse _
  | .compositeOut _ | .compositeOutReverse _ | .compositeAtop _ | .compositeAtopReverse _ | .compositeXor _
  | .compositeAdd _ | .compositeSaturate _ => [.notCfg, .unsupported, .align, .bounds, .noMem]

/-- The states in which a command that started in `s` can end: it has written a lane register, or memory and the cache,
and succeeded, or it has changed STATUS alone and failed with one of the codes (R290, R296). -/
inductive CommandEnd (codes : List ErrCode) (s : State) : State → Prop
  | wroteLane (rd : LReg) (v : Wide) : CommandEnd codes s (s.writeLane rd v).endSuccess
  | wroteMem (m : Memory) (c : Cache) : CommandEnd codes s ((s.withMem m).withCache c).endSuccess
  | failed (c : ErrCode) (isCode : c ∈ codes) : CommandEnd codes s (s.failed c)

/-- The outcome, if it is a next state, is an end of a command with these codes. -/
def EndsWith (codes : List ErrCode) (s : State) (o : Host.Outcome State Fault Refusal) : Prop :=
  ∀ t, o = .next t → CommandEnd codes s t

theorem EndsWith.next {codes : List ErrCode} {s t : State} (h : CommandEnd codes s t) : EndsWith codes s (.next t) := by
  rintro _ ⟨⟩
  exact h

theorem EndsWith.fault (codes : List ErrCode) (s : State) (f : Fault) : EndsWith codes s (.fault f) := by
  intro t h
  cases h

theorem withLane_endsWith {codes : List ErrCode} {s : State} (r : LReg) {k : Wide → Host.Outcome State Fault Refusal}
    (hk : ∀ v, EndsWith codes s (k v)) : EndsWith codes s (s.withLane r k) := fun t h => hk _ t (withLane_next h).2

theorem withHalf_endsWith {codes : List ErrCode} {s : State} (r : LReg) (half : WHalf)
    {k : Word → Host.Outcome State Fault Refusal} (hk : ∀ v, EndsWith codes s (k v)) :
    EndsWith codes s (s.withHalf r half k) := fun t h => hk _ t (withHalf_next h).2

theorem finishLane_ok_endsWith (codes : List ErrCode) (s : State) (rd : LReg) (v : Wide) :
    EndsWith codes s (s.finishLane rd (.ok v)) := .next (.wroteLane rd v)

/-- A lane instruction with a range condition fails with LANE_RANGE (R120 step 3). -/
theorem finishLane_range_endsWith (s : State) (rd : LReg) (outOfRange : Bool) (v : Wide) :
    EndsWith [.laneRange] s (s.finishLane rd (if outOfRange then .error .laneRange else .ok v)) := by
  cases outOfRange with
  | true => exact .next (.failed .laneRange (List.mem_singleton_self _))
  | false => exact finishLane_ok_endsWith _ s rd v

theorem runPlan_endsWith {codes : List ErrCode} (s : State) {plan : Plan} (run : Memory → Bus)
    (hp : ∀ c, plan = .fail c → c ∈ codes) : EndsWith codes s (s.runPlan plan run) := by
  obtain ⟨c, hc, h⟩ | ⟨-, h⟩ | ⟨_, f, -, -, h⟩ | ⟨_, -, -, h⟩ := runPlan_cases s plan run <;> rw [h]
  · exact .next (.failed c (hp c hc))
  · exact .next (.wroteMem s.mem s.cache)
  · exact .fault codes s f
  · exact .next (.wroteMem (run s.mem).mem s.cache)

theorem mem_failCodes_of_fillPlan {bpp : Nat} {conf : Conf} {c : ErrCode} (h : fillPlan bpp conf = .fail c) :
    c ∈ [ErrCode.unsupported, .precond, .align, .bounds] := by
  simp only [fillPlan] at h
  repeat' split at h
  all_goals cases h <;> decide

theorem mem_failCodes_of_blitPlan {sbpp dbpp : Nat} {conf : Conf} {c : ErrCode}
    (h : blitPlan sbpp dbpp conf = .fail c) : c ∈ [ErrCode.unsupported, .precond, .align, .bounds] := by
  simp only [blitPlan] at h
  repeat' split at h
  all_goals cases h <;> decide

theorem mem_failCodes_of_compositePlan {p : Config.Params} {op : Op} {k : KFields} {ctrl : Ctrl} {conf : Conf}
    {c : ErrCode} (h : compositePlan p op k ctrl conf = .fail c) :
    c ∈ [ErrCode.notCfg, .unsupported, .align, .bounds, .noMem] := by
  simp only [compositePlan] at h
  repeat' split at h
  all_goals cases h <;> decide

theorem compositeWith_endsWith (p : Config.Params) (op : Op) (k : KFields) (s : State) :
    EndsWith [.notCfg, .unsupported, .align, .bounds, .noMem] s (compositeWith p op k s) := by
  obtain ⟨c, hc, h⟩ | ⟨-, h⟩ | ⟨_, f, -, -, h⟩ | ⟨_, -, -, h⟩ := compositeWith_cases p op k s <;> rw [h]
  · exact .next (.failed c (mem_failCodes_of_compositePlan hc))
  · exact .next (.wroteMem s.mem s.cache.clearCounters)
  · exact .fault _ s f
  · exact .next (.wroteMem _ _)

/-- Every command that ends, ends in one of the ways of `CommandEnd` with the codes of its row of R310. -/
theorem exec_endsWith (i : Instr) (s : State) : EndsWith (failCodes i) s (exec i s) := by
  cases i with
  | nop => exact .next (.wroteMem s.mem s.cache)
  | lmul rd ra rb | ladds rd ra rb =>
    exact withLane_endsWith ra fun _ => withLane_endsWith rb fun _ => finishLane_range_endsWith s rd _ _
  | lmuladd rd ra rb rc re =>
    exact withLane_endsWith ra fun _ => withLane_endsWith rb fun _ => withLane_endsWith rc fun _ =>
      withLane_endsWith re fun _ => finishLane_range_endsWith s rd _ _
  | lneg rd ra | lbca rd ra | lbcl rd ra | lswaprb rd ra | lpack32 rd ra | lunpk565 rd ra idx =>
    exact withLane_endsWith ra fun _ => finishLane_ok_endsWith _ s rd _
  | lunpk32 rd ra half => exact withHalf_endsWith ra half fun _ => finishLane_ok_endsWith _ s rd _
  | lpack565 rd ra rb idx | linterp rd ra rb distx disty =>
    exact withLane_endsWith ra fun _ => withLane_endsWith rb fun _ => finishLane_ok_endsWith _ s rd _
  | compositeSrc k | compositeOver k | compositeOverReverse k | compositeIn k | compositeInReverse k | compositeOut k
  | compositeOutReverse k | compositeAtop k | compositeAtopReverse k | compositeXor k | compositeAdd k
  | compositeSaturate k => exact compositeWith_endsWith Config.params _ k s
  | fill bpp => exact runPlan_endsWith s _ fun _ => mem_failCodes_of_fillPlan
  | blit sbpp dbpp => exact runPlan_endsWith s _ fun _ => mem_failCodes_of_blitPlan

/-- No end of a command touches CTRL, CMD, the configuration or the turns to come (R290, R296). -/
theorem CommandEnd.frame {codes : List ErrCode} {s t : State} (h : CommandEnd codes s t) :
    t.cmd = s.cmd ∧ t.ctrl = s.ctrl ∧ t.conf = s.conf ∧ t.inputs = s.inputs := by
  cases h <;> exact ⟨rfl, rfl, rfl, rfl⟩

/-- An end with FAIL set is a failure. -/
theorem CommandEnd.of_fail {codes : List ErrCode} {s t : State} (h : CommandEnd codes s t) (hf : t.status.fail = true) :
    ∃ c ∈ codes, t = s.failed c := by
  cases h with
  | failed c isCode => exact ⟨c, isCode, rfl⟩
  | wroteLane | wroteMem => cases hf

/-- An end is a success or a failure. -/
theorem CommandEnd.succeeds_or_fails {codes : List ErrCode} {s t : State} (h : CommandEnd codes s t) :
    t.status = s.status.doneWith ∨ ∃ c ∈ codes, t = s.failed c := by
  cases h with
  | failed c isCode => exact .inr ⟨c, isCode, rfl⟩
  | wroteLane | wroteMem => exact .inl rfl

/-- No command reports the code that stands for no error (R291). -/
theorem noError_not_mem_failCodes (i : Instr) : ErrCode.noError ∉ failCodes i := by
  cases i <;> simp [failCodes]

/-- The turn of a busy block executes the command it has accepted (R296). -/
theorem blockTurn_of_decode {s : State} {i : Instr} (hbusy : s.status.busy = true) (hd : decodeWord s.cmd = .ok i) :
    blockTurn s = exec i s := by
  rw [blockTurn, if_pos hbusy, hd]

/-- The turn of a busy block ends its command, or ends the word that is none with ILLEGAL (R106, R296). -/
theorem blockTurn_commandEnd {s t : State} (hbusy : s.status.busy = true) (h : blockTurn s = .next t) :
    ∃ codes, ErrCode.noError ∉ codes ∧ CommandEnd codes s t := by
  rw [blockTurn, if_pos hbusy] at h
  split at h
  next i _ => exact ⟨failCodes i, noError_not_mem_failCodes i, exec_endsWith i s t h⟩
  · cases h
    exact ⟨[.illegal], by simp, .failed .illegal (List.mem_singleton_self _)⟩

/-- Settles O27: of the ways in which a command can end, those with FAIL set change STATUS alone. -/
theorem failedCommandChangesOnlyStatus : Obligations.FailedCommandChangesOnlyStatus := by
  refine ⟨fun i s t h hf => ?_, fun s t hbusy h hf => ?_⟩
  · obtain ⟨c, hc, rfl⟩ := (exec_endsWith i s t h).of_fail hf
    exact ⟨c, ne_of_mem_of_not_mem hc (noError_not_mem_failCodes i), rfl⟩
  · obtain ⟨codes, hcodes, hend⟩ := blockTurn_commandEnd hbusy h
    obtain ⟨c, hc, rfl⟩ := hend.of_fail hf
    exact ⟨c, ne_of_mem_of_not_mem hc hcodes, rfl⟩

/-- Settles O28: acceptance is O10's, the turn of a busy block is `exec` by its definition, and a command ends in one of
the ways of `CommandEnd`. -/
theorem commandLifecycle : Obligations.CommandLifecycle := by
  obtain ⟨-, -, haccept, -⟩ := cmdIssuesTheWordWritten
  refine ⟨haccept, fun s i => blockTurn_of_decode, fun s t hbusy h => ?_⟩
  obtain ⟨codes, hcodes, hend⟩ := blockTurn_commandEnd hbusy h
  exact ⟨hend.succeeds_or_fails.imp_right fun ⟨c, hc, ht⟩ => ⟨c, ne_of_mem_of_not_mem hc hcodes, ht⟩, hend.frame⟩

/-- Settles O30: the codes of `failCodes` are those of the matrix. -/
theorem failureMatrix : Obligations.FailureMatrix := by
  intro i s t _ h hf
  obtain ⟨c, hc, rfl⟩ := (exec_endsWith i s t h).of_fail hf
  cases i with
  | lmul | lmuladd | ladds => exact List.mem_singleton.1 hc
  | nop | lneg | lbca | lbcl | lswaprb | lunpk32 | lpack32 | lunpk565 | lpack565 | linterp =>
    exact absurd hc List.not_mem_nil
  | fill | blit | compositeSrc | compositeOver | compositeOverReverse | compositeIn | compositeInReverse | compositeOut
  | compositeOutReverse | compositeAtop | compositeAtopReverse | compositeXor | compositeAdd | compositeSaturate =>
    exact hc

/-! Which contract fault stops a command that does not end (R300). -/

/-- Every half of the list is written (R22). -/
def State.Written (s : State) (l : List (LReg × WHalf)) : Prop :=
  ∀ q ∈ l, (s.regs.get q.1).written q.2 = true

theorem State.written_of_not_unwritten {s : State} {l : List (LReg × WHalf)} (h : ¬ s.Unwritten l) : s.Written l :=
  fun q hq => by
    by_contra hw
    exact h ⟨q, hq, by simpa using hw⟩

/-- A read of a whole written register goes on, and the reads after it do (R120 step 2). -/
theorem withLane_completes {s : State} {r : LReg} {l : List (LReg × WHalf)}
    {k : Wide → Host.Outcome State Fault Refusal} (h : s.Written ((r, .lo) :: (r, .hi) :: l))
    (hk : s.Written l → ∀ v, ∃ t, k v = .next t) : ∃ t, s.withLane r k = .next t := by
  obtain ⟨hlo, h⟩ := List.forall_mem_cons.1 h
  obtain ⟨hhi, hl⟩ := List.forall_mem_cons.1 h
  rw [withLane_of_readable ⟨hlo, hhi⟩]
  exact hk hl _

/-- A read of a written half goes on (R151). -/
theorem withHalf_completes {s : State} {r : LReg} {half : WHalf} {k : Word → Host.Outcome State Fault Refusal}
    (h : s.Written [(r, half)]) (hk : ∀ v, ∃ t, k v = .next t) : ∃ t, s.withHalf r half k = .next t := by
  have hw : (s.regs.get r).written half = true := h _ (List.mem_singleton_self _)
  simp only [State.withHalf, LaneReg.readHalf?, hw, if_true]
  exact hk _

theorem finishLane_completes (s : State) (rd : LReg) (r : Except ErrCode Wide) : ∃ t, s.finishLane rd r = .next t := by
  cases r <;> exact ⟨_, rfl⟩

/-- The contract towards the sets decides whether a command ends or stops, and with which fault (R65, R69, R76). -/
structure FollowsContract (fp : Footprint) (s : State) (o : Host.Outcome State Fault Refusal) : Prop where
  stops : ∀ f, fp.contractFault s.platform = some f → o = .fault f
  ends : fp.contractFault s.platform = none → ∃ t, o = .next t

/-- A command that makes no access meets no contract fault of its sets. -/
theorem FollowsContract.of_noAccess {s : State} {o : Host.Outcome State Fault Refusal} (h : ∃ t, o = .next t) :
    FollowsContract .empty s o :=
  ⟨fun _ h' => (by cases h'), fun _ => h⟩

theorem FollowsContract.of_fault {fp : Footprint} {s : State} {f : Fault} (h : fp.contractFault s.platform = some f) :
    FollowsContract fp s (.fault f) :=
  ⟨fun _ h' => congrArg _ (Option.some.inj (h.symm.trans h')), fun h' => absurd (h.symm.trans h') nofun⟩

theorem FollowsContract.of_next {fp : Footprint} {s : State} (h : fp.contractFault s.platform = none) (t : State) :
    FollowsContract fp s (.next t) := 
  ⟨fun _ h' => absurd (h.symm.trans h') nofun, fun _ => ⟨t, rfl⟩⟩

theorem runPlan_followsContract (s : State) (plan : Plan) (run : Memory → Bus) :
    FollowsContract plan.footprint s (s.runPlan plan run) := by
  obtain ⟨c, rfl, h⟩ | ⟨rfl, h⟩ | ⟨fp, f, rfl, hf, h⟩ | ⟨fp, rfl, hf, h⟩ := runPlan_cases s plan run <;> rw [h]
  · exact .of_noAccess ⟨_, rfl⟩
  · exact .of_noAccess ⟨_, rfl⟩
  · exact .of_fault hf
  · exact .of_next hf _

theorem compositeWith_followsContract (p : Config.Params) (op : Op) (k : KFields) (s : State) :
    FollowsContract (compositePlan p op k s.ctrl s.conf).footprint s (compositeWith p op k s) := by
  obtain ⟨c, hp, h⟩ | ⟨hp, h⟩ | ⟨fp, f, hp, hf, h⟩ | ⟨fp, hp, hf, h⟩ := compositeWith_cases p op k s <;> rw [hp, h]
  · exact .of_noAccess ⟨_, rfl⟩
  · exact .of_noAccess ⟨_, rfl⟩
  · exact .of_fault hf
  · exact .of_next hf _

/-- With its register halves written, an instruction ends or stops as its sets keep the contract or break it (R300). -/
theorem exec_followsContract {i : Instr} {s : State} (hw : s.Written (readsHalves i)) :
    FollowsContract (instrPlan s i).footprint s (exec i s) := by
  cases i with
  | nop => exact .of_noAccess ⟨_, rfl⟩
  | lneg rd ra | lbca rd ra | lbcl rd ra | lswaprb rd ra | lpack32 rd ra | lunpk565 rd ra idx =>
    exact .of_noAccess (withLane_completes hw fun _ _ => finishLane_completes s rd _)
  | lunpk32 rd ra half => exact .of_noAccess (withHalf_completes hw fun _ => finishLane_completes s rd _)
  | lmul rd ra rb | ladds rd ra rb | lpack565 rd ra rb idx | linterp rd ra rb distx disty =>
    exact .of_noAccess (withLane_completes hw fun hb _ => withLane_completes hb fun _ _ => finishLane_completes s rd _)
  | lmuladd rd ra rb rc re =>
    exact .of_noAccess (withLane_completes hw fun hb _ => withLane_completes hb fun hc _ =>
      withLane_completes hc fun he _ => withLane_completes he fun _ _ => finishLane_completes s rd _)
  | compositeSrc k | compositeOver k | compositeOverReverse k | compositeIn k | compositeInReverse k | compositeOut k
  | compositeOutReverse k | compositeAtop k | compositeAtopReverse k | compositeXor k | compositeAdd k
  | compositeSaturate k => exact compositeWith_followsContract Config.params _ k s
  | fill bpp => exact runPlan_followsContract s _ _
  | blit sbpp dbpp => exact runPlan_followsContract s _ _

/-- The contract faults of a command's own sets (R65, R69, R76). -/
theorem contractFault_mem {fp : Footprint} {platform : List Region} {f : Fault}
    (h : fp.contractFault platform = some f) : f ∈ [Fault.deviceMemory, .busError, .aliasing] := by
  simp only [Footprint.contractFault] at h
  repeat' split at h
  all_goals cases h <;> decide

/-- An instruction towards which the contract is broken stops with one of the block's contract faults (R300). -/
theorem exec_of_not_contractKept {i : Instr} {s : State} (h : ¬ ContractKept i s) :
    ∃ f, exec i s = .fault f ∧ f ∈ [Fault.unwrittenW, .deviceMemory, .busError, .aliasing] := by
  by_cases hu : s.Unwritten (readsHalves i)
  · exact ⟨.unwrittenW, unwrittenHalfIsAContractFault i s hu, by simp⟩
  · have hw := State.written_of_not_unwritten hu
    obtain ⟨f, hf⟩ := Option.ne_none_iff_exists'.1 fun hnone => h ⟨hw, hnone⟩
    exact ⟨f, (exec_followsContract hw).stops f hf, List.mem_cons_of_mem _ (contractFault_mem hf)⟩

theorem State.touches_iff {s : State} {kind : RegionKind} {l : List Access} :
    s.Touches kind l ↔ ∃ a, Covers l a ∧ Covers (spansOf s.platform kind) a := by
  have hspan : ∀ a, Covers (spansOf s.platform kind) a ↔ ∃ r ∈ s.platform, r.kind = kind ∧ r.span.covers a = true :=
    fun a => by simp [Covers, spansOf, and_assoc]
  simp only [State.Touches, hspan]

/-- What a command answers that runs over its sets, by the bytes it accesses and the overlaps that are forbidden to it
(R65, R69, R76). -/
theorem answers_of_run {s : State} {fp : Footprint} {sets : List Access} {aliases : Prop}
    {o : Host.Outcome State Fault Refusal}
    (hsets : ∀ a, Covers (fp.reads ++ fp.writes) a ↔ Covers sets a) (haliased : fp.aliased = true ↔ aliases)
    (hstops : ∀ f, fp.contractFault s.platform = some f → o = .fault f)
    (hends : fp.contractFault s.platform = none → ∃ t, o = .next t ∧ t.status = s.status.doneWith) :
    (s.Touches .device sets → o = .fault .deviceMemory) ∧
      (¬ s.Touches .device sets → s.Touches .unanswered sets → o = .fault .busError) ∧
      (¬ s.Touches .device sets → ¬ s.Touches .unanswered sets → aliases → o = .fault .aliasing) ∧
      (¬ s.Touches .device sets → ¬ s.Touches .unanswered sets → ¬ aliases →
        ∃ t, o = .next t ∧ t.status = s.status.doneWith) := by
  obtain ⟨hdevice, hunanswered, halias, hclear⟩ := contractFault_spec fp s.platform
  simp only [State.touches_iff, ← hsets, ← haliased]
  exact ⟨fun h => hstops _ (hdevice h), fun h h' => hstops _ (hunanswered h h'),
    fun h h' h'' => hstops _ (halias h h' h''), fun h h' h'' => hends (hclear h h' (Bool.eq_false_of_not_eq_true h''))⟩

/-- A FILL or BLIT past its checks succeeds where its sets keep the contract. -/
theorem runPlan_run_ends {s : State} {fp : Footprint} (run : Memory → Bus) (h : fp.contractFault s.platform = none) :
    s.runPlan (.run fp) run = .next (s.withMem (run s.mem).mem).endSuccess := by
  simp only [State.runPlan, h, conclude_ok]

/-- Settles O29: with the halves written an instruction follows the contract towards its sets, and for a COMPOSITE, FILL
or BLIT past its checks those sets and their overlaps are the ones the statement names. -/
theorem commandsEndWhenTheContractIsKept : Obligations.CommandsEndWhenTheContractIsKept := by
  refine ⟨fun i s ⟨hw, hc⟩ => (exec_followsContract hw).ends hc, fun i s => exec_of_not_contractKept,
    fun op k s hchecked => ?_, fun bpp s hd hv hw hh hdst => ?_, fun bpp s hd hw hh hsrc hdst => ?_⟩
  · have hplan := (compositeChecked_iff op k s).1 hchecked
    refine answers_of_run (fp := compositeFootprint Config.params op k s.conf) (fun _ => covers_compositeFootprint)
      compositeAliased_iff (fun f hf => ?_) fun hf => ?_
    all_goals rw [exec_composite, compositeWith, hplan]
    · simp only [hf]
    · simp only [hf, conclude_ok]
      exact ⟨_, rfl, rfl⟩
  · obtain ⟨hdevice, hunanswered, -, hclear⟩ := answers_of_run (s := s) (fp := fillFootprint bpp s.conf)
      (o := s.runPlan (.run (fillFootprint bpp s.conf)) (fillRun bpp s.conf)) (fun _ => .rfl) (aliases := False)
      (by simp [fillFootprint]) (runPlan_followsContract s (.run _) _).stops
      fun hf => ⟨_, runPlan_run_ends _ hf, rfl⟩
    rw [exec, execFill, fillPlan_of_checked hd hv hw hh hdst]
    exact ⟨hdevice, hunanswered, fun h h' => hclear h h' not_false⟩
  · rw [exec, execBlit, blitPlan_of_checked hd hw hh hsrc hdst]
    exact answers_of_run (fp := blitFootprint (bpp / 8) s.conf) (fun _ => .rfl) blitFootprint_aliased_iff
      (runPlan_followsContract s (.run _) _).stops fun hf => ⟨_, runPlan_run_ends _ hf, rfl⟩

end Sys2Proof.Machine
end

section
/-! Proofs, family `60_exceptions`: the checks of a COMPOSITE (O43) and of FILL and BLIT (O57) in their order. Each
check of a plan is the condition that its rule states, and the first condition that holds decides. -/

namespace Sys2Proof.Machine

/-! Conditions that several commands check. -/

/-- BASE or STRIDE is no multiple of the pixel size (R293 step 5, R294). -/
theorem not_aligned_iff {p : BufDesc} {n : Nat} :
    (!p.aligned n) = true ↔ p.base.toNat % n ≠ 0 ∨ p.stride.toInt % (n : Int) ≠ 0 := by
  simp [BufDesc.aligned]

/-- The rectangle leaves the image (R293 step 6, R294). -/
theorem not_holdsRect_iff {p : BufDesc} {w h : BitVec 16} :
    (!p.holdsRect w h) = true ↔ p.width.toNat < p.x.toNat + w.toNat ∨ p.height.toNat < p.y.toNat + h.toNat := by
  simp [BufDesc.holdsRect]

theorem emptyRect_iff {c : Conf} : c.emptyRect = true ↔ c.rectW = 0 ∨ c.rectH = 0 := by simp [Conf.emptyRect]

/-! FILL and BLIT. -/

/-- A command that runs over its sets succeeds, the cache untouched, or meets a contract fault (R294, R300). -/
theorem runPlan_run_cases (s : State) (fp : Footprint) (run : Memory → Bus) :
    (∃ t, s.runPlan (.run fp) run = .next t ∧ t.status = s.status.doneWith ∧ t.cache = s.cache) ∨
      ∃ f, s.runPlan (.run fp) run = .fault f := by
  cases hf : fp.contractFault s.platform with
  | none => exact .inl ⟨_, runPlan_run_ends run hf, rfl, rfl⟩
  | some f => exact .inr ⟨f, (runPlan_followsContract s (.run fp) run).stops f hf⟩

/-- What FILL and BLIT answer whose plan is the list of R294's conditions. -/
theorem runPlan_of_conditions (s : State) (fp : Footprint) (run : Memory → Bus) {plan : Plan}
    {unsupported precond empty align bounds : Prop} [Decidable unsupported] [Decidable precond] [Decidable empty]
    [Decidable align] [Decidable bounds]
    (hplan : plan = if unsupported then .fail .unsupported else if precond then .fail .precond
      else if empty then .noAccess else if align then .fail .align else if bounds then .fail .bounds else .run fp) :
    (unsupported → s.runPlan plan run = .next (s.failed .unsupported)) ∧
      (¬ unsupported → precond → s.runPlan plan run = .next (s.failed .precond)) ∧
      (¬ unsupported → ¬ precond → empty → s.runPlan plan run = .next s.ended) ∧
      (¬ unsupported → ¬ precond → ¬ empty → align → s.runPlan plan run = .next (s.failed .align)) ∧
      (¬ unsupported → ¬ precond → ¬ empty → ¬ align → bounds → s.runPlan plan run = .next (s.failed .bounds)) ∧
      (¬ unsupported → ¬ precond → ¬ empty → ¬ align → ¬ bounds →
        (∃ t, s.runPlan plan run = .next t ∧ t.status = s.status.doneWith ∧ t.cache = s.cache) ∨
          ∃ f, s.runPlan plan run = .fault f) := by
  subst hplan
  refine ⟨fun h1 => ?_, fun h1 h2 => ?_, fun h1 h2 h3 => ?_, fun h1 h2 h3 h4 => ?_, fun h1 h2 h3 h4 h5 => ?_,
    fun h1 h2 h3 h4 h5 => ?_⟩
  · rw [if_pos h1]
    rfl
  · rw [if_neg h1, if_pos h2]
    rfl
  · rw [if_neg h1, if_neg h2, if_pos h3]
    rfl
  · rw [if_neg h1, if_neg h2, if_neg h3, if_pos h4]
    rfl
  · rw [if_neg h1, if_neg h2, if_neg h3, if_neg h4, if_pos h5]
    rfl
  · rw [if_neg h1, if_neg h2, if_neg h3, if_neg h4, if_neg h5]
    exact runPlan_run_cases s fp run

/-- Settles O57: FILL's and BLIT's plans are the conditions of R294 in its order. -/
theorem fillAndBlitCheckOrder : Obligations.FillAndBlitCheckOrder := by
  classical
  refine ⟨illegalWordFails, fun bpp s => ?_, fun sbpp dbpp s => ?_⟩
  · intro c unsupported precond empty align bounds
    refine runPlan_of_conditions s (fillFootprint bpp c) (fillRun bpp c) (plan := fillPlan bpp c) ?_
    refine if_congr ?_ rfl <| if_congr ?_ rfl <| if_congr emptyRect_iff rfl <| if_congr not_aligned_iff rfl <|
      if_congr not_holdsRect_iff rfl rfl
    · simp [depthSupported, unsupported]
    · simp [fillHalvesAgree, precond]
  · intro c unsupported precond empty misaligned outside align bounds
    refine runPlan_of_conditions s (blitFootprint (sbpp / 8) c) (blitRun (sbpp / 8) c) (plan := blitPlan sbpp dbpp c) ?_
    refine if_congr ?_ rfl <| if_congr bne_iff_ne rfl <| if_congr emptyRect_iff rfl <| if_congr ?_ rfl <|
      if_congr ?_ rfl rfl
    · simp [depthSupported, unsupported, imp_iff_not_or]
    · rw [Bool.not_and, Bool.or_eq_true, not_aligned_iff, not_aligned_iff]
    · rw [Bool.not_and, Bool.or_eq_true, not_holdsRect_iff, not_holdsRect_iff]

/-! COMPOSITE. -/

/-- The mask comes from a buffer (R182). -/
theorem maskBuffer_iff {k : KFields} : maskBuffer k = true ↔ k.mmode ≠ .noMask ∧ k.msolid = false := by
  simp [maskBuffer]

/-- A condition on the mask buffer, where the command reads one. -/
theorem not_unmasked_or_iff {k : KFields} {b : Bool} :
    (!(!maskBuffer k || b)) = true ↔ (k.mmode ≠ .noMask ∧ k.msolid = false) ∧ (!b) = true := by
  rw [Bool.not_or, Bool.not_not, Bool.and_eq_true, maskBuffer_iff]

/-- A condition on the source buffer, where the source is no constant. -/
theorem not_solid_or_iff {k : KFields} {b : Bool} : (!(k.ssolid || b)) = true ↔ k.ssolid = false ∧ (!b) = true := by
  simp

/-- Checks 3(b) to 3(e): the formats that a COMPOSITE does not support (R163, R293). -/
theorem not_formatsLegal_iff {k : KFields} : (!formatsLegal k) = true ↔
    ¬ (k.dfmt = .argb32 ∨ k.dfmt = .rgb565) ∨ (k.ssolid = false ∧ k.sfmt = .a8) ∨
      (k.mmode = .uniform ∧ k.msolid = false ∧ ¬ (k.mfmt = .argb32 ∨ k.mfmt = .a8)) ∨
      (k.mmode = .perComponent ∧ k.msolid = false ∧ k.mfmt ≠ .argb32) := by
  have hdst : (!dstFormat k.dfmt) = true ↔ ¬ (k.dfmt = .argb32 ∨ k.dfmt = .rgb565) := by
    cases k.dfmt <;> simp [dstFormat]
  have hsrc : (!srcFormat k.sfmt) = true ↔ k.sfmt = .a8 := by cases k.sfmt <;> simp [srcFormat]
  have hmsk : (!(!maskBuffer k || mskFormat k.mmode k.mfmt)) = true ↔
      (k.mmode = .uniform ∧ k.msolid = false ∧ ¬ (k.mfmt = .argb32 ∨ k.mfmt = .a8)) ∨
        (k.mmode = .perComponent ∧ k.msolid = false ∧ k.mfmt ≠ .argb32) := by
    rw [not_unmasked_or_iff]
    cases k.mmode <;> cases k.mfmt <;> simp [mskFormat]
  rw [formatsLegal, Bool.not_and, Bool.not_and, Bool.or_eq_true, Bool.or_eq_true, hdst, not_solid_or_iff, hsrc, hmsk,
    or_assoc]

/-- Check 5: a buffer that is not aligned (R293). -/
theorem not_compositeAligned_iff {k : KFields} {c : Conf} : (!compositeAligned k c) = true ↔
    (!c.dst.aligned (bpb k.dfmt)) = true ∨ (k.ssolid = false ∧ (!c.src.aligned (bpb k.sfmt)) = true) ∨
      ((k.mmode ≠ .noMask ∧ k.msolid = false) ∧ (!c.msk.aligned (bpb k.mfmt)) = true) := by
  rw [compositeAligned, Bool.not_and, Bool.not_and, Bool.or_eq_true, Bool.or_eq_true, not_solid_or_iff,
    not_unmasked_or_iff, or_assoc]

/-- Check 6: a rectangle that leaves its image, or a source without a pixel (R293). -/
theorem not_compositeInBounds_iff {k : KFields} {c : Conf} : (!compositeInBounds k c) = true ↔
    (!c.dst.holdsRect c.rectW c.rectH) = true ∨
      ((k.mmode ≠ .noMask ∧ k.msolid = false) ∧ (!c.msk.holdsRect c.rectW c.rectH) = true) ∨
      (k.ssolid = false ∧ (c.src.width = 0 ∨ c.src.height = 0)) := by
  have hsize : (!(c.src.width != 0 && c.src.height != 0)) = true ↔ c.src.width = 0 ∨ c.src.height = 0 := by simp
  rw [compositeInBounds, Bool.not_and, Bool.not_and, Bool.or_eq_true, Bool.or_eq_true, not_solid_or_iff,
    not_unmasked_or_iff, hsize, or_assoc]

/-- The cache is used and its rows do not fit on chip (R242, R293 step 7). -/
theorem needsScratch_iff {p : Config.Params} {k : KFields} {c : Conf} : needsScratch p k c = true ↔
    k.ssolid = false ∧ k.sample = .bilinear ∧ c.xform.d = 0 ∧ p.slotOnchipBytes < 4 * c.src.width.toNat := by
  rw [needsScratch, Bool.and_eq_true, cacheUsed_iff, externalScratch_iff, and_assoc, and_assoc]

theorem exec_composite_of_noAccess {op : Op} {k : KFields} {s : State}
    (h : compositePlan Config.params op k s.ctrl s.conf = .noAccess) :
    exec (.composite k op) s = .next { s.ended with cache := { s.cache with decodes := 0, hits := 0 } } := by
  rw [exec_composite, compositeWith, h]
  rfl

/-- A COMPOSITE past its checks succeeds or meets a contract fault of its sets (R180, R300). -/
theorem exec_composite_run_cases {op : Op} {k : KFields} {s : State} {fp : Footprint}
    (h : compositePlan Config.params op k s.ctrl s.conf = .run fp) :
    (∃ t, exec (.composite k op) s = .next t ∧ t.status = s.status.doneWith) ∨
      ∃ f, exec (.composite k op) s = .fault f := by
  rw [exec_composite]
  obtain ⟨c, hp, -⟩ | ⟨hp, -⟩ | ⟨_, f, -, -, ho⟩ | ⟨_, -, -, ho⟩ := compositeWith_cases Config.params op k s
  · cases h.symm.trans hp
  · cases h.symm.trans hp
  · exact .inr ⟨f, ho⟩
  · exact .inl ⟨_, ho, rfl⟩

/-- Settles O43: the plan of a COMPOSITE is the conditions of R293 in its order. -/
theorem compositeCheckOrder : Obligations.CompositeCheckOrder := by
  classical
  refine fun s hbusy => ⟨fun e => illegalWordFails s e hbusy, fun op k hd => ?_⟩
  intro c masked notCfg unsupported empty misaligned align outside bounds scratch noMem scrAlign
  have hplan : compositePlan Config.params op k s.ctrl c = if notCfg then .fail .notCfg
      else if unsupported then .fail .unsupported else if empty then .noAccess else if align then .fail .align
      else if bounds then .fail .bounds else if noMem then .fail .noMem else if scrAlign then .fail .align
      else .run (compositeFootprint Config.params op k c) := by
    have hnotCfg : (!s.ctrl.cfgLock) = true ↔ notCfg := by rw [Bool.not_eq_true']
    have hkernel : (!kernelEnabled op k c) = true ↔
        (if k.mmode = .perComponent then c.kenCa.getLsbD op.code else c.kenU.getLsbD op.code) = false := by
      rw [kernelEnabled_eq, Bool.not_eq_true']
    have halign : (!compositeAligned k c) = true ↔ align := by
      rw [not_compositeAligned_iff, not_aligned_iff, not_aligned_iff, not_aligned_iff]
    have hbounds : (!compositeInBounds k c) = true ↔ bounds := by
      rw [not_compositeInBounds_iff, not_holdsRect_iff, not_holdsRect_iff]
    have hnoMem : (needsScratch Config.params k c && decide (c.scrLen.toNat < 2 * rowBytes c)) = true ↔ noMem := by
      rw [Bool.and_eq_true, needsScratch_iff, decide_eq_true_iff, rowBytes, ← Nat.mul_assoc]
    have hscrAlign : (needsScratch Config.params k c && decide (c.scrBase.toNat % 4 ≠ 0)) = true ↔ scrAlign := by
      rw [Bool.and_eq_true, needsScratch_iff, decide_eq_true_iff]
    exact if_congr hnotCfg rfl <| (ite_or ..).symm.trans <| if_congr (or_congr hkernel not_formatsLegal_iff) rfl <|
      if_congr emptyRect_iff rfl <| if_congr halign rfl <| if_congr hbounds rfl <| if_congr hnoMem rfl <|
      if_congr hscrAlign rfl rfl
  rw [blockTurn_of_decode hbusy hd]
  refine ⟨fun h1 => ?_, fun h1 h2 => ?_, fun h1 h2 h3 => ?_, fun h1 h2 h3 h4 => ?_, fun h1 h2 h3 h4 h5 => ?_,
    fun h1 h2 h3 h4 h5 h6 => ?_, fun h1 h2 h3 h4 h5 h6 h7 => ?_, fun h1 h2 h3 h4 h5 h6 h7 => ?_⟩
  · exact exec_composite_of_fail (by rw [hplan, if_pos h1])
  · exact exec_composite_of_fail (by rw [hplan, if_neg h1, if_pos h2])
  · exact exec_composite_of_noAccess (by rw [hplan, if_neg h1, if_neg h2, if_pos h3])
  · exact exec_composite_of_fail (by rw [hplan, if_neg h1, if_neg h2, if_neg h3, if_pos h4])
  · exact exec_composite_of_fail (by rw [hplan, if_neg h1, if_neg h2, if_neg h3, if_neg h4, if_pos h5])
  · exact exec_composite_of_fail (by rw [hplan, if_neg h1, if_neg h2, if_neg h3, if_neg h4, if_neg h5, if_pos h6])
  · exact exec_composite_of_fail
      (by rw [hplan, if_neg h1, if_neg h2, if_neg h3, if_neg h4, if_neg h5, if_neg h6, if_pos h7])
  · rw [if_neg h1, if_neg h2, if_neg h3, if_neg h4, if_neg h5, if_neg h6, if_neg h7] at hplan
    exact exec_composite_run_cases hplan

end Sys2Proof.Machine
end

section
/-! Proofs, family `60_exceptions`: the invariant at reset (O2), the host's accesses to a busy block's window (O16,
O17), the step that runs an accepted command (O26), and the interrupt output (O31). -/

namespace Sys2Proof.Machine

/-- Settles O2: the reset state lists no memory and no other block's command, is idle, and has both slots empty. -/
theorem invariantHoldsAtReset : Obligations.InvariantHoldsAtReset where
  memory := ⟨.nil, nofun⟩
  running := nofun
  ended := nofun
  errorCode := by simp [State.reset]
  slots := fun i => by cases i <;> exact ⟨rfl, rfl, rfl⟩
  apart := rfl
  peersApart := .nil
  peersKeepContract := nofun

/-! The window of a busy block. -/

/-- A host write to a busy block (R298). -/
theorem csrWrite_of_busy {s : State} (hbusy : s.status.busy = true) (r : Csr) (v : Word) :
    csrWrite (BitVec.ofNat 12 r.offset) 4 v s = .next (s.writeCsrBusy r v) := by
  rw [csrWrite_offset, if_pos hbusy]

/-- Settles O16: a busy block's write is `writeCsrBusy`, and `writeCsr` of a locked kernel table is the state itself. -/
theorem writesWhileBusyAreDropped : Obligations.WritesWhileBusyAreDropped := by
  refine ⟨fun s v hbusy r hr => ?_, fun s v hbusy => ?_, fun s v hidle hl => ?_⟩
  · rw [csrWrite_of_busy hbusy, State.writeCsrBusy, if_neg hr]
    rfl
  · exact (csrWrite_status s v).trans (by rw [Status.hostWrite, hbusy]; rfl)
  · obtain ⟨hu, hca⟩ := writeCsr_ken_locked hl v
    exact ⟨(csrWrite_of_idle (r := .kenU) hidle (by simp) v).trans (congrArg _ hu),
      (csrWrite_of_idle (r := .kenCa) hidle (by simp) v).trans (congrArg _ hca)⟩

/-- A host read of a working register of a busy block answers a free value of the register's width (R299). -/
theorem csrRead_of_working {s : State} (hbusy : s.status.busy = true) {r : Csr} {w : Word} (hw : s.csrWord r = some w)
    {bits : Nat} (hbits : r.busyWidth? = some bits) :
    csrRead (BitVec.ofNat 12 r.offset) 4 s = .next (s.withHostData (s.freeBits bits)).drawn := by
  rw [csrRead_offset]
  simp only [State.readCsr, hw, hbusy, hbits]

theorem freeBits_lt (s : State) (bits : Nat) : (s.freeBits bits).toNat < 2 ^ bits := by
  rw [State.freeBits, BitVec.toNat_ofNat]
  exact Nat.lt_of_le_of_lt (Nat.mod_le _ _) (Nat.mod_lt _ (Nat.two_pow_pos bits))

/-- Settles O17: a register either has a width for its free value or answers what it holds. -/
theorem readsWhileBusyChangeNothing : Obligations.ReadsWhileBusyChangeNothing := by
  refine ⟨fun s _ r hr => ?_, fun s hbusy r bits hr => ?_, fun s hidle r w hw => csrRead_of_word hw (.inl hidle)⟩
  · obtain ⟨w, hw, hwidth⟩ : ∃ w, s.csrWord r = some w ∧ r.busyWidth? = none := by
      obtain hr | ⟨b, q, rfl⟩ | ⟨q, rfl⟩ := hr
      · cases r with
        | buf | xform | cacheDecodes | cacheHits | slotState | slotTag | laneHalf => simp at hr
        | id | ctrl | status | cmd | kenU | kenCa | rectW | rectH | solidSrc | solidMsk | fillValue | scrBase
        | scrLen => exact ⟨_, rfl, rfl⟩
      · exact ⟨_, rfl, rfl⟩
      · exact ⟨_, rfl, rfl⟩
    exact ⟨w, hw, csrRead_of_word hw (.inr hwidth)⟩
  · obtain ⟨w, hw, hwidth⟩ : ∃ w, s.csrWord r = some w ∧ r.busyWidth? = some bits := by
      obtain ⟨rfl | rfl, rfl⟩ | ⟨⟨i, rfl⟩, rfl⟩ | ⟨⟨i, rfl⟩, rfl⟩ | ⟨⟨q, half, rfl, hwritten⟩, rfl⟩ := hr
      · exact ⟨_, rfl, rfl⟩
      · exact ⟨_, rfl, rfl⟩
      · exact ⟨_, rfl, rfl⟩
      · exact ⟨_, rfl, rfl⟩
      · exact ⟨(s.regs.get q).half half, by rw [State.csrWord, LaneReg.readHalf?, if_pos hwritten], rfl⟩
    exact ⟨s.freeBits bits, freeBits_lt s bits, csrRead_of_working hbusy hw hwidth⟩

/-! The step that runs a command. -/

/-- A word's bytes make up the word (R24, R61). -/
theorem decodeBytes_bytesOfWord (w : Word) (i : Instr) :
    decodeBytes (bytesOfWord w) = .ok (i, []) ↔ decodeWord w = .ok i := by
  have hw : wordOfBytes (w.extractLsb' 0 8) (w.extractLsb' 8 8) (w.extractLsb' 16 8) (w.extractLsb' 24 8) = w := by
    rw [wordOfBytes, BitVec.extractLsb'_append_extractLsb'_eq_extractLsb' (by rfl),
      BitVec.extractLsb'_append_extractLsb'_eq_extractLsb' (by rfl),
      BitVec.extractLsb'_append_extractLsb'_eq_extractLsb' (by rfl), BitVec.extractLsb'_eq_self]
  rw [bytesOfWord, decodeBytes, hw]
  cases decodeWord w <;> simp

/-- When the block moves next, or no turn waits, the step is the block's turn. -/
theorem step_of_block {s : State} {rest : List Turn} (h : s.inputs = .block :: rest ∨ (s.inputs = [] ∧ rest = [])) :
    step s = blockTurn (s.withInputs rest) := by
  obtain h | ⟨h, rfl⟩ := h
  · rw [step, h]
  · have hs : s.withInputs [] = s := by rw [← h]; rfl
    rw [step, h, hs]

/-- Settles O26: the turn of a busy block is `exec` of its word, and `withFetchWord` is a busy block with its turn
next. -/
theorem stepRunsTheAcceptedCommand : Obligations.StepRunsTheAcceptedCommand := by
  refine ⟨fun s rest i hbusy hd hin => ?_, fun s rest hidle hin => ?_, fun s rest a hin => ?_, decodeBytes_bytesOfWord,
    fun s w i hd => ?_⟩
  · rw [step_of_block hin]
    exact blockTurn_of_decode hbusy hd
  · rw [step_of_block hin, blockTurn, if_neg (by simp [hidle])]
    rfl
  · rw [step, hin]
    rfl
  · have hword : BitVec.ofNat 32 (w.toNat % 2 ^ 32) = w := by
      rw [Nat.mod_eq_of_lt w.isLt, BitVec.ofNat_toNat, BitVec.setWidth_eq]
    rw [State.withFetchWord, hword, step_of_block (.inl rfl)]
    exact blockTurn_of_decode rfl hd

/-! The interrupt output (R297). -/

theorem irq_iff {s : State} :
    s.irq = true ↔ s.ctrl.irqEn = true ∧ (s.status.done = true ∨ s.status.fail = true) := by
  rw [State.irq, Bool.and_eq_true, Bool.or_eq_true]

theorem irq_congr {s t : State} (hctrl : t.ctrl = s.ctrl) (hstatus : t.status = s.status) : t.irq = s.irq := by
  rw [State.irq, State.irq, hctrl, hstatus]

/-- A command that ends while IRQ_EN is set asserts the interrupt: it reports DONE or FAIL. -/
theorem CommandEnd.irq {codes : List ErrCode} {s t : State} (h : CommandEnd codes s t) (hen : s.ctrl.irqEn = true) :
    t.irq = true := by
  obtain ⟨-, hctrl, -, -⟩ := h.frame
  refine irq_iff.2 ⟨by rw [hctrl, hen], ?_⟩
  obtain hst | ⟨c, -, rfl⟩ := h.succeeds_or_fails
  · exact .inl (by rw [hst]; rfl)
  · exact .inr rfl

/-- The writes to a register that deassert the interrupt. -/
def Deasserts (s : State) (r : Csr) (v : Word) : Prop :=
  (r = .status ∧ (s.status.done = true → v.getLsbD 1 = true) ∧ (s.status.fail = true → v.getLsbD 2 = true)) ∨
    (r = .ctrl ∧ s.status.busy = false ∧ v.getLsbD 1 = false) ∨ (r = .cmd ∧ s.status.busy = false)

/-- A write to STATUS that leaves DONE and FAIL clear clears what was set of them (R27). -/
theorem hostWrite_clears {s : State} {v : Word} (hs : s.irq = true)
    (h : (s.withStatus (s.status.hostWrite v)).irq = false) :
    (s.status.done = true → v.getLsbD 1 = true) ∧ (s.status.fail = true → v.getLsbD 2 = true) := by
  have hen : s.ctrl.irqEn = true := (irq_iff.1 hs).1
  simp only [State.irq, State.withStatus_ctrl, State.withStatus_status, Status.hostWrite, hen, Bool.true_and,
    Bool.or_eq_false_iff] at h
  exact ⟨fun hd => by simpa [hd] using h.1, fun hf => by simpa [hf] using h.2⟩

/-- Of a busy block's registers, STATUS alone deasserts the interrupt (R298). -/
theorem writeCsrBusy_deasserts {s : State} (hs : s.irq = true) {r : Csr} {v : Word}
    (h : (s.writeCsrBusy r v).irq = false) : Deasserts s r v := by
  rw [State.writeCsrBusy] at h
  split at h
  next hr => exact .inl ⟨hr, hostWrite_clears hs h⟩
  next => exact absurd (hs.symm.trans h) (by simp)

/-- A write to an idle block's register that leaves IRQ_EN, DONE and FAIL alone leaves the interrupt asserted. -/
theorem writeCsr_deasserts {s : State} (hs : s.irq = true) (hidle : s.status.busy = false) {r : Csr} {v : Word}
    (h : (s.writeCsr r v).irq = false) : Deasserts s r v := by
  cases r with
  | status => exact .inl ⟨rfl, hostWrite_clears hs h⟩
  | ctrl =>
    refine .inr (.inl ⟨rfl, hidle, Bool.eq_false_of_not_eq_true fun hv => ?_⟩)
    have hasserted : (s.writeCsr .ctrl v).irq = true := irq_iff.2 ⟨hv, (irq_iff.1 hs).2⟩
    rw [h] at hasserted
    cases hasserted
  | cmd => exact .inr (.inr ⟨rfl, hidle⟩)
  | kenU | kenCa =>
    simp only [State.writeCsr] at h
    split at h <;> exact absurd (hs.symm.trans h) (by simp)
  | id | buf | rectW | rectH | solidSrc | solidMsk | fillValue | xform | scrBase | scrLen | cacheDecodes | cacheHits
  | slotState | slotTag | laneHalf => exact absurd (hs.symm.trans h) (by simp)

/-- An access to the window that deasserts the interrupt is a word's, at the offset of a register whose write does. -/
theorem csrWrite_deasserts {s t : State} (hs : s.irq = true) {off : BitVec 12} {size : Nat} {v : Word}
    (h : csrWrite off size v s = .next t) (ht : t.irq = false) :
    size = 4 ∧ ∃ r, off = BitVec.ofNat 12 r.offset ∧ Deasserts s r v := by
  simp only [csrWrite] at h
  split at h
  · cases h
  next hok =>
  have hsize : size = 4 := by
    by_contra hne
    exact hok (by rw [csrAccessOk_eq_false (.inl hne), Bool.not_false])
  split at h
  · cases h
    exact absurd (hs.symm.trans ht) (by simp)
  next r hr =>
  have hoff : off = BitVec.ofNat 12 r.offset := by
    rw [show r.offset = off.toNat by simpa using List.find?_some hr, BitVec.ofNat_toNat, BitVec.setWidth_eq]
  refine ⟨hsize, r, hoff, ?_⟩
  split at h
  · cases h
    exact writeCsrBusy_deasserts hs ht
  next hbusy =>
  simp only [State.afterWrite] at h
  split at h
  · cases h
  · cases h
    exact writeCsr_deasserts hs (Bool.eq_false_of_not_eq_true hbusy) ht

/-- A host read leaves the interrupt as it is (R299). -/
theorem csrRead_irq {s t : State} {off : BitVec 12} {size : Nat} (h : csrRead off size s = .next t) :
    t.irq = s.irq := by
  simp only [csrRead, State.readCsr] at h
  repeat' split at h
  all_goals cases h <;> rfl

theorem peerStart_irq {s t : State} {peer : Nat} {sets : Footprint} (h : peerStart peer sets s = .next t) :
    t.irq = s.irq := by
  obtain ⟨-, he⟩ | ⟨-, ⟨f, -, he⟩ | ⟨-, ⟨-, he⟩ | ⟨-, -, he⟩⟩⟩ := peerStart_cases peer sets s <;>
    rw [h] at he <;> cases he <;> rfl

/-- A host address in the window is that of its offset (R24). -/
theorem csrOffset?_eq_some {p : Config.Params} {hostAddr : Nat} {off : BitVec 12}
    (h : csrOffset? p hostAddr = some off) : hostAddr = p.csrBase + off.toNat := by
  simp only [csrOffset?, Option.ite_none_right_eq_some, Option.some.injEq] at h
  obtain ⟨hin, rfl⟩ := h
  rw [BitVec.toNat_ofNat, Nat.mod_eq_of_lt (by omega)]
  omega

/-- The action writes the word `v` at an offset of the window, by offset or by host address. -/
def WritesWindow (a : HostAction) (off : BitVec 12) (v : Word) : Prop :=
  a = .csrWrite off 4 v ∨ a = .busWrite (Config.params.csrBase + off.toNat) 4 v

/-- Of the actions of the outside world, a reset and some writes to the window alone deassert the interrupt. -/
theorem hostAct_deasserts {a : HostAction} {s t : State} (hs : s.irq = true) (h : hostAct a s = .next t)
    (ht : t.irq = false) :
    a = .reset ∨ ∃ r v, WritesWindow a (BitVec.ofNat 12 r.offset) v ∧ Deasserts s r v := by
  have hkept : t.irq ≠ s.irq := by simp [hs, ht]
  cases a with
  | reset => exact .inl rfl
  | csrWrite off size v =>
    obtain ⟨rfl, r, rfl, hr⟩ := csrWrite_deasserts hs h ht
    exact .inr ⟨r, v, .inl rfl, hr⟩
  | busWrite hostAddr size v =>
    simp only [hostAct] at h
    split at h
    next off hoff =>
      obtain ⟨rfl, r, rfl, hr⟩ := csrWrite_deasserts hs h ht
      exact .inr ⟨r, v, .inr (by rw [csrOffset?_eq_some hoff]), hr⟩
    next => exact absurd (congrArg State.irq (busAccessOutside_next h)) hkept
  | csrRead off size => exact absurd (csrRead_irq h) hkept
  | busRead hostAddr size =>
    simp only [hostAct] at h
    split at h
    next => exact absurd (csrRead_irq h) hkept
    next => exact absurd (congrArg State.irq (busAccessOutside_next h)) hkept
  | memWrite addr size v => exact absurd (congrArg State.irq (hostAccess_next h)) hkept
  | memRead addr size => exact absurd (congrArg State.irq (hostAccess_next h)) hkept
  | peerStart peer sets => exact absurd (peerStart_irq h) hkept
  | peerEnd peer =>
    cases h
    exact absurd rfl hkept
  | peerWrite peer addr size v =>
    obtain rfl | rfl := peerAccess_next h <;> exact absurd rfl hkept
  | peerRead peer addr size =>
    obtain rfl | rfl := peerAccess_next h <;> exact absurd rfl hkept

/-- The block's turn leaves an asserted interrupt asserted: an idle block does nothing, and a command that ends reports
it. -/
theorem blockTurn_irq {s t : State} (hs : s.irq = true) (h : blockTurn s = .next t) : t.irq = true := by
  by_cases hbusy : s.status.busy = true
  · obtain ⟨_, -, hend⟩ := blockTurn_commandEnd hbusy h
    exact hend.irq (irq_iff.1 hs).1
  · rw [blockTurn, if_neg hbusy] at h
    cases h
    exact hs

/-- A write to CMD of an idle block is an acceptance (R28, R296). -/
theorem csrWrite_cmd_of_idle {s : State} (hidle : s.status.busy = false) (v : Word) :
    csrWrite (BitVec.ofNat 12 Csr.cmd.offset) 4 v s = (s.accept v).afterWrite :=
  (csrWrite_offset .cmd v s).trans (if_neg (by simp [hidle]))

/-- Settles O31: what each write to STATUS, CTRL and CMD leaves of IRQ_EN, DONE and FAIL, and that of all steps a reset
and those writes alone can deassert the interrupt. -/
theorem interruptFollowsStatusAndEnable : Obligations.InterruptFollowsStatusAndEnable := by
  refine ⟨fun s => irq_iff, fun s t hbusy hen h => ?_, fun s t v hd hf h => ?_, fun s t v hidle hv h => ?_,
    fun s t v hidle hv h => ?_, fun s t v hidle h => ?_, fun s t hs h ht => ?_⟩
  · obtain ⟨_, -, hend⟩ := blockTurn_commandEnd hbusy h
    exact hend.irq hen
  · cases (csrWrite_status s v).symm.trans h
    simp [State.irq, Status.hostWrite, hd, hf]
  · cases (csrWrite_of_idle (r := .ctrl) hidle (by simp) v).symm.trans h
    have hen : (s.writeCsr .ctrl v).ctrl.irqEn = false := hv
    rw [State.irq, hen, Bool.false_and]
  · cases (csrWrite_of_idle (r := .ctrl) hidle (by simp) v).symm.trans h
    exact irq_iff.trans (and_iff_right hv)
  · have hcmd : (s.accept v).afterWrite = .next t := (csrWrite_cmd_of_idle hidle v).symm.trans h
    obtain ⟨-, he⟩ | ⟨-, he⟩ := accept_afterWrite s v <;> rw [hcmd] at he <;> cases he
    simp [State.irq]
  · simp only [step] at h
    split at h
    next => exact absurd (blockTurn_irq hs h) (by simp [ht])
    next rest _ => exact absurd (blockTurn_irq (s := s.withInputs rest) hs h) (by simp [ht])
    next a rest hin =>
    rw [hin]
    obtain rfl | ⟨r, v, hwrite, hr⟩ := hostAct_deasserts (s := s.withInputs rest) hs h ht
    · exact .inl rfl
    have hhead : ∀ {b}, a = b → (Turn.host a :: rest).head? = some (.host b) := fun hb => by rw [hb, List.head?_cons]
    refine .inr ⟨BitVec.ofNat 12 r.offset, v, hwrite.imp hhead hhead, ?_⟩
    obtain ⟨rfl, hclears⟩ | ⟨rfl, hidle, hv⟩ | ⟨rfl, hidle⟩ := hr
    · exact .inl ⟨rfl, hclears⟩
    · exact .inr (.inl ⟨rfl, hidle, hv⟩)
    · exact .inr (.inr ⟨rfl, hidle⟩)

end Sys2Proof.Machine
end

section
/-! Proofs, family `60_exceptions`: commands of two blocks that run at once, and the memory accesses of the other blocks
(O59). -/

namespace Sys2Proof.Machine

/-- This block's running command keeps apart from another's exactly when the command it has accepted does. -/
theorem apart_runningFootprint_iff {s : State} {sets : Footprint} : Apart s.runningFootprint sets ↔
    ∀ i, s.status.busy = true → decodeWord s.cmd = .ok i → Apart (instrPlan s i).footprint sets := by
  cases hbusy : s.status.busy with
  | false => simp [runningFootprint_of_idle hbusy, apart_empty]
  | true =>
    cases hd : decodeWord s.cmd with
    | error e => simp [State.runningFootprint, hbusy, hd, apart_empty]
    | ok i => simp [runningFootprint_of_busy hbusy hd]

/-- The command that another block runs is the one listed for it, since the invariant lists no block twice (R306). -/
theorem State.Inv.peerRun_of_mem {s : State} (h : s.Inv) {q : PeerRun} (hq : q ∈ s.peers) :
    s.peerRun q.peer = some q := by
  have hdistinct : (s.peers.map PeerRun.peer).Nodup := List.pairwise_map.2 (h.peersApart.imp And.left)
  cases hf : s.peerRun q.peer with
  | none => exact absurd rfl (peerRun_eq_none.1 hf q hq)
  | some q' =>
    have hmem : q' ∈ s.peers := List.mem_of_find?_eq_some hf
    have hpeer : q'.peer = q.peer := by simpa using List.find?_some hf
    rw [List.inj_on_of_nodup_map hdistinct hmem hq hpeer]

/-! Memory accesses. -/

/-- The bytes of the running command's sets that an access of another block may not touch (R306). -/
def State.closedTo (s : State) (isWrite : Bool) : List Access :=
  if isWrite then s.runningFootprint.reads ++ s.runningFootprint.writes else s.runningFootprint.writes

section
variable {peer : Nat} {x : Access} {isWrite : Bool} {s : State} (go : State)

/-- An access to a byte that is closed to it is the fault. -/
theorem peerAccess_of_closed (hpeer : peer < Config.params.otherInstances)
    (h : ∃ a, Covers [x] a ∧ Covers (s.closedTo isWrite) a) : peerAccess peer x isWrite s go = .fault .aliasing := by
  have hmeet := anyMeet_iff.2 h
  rw [State.closedTo] at hmeet
  simp only [peerAccess, hpeer, hmeet, if_true]

/-- An access that keeps off those bytes goes on or does nothing. -/
theorem peerAccess_of_open (h : ∀ a, Covers [x] a → ¬ Covers (s.closedTo isWrite) a) :
    peerAccess peer x isWrite s go = .next s ∨ peerAccess peer x isWrite s go = .next go := by
  have hmeet : anyMeet [x] (s.closedTo isWrite) = false := anyMeet_eq_false.2 fun a ⟨hx, ha⟩ => h a hx ha
  rw [State.closedTo] at hmeet
  simp only [peerAccess, hmeet, Bool.false_eq_true, if_false]
  repeat' split
  all_goals simp

/-- Inside the sets of the command that the other block runs, such an access goes on (R68). -/
theorem peerAccess_of_inside (hpeer : peer < Config.params.otherInstances)
    (h : ∀ a, Covers [x] a → ¬ Covers (s.closedTo isWrite) a) {q : PeerRun} (hrun : s.peerRun peer = some q)
    (hin : ∀ a, Covers [x] a → Covers (if isWrite then q.sets.writes else q.sets.reads) a) :
    peerAccess peer x isWrite s go = .next go := by
  have hmeet : anyMeet [x] (s.closedTo isWrite) = false := anyMeet_eq_false.2 fun a ⟨hx, ha⟩ => h a hx ha
  rw [State.closedTo] at hmeet
  simp only [peerAccess, hpeer, hmeet, hrun, coveredBy_of_covers hin, if_true, Bool.false_eq_true, if_false]

end

/-- The sets of another block's command keep off what is closed to its accesses, by the invariant. -/
theorem State.Inv.not_closedTo {s : State} (h : s.Inv) {q : PeerRun} (hq : q ∈ s.peers) {isWrite : Bool} {a : Word}
    (ha : Covers (if isWrite then q.sets.writes else q.sets.reads) a) : ¬ Covers (s.closedTo isWrite) a := by
  obtain ⟨hwrites, hreads⟩ := clashesWithPeer_eq_false.1 h.apart q hq a
  rw [covers_append] at hwrites
  cases isWrite with
  | true =>
    intro hc
    obtain hc | hc := covers_append.1 hc
    · exact hreads ⟨hc, ha⟩
    · exact hwrites ⟨hc, .inr ha⟩
  | false => exact fun hc => hwrites ⟨hc, .inl ha⟩

/-- Settles O59: a start and an acceptance by what each can answer, and an access by whether its bytes are closed to it
and inside its command's sets. -/
theorem otherInstancesMustNotAlias : Obligations.OtherInstancesMustNotAlias := by
  refine ⟨fun s peer sets hpeer hfree hcontract => ?_, fun s v hidle hapart => ?_, fun s peer => rfl,
    fun s q hinv hq addr size v => ?_, fun s i hbusy hd peer hpeer addr size v => ?_⟩
  · obtain ⟨hno, -⟩ | ⟨-, ⟨f, hf, -⟩ | ⟨-, hstart⟩⟩ := peerStart_cases peer sets s
    · exact absurd ⟨Nat.lt_of_succ_lt_succ hpeer, peerRun_eq_none.2 hfree⟩ hno
    · cases hcontract.symm.trans hf
    obtain ⟨hclash, he⟩ | ⟨hrun, hpeers, he⟩ := hstart
    · exact ⟨fun _ => he, fun hi hq => absurd ⟨apart_runningFootprint_iff.2 hi, fun q hmem => (hq q hmem).symm⟩ hclash⟩
    · refine ⟨fun h => ?_, fun _ _ => he⟩
      obtain ⟨i, hbusy, hd, hi⟩ | ⟨q, hq, hn⟩ := h
      · exact absurd (apart_runningFootprint_iff.1 hrun i hbusy hd) hi
      · exact absurd (hpeers q hq).symm hn
  · obtain ⟨h, -⟩ | ⟨-, he⟩ := accept_afterWrite s v
    · exact absurd h hapart
    · exact (csrWrite_cmd_of_idle hidle v).trans he
  · have hexists : q.peer < Config.params.otherInstances := (hinv.peersKeepContract q hq).1
    have hrun := hinv.peerRun_of_mem hq
    exact ⟨fun hin => peerAccess_of_inside (isWrite := true) _ hexists
        (fun a hx => hinv.not_closedTo hq (isWrite := true) (hin a hx)) hrun hin,
      fun hin => peerAccess_of_inside (isWrite := false) _ hexists
        (fun a hx => hinv.not_closedTo hq (isWrite := false) (hin a hx)) hrun hin⟩
  · have hexists : peer < Config.params.otherInstances := Nat.lt_of_succ_lt_succ hpeer
    have hclosed : ∀ isWrite, s.closedTo isWrite = if isWrite then
        (instrPlan s i).footprint.reads ++ (instrPlan s i).footprint.writes else (instrPlan s i).footprint.writes :=
      fun isWrite => by rw [State.closedTo, runningFootprint_of_busy hbusy hd]
    refine ⟨fun h => peerAccess_of_closed (isWrite := true) _ hexists (by rw [hclosed]; exact h),
      fun h => peerAccess_of_closed (isWrite := false) _ hexists (by rw [hclosed]; exact h), fun h => ?_⟩
    exact or_self_iff.1 (peerAccess_of_open (isWrite := false) s (by rw [hclosed]; exact h))

end Sys2Proof.Machine
end

section
/-! Proofs, family `70_reset_and_hazards`: the state that a reset leaves (O1), and what a reset of a busy block leaves
of the command's writes (O5). -/

namespace Sys2Proof.Machine

/-! The state that a reset leaves (R330). -/

theorem isResetState_reset : IsResetState State.reset := by
  refine ⟨fun r hr => ?_, fun q h => ?_, fun i => ?_, rfl, rfl⟩
  · cases r with
    | laneHalf q h => exact absurd rfl (hr q h)
    | buf b q => cases b <;> cases q <;> rfl
    | xform q => cases q <;> rfl
    | slotState i | slotTag i => cases i <;> rfl
    | id | ctrl | status | cmd | kenU | kenCa | rectW | rectH | solidSrc | solidMsk | fillValue | scrBase | scrLen
    | cacheDecodes | cacheHits => rfl
  · cases q <;> cases h <;> exact ⟨rfl, rfl⟩
  · cases i <;> exact ⟨rfl, rfl, rfl⟩

/-- The block's own registers after a reset are those of the first state, whatever surrounds the block. -/
theorem isResetState_resetBlock (s : State) (m : Memory) : IsResetState (s.resetBlock m) := isResetState_reset

theorem hostReset_of_idle {s : State} (hidle : s.status.busy = false) :
    hostReset s = .next (s.resetBlock s.mem) := by
  simp [hostReset, hidle]

theorem hostReset_of_illegal {s : State} {e : Illegal} (hbusy : s.status.busy = true)
    (hd : decodeWord s.cmd = .error e) : hostReset s = .next (s.resetBlock s.mem) := by
  simp [hostReset, hbusy, hd]

/-- A reset abandons a command that keeps the contract, some of its writes performed (R331). -/
theorem hostReset_of_command {s : State} {i : Instr} (hbusy : s.status.busy = true) (hd : decodeWord s.cmd = .ok i)
    (hc : (instrPlan s i).footprint.contractFault s.platform = none) :
    hostReset s = .next (s.resetBlock (performed s.draws 0 (instrWrites s i) s.mem)) := by
  simp [hostReset, hbusy, hd, hc]

/-- Whatever the block was doing, a reset that answers resets it. -/
theorem exists_resetBlock_of_hostReset {s t : State} (h : hostReset s = .next t) : ∃ m, t = s.resetBlock m := by
  simp only [hostReset] at h
  repeat' split at h
  all_goals cases h <;> exact ⟨_, rfl⟩

/-- Settles O1: every reset that answers leaves a `resetBlock`, whose registers are those of the first state. -/
theorem resetLeavesTheStatedState : Obligations.ResetLeavesTheStatedState := by
  refine ⟨isResetState_reset, fun s t h => ?_, fun s hidle => ⟨_, hostReset_of_idle hidle, rfl⟩⟩
  obtain ⟨m, rfl⟩ := exists_resetBlock_of_hostReset h
  exact isResetState_resetBlock s m

/-! The sizes of a command's writes (R61, R163). -/

/-- Every write that the bus has logged is of a word at most. -/
def Bus.AtMostWords (b : Bus) : Prop := ∀ st ∈ b.log, st.size ≤ 4

theorem Bus.atMostWords_start (m : Memory) : (Bus.start m).AtMostWords := nofun

theorem Bus.AtMostWords.store {b : Bus} (h : b.AtMostWords) (a : Word) {n : Nat} (v : Nat) (hn : n ≤ 4) :
    (b.store a n v).AtMostWords := List.forall_mem_cons.2 ⟨hn, h⟩

theorem storePixel_atMostWords (f : Fmt) {b : Bus} (a : Word) (w : Wide) (h : b.AtMostWords) :
    (storePixel f b a w).AtMostWords := by
  cases f with
  | argb32 => exact h.store a _ (by decide)
  | rgb565 => exact h.store a _ (by decide)
  | a8 | argb32Npr => exact h

theorem decode_atMostWords (p : Config.Params) (k : KFields) (c : Conf) {e : Engine} (i : SlotId) (y : Nat)
    (h : e.bus.AtMostWords) : (e.decode p k c i y).bus.AtMostWords := by
  simp only [Engine.decode]
  split
  · exact foldl_keeps (P := Bus.AtMostWords) h fun b hb x _ => hb.store _ _ (by decide)
  · exact h

theorem acquire?_atMostWords (p : Config.Params) (k : KFields) (c : Conf) {e : Engine} (y pending : Option Nat)
    (h : e.bus.AtMostWords) : (e.acquire? p k c y pending).2.bus.AtMostWords := by
  cases y with
  | none => exact h
  | some y =>
    cases hhit : e.cache.hitSlot y with
    | some i => simpa only [Engine.acquire?, Engine.acquire, hhit] using h
    | none => simpa only [Engine.acquire?, Engine.acquire, hhit] using decode_atMostWords p k c _ y h

theorem compositeRow_atMostWords (p : Config.Params) (op : Op) (k : KFields) (c : Conf) {e : Engine} (j : Nat)
    (h : e.bus.AtMostWords) : (Engine.compositeRow p op k c e j).bus.AtMostWords := by
  have hpixels : ∀ (rows : RowSlots) (e : Engine), e.bus.AtMostWords →
      ((List.range c.rectW.toNat).foldl (Engine.compositePixel p op k c rows j) e).bus.AtMostWords := fun rows e h =>
    foldl_keeps (P := fun e : Engine => e.bus.AtMostWords) h fun e h i _ => storePixel_atMostWords _ _ _ h
  simp only [Engine.compositeRow]
  split
  · exact hpixels _ _ (acquire?_atMostWords p k c _ _ (acquire?_atMostWords p k c _ _ h))
  · exact hpixels _ _ h

theorem compositeRun_atMostWords (p : Config.Params) (op : Op) (k : KFields) (c : Conf) (m : Memory) (cache : Cache) :
    (compositeRun p op k c m cache).bus.AtMostWords :=
  foldl_keeps (P := fun e : Engine => e.bus.AtMostWords) (f := Engine.compositeRow p op k c) (Bus.atMostWords_start m)
    fun _ h j _ => compositeRow_atMostWords p op k c j h

theorem bytes_le_of_depthSupported {bpp : Nat} (hd : depthSupported bpp = true) : bpp / 8 ≤ 4 := by
  have := depthSupported_iff.1 hd
  omega

theorem storesAt_atMostWords {c : Conf} {p : BufDesc} {n : Nat} (hn : n ≤ 4) (v : Memory → Nat × Nat → Nat)
    (m : Memory) :
    (c.pixels.foldl (fun b q => b.store (p.rectAddr n q.1 q.2) n (v b.mem q)) (Bus.start m)).AtMostWords :=
  foldl_keeps (P := Bus.AtMostWords) (Bus.atMostWords_start m) fun _ h _ _ => h.store _ _ hn

theorem fillRun_atMostWords {bpp : Nat} (hd : depthSupported bpp = true) (c : Conf) (m : Memory) :
    (fillRun bpp c m).AtMostWords :=
  storesAt_atMostWords (bytes_le_of_depthSupported hd) (fun _ _ => fillStored bpp c) m

theorem blitRun_atMostWords {bpp : Nat} (hd : depthSupported bpp = true) (c : Conf) (m : Memory) :
    (blitRun (bpp / 8) c m).AtMostWords :=
  storesAt_atMostWords (bytes_le_of_depthSupported hd)
    (fun m q => m.read (c.src.rectAddr (bpp / 8) q.1 q.2) (bpp / 8)) m

/-! What a command writes, whatever the command. -/

/-- The writes of a command that goes by its plan: those of its run, if it runs. -/
def Plan.writesOf (plan : Plan) (ran : List StoreOp) : List StoreOp :=
  match plan with
  | .run _ => ran
  | .fail _ => []
  | .noAccess => []

theorem instrWrites_eq (s : State) (i : Instr) : instrWrites s i = (instrPlan s i).writesOf (runWrites s i) := by
  unfold instrWrites
  cases instrPlan s i <;> rfl

/-- The outcome, if it is a next state, has this memory. -/
def LeavesMem (m : Memory) (o : Host.Outcome State Fault Refusal) : Prop := ∀ u, o = .next u → u.mem = m

theorem LeavesMem.next {m : Memory} {u : State} (h : u.mem = m) : LeavesMem m (.next u) := by
  rintro _ ⟨⟩
  exact h

theorem LeavesMem.fault (m : Memory) (f : Fault) : LeavesMem m (.fault f) := by
  intro u h
  cases h

theorem withLane_leavesMem {s : State} {m : Memory} (r : LReg) {k : Wide → Host.Outcome State Fault Refusal}
    (hk : ∀ v, LeavesMem m (k v)) : LeavesMem m (s.withLane r k) := fun u h => hk _ u (withLane_next h).2

theorem withHalf_leavesMem {s : State} {m : Memory} (r : LReg) (half : WHalf)
    {k : Word → Host.Outcome State Fault Refusal} (hk : ∀ v, LeavesMem m (k v)) :
    LeavesMem m (s.withHalf r half k) := fun u h => hk _ u (withHalf_next h).2

theorem finishLane_leavesMem (s : State) (rd : LReg) (r : Except ErrCode Wide) :
    LeavesMem s.mem (s.finishLane rd r) := by
  intro u h
  obtain ⟨v, -, rfl⟩ | ⟨c, -, rfl⟩ := finishLane_next h <;> rfl

/-- What a command's writes are to its write set, and to the memory that the command leaves when it ends (R68). -/
structure CommandWrites (s : State) (plan : Plan) (ran : List StoreOp) (o : Host.Outcome State Fault Refusal) :
    Prop where
  inside : ∀ st ∈ plan.writesOf ran, ∀ a, Access.covers { addr := st.addr, size := st.size } a = true →
    Covers plan.footprint.writes a
  atMostWords : ∀ st ∈ plan.writesOf ran, st.size ≤ 4
  leaves : LeavesMem ((plan.writesOf ran).foldl Memory.apply s.mem) o

/-- A command whose plan is not to run writes nothing. -/
theorem CommandWrites.of_not_run {s : State} {plan : Plan} {ran : List StoreOp}
    {o : Host.Outcome State Fault Refusal} (hplan : plan.writesOf ran = []) (h : LeavesMem s.mem o) :
    CommandWrites s plan ran o where
  inside := by rw [hplan]; exact nofun
  atMostWords := by rw [hplan]; exact nofun
  leaves := by rw [hplan]; exact h

/-- A command that runs writes what its bus has logged. -/
theorem CommandWrites.of_run {s : State} {fp : Footprint} {b : Bus} {o : Host.Outcome State Fault Refusal}
    (hlog : Logged s.mem fp.writes b) (hsize : b.AtMostWords) (h : LeavesMem b.mem o) :
    CommandWrites s (.run fp) b.log.reverse o where
  inside st hst := hlog.inside st (List.mem_reverse.1 hst)
  atMostWords st hst := hsize st (List.mem_reverse.1 hst)
  leaves u hu := by
    rw [h u hu, hlog.replay, Plan.writesOf, List.foldl_reverse]

theorem runPlan_commandWrites (s : State) {plan : Plan} {run : Memory → Bus}
    (hrun : ∀ fp, plan = .run fp → Logged s.mem fp.writes (run s.mem) ∧ (run s.mem).AtMostWords) :
    CommandWrites s plan (run s.mem).log.reverse (s.runPlan plan run) := by
  obtain ⟨c, rfl, h⟩ | ⟨rfl, h⟩ | ⟨fp, f, rfl, -, h⟩ | ⟨fp, rfl, -, h⟩ := runPlan_cases s plan run <;> rw [h]
  · exact .of_not_run rfl (.next rfl)
  · exact .of_not_run rfl (.next rfl)
  · exact .of_run (hrun fp rfl).1 (hrun fp rfl).2 (.fault _ f)
  · exact .of_run (hrun fp rfl).1 (hrun fp rfl).2 (.next rfl)

theorem fillPlan_eq_run {bpp : Nat} {c : Conf} {fp : Footprint} (h : fillPlan bpp c = .run fp) :
    fp = fillFootprint bpp c ∧ depthSupported bpp = true := by
  simp only [fillPlan] at h
  split at h
  · cases h
  next hd =>
  repeat' split at h
  all_goals cases h
  exact ⟨rfl, by simpa using hd⟩

theorem blitPlan_eq_run {sbpp dbpp : Nat} {c : Conf} {fp : Footprint} (h : blitPlan sbpp dbpp c = .run fp) :
    fp = blitFootprint (sbpp / 8) c ∧ depthSupported sbpp = true := by
  simp only [blitPlan] at h
  split at h
  · cases h
  next hd =>
  repeat' split at h
  all_goals cases h
  simp only [Bool.not_eq_true', Bool.not_eq_false, Bool.and_eq_true] at hd
  exact ⟨rfl, hd.1⟩

theorem compositePlan_eq_run {p : Config.Params} {op : Op} {k : KFields} {ctrl : Ctrl} {c : Conf} {fp : Footprint}
    (h : compositePlan p op k ctrl c = .run fp) : fp = compositeFootprint p op k c := by
  simp only [compositePlan] at h
  repeat' split at h
  all_goals cases h
  rfl

theorem compositeWith_commandWrites (p : Config.Params) (op : Op) (k : KFields) (s : State) :
    CommandWrites s (compositePlan p op k s.ctrl s.conf) (compositeRun p op k s.conf s.mem s.cache).bus.log.reverse
      (compositeWith p op k s) := by
  have hlog := compositeRun_logged p op k s.conf s.mem s.cache
  have hsize := compositeRun_atMostWords p op k s.conf s.mem s.cache
  obtain ⟨c, hp, h⟩ | ⟨hp, h⟩ | ⟨fp, f, hp, -, h⟩ | ⟨fp, hp, -, h⟩ := compositeWith_cases p op k s <;> rw [hp, h]
  · exact .of_not_run rfl (.next rfl)
  · exact .of_not_run rfl (.next rfl)
  · obtain rfl := compositePlan_eq_run hp
    exact .of_run hlog hsize (.fault _ f)
  · obtain rfl := compositePlan_eq_run hp
    exact .of_run hlog hsize (.next rfl)

/-- A lane instruction and NOP write nothing; a memory command writes nothing or what its run has logged (R60, R68). -/
theorem exec_commandWrites (i : Instr) (s : State) : CommandWrites s (instrPlan s i) (runWrites s i) (exec i s) := by
  cases i with
  | nop => exact .of_not_run rfl (.next rfl)
  | lmul rd ra rb | ladds rd ra rb | lpack565 rd ra rb idx | linterp rd ra rb distx disty =>
    exact .of_not_run rfl (withLane_leavesMem ra fun _ => withLane_leavesMem rb fun _ => finishLane_leavesMem s rd _)
  | lmuladd rd ra rb rc re =>
    exact .of_not_run rfl (withLane_leavesMem ra fun _ => withLane_leavesMem rb fun _ => withLane_leavesMem rc fun _ =>
      withLane_leavesMem re fun _ => finishLane_leavesMem s rd _)
  | lneg rd ra | lbca rd ra | lbcl rd ra | lswaprb rd ra | lpack32 rd ra | lunpk565 rd ra idx =>
    exact .of_not_run rfl (withLane_leavesMem ra fun _ => finishLane_leavesMem s rd _)
  | lunpk32 rd ra half => exact .of_not_run rfl (withHalf_leavesMem ra half fun _ => finishLane_leavesMem s rd _)
  | compositeSrc k | compositeOver k | compositeOverReverse k | compositeIn k | compositeInReverse k | compositeOut k
  | compositeOutReverse k | compositeAtop k | compositeAtopReverse k | compositeXor k | compositeAdd k
  | compositeSaturate k => exact compositeWith_commandWrites Config.params _ k s
  | fill bpp =>
    refine runPlan_commandWrites s fun fp hp => ?_
    obtain ⟨rfl, hd⟩ := fillPlan_eq_run hp
    exact ⟨fillRun_logged bpp s.conf s.mem, fillRun_atMostWords hd s.conf s.mem⟩
  | blit sbpp dbpp =>
    refine runPlan_commandWrites s fun fp hp => ?_
    obtain ⟨rfl, hd⟩ := blitPlan_eq_run hp
    exact ⟨blitRun_logged (sbpp / 8) s.conf s.mem, blitRun_atMostWords hd s.conf s.mem⟩

/-! Memory after some of the writes. -/

/-- Writes to bytes of a list leave every byte outside it as it was. -/
theorem sameOutside_of_writes {l : List Access} {m : Memory} (hm : m.wf) {writes : List StoreOp}
    (h : ∀ st ∈ writes, ∀ a, Access.covers { addr := st.addr, size := st.size } a = true → Covers l a) :
    SameOutside l (writes.foldl Memory.apply m) m :=
  Logged.same (b := { mem := writes.foldl Memory.apply m, log := writes.reverse }) hm
    ⟨by rw [List.foldr_reverse], fun st hst => h st (List.mem_reverse.1 hst)⟩

/-- A pixel whose bytes no write shares but those to the pixel itself holds its old value, or the value of one of these,
in full. -/
theorem read_of_writes {m : Memory} (hm : m.wf) {addr : Word} {n : Nat} (hn : n ≤ 2 ^ 32) {writes : List StoreOp}
    (h : ∀ st ∈ writes, (∃ a, Access.covers { addr, size := n } a = true ∧
      Access.covers { addr := st.addr, size := st.size } a = true) → st.addr = addr ∧ st.size = n) :
    (writes.foldl Memory.apply m).read addr n = m.read addr n ∨ ∃ st ∈ writes, st.addr = addr ∧ st.size = n ∧
      (writes.foldl Memory.apply m).read addr n = st.value % 256 ^ n := by
  refine (foldl_keeps (P := fun m' : Memory => m'.wf ∧ (m'.read addr n = m.read addr n ∨
    ∃ st ∈ writes, st.addr = addr ∧ st.size = n ∧ m'.read addr n = st.value % 256 ^ n)) ⟨hm, .inl rfl⟩
    fun m' ⟨hm', hold⟩ st hst => ⟨Memory.wf_write hm' _ _ _, ?_⟩).2
  by_cases hsame : st.addr = addr ∧ st.size = n
  · obtain ⟨rfl, rfl⟩ := hsame
    exact .inr ⟨st, hst, rfl, rfl, Memory.read_write hm' _ _ _ hn⟩
  · have hkept : (m'.write st.addr st.size st.value).read addr n = m'.read addr n :=
      Memory.read_congr addr n hn fun x hx =>
        readByte_write_of_not_covers hm' (x := { addr := st.addr, size := st.size }) st.value
          (Bool.eq_false_of_not_eq_true fun hcov => hsame (h st hst ⟨x, decide_eq_true hx, hcov⟩))
    rwa [hkept]

theorem covers_singleton {x : Access} {a : Word} : Covers [x] a ↔ x.covers a = true := by simp [Covers]

/-- Settles O5: what a reset performs is a sublist of the command's writes, and what those writes are holds of every
sublist of them. -/
theorem resetWhileBusyTouchesOnlyTheWriteSet : Obligations.ResetWhileBusyTouchesOnlyTheWriteSet := by
  refine ⟨fun s i hinv hbusy hd hc => ?_, fun s e hbusy hd =>
    ⟨_, hostReset_of_illegal hbusy hd, isResetState_resetBlock s _, rfl⟩⟩
  obtain ⟨hinside, hwords, hleaves⟩ := exec_commandWrites i s
  rw [← instrWrites_eq] at hinside hwords hleaves
  obtain ⟨l, hsub, hl⟩ := performed_sublist s.draws 0 (instrWrites s i) s.mem
  have hreset := hostReset_of_command hbusy hd hc
  rw [hl] at hreset
  simp only [covers_singleton]
  refine ⟨_, hreset, isResetState_resetBlock s _, ?_, ⟨l, hsub, rfl⟩, hinside, hleaves, fun st hst hpixel => ?_⟩
  · exact sameOutside_of_writes hinv.memory fun st hst => hinside st (hsub.subset hst)
  · have hsize : st.size ≤ 2 ^ 32 := Nat.le_trans (hwords st hst) (by decide)
    have hread := read_of_writes hinv.memory hsize fun st' hst' => hpixel st' (hsub.subset hst')
    exact hread.imp_right fun ⟨st', hst', hvalue⟩ => ⟨st', hsub.subset hst', hvalue⟩

end Sys2Proof.Machine
end
